-- ==== Sys2Proof/Word.lean ====
section
/-! DEFINITION. The widths of the machine: data words, control-store cells, addresses, register indices and task slots.
Bit 0 is the least significant bit of every value (R6). -/

namespace Sys2Proof

/-- A 16-bit data word (R5 `WORD`, R7). -/
abbrev Word := BitVec 16

/-- Half a data word: the unit in which the model stores memory (log 5). -/
abbrev Byte := BitVec 8

/-- A 32-bit control-store cell, the microinstruction word (R5 `MIW`, R100). -/
abbrev MicroWord := BitVec 32

/-- A 10-bit control-store address: MPC, NEXT and the branch bits (R33, R109, R225). -/
abbrev Addr := BitVec 10

/-- A 5-bit register-select index (R102). -/
abbrev Reg := BitVec 5

/-- One of the sixteen task slots; its number is its priority (R10, R33). -/
abbrev Slot := Fin 16

/-- `trunc16` of R7: the integer modulo 65536. -/
def trunc16 (n : Int) : Word := BitVec.ofInt 16 n

end Sys2Proof
end

