-- ==== Sys2Proof/Machine/Flags.lean ====
section
/-! DEFINITION. The ALU's result and carry-out (R140, R141, R157): the exact integer first, then the 16-bit result and
the carry from it. There is no zero, sign or overflow flag in the ALU (R157). -/

namespace Sys2Proof.Machine

/-- `(result, carryOut)` of R140. -/
structure AluOut where
  result : Word
  carry : Bool
  deriving DecidableEq, Repr

/-- `int(v)` of R7: the unsigned value as an integer. -/
def intOf (v : Word) : Int :=
  (v.toNat : Int)

/-- A pass-through or bitwise function: carry 0 (R141). -/
def aluLogic (v : Word) : AluOut :=
  { result := v, carry := false }

/-- An addition with exact sum `n`: carry exactly when it exceeds 65535 (R141). -/
def aluSum (n : Int) : AluOut :=
  { result := trunc16 n, carry := decide (65535 < n) }

/-- A subtraction with exact difference `n`: the inverted convention, carry exactly when it is not negative (R141). -/
def aluDifference (n : Int) : AluOut :=
  { result := trunc16 n, carry := decide (0 ≤ n) }

end Sys2Proof.Machine
end

