-- ==== Sys2Proof/Syntax.lean ====
section
/-! DEFINITION. The microinstruction set: the codes of the four code fields (R116 to R119), the decoded word of eight
fields (R101), and `Instr`, one constructor for each row of spec/opcode_table.json.

A word carries one row of each of the four code fields, and LT and LL besides (R125). A constructor of `Instr` is a word
READ UNDER ONE OF ITS ROWS; its operands are the other seven fields of the word. `Instr.word` gives back the eight
fields, whatever row the word was read under (log 1). -/

namespace Sys2Proof

/-- ALU functions, field ALUF (R116). The constructors stand in the order of their code numbers. -/
inductive AluFn where
  | bus | t | busOrT | busAndT | busXorT | busPlus1 | busMinus1 | busPlusT
  | busMinusT | busMinusTMinus1 | busPlusTPlus1 | busPlusSkip | busDotT | busAndNotT | undef14 | undef15
  deriving DecidableEq, Repr

/-- Bus sources, field BS (R117). The constructors stand in the order of their code numbers. -/
inductive BusSource where
  | readR | loadR | noSource | taskSpecific1 | taskSpecific2 | readMD | readMouse | readDisp
  deriving DecidableEq, Repr

/-- Special functions 1, field F1 (R118). The constructors stand in the order of their code numbers. -/
inductive F1Code where
  | nop | loadMAR | task | block | llsh1 | lrsh1 | llcy8 | constant
  | ts8 | ts9 | ts10 | ts11 | ts12 | ts13 | ts14 | ts15
  deriving DecidableEq, Repr

/-- Special functions 2, field F2 (R119). The constructors stand in the order of their code numbers. -/
inductive F2Code where
  | nop | busZero | shNeg | shZero | bus | aluCy | storeMD | constant
  | ts8 | ts9 | ts10 | ts11 | ts12 | ts13 | ts14 | ts15
  deriving DecidableEq, Repr

/-- The eight fields of a microinstruction word (R101). -/
structure MicroInstr where
  /-- RSEL, register select (R102). -/
  rsel : Reg
  /-- ALUF, ALU function (R103). -/
  aluf : AluFn
  /-- BS, bus source (R104). -/
  bs : BusSource
  /-- F1, special function 1 (R105). -/
  f1 : F1Code
  /-- F2, special function 2 (R106). -/
  f2 : F2Code
  /-- LT, load T (R107). -/
  lt : Bool
  /-- LL, load L (R108). -/
  ll : Bool
  /-- NEXT, the successor's address (R109). -/
  next : Addr
  deriving DecidableEq, Repr

/-- The operands of a word read under a row of ALUF: its other seven fields. -/
structure AlufOps where
  rsel : Reg
  bs : BusSource
  f1 : F1Code
  f2 : F2Code
  lt : Bool
  ll : Bool
  next : Addr
  deriving DecidableEq, Repr

/-- The operands of a word read under a row of BS. -/
structure BsOps where
  rsel : Reg
  aluf : AluFn
  f1 : F1Code
  f2 : F2Code
  lt : Bool
  ll : Bool
  next : Addr
  deriving DecidableEq, Repr

/-- The operands of a word read under a row of F1. -/
structure F1Ops where
  rsel : Reg
  aluf : AluFn
  bs : BusSource
  f2 : F2Code
  lt : Bool
  ll : Bool
  next : Addr
  deriving DecidableEq, Repr

/-- The operands of a word read under a row of F2. -/
structure F2Ops where
  rsel : Reg
  aluf : AluFn
  bs : BusSource
  f1 : F1Code
  lt : Bool
  ll : Bool
  next : Addr
  deriving DecidableEq, Repr

/-- The operands of a word read under the row LT (so LT = 1). -/
structure LtOps where
  rsel : Reg
  aluf : AluFn
  bs : BusSource
  f1 : F1Code
  f2 : F2Code
  ll : Bool
  next : Addr
  deriving DecidableEq, Repr

/-- The operands of a word read under the row LL (so LL = 1). -/
structure LlOps where
  rsel : Reg
  aluf : AluFn
  bs : BusSource
  f1 : F1Code
  f2 : F2Code
  lt : Bool
  next : Addr
  deriving DecidableEq, Repr

/-- The word with the given ALU function and these operands. -/
def AlufOps.word (o : AlufOps) (a : AluFn) : MicroInstr :=
  { rsel := o.rsel, aluf := a, bs := o.bs, f1 := o.f1, f2 := o.f2, lt := o.lt, ll := o.ll, next := o.next }

/-- The word with the given bus source and these operands. -/
def BsOps.word (o : BsOps) (b : BusSource) : MicroInstr :=
  { rsel := o.rsel, aluf := o.aluf, bs := b, f1 := o.f1, f2 := o.f2, lt := o.lt, ll := o.ll, next := o.next }

/-- The word with the given special function 1 and these operands. -/
def F1Ops.word (o : F1Ops) (f : F1Code) : MicroInstr :=
  { rsel := o.rsel, aluf := o.aluf, bs := o.bs, f1 := f, f2 := o.f2, lt := o.lt, ll := o.ll, next := o.next }

/-- The word with the given special function 2 and these operands. -/
def F2Ops.word (o : F2Ops) (f : F2Code) : MicroInstr :=
  { rsel := o.rsel, aluf := o.aluf, bs := o.bs, f1 := o.f1, f2 := f, lt := o.lt, ll := o.ll, next := o.next }

/-- The word with LT = 1 and these operands. -/
def LtOps.word (o : LtOps) : MicroInstr :=
  { rsel := o.rsel, aluf := o.aluf, bs := o.bs, f1 := o.f1, f2 := o.f2, lt := true, ll := o.ll, next := o.next }

/-- The word with LL = 1 and these operands. -/
def LlOps.word (o : LlOps) : MicroInstr :=
  { rsel := o.rsel, aluf := o.aluf, bs := o.bs, f1 := o.f1, f2 := o.f2, lt := o.lt, ll := true, next := o.next }

/-- The word's fields but ALUF. -/
def MicroInstr.alufOps (w : MicroInstr) : AlufOps :=
  { rsel := w.rsel, bs := w.bs, f1 := w.f1, f2 := w.f2, lt := w.lt, ll := w.ll, next := w.next }

/-- The word's fields but BS. -/
def MicroInstr.bsOps (w : MicroInstr) : BsOps :=
  { rsel := w.rsel, aluf := w.aluf, f1 := w.f1, f2 := w.f2, lt := w.lt, ll := w.ll, next := w.next }

/-- The word's fields but F1. -/
def MicroInstr.f1Ops (w : MicroInstr) : F1Ops :=
  { rsel := w.rsel, aluf := w.aluf, bs := w.bs, f2 := w.f2, lt := w.lt, ll := w.ll, next := w.next }

/-- The word's fields but F2. -/
def MicroInstr.f2Ops (w : MicroInstr) : F2Ops :=
  { rsel := w.rsel, aluf := w.aluf, bs := w.bs, f1 := w.f1, lt := w.lt, ll := w.ll, next := w.next }

/-- The word's fields but LT. -/
def MicroInstr.ltOps (w : MicroInstr) : LtOps :=
  { rsel := w.rsel, aluf := w.aluf, bs := w.bs, f1 := w.f1, f2 := w.f2, ll := w.ll, next := w.next }

/-- The word's fields but LL. -/
def MicroInstr.llOps (w : MicroInstr) : LlOps :=
  { rsel := w.rsel, aluf := w.aluf, bs := w.bs, f1 := w.f1, f2 := w.f2, lt := w.lt, next := w.next }

/-- A microinstruction, read under one row of spec/opcode_table.json. -/
inductive Instr where
  /-- ALUF = `BUS` (R142). -/
  | alufBus (o : AlufOps)
  /-- ALUF = `T` (R143). -/
  | alufT (o : AlufOps)
  /-- ALUF = `BUS OR T` (R144). -/
  | alufBusOrT (o : AlufOps)
  /-- ALUF = `BUS AND T` (R145). -/
  | alufBusAndT (o : AlufOps)
  /-- ALUF = `BUS XOR T` (R146). -/
  | alufBusXorT (o : AlufOps)
  /-- ALUF = `BUS+1` (R147). -/
  | alufBusPlus1 (o : AlufOps)
  /-- ALUF = `BUS-1` (R148). -/
  | alufBusMinus1 (o : AlufOps)
  /-- ALUF = `BUS+T` (R149). -/
  | alufBusPlusT (o : AlufOps)
  /-- ALUF = `BUS-T` (R150). -/
  | alufBusMinusT (o : AlufOps)
  /-- ALUF = `BUS-T-1` (R151). -/
  | alufBusMinusTMinus1 (o : AlufOps)
  /-- ALUF = `BUS+T+1` (R152). -/
  | alufBusPlusTPlus1 (o : AlufOps)
  /-- ALUF = `BUS+SKIP` (R153). -/
  | alufBusPlusSkip (o : AlufOps)
  /-- ALUF = `BUS.T` (R154). -/
  | alufBusDotT (o : AlufOps)
  /-- ALUF = `BUS AND NOT T` (R155). -/
  | alufBusAndNotT (o : AlufOps)
  /-- ALUF = `undefined code 14` (R156). -/
  | alufUndef14 (o : AlufOps)
  /-- ALUF = `undefined code 15` (R156). -/
  | alufUndef15 (o : AlufOps)
  /-- BS = `ReadR` (R191). -/
  | bsReadR (o : BsOps)
  /-- BS = `LoadR` (R192). -/
  | bsLoadR (o : BsOps)
  /-- BS = `None` (R193). -/
  | bsNoSource (o : BsOps)
  /-- BS = `TaskSpecific1` (R194). -/
  | bsTaskSpecific1 (o : BsOps)
  /-- BS = `TaskSpecific2` (R195). -/
  | bsTaskSpecific2 (o : BsOps)
  /-- BS = `ReadMD` (R196). -/
  | bsReadMD (o : BsOps)
  /-- BS = `ReadMouse` (R197). -/
  | bsReadMouse (o : BsOps)
  /-- BS = `ReadDisp` (R198). -/
  | bsReadDisp (o : BsOps)
  /-- F1 = `NOP` (R210). -/
  | f1Nop (o : F1Ops)
  /-- F1 = `LoadMAR` (R211). -/
  | f1LoadMAR (o : F1Ops)
  /-- F1 = `TASK` (R212). -/
  | f1Task (o : F1Ops)
  /-- F1 = `BLOCK` (R213). -/
  | f1Block (o : F1Ops)
  /-- F1 = `LLSH1` (R214). -/
  | f1Llsh1 (o : F1Ops)
  /-- F1 = `LRSH1` (R215). -/
  | f1Lrsh1 (o : F1Ops)
  /-- F1 = `LLCY8` (R216). -/
  | f1Llcy8 (o : F1Ops)
  /-- F1 = `CONSTANT` (R217). -/
  | f1Constant (o : F1Ops)
  /-- F1 = `F1.TS8` (R218). -/
  | f1Ts8 (o : F1Ops)
  /-- F1 = `F1.TS9` (R218). -/
  | f1Ts9 (o : F1Ops)
  /-- F1 = `F1.TS10` (R218). -/
  | f1Ts10 (o : F1Ops)
  /-- F1 = `F1.TS11` (R218). -/
  | f1Ts11 (o : F1Ops)
  /-- F1 = `F1.TS12` (R218). -/
  | f1Ts12 (o : F1Ops)
  /-- F1 = `F1.TS13` (R218). -/
  | f1Ts13 (o : F1Ops)
  /-- F1 = `F1.TS14` (R218). -/
  | f1Ts14 (o : F1Ops)
  /-- F1 = `F1.TS15` (R218). -/
  | f1Ts15 (o : F1Ops)
  /-- F2 = `NOP` (R220). -/
  | f2Nop (o : F2Ops)
  /-- F2 = `BUS=0` (R221). -/
  | f2BusZero (o : F2Ops)
  /-- F2 = `SH<0` (R222). -/
  | f2ShNeg (o : F2Ops)
  /-- F2 = `SH=0` (R223). -/
  | f2ShZero (o : F2Ops)
  /-- F2 = `BUS` (R224). -/
  | f2Bus (o : F2Ops)
  /-- F2 = `ALUCY` (R226). -/
  | f2AluCy (o : F2Ops)
  /-- F2 = `StoreMD` (R227). -/
  | f2StoreMD (o : F2Ops)
  /-- F2 = `CONSTANT` (R228). -/
  | f2Constant (o : F2Ops)
  /-- F2 = `F2.TS8` (R229). -/
  | f2Ts8 (o : F2Ops)
  /-- F2 = `F2.TS9` (R229). -/
  | f2Ts9 (o : F2Ops)
  /-- F2 = `F2.TS10` (R229). -/
  | f2Ts10 (o : F2Ops)
  /-- F2 = `F2.TS11` (R229). -/
  | f2Ts11 (o : F2Ops)
  /-- F2 = `F2.TS12` (R229). -/
  | f2Ts12 (o : F2Ops)
  /-- F2 = `F2.TS13` (R229). -/
  | f2Ts13 (o : F2Ops)
  /-- F2 = `F2.TS14` (R229). -/
  | f2Ts14 (o : F2Ops)
  /-- F2 = `F2.TS15` (R229). -/
  | f2Ts15 (o : F2Ops)
  /-- LT = 1, load T (R314). -/
  | lt (o : LtOps)
  /-- LL = 1, load L (R315). -/
  | ll (o : LlOps)
  deriving DecidableEq, Repr

/-- The eight fields of the word, whatever row it is read under. -/
def Instr.word : Instr → MicroInstr
  | .alufBus o => o.word .bus
  | .alufT o => o.word .t
  | .alufBusOrT o => o.word .busOrT
  | .alufBusAndT o => o.word .busAndT
  | .alufBusXorT o => o.word .busXorT
  | .alufBusPlus1 o => o.word .busPlus1
  | .alufBusMinus1 o => o.word .busMinus1
  | .alufBusPlusT o => o.word .busPlusT
  | .alufBusMinusT o => o.word .busMinusT
  | .alufBusMinusTMinus1 o => o.word .busMinusTMinus1
  | .alufBusPlusTPlus1 o => o.word .busPlusTPlus1
  | .alufBusPlusSkip o => o.word .busPlusSkip
  | .alufBusDotT o => o.word .busDotT
  | .alufBusAndNotT o => o.word .busAndNotT
  | .alufUndef14 o => o.word .undef14
  | .alufUndef15 o => o.word .undef15
  | .bsReadR o => o.word .readR
  | .bsLoadR o => o.word .loadR
  | .bsNoSource o => o.word .noSource
  | .bsTaskSpecific1 o => o.word .taskSpecific1
  | .bsTaskSpecific2 o => o.word .taskSpecific2
  | .bsReadMD o => o.word .readMD
  | .bsReadMouse o => o.word .readMouse
  | .bsReadDisp o => o.word .readDisp
  | .f1Nop o => o.word .nop
  | .f1LoadMAR o => o.word .loadMAR
  | .f1Task o => o.word .task
  | .f1Block o => o.word .block
  | .f1Llsh1 o => o.word .llsh1
  | .f1Lrsh1 o => o.word .lrsh1
  | .f1Llcy8 o => o.word .llcy8
  | .f1Constant o => o.word .constant
  | .f1Ts8 o => o.word .ts8
  | .f1Ts9 o => o.word .ts9
  | .f1Ts10 o => o.word .ts10
  | .f1Ts11 o => o.word .ts11
  | .f1Ts12 o => o.word .ts12
  | .f1Ts13 o => o.word .ts13
  | .f1Ts14 o => o.word .ts14
  | .f1Ts15 o => o.word .ts15
  | .f2Nop o => o.word .nop
  | .f2BusZero o => o.word .busZero
  | .f2ShNeg o => o.word .shNeg
  | .f2ShZero o => o.word .shZero
  | .f2Bus o => o.word .bus
  | .f2AluCy o => o.word .aluCy
  | .f2StoreMD o => o.word .storeMD
  | .f2Constant o => o.word .constant
  | .f2Ts8 o => o.word .ts8
  | .f2Ts9 o => o.word .ts9
  | .f2Ts10 o => o.word .ts10
  | .f2Ts11 o => o.word .ts11
  | .f2Ts12 o => o.word .ts12
  | .f2Ts13 o => o.word .ts13
  | .f2Ts14 o => o.word .ts14
  | .f2Ts15 o => o.word .ts15
  | .lt o => o.word
  | .ll o => o.word

end Sys2Proof
end

