-- ==== Sys2Proof/Machine/Alu.lean ====
section
/-! DEFINITION. The ALU (R140 to R156), one function for each code of ALUF. `none` is an undefined function (R156). -/

namespace Sys2Proof.Machine

/-- ALUF = 0, `BUS` (R142). -/
def aluBus (bus _t : Word) (_skip : Bool) : Option AluOut := some (aluLogic bus)

/-- ALUF = 1, `T` (R143). -/
def aluT (_bus t : Word) (_skip : Bool) : Option AluOut := some (aluLogic t)

/-- ALUF = 2, `BUS OR T` (R144). -/
def aluBusOrT (bus t : Word) (_skip : Bool) : Option AluOut := some (aluLogic (bus ||| t))

/-- ALUF = 3, `BUS AND T` (R145). -/
def aluBusAndT (bus t : Word) (_skip : Bool) : Option AluOut := some (aluLogic (bus &&& t))

/-- ALUF = 4, `BUS XOR T` (R146). -/
def aluBusXorT (bus t : Word) (_skip : Bool) : Option AluOut := some (aluLogic (bus ^^^ t))

/-- ALUF = 5, `BUS+1` (R147). -/
def aluBusPlus1 (bus _t : Word) (_skip : Bool) : Option AluOut := some (aluSum (intOf bus + 1))

/-- ALUF = 6, `BUS-1` (R148). -/
def aluBusMinus1 (bus _t : Word) (_skip : Bool) : Option AluOut := some (aluDifference (intOf bus - 1))

/-- ALUF = 7, `BUS+T` (R149). -/
def aluBusPlusT (bus t : Word) (_skip : Bool) : Option AluOut := some (aluSum (intOf bus + intOf t))

/-- ALUF = 8, `BUS-T` (R150). -/
def aluBusMinusT (bus t : Word) (_skip : Bool) : Option AluOut := some (aluDifference (intOf bus - intOf t))

/-- ALUF = 9, `BUS-T-1` (R151). -/
def aluBusMinusTMinus1 (bus t : Word) (_skip : Bool) : Option AluOut := some (aluDifference (intOf bus - intOf t - 1))

/-- ALUF = 10, `BUS+T+1` (R152). -/
def aluBusPlusTPlus1 (bus t : Word) (_skip : Bool) : Option AluOut := some (aluSum (intOf bus + intOf t + 1))

/-- ALUF = 11, `BUS+SKIP` (R153). -/
def aluBusPlusSkip (bus _t : Word) (skip : Bool) : Option AluOut := some (aluSum (intOf bus + (skip.toNat : Int)))

/-- ALUF = 12, `BUS.T`, the second code of the bitwise AND (R154). -/
def aluBusDotT (bus t : Word) (_skip : Bool) : Option AluOut := some (aluLogic (bus &&& t))

/-- ALUF = 13, `BUS AND NOT T` (R155). -/
def aluBusAndNotT (bus t : Word) (_skip : Bool) : Option AluOut := some (aluLogic (bus &&& ~~~t))

/-- ALUF = 14, undefined (R156). -/
def aluUndef14 (_bus _t : Word) (_skip : Bool) : Option AluOut := none

/-- ALUF = 15, undefined (R156). -/
def aluUndef15 (_bus _t : Word) (_skip : Bool) : Option AluOut := none

/-- `Execute` of R140: the function a code selects. -/
def aluTable : AluFn → Word → Word → Bool → Option AluOut
  | .bus => aluBus
  | .t => aluT
  | .busOrT => aluBusOrT
  | .busAndT => aluBusAndT
  | .busXorT => aluBusXorT
  | .busPlus1 => aluBusPlus1
  | .busMinus1 => aluBusMinus1
  | .busPlusT => aluBusPlusT
  | .busMinusT => aluBusMinusT
  | .busMinusTMinus1 => aluBusMinusTMinus1
  | .busPlusTPlus1 => aluBusPlusTPlus1
  | .busPlusSkip => aluBusPlusSkip
  | .busDotT => aluBusDotT
  | .busAndNotT => aluBusAndNotT
  | .undef14 => aluUndef14
  | .undef15 => aluUndef15

end Sys2Proof.Machine
end

