-- ==== Sys2Proof/WellFormed.lean ====
section
/-! DEFINITION. Which row a word is filed under.

Every word carries one row of each of the four code fields (R125), so it could be read under four to six rows; the
model's decoder files it under exactly ONE, its LEADING row, and `Instr.wf` says that an instruction is read under the
leading row of its word. The choice is the model's own and changes nothing the word does: the machine runs every reading
of one word alike (log 1).

The leading row: if all four code fields hold code 0, LT or LL when the word loads, else ALUF; if exactly one code field
differs from 0, that field; if exactly one code field is 0, that field; otherwise the first code field, in the order of
the table, that differs from 0. So every row of the table leads some word. -/

namespace Sys2Proof

/-- The field whose row leads. -/
inductive Lead where
  | aluf | bs | f1 | f2 | lt | ll
  deriving DecidableEq, Repr

/-- The leading field, from the fields that hold code 0 (`true`) and from LT and LL. -/
def leadOf : (aluf0 bs0 f10 f20 lt ll : Bool) → Lead
  | true, true, true, true, true, _ => .lt
  | true, true, true, true, false, true => .ll
  | true, true, true, true, false, false => .aluf
  | true, false, true, true, _, _ => .bs
  | true, true, false, true, _, _ => .f1
  | true, true, true, false, _, _ => .f2
  | false, true, false, false, _, _ => .bs
  | false, false, true, false, _, _ => .f1
  | false, false, false, true, _, _ => .f2
  | true, false, false, true, _, _ => .bs
  | true, false, true, false, _, _ => .bs
  | true, true, false, false, _, _ => .f1
  | _, _, _, _, _, _ => .aluf

/-- The field whose row a word is filed under. -/
def MicroInstr.lead (w : MicroInstr) : Lead :=
  leadOf (w.aluf == .bus) (w.bs == .readR) (w.f1 == .nop) (w.f2 == .nop) w.lt w.ll

/-- The field of the row an instruction is read under. -/
def Instr.field : Instr → Lead
  | .alufBus _ => .aluf
  | .alufT _ => .aluf
  | .alufBusOrT _ => .aluf
  | .alufBusAndT _ => .aluf
  | .alufBusXorT _ => .aluf
  | .alufBusPlus1 _ => .aluf
  | .alufBusMinus1 _ => .aluf
  | .alufBusPlusT _ => .aluf
  | .alufBusMinusT _ => .aluf
  | .alufBusMinusTMinus1 _ => .aluf
  | .alufBusPlusTPlus1 _ => .aluf
  | .alufBusPlusSkip _ => .aluf
  | .alufBusDotT _ => .aluf
  | .alufBusAndNotT _ => .aluf
  | .alufUndef14 _ => .aluf
  | .alufUndef15 _ => .aluf
  | .bsReadR _ => .bs
  | .bsLoadR _ => .bs
  | .bsNoSource _ => .bs
  | .bsTaskSpecific1 _ => .bs
  | .bsTaskSpecific2 _ => .bs
  | .bsReadMD _ => .bs
  | .bsReadMouse _ => .bs
  | .bsReadDisp _ => .bs
  | .f1Nop _ => .f1
  | .f1LoadMAR _ => .f1
  | .f1Task _ => .f1
  | .f1Block _ => .f1
  | .f1Llsh1 _ => .f1
  | .f1Lrsh1 _ => .f1
  | .f1Llcy8 _ => .f1
  | .f1Constant _ => .f1
  | .f1Ts8 _ => .f1
  | .f1Ts9 _ => .f1
  | .f1Ts10 _ => .f1
  | .f1Ts11 _ => .f1
  | .f1Ts12 _ => .f1
  | .f1Ts13 _ => .f1
  | .f1Ts14 _ => .f1
  | .f1Ts15 _ => .f1
  | .f2Nop _ => .f2
  | .f2BusZero _ => .f2
  | .f2ShNeg _ => .f2
  | .f2ShZero _ => .f2
  | .f2Bus _ => .f2
  | .f2AluCy _ => .f2
  | .f2StoreMD _ => .f2
  | .f2Constant _ => .f2
  | .f2Ts8 _ => .f2
  | .f2Ts9 _ => .f2
  | .f2Ts10 _ => .f2
  | .f2Ts11 _ => .f2
  | .f2Ts12 _ => .f2
  | .f2Ts13 _ => .f2
  | .f2Ts14 _ => .f2
  | .f2Ts15 _ => .f2
  | .lt _ => .lt
  | .ll _ => .ll

/-- An instruction is well formed when it is read under the leading row of its word. Its operands need no other check:
every combination of field values is a word (R100, R121). -/
def Instr.wf (i : Instr) : Bool :=
  i.field == i.word.lead

end Sys2Proof
end

