-- ==== Sys2Proof/Decode.lean ====
section
/-! DEFINITION. The decoder (R100 to R119), total on every word, the metadata it precomputes (R111 to R115), and after
it the encoder (R124).

A control-store cell is one whole 32-bit word. Where the decoder is given the cell as four bytes, the byte at the lowest
address is the least significant (log 5); fewer than four bytes are rejected by name. -/

namespace Sys2Proof

/-- The code number of a ALUF code (R116). -/
def AluFn.code : AluFn → BitVec 4
  | .bus => 0
  | .t => 1
  | .busOrT => 2
  | .busAndT => 3
  | .busXorT => 4
  | .busPlus1 => 5
  | .busMinus1 => 6
  | .busPlusT => 7
  | .busMinusT => 8
  | .busMinusTMinus1 => 9
  | .busPlusTPlus1 => 10
  | .busPlusSkip => 11
  | .busDotT => 12
  | .busAndNotT => 13
  | .undef14 => 14
  | .undef15 => 15

/-- The ALUF code a code number stands for. -/
def AluFn.ofCode (c : BitVec 4) : AluFn :=
  match c.toNat with
  | 0 => .bus
  | 1 => .t
  | 2 => .busOrT
  | 3 => .busAndT
  | 4 => .busXorT
  | 5 => .busPlus1
  | 6 => .busMinus1
  | 7 => .busPlusT
  | 8 => .busMinusT
  | 9 => .busMinusTMinus1
  | 10 => .busPlusTPlus1
  | 11 => .busPlusSkip
  | 12 => .busDotT
  | 13 => .busAndNotT
  | 14 => .undef14
  | _ => .undef15

/-- The code number of a BS code (R117). -/
def BusSource.code : BusSource → BitVec 3
  | .readR => 0
  | .loadR => 1
  | .noSource => 2
  | .taskSpecific1 => 3
  | .taskSpecific2 => 4
  | .readMD => 5
  | .readMouse => 6
  | .readDisp => 7

/-- The BS code a code number stands for. -/
def BusSource.ofCode (c : BitVec 3) : BusSource :=
  match c.toNat with
  | 0 => .readR
  | 1 => .loadR
  | 2 => .noSource
  | 3 => .taskSpecific1
  | 4 => .taskSpecific2
  | 5 => .readMD
  | 6 => .readMouse
  | _ => .readDisp

/-- The code number of a F1 code (R118). -/
def F1Code.code : F1Code → BitVec 4
  | .nop => 0
  | .loadMAR => 1
  | .task => 2
  | .block => 3
  | .llsh1 => 4
  | .lrsh1 => 5
  | .llcy8 => 6
  | .constant => 7
  | .ts8 => 8
  | .ts9 => 9
  | .ts10 => 10
  | .ts11 => 11
  | .ts12 => 12
  | .ts13 => 13
  | .ts14 => 14
  | .ts15 => 15

/-- The F1 code a code number stands for. -/
def F1Code.ofCode (c : BitVec 4) : F1Code :=
  match c.toNat with
  | 0 => .nop
  | 1 => .loadMAR
  | 2 => .task
  | 3 => .block
  | 4 => .llsh1
  | 5 => .lrsh1
  | 6 => .llcy8
  | 7 => .constant
  | 8 => .ts8
  | 9 => .ts9
  | 10 => .ts10
  | 11 => .ts11
  | 12 => .ts12
  | 13 => .ts13
  | 14 => .ts14
  | _ => .ts15

/-- The code number of a F2 code (R119). -/
def F2Code.code : F2Code → BitVec 4
  | .nop => 0
  | .busZero => 1
  | .shNeg => 2
  | .shZero => 3
  | .bus => 4
  | .aluCy => 5
  | .storeMD => 6
  | .constant => 7
  | .ts8 => 8
  | .ts9 => 9
  | .ts10 => 10
  | .ts11 => 11
  | .ts12 => 12
  | .ts13 => 13
  | .ts14 => 14
  | .ts15 => 15

/-- The F2 code a code number stands for. -/
def F2Code.ofCode (c : BitVec 4) : F2Code :=
  match c.toNat with
  | 0 => .nop
  | 1 => .busZero
  | 2 => .shNeg
  | 3 => .shZero
  | 4 => .bus
  | 5 => .aluCy
  | 6 => .storeMD
  | 7 => .constant
  | 8 => .ts8
  | 9 => .ts9
  | 10 => .ts10
  | 11 => .ts11
  | 12 => .ts12
  | 13 => .ts13
  | 14 => .ts14
  | _ => .ts15

/-! ### Decoding -/

/-- The eight fields of a word, at the positions of R101. -/
def decodeFields (w : MicroWord) : MicroInstr :=
  { rsel := w.extractLsb' 27 5
    aluf := AluFn.ofCode (w.extractLsb' 23 4)
    bs := BusSource.ofCode (w.extractLsb' 20 3)
    f1 := F1Code.ofCode (w.extractLsb' 16 4)
    f2 := F2Code.ofCode (w.extractLsb' 12 4)
    lt := w.getLsbD 11
    ll := w.getLsbD 10
    next := w.extractLsb' 0 10 }

/-- A word read under its row of ALUF. -/
def Instr.underAluf (w : MicroInstr) : Instr :=
  match w.aluf with
  | .bus => .alufBus w.alufOps
  | .t => .alufT w.alufOps
  | .busOrT => .alufBusOrT w.alufOps
  | .busAndT => .alufBusAndT w.alufOps
  | .busXorT => .alufBusXorT w.alufOps
  | .busPlus1 => .alufBusPlus1 w.alufOps
  | .busMinus1 => .alufBusMinus1 w.alufOps
  | .busPlusT => .alufBusPlusT w.alufOps
  | .busMinusT => .alufBusMinusT w.alufOps
  | .busMinusTMinus1 => .alufBusMinusTMinus1 w.alufOps
  | .busPlusTPlus1 => .alufBusPlusTPlus1 w.alufOps
  | .busPlusSkip => .alufBusPlusSkip w.alufOps
  | .busDotT => .alufBusDotT w.alufOps
  | .busAndNotT => .alufBusAndNotT w.alufOps
  | .undef14 => .alufUndef14 w.alufOps
  | .undef15 => .alufUndef15 w.alufOps

/-- A word read under its row of BS. -/
def Instr.underBs (w : MicroInstr) : Instr :=
  match w.bs with
  | .readR => .bsReadR w.bsOps
  | .loadR => .bsLoadR w.bsOps
  | .noSource => .bsNoSource w.bsOps
  | .taskSpecific1 => .bsTaskSpecific1 w.bsOps
  | .taskSpecific2 => .bsTaskSpecific2 w.bsOps
  | .readMD => .bsReadMD w.bsOps
  | .readMouse => .bsReadMouse w.bsOps
  | .readDisp => .bsReadDisp w.bsOps

/-- A word read under its row of F1. -/
def Instr.underF1 (w : MicroInstr) : Instr :=
  match w.f1 with
  | .nop => .f1Nop w.f1Ops
  | .loadMAR => .f1LoadMAR w.f1Ops
  | .task => .f1Task w.f1Ops
  | .block => .f1Block w.f1Ops
  | .llsh1 => .f1Llsh1 w.f1Ops
  | .lrsh1 => .f1Lrsh1 w.f1Ops
  | .llcy8 => .f1Llcy8 w.f1Ops
  | .constant => .f1Constant w.f1Ops
  | .ts8 => .f1Ts8 w.f1Ops
  | .ts9 => .f1Ts9 w.f1Ops
  | .ts10 => .f1Ts10 w.f1Ops
  | .ts11 => .f1Ts11 w.f1Ops
  | .ts12 => .f1Ts12 w.f1Ops
  | .ts13 => .f1Ts13 w.f1Ops
  | .ts14 => .f1Ts14 w.f1Ops
  | .ts15 => .f1Ts15 w.f1Ops

/-- A word read under its row of F2. -/
def Instr.underF2 (w : MicroInstr) : Instr :=
  match w.f2 with
  | .nop => .f2Nop w.f2Ops
  | .busZero => .f2BusZero w.f2Ops
  | .shNeg => .f2ShNeg w.f2Ops
  | .shZero => .f2ShZero w.f2Ops
  | .bus => .f2Bus w.f2Ops
  | .aluCy => .f2AluCy w.f2Ops
  | .storeMD => .f2StoreMD w.f2Ops
  | .constant => .f2Constant w.f2Ops
  | .ts8 => .f2Ts8 w.f2Ops
  | .ts9 => .f2Ts9 w.f2Ops
  | .ts10 => .f2Ts10 w.f2Ops
  | .ts11 => .f2Ts11 w.f2Ops
  | .ts12 => .f2Ts12 w.f2Ops
  | .ts13 => .f2Ts13 w.f2Ops
  | .ts14 => .f2Ts14 w.f2Ops
  | .ts15 => .f2Ts15 w.f2Ops

/-- A word read under its leading row: the one `Instr` the model files it under. -/
def Instr.ofWord (w : MicroInstr) : Instr :=
  match w.lead with
  | .aluf => .underAluf w
  | .bs => .underBs w
  | .f1 => .underF1 w
  | .f2 => .underF2 w
  | .lt => .lt w.ltOps
  | .ll => .ll w.llOps

/-- `Decode` of R100: every one of the 2^32 words decodes. -/
def decode (w : MicroWord) : Instr :=
  Instr.ofWord (decodeFields w)

/-- Why bytes are no instruction. -/
inductive DecodeReject where
  /-- Fewer than the four bytes of one control-store cell. -/
  | truncated
  deriving DecidableEq, Repr

/-- A 32-bit cell from its four bytes, the one at the lowest address first (log 5). -/
def cellOfBytes (b0 b1 b2 b3 : Byte) : MicroWord :=
  b3 ++ b2 ++ b1 ++ b0

/-- The instruction that the first four bytes hold, and the bytes after it. -/
def decodeBytes : List Byte → Except DecodeReject (Instr × List Byte)
  | b0 :: b1 :: b2 :: b3 :: rest => .ok (decode (cellOfBytes b0 b1 b2 b3), rest)
  | _ => .error .truncated

/-- The four bytes of a cell, the one at the lowest address first (log 5). -/
def bytesOfCell (w : MicroWord) : List Byte :=
  [w.extractLsb' 0 8, w.extractLsb' 8 8, w.extractLsb' 16 8, w.extractLsb' 24 8]

/-- The cell whose low `nbits` bits are those of `w`, every higher bit 0: the numbering of spec/opcode_table.json. -/
def tableCell (nbits w : Nat) : MicroWord :=
  BitVec.ofNat 32 (w % 2 ^ nbits)

/-- The instruction the decoder reads from an instruction whose bits are `w`. -/
def decodeTableWord (nbits w : Nat) : Option Instr :=
  match decodeBytes (bytesOfCell (tableCell nbits w)) with
  | .ok (i, _) => some i
  | .error _ => none

/-! ### Precomputed metadata -/

/-- `const_sf` of R111: a constant code in F1 or F2. -/
def MicroInstr.constSf (w : MicroInstr) : Bool :=
  w.f1 == .constant || w.f2 == .constant

/-- `const_access` of R111: a constant code, or a bus source of 4 or more. -/
def MicroInstr.constAccess (w : MicroInstr) : Bool :=
  w.constSf || decide (4 ≤ w.bs.code.toNat)

/-- `const_addr` of R66: RSEL ++ BS, from the word's own fields. -/
def MicroInstr.constAddr (w : MicroInstr) : Byte :=
  w.rsel ++ w.bs.code

/-- The kinds of memory operation (R113, R70). -/
inductive MemOp where
  | loadAddress | read | store
  deriving DecidableEq, Repr

/-- `mem_access` of R113. -/
def MicroInstr.memAccess (w : MicroInstr) : Bool :=
  w.f1 == .loadMAR || (w.bs == .readMD && !w.constSf) || w.f2 == .storeMD

/-- `mem_op` of R113: a `ReadMD` that a constant code replaces is no memory operation (R196), so beside it `StoreMD`
decides (log 29). -/
def MicroInstr.memOp (w : MicroInstr) : Option MemOp :=
  if w.f1 == .loadMAR then some .loadAddress
  else if w.bs == .readMD && !w.constSf then some .read
  else if w.f2 == .storeMD then some .store
  else none

/-- `need_shifter` of R114, as far as the word decides it. -/
def MicroInstr.needShifter (w : MicroInstr) : Bool :=
  w.bs == .loadR || w.f2 == .shNeg || w.f2 == .shZero

/-- `load_t_from_alu` of R115. -/
def AluFn.loadTFromAlu : AluFn → Bool
  | .bus | .busOrT | .busPlus1 | .busMinus1 | .busPlusTPlus1 | .busPlusSkip | .busDotT => true
  | .t | .busAndT | .busXorT | .busPlusT | .busMinusT | .busMinusTMinus1 | .busAndNotT | .undef14 | .undef15 => false

/-- The codes 8 to 15 of F1, which the running task's variant resolves (R105). -/
def F1Code.taskSpecific (f : F1Code) : Bool :=
  decide (8 ≤ f.code.toNat)

/-- The codes 8 to 15 of F2, which the running task's variant resolves (R106). -/
def F2Code.taskSpecific (f : F2Code) : Bool :=
  decide (8 ≤ f.code.toNat)

/-! ### Encoding -/

/-- One bit as a field of the word. -/
def flagBit (b : Bool) : BitVec 1 :=
  BitVec.ofBool b

/-- `Encode` of R124: the eight fields at the positions of R101. -/
def encodeFields (w : MicroInstr) : MicroWord :=
  w.rsel ++ w.aluf.code ++ w.bs.code ++ w.f1.code ++ w.f2.code ++ flagBit w.lt ++ flagBit w.ll ++ w.next

/-- The control-store word of an instruction. -/
def encode (i : Instr) : MicroWord :=
  encodeFields i.word

end Sys2Proof
end

