-- ==== Sys2Proof/Config.lean ====
section
/-! DEFINITION. The parameters of the model (R5) as plain data, and the values the spec leaves to the outside as
uninterpreted constants.

`Config` is a field of the state that no rule writes (R48), so a statement over all states is one over all parameters
(log 3). The `opaque` constants have no body: nothing can be proved of their values (logs 7, 9, 10, 11). -/

namespace Sys2Proof

/-! ### Tasks -/

/-- The task variants (R41, R355): the thirteen bindings D00 lists, and any other variant a slot may be bound to
(log 27). -/
inductive Variant where
  | emulator | diskSector | diskWord | displayWord | displayHorizontal | displayVertical | cursor | memoryRefresh
  | ethernet | orbitA | orbitB | tridentInput | tridentOutput
  | other (n : Nat)
  deriving DecidableEq, Repr

/-! ### The control store -/

/-- Control-store banks (R260). -/
inductive Bank where
  | rom0 | rom1 | ram0 | ram1 | ram2
  deriving DecidableEq, Repr

/-- `CS_CONFIG` (R261). -/
inductive CsConfig where
  | toggle2 | split3 | ram5
  deriving DecidableEq, Repr

/-- Whether a bank exists in a configuration (R261). -/
def CsConfig.hasBank : CsConfig → Bank → Bool
  | .toggle2, .rom0 | .toggle2, .ram0 => true
  | .toggle2, _ => false
  | .split3, .rom0 | .split3, .rom1 | .split3, .ram0 => true
  | .split3, _ => false
  | .ram5, _ => true

/-! ### The memory bus -/

/-- The two timing variants of the memory bus (R5 `MEM_TIMING`, R77, R227). -/
inductive TimingVariant where
  | variantA | variantB
  deriving DecidableEq, Repr

/-- The double-word partner of an address (R74): the functions of the two default tables, or any other function, which a
replaced record may have (R78), as a table of its values (log 35). -/
inductive Partner where
  /-- `a OR 1`. -/
  | orOne
  /-- `a XOR 1`. -/
  | xorOne
  /-- The value at each listed address, the first entry counting; elsewhere the address itself. -/
  | table (rows : List (Word × Word))
  deriving DecidableEq, Repr

/-- What the first or the second word's cycle window is (R71, R72). -/
inductive Window where
  | first | second
  deriving DecidableEq, Repr

/-- The timing record (R78). A cycle that a window list does not name is `Fatal` for a read and `Mistimed` for a store. -/
structure MemTiming where
  variant : TimingVariant
  tRead1 : Nat
  tRead2 : Nat
  tClose : Nat
  /-- `none` is the table's "never". -/
  tSecondIdle : Option Nat
  readyReadAfter : Nat
  readyStoreAfter : Nat
  partner : Partner
  readWindow : List (Nat × Window)
  storeWindow : List (Nat × Window)
  deriving DecidableEq, Repr

/-- The default table of `VariantA` (R78). -/
def MemTiming.variantA : MemTiming :=
  { variant := .variantA, tRead1 := 4, tRead2 := 5, tClose := 7, tSecondIdle := none, readyReadAfter := 4
    readyStoreAfter := 4, partner := .orOne, readWindow := [(5, .first), (6, .second)]
    storeWindow := [(5, .first), (6, .second)] }

/-- The default table of `VariantB` (R78). -/
def MemTiming.variantB : MemTiming :=
  { variant := .variantB, tRead1 := 3, tRead2 := 4, tClose := 5, tSecondIdle := some 6, readyReadAfter := 4
    readyStoreAfter := 2, partner := .xorOne, readWindow := [], storeWindow := [(3, .first), (4, .second)] }

/-- What stands behind a claimed address range (R75). -/
inductive DeviceKind where
  /-- The main memory, whose words the model holds. -/
  | mainMemory
  /-- A device outside the CORE; its reads are answered by an oracle (R75, log 10). -/
  | external (id : Nat)
  deriving DecidableEq, Repr

/-- A device and the address range it claims, both ends included (R75). -/
structure DeviceRange where
  lo : Word
  hi : Word
  kind : DeviceKind
  deriving DecidableEq, Repr

/-- Whether the range claims an address. -/
def DeviceRange.claims (d : DeviceRange) (a : Word) : Bool :=
  d.lo.ule a && a.ule d.hi

/-! ### The hook table (R240)

A hook is a list of acts, each one of the effects R46 and R240 permit. The table gives, for a variant and a call site,
either a fixed list (plain data, so that it runs) or `free`: the list that the uninterpreted `Config.hookActs` computes
from everything the hook sees (log 7). -/

/-- The call sites of R240. A site that a code selects carries the code. -/
inductive HookSite where
  | f2Early (f : F2Code)
  | busSource (b : BusSource)
  | f2PostBus (f : F2Code)
  | f1Early (f : F1Code)
  | f1Late (f : F1Code)
  | f2Late (f : F2Code)
  | f2AfterShift (f : F2Code)
  | onBlock
  | onTaskSwitch
  | onSoftReset
  | wakeupPolicy
  | blockPolicy
  deriving DecidableEq, Repr

/-- A 16-bit value an act uses: a number, or something the hook sees. -/
inductive HookVal where
  | const (w : Word)
  | bus | alu | shOut
  | ir
  /-- The word the hook's last `readMD` returned. -/
  | md
  /-- `S[RB[t]][rsel]`, for a RAM-resident task only (R21), where the hook is given `rsel`. -/
  | sReg
  deriving DecidableEq, Repr

/-- A bit an act uses. -/
inductive HookBit where
  | const (b : Bool)
  | aluCarry | dnsCarry
  deriving DecidableEq, Repr

/-- The shifter's modifiers (R171). -/
inductive ShMod where
  | none | magic | novaStyle
  deriving DecidableEq, Repr

/-- One effect of a hook: a wire of R240, a state item of R46, or a call R46 permits. -/
inductive HookAct where
  | setRsel (v : HookVal)
  | setBus (v : HookVal)
  | raiseLoadS
  | setLoadR (b : Bool)
  | orNext (v : HookVal)
  | setShMod (m : ShMod)
  | needShifter
  | setHs (n : Nat)
  | setR (i : Reg) (v : HookVal)
  | setS (i : Reg) (v : HookVal)
  | setIr (v : HookVal)
  | setSkip (b : HookBit)
  | setDnsCarry (b : HookBit)
  | setRmr (v : HookVal)
  | setRb (b : BitVec 3)
  | setSwMode (b : Bool)
  | setRdRam (b : Bool)
  | setWrtRam (b : Bool)
  /-- `Bus.LoadMAR`. The flag is the hook's own under `VariantB` and 0 under `VariantA` (R77, log 32). -/
  | loadMAR (v : HookVal) (xm : Bool)
  | readMD
  | loadMD (v : HookVal)
  | wakeupTask (s : Slot)
  | blockTask (s : Slot)
  /-- `SoftReset()`. Called by an `onSoftReset` hook, `depth` is how deep further calls may nest in this one: a call that
  returns has such a depth, and the depth bounds the nest (log 23). Called elsewhere, it has no meaning. -/
  | softReset (depth : Nat)
  /-- Set or clear the slot's own WAKEUP: the policies of R354 only. -/
  | setWakeup (b : Bool)
  deriving DecidableEq, Repr

/-- What a variant defines at a site. -/
inductive HookEntry where
  | acts (as : List HookAct)
  | free
  deriving DecidableEq, Repr

/-- A row of the hook table. -/
structure HookRow where
  variant : Variant
  site : HookSite
  entry : HookEntry
  deriving DecidableEq, Repr

/-! ### The configuration -/

/-- The parameters of R5. -/
structure Config where
  csConfig : CsConfig
  memTiming : MemTiming
  /-- `TASK_SLOT` (R41): absent, or the variant bound to the slot. -/
  slots : Vector (Option Variant) 16
  /-- `RAMTASK` (R36) of the slots other than the emulator's, for which it is true (R5). -/
  ramTask : Vector Bool 16
  /-- `ROM_IMAGE` (R262), the bytes of ROM0 and ROM1. -/
  romImage : List (Nat × BitVec 8)
  /-- `CONST_ROM` (R44), the bytes of the 256 words. -/
  constRom : List (Nat × BitVec 8)
  /-- `RAM_XOR_MASK` (R274). -/
  ramXorMask : MicroWord
  devices : List DeviceRange
  hooks : List HookRow
  /-- The reset values of HS (R46). -/
  hsReset : Vector Nat 16
  deriving DecidableEq, Repr

/-- The defaults of `95_test_vectors.md`: the emulator in slot 0 and no other task, `Toggle2`, `VariantB`, RAM-resident
slot 0, no hooks, every unnamed constant and cell 0, main memory claiming every address (log 4). -/
def Config.default : Config :=
  { csConfig := .toggle2
    memTiming := .variantB
    slots := (Vector.replicate 16 none).set 0 (some .emulator)
    ramTask := (Vector.replicate 16 false).set 0 true
    romImage := []
    constRom := []
    ramXorMask := 0x00088400
    devices := [{ lo := 0, hi := 0xFFFF, kind := .mainMemory }]
    hooks := []
    hsReset := Vector.replicate 16 0 }

/-! ### Uninterpreted constants -/

/-- `MouseBits()` (R197): the answer of the mouse and keyset, for the n-th question asked of an oracle (log 9). -/
opaque Config.mouseBits : Nat → BitVec 4

/-- What an external device answers to a read (R75): the number of the question, the device, the address, the task and
the extended-memory flag (log 10). -/
opaque Config.deviceRead : Nat → Nat → Word → Slot → Bool → Word

/-- The contract calls an external device makes while it serves an access (R73, R350): `true` is `WakeupTask`, `false` is
`BlockTask`. The last argument is the word written, none for a read (log 10). -/
opaque Config.deviceCalls : Nat → Nat → Word → Slot → Bool → Option Word → List (Bool × Slot)

/-- `SWMODE_TABLE[Ram5]` (R273): which of the four other banks a bank moves to, from the bank and the next address
(log 11). -/
opaque Config.ram5Pick : Bank → Addr → BitVec 2

end Sys2Proof
end

