-- ==== Sys2Proof/Machine/State.lean ====
section
/-! DEFINITION. The state of the machine: every item of `10_state.md`, main memory, the parameters (never written), and
three fields of the model's own (`oracle`, `diagnostics`, `agenda`); the ways the machine stops; the state after reset. -/

namespace Sys2Proof.Machine

/-- Memory, as (address, byte) pairs: addresses strictly rising, no byte 0 listed, an unlisted address reading 0
(`Memory.wf`, log 6). Every space of the machine moves whole cells; the model keeps a 16-bit word as two bytes and a
32-bit cell as four (log 5). -/
abbrev Memory := List Host.Cell

/-! ### The stopped state (R370 to R372) -/

/-- The categories of a fatal error (R371). -/
inductive FatalKind where
  | protocolViolation | unknownDecode | resourceLoad
  deriving DecidableEq, Repr

/-- The fatal conditions of R372 and what their `info` carries. -/
inductive FatalInfo where
  /-- `Bus.LoadMAR` while a transaction is active: the address and the slot. -/
  | fp1 (address : Word) (slot : Slot)
  /-- `Bus.ReadMD` in a Fatal cycle: BUS_CYCLE. -/
  | fp2 (cycle : Nat)
  /-- `BlockTask` of the emulator slot. -/
  | fp3
  /-- `WakeupTask` of the emulator slot. -/
  | fp4
  /-- An undefined ALU function. -/
  | fd1 (aluf : AluFn)
  /-- A task-specific bus source the variant does not define. -/
  | fd2 (bs : BusSource) (slot : Slot)
  /-- A task-specific F1 code the variant does not define. -/
  | fd3 (f1 : F1Code) (slot : Slot)
  /-- A task-specific F2 code the variant does not define. -/
  | fd4 (f2 : F2Code) (slot : Slot)
  /-- A shifter operation outside the four: no value of `ShOp` is one (R171). -/
  | fd5
  /-- `ReadRAM` of a ROM, or RAM bank number 3 under `Ram5`: CRAR. -/
  | fd6 (crar : Word)
  /-- A missing ROM image: the host's error before the machine exists (R372). -/
  | fr1
  deriving DecidableEq, Repr

/-- STATUS (R47). -/
inductive Status where
  | running
  | stopped (kind : FatalKind) (info : FatalInfo)
  deriving DecidableEq, Repr

/-- The warnings of R374. -/
inductive Warning where
  /-- W1: `Bus.LoadMD` while the bus is idle. -/
  | loadMDWhileIdle
  /-- W2: `Bus.LoadMD` in a cycle outside the store window. -/
  | loadMDMistimed
  deriving DecidableEq, Repr

/-- A reason a step stops with a fault. There is none: every stop the spec describes is `Fatal`, which sets STATUS and
leaves a state (R371, R373), so it is a next state and not a fault (log 2). Safe. -/
inductive Fault
  deriving DecidableEq, Repr

/-- A reason the model gives no step. -/
inductive Refusal where
  /-- Raised by an arm of `exec` whose instruction has no meaning yet; no arm does. Safe. -/
  | notModelled (mnemonic : String)
  /-- Raised by `step` when the parameters break the constraints of U15 or CUR names an absent slot: no rule of the spec
  applies to such a machine (log 19). Safe. -/
  | badConfiguration
  deriving DecidableEq, Repr

/-! ### The outside -/

/-- A call from outside the CORE, made between two microinstructions (R300, R350, R371, R400; log 18). -/
inductive HostCall where
  | wakeupTask (s : Slot)
  | blockTask (s : Slot)
  | softReset
  | reset
  /-- A device-side store into the main memory (R83). -/
  | deviceStore (xm : Bool) (a : Word) (w : Word)
  deriving DecidableEq, Repr

/-! ### The state -/

/-- The state. Each field names its rule in `10_state.md`. -/
structure State where
  /-- R[0..31] (R20). -/
  r : Vector Word 32
  /-- S[0..7][0..31] (R21). -/
  sRegs : Vector (Vector Word 32) 8
  /-- T (R22). -/
  t : Word
  /-- L (R23). -/
  l : Word
  /-- M (R24). -/
  m : Word
  /-- IR (R25). -/
  ir : Word
  /-- ALUC0 (R26). -/
  aluC0 : Bool
  /-- ALUCARRY (R27). -/
  aluCarry : Bool
  /-- SKIP (R28). -/
  skip : Bool
  /-- DNSCARRY (R29). -/
  dnsCarry : Bool
  /-- RMR (R31). -/
  rmr : Word
  /-- CRAR (R32). -/
  crar : Word
  /-- MPC[t] (R33). -/
  mpc : Vector Addr 16
  /-- WAKEUP[t] (R34). -/
  wakeup : Vector Bool 16
  /-- BANK[t] (R35). -/
  bank : Vector Bank 16
  /-- RB[t] (R36). -/
  rb : Vector (BitVec 3) 16
  /-- FIRST[t] (R37). -/
  first : Vector Bool 16
  /-- NEXTMOD[t] (R38). -/
  nextMod : Vector Addr 16
  /-- SWMODE_P[t] (R39). -/
  swModeP : Vector Bool 16
  /-- RDRAM_P[t] (R39). -/
  rdRamP : Vector Bool 16
  /-- WRTRAM_P[t] (R39). -/
  wrtRamP : Vector Bool 16
  /-- CUR (R40). -/
  cur : Slot
  /-- NEXT_TASK (R40). -/
  nextTask : Option Slot
  /-- The RAM banks of the control store (R42). -/
  csRam : Memory
  /-- BUS_ACTIVE (R45). -/
  busActive : Bool
  /-- BUS_CYCLE (R45, R68). -/
  busCycle : Nat
  /-- BUS_MAR (R45). -/
  busMar : Word
  /-- BUS_TASK (R45). -/
  busTask : Slot
  /-- BUS_XM (R45). -/
  busXm : Bool
  /-- BUS_MD1 (R45). -/
  busMd1 : Word
  /-- BUS_MD2 (R45). -/
  busMd2 : Word
  /-- BUS_DWSTORE (R45). -/
  busDwStore : Bool
  /-- BUS_DWMIXED (R45). -/
  busDwMixed : Bool
  /-- HS[t] (R46), a natural number (log 21). -/
  hs : Vector Nat 16
  /-- STATUS (R47). -/
  status : Status
  /-- The main memory device (R75). -/
  mem : Memory
  /-- The parameters (R5, R48); no rule writes them. -/
  cfg : Config
  /-- The model's own: the number of the next question to an oracle (logs 9, 10). -/
  oracle : Nat
  /-- The model's own: the warnings emitted, newest first; no rule reads them (R374, log 17). -/
  diagnostics : List Warning
  /-- The model's own: what the outside calls after each of the next steps (log 18). -/
  agenda : List (List HostCall)
  deriving DecidableEq, Repr

/-- The machine right after `Reset` (R401, R49), with the default parameters (log 4), every memory cell 0 (log 6) and
nothing called from outside. -/
def State.reset : State :=
  { r := Vector.replicate 32 0
    sRegs := Vector.replicate 8 (Vector.replicate 32 0)
    t := 0, l := 0, m := 0, ir := 0
    aluC0 := false, aluCarry := false, skip := false, dnsCarry := false
    rmr := 0xFFFF, crar := 0
    mpc := #v[0, 1, 2, 3, 4, 5, 6, 7, 8, 9, 10, 11, 12, 13, 14, 15]
    wakeup := (Vector.replicate 16 false).set 0 true
    bank := Vector.replicate 16 .rom0
    rb := Vector.replicate 16 0
    first := (Vector.replicate 16 false).set 0 true
    nextMod := Vector.replicate 16 0
    swModeP := Vector.replicate 16 false
    rdRamP := Vector.replicate 16 false
    wrtRamP := Vector.replicate 16 false
    cur := 0, nextTask := none
    csRam := []
    busActive := false, busCycle := 0, busMar := 0, busTask := 0, busXm := false
    busMd1 := 0, busMd2 := 0, busDwStore := false, busDwMixed := false
    hs := Vector.replicate 16 0
    status := .running
    mem := []
    cfg := Config.default
    oracle := 0, diagnostics := [], agenda := [] }

/-! ### The wires of one microinstruction (R48) -/

/-- The shifter's operations (R171). -/
inductive ShOp where
  | none | shiftLeft | shiftRight | rotateLeft8
  deriving DecidableEq, Repr

/-- The wires of one microinstruction: they live inside one call of `exec` and are no state (R48). -/
structure Wires where
  /-- The decoded word. -/
  mi : MicroInstr
  /-- The slot that runs it, or the slot whose hook runs. -/
  slot : Slot
  /-- The slot whose microinstruction is being executed. -/
  runner : Slot
  rsel : Reg
  bus : Word
  alu : Word
  cy : Bool
  shOp : ShOp
  shMod : ShMod
  shOut : Word
  loadR : Bool
  loadS : Bool
  needShifter : Bool
  nmIn : Addr
  nmOut : Addr
  /-- `SWMODE_P[t]` as the microinstruction began (R317). -/
  swModeNow : Bool
  /-- `RDRAM_P[t]` as the microinstruction began (R200). -/
  rdRamNow : Bool
  /-- `WRTRAM_P[t]` as the microinstruction began (R277). -/
  wrtRamNow : Bool
  /-- The request a hook of this microinstruction leaves in SWMODE_P of the slot that runs it (R317, log 15). -/
  swModeReq : Bool
  /-- The same for RDRAM_P. -/
  rdRamReq : Bool
  /-- The same for WRTRAM_P. -/
  wrtRamReq : Bool
  blockNow : Bool
  softResetNow : Bool
  /-- `completion = TaskSwitch` (R212, R319). -/
  taskSwitch : Bool
  /-- The word the hook's last `readMD` returned. -/
  md : Word
  deriving DecidableEq, Repr

/-- A state and the wires of the microinstruction it is in the middle of. -/
structure Ctx where
  s : State
  w : Wires
  deriving DecidableEq, Repr

end Sys2Proof.Machine
end

