-- ==== Sys2Proof/Machine/Ops.lean ====
section
/-! DEFINITION. The named operations over memory, registers, the stopped state, the wakeup contract, the memory bus, the
control store and the arbiter's scan. Everything a microinstruction does to the state goes through them. -/

namespace Sys2Proof

/-! ### Register files and per-slot items -/

/-- Read entry `i`. -/
def rd {α : Type} {n : Nat} (v : Vector α n) (i : Fin n) : α :=
  v[i]

/-- Write entry `i`. -/
def wr {α : Type} {n : Nat} (v : Vector α n) (i : Fin n) (x : α) : Vector α n :=
  v.set i x

/-! ### Slots -/

/-- The slots from 0 up. -/
def slotsUp : List Slot := [0, 1, 2, 3, 4, 5, 6, 7, 8, 9, 10, 11, 12, 13, 14, 15]

/-- The slots from 15 down, the order of the priority scan. -/
def slotsDown : List Slot := [15, 14, 13, 12, 11, 10, 9, 8, 7, 6, 5, 4, 3, 2, 1, 0]

/-- `present(t)` (R41, R356). -/
def Config.present (g : Config) (t : Slot) : Bool :=
  (rd g.slots t).isSome

/-- Whether the slot is bound to the emulator variant. -/
def Config.isEmulator (g : Config) (t : Slot) : Bool :=
  rd g.slots t == some .emulator

/-- The slot a variant is bound to, if any; of several the lowest (log 34). -/
def Config.slotOf (g : Config) (v : Variant) : Option Slot :=
  slotsUp.find? fun t => rd g.slots t == some v

/-- The emulator slot, as the constraint of R41 says there is exactly one. -/
def Config.emulatorSlot (g : Config) : Option Slot :=
  g.slotOf .emulator

/-- `RAMTASK[t]` (R36): true for the emulator slot, a parameter for any other (R5). -/
def Config.isRamTask (g : Config) (t : Slot) : Bool :=
  g.isEmulator t || rd g.ramTask t

/-- The device that claims an address (R76). -/
def Config.deviceAt (g : Config) (a : Word) : Option DeviceKind :=
  (g.devices.find? fun d => d.claims a).map fun d => d.kind

/-- `partner(a)` (R74, R78). -/
def Partner.apply (p : Partner) (a : Word) : Word :=
  match p with
  | .orOne => a ||| 1
  | .xorOne => a ^^^ 1
  | .table rows => ((rows.find? fun r => r.1 == a).map fun r => r.2).getD a

/-- Whether a bank is a ROM. -/
def Bank.isRom : Bank → Bool
  | .rom0 | .rom1 => true
  | .ram0 | .ram1 | .ram2 => false

/-- A bank's place among the banks of its kind. -/
def Bank.index : Bank → Nat
  | .rom0 | .ram0 => 0
  | .rom1 | .ram1 => 1
  | .ram2 => 2

/-! ### What a hook is given (the column "sees" of R240) -/

/-- The sites that are given the decoded word. -/
def HookSite.seesWord : HookSite → Bool
  | .f2Early _ | .busSource _ | .f2PostBus _ | .f1Early _ | .f1Late _ | .f2Late _ | .f2AfterShift _ => true
  | .onBlock | .onTaskSwitch | .onSoftReset | .wakeupPolicy | .blockPolicy => false

/-- The site that is given `rsel`. -/
def HookSite.seesRsel : HookSite → Bool
  | .busSource _ => true
  | _ => false

/-- The sites that are given `bus`. -/
def HookSite.seesBus : HookSite → Bool
  | .f2PostBus _ | .f1Early _ | .f1Late _ | .f2Late _ => true
  | _ => false

/-- The sites that are given `alu` and `cy`. -/
def HookSite.seesAlu : HookSite → Bool
  | .f1Late _ | .f2Late _ | .f2AfterShift _ => true
  | _ => false

/-- The site that is given `sh_out`. -/
def HookSite.seesShOut : HookSite → Bool
  | .f2AfterShift _ => true
  | _ => false

/-- Whether a hook at the site can compute a value: from what it is given, the state, and what it read itself. -/
def HookSite.sees (site : HookSite) : HookVal → Bool
  | .const _ | .ir | .md => true
  | .bus => site.seesBus
  | .alu => site.seesAlu
  | .shOut => site.seesShOut
  | .sReg => site.seesRsel

/-! ### The free hooks (R240) -/

/-- The acts of a hook that the parameter `HOOKS` leaves free: whatever they are, they depend on what R240 lets a hook
see and on nothing else (log 7). -/
opaque Config.hookActs : Variant → HookSite → Machine.Wires → Machine.State → List HookAct

end Sys2Proof

namespace Sys2Proof.Machine

/-! ### Registers and per-slot items -/

/-- `R[i]` (R20). -/
def State.getR (s : State) (i : Reg) : Word :=
  rd s.r i.toFin

/-- `R[i] <- v` (R20): no R register is hardwired. -/
def State.setR (s : State) (i : Reg) (v : Word) : State :=
  { s with r := wr s.r i.toFin v }

/-- `S[RB[t]][i]` (R21, R36). -/
def State.getS (s : State) (t : Slot) (i : Reg) : Word :=
  rd (rd s.sRegs (rd s.rb t).toFin) i.toFin

/-- `S[RB[t]][i] <- v` (R21, R36). -/
def State.setS (s : State) (t : Slot) (i : Reg) (v : Word) : State :=
  { s with sRegs := wr s.sRegs (rd s.rb t).toFin (wr (rd s.sRegs (rd s.rb t).toFin) i.toFin v) }

/-- `MPC[t] <- a` (R33). -/
def State.setMpc (s : State) (t : Slot) (a : Addr) : State :=
  { s with mpc := wr s.mpc t a }

/-- `WAKEUP[t] <- b` (R34). -/
def State.setWakeup (s : State) (t : Slot) (b : Bool) : State :=
  { s with wakeup := wr s.wakeup t b }

/-- `BANK[t] <- b` (R35). -/
def State.setBank (s : State) (t : Slot) (b : Bank) : State :=
  { s with bank := wr s.bank t b }

/-- `RB[t] <- b` (R36). -/
def State.setRb (s : State) (t : Slot) (b : BitVec 3) : State :=
  { s with rb := wr s.rb t b }

/-- `FIRST[t] <- b` (R37). -/
def State.setFirst (s : State) (t : Slot) (b : Bool) : State :=
  { s with first := wr s.first t b }

/-- `NEXTMOD[t] <- a` (R38). -/
def State.setNextMod (s : State) (t : Slot) (a : Addr) : State :=
  { s with nextMod := wr s.nextMod t a }

/-- `SWMODE_P[t] <- b` (R39). -/
def State.setSwModeP (s : State) (t : Slot) (b : Bool) : State :=
  { s with swModeP := wr s.swModeP t b }

/-- `RDRAM_P[t] <- b` (R39). -/
def State.setRdRamP (s : State) (t : Slot) (b : Bool) : State :=
  { s with rdRamP := wr s.rdRamP t b }

/-- `WRTRAM_P[t] <- b` (R39). -/
def State.setWrtRamP (s : State) (t : Slot) (b : Bool) : State :=
  { s with wrtRamP := wr s.wrtRamP t b }

/-- `HS[t] <- n` (R46). -/
def State.setHs (s : State) (t : Slot) (n : Nat) : State :=
  { s with hs := wr s.hs t n }

/-! ### Memory -/

/-- What a byte reads as: an address the list does not hold reads 0 (log 6). -/
def Memory.readByte : Memory → Nat → Byte
  | [], _ => 0
  | (b, v) :: m, a => if a = b then v else Memory.readByte m a

/-- A byte written, in the canonical form: writing 0 removes the entry. -/
def Memory.writeByte : Memory → Nat → Byte → Memory
  | [], a, v => if v = 0 then [] else [(a, v)]
  | (b, u) :: m, a, v =>
    if a < b then (if v = 0 then (b, u) :: m else (a, v) :: (b, u) :: m)
    else if a = b then (if v = 0 then m else (a, v) :: m)
    else (b, u) :: Memory.writeByte m a v

/-- Addresses from `lo` on, strictly rising, no byte 0 listed. -/
def Memory.wfFrom : Nat → Memory → Bool
  | _, [] => true
  | lo, (a, v) :: m => decide (lo ≤ a) && decide (v ≠ 0) && Memory.wfFrom (a + 1) m

/-- The canonical form. -/
def Memory.wf (m : Memory) : Bool :=
  Memory.wfFrom 0 m

/-- The 16-bit word with index `k`: bytes `2k` (low half) and `2k+1` (high half), an order nothing can observe (R79,
log 5). -/
def Memory.readWord (m : Memory) (k : Nat) : Word :=
  m.readByte (2 * k + 1) ++ m.readByte (2 * k)

/-- The 16-bit word with index `k` written. -/
def Memory.writeWord (m : Memory) (k : Nat) (w : Word) : Memory :=
  (m.writeByte (2 * k) (w.extractLsb' 0 8)).writeByte (2 * k + 1) (w.extractLsb' 8 8)

/-- The 32-bit cell with index `k`: bytes `4k` to `4k+3`, low half first (log 5). -/
def Memory.readCell (m : Memory) (k : Nat) : MicroWord :=
  cellOfBytes (m.readByte (4 * k)) (m.readByte (4 * k + 1)) (m.readByte (4 * k + 2)) (m.readByte (4 * k + 3))

/-- The 32-bit cell with index `k` written whole (R276). -/
def Memory.writeCell (m : Memory) (k : Nat) (w : MicroWord) : Memory :=
  (((m.writeByte (4 * k) (w.extractLsb' 0 8)).writeByte (4 * k + 1) (w.extractLsb' 8 8)).writeByte (4 * k + 2)
    (w.extractLsb' 16 8)).writeByte (4 * k + 3) (w.extractLsb' 24 8)

/-! ### Fatal errors and warnings (R371, R374) -/

/-- The category of a fatal condition (R372). -/
def FatalInfo.kind : FatalInfo → FatalKind
  | .fp1 _ _ | .fp2 _ | .fp3 | .fp4 => .protocolViolation
  | .fd1 _ | .fd2 _ _ | .fd3 _ _ | .fd4 _ _ | .fd5 | .fd6 _ => .unknownDecode
  | .fr1 => .resourceLoad

/-- `Fatal(kind, info)` (R371): the machine's one exception. STATUS becomes stopped; everything else stays as the failing
sub-step left it (R373). The return from it is `State.hardReset`. -/
def State.fatal (s : State) (i : FatalInfo) : State :=
  { s with status := .stopped i.kind i }

/-- `warn` (R374): the diagnostic is all that changes. -/
def State.warn (s : State) (w : Warning) : State :=
  { s with diagnostics := w :: s.diagnostics }

/-- Go on only while the machine runs (R371): what follows a fatal error is abandoned. -/
def State.andThen (s : State) (f : State → State) : State :=
  match s.status with
  | .running => f s
  | .stopped _ _ => s

/-- Go on with the microinstruction only while the machine runs (R301, R371). -/
def Ctx.andThen (c : Ctx) (f : Ctx → Ctx) : Ctx :=
  match c.s.status with
  | .running => f c
  | .stopped _ _ => c

/-! ### The priority scan -/

/-- `Scan()` (R341): the highest present awake slot. -/
def State.scan (s : State) : Option Slot :=
  slotsDown.find? fun t => s.cfg.present t && rd s.wakeup t

/-! ### The hook table (R240) -/

/-- The wires outside a microinstruction: a hook called there sees none that means anything. -/
def Wires.idle (t : Slot) : Wires :=
  { mi := { rsel := 0, aluf := .bus, bs := .readR, f1 := .nop, f2 := .nop, lt := false, ll := false, next := 0 }
    slot := t, runner := t, rsel := 0, bus := 0, alu := 0, cy := false, shOp := .none, shMod := .none, shOut := 0
    loadR := false, loadS := false, needShifter := false, nmIn := 0, nmOut := 0
    swModeNow := false, rdRamNow := false, wrtRamNow := false
    swModeReq := false, rdRamReq := false, wrtRamReq := false
    blockNow := false, softResetNow := false, taskSwitch := false, md := 0 }

/-- What a hook of slot `t` may see of the state: a task that is not RAM-resident never reads S (R21), and the model's
own record of the outside and of the warnings is no part of the machine. -/
def State.hookView (s : State) (t : Slot) : State :=
  { s with
    sRegs := if s.cfg.isRamTask t then s.sRegs else Vector.replicate 8 (Vector.replicate 32 0)
    agenda := [], diagnostics := [] }

/-- The wires a hook at the site is given; the others are blank (R240). -/
def Wires.seenAt (w : Wires) (site : HookSite) : Wires :=
  { Wires.idle w.slot with
    mi := if site.seesWord then w.mi else (Wires.idle w.slot).mi
    rsel := if site.seesRsel then w.rsel else 0
    bus := if site.seesBus then w.bus else 0
    alu := if site.seesAlu then w.alu else 0
    cy := site.seesAlu && w.cy
    shOut := if site.seesShOut then w.shOut else 0 }

/-- What the variant bound to the context's slot defines at a site; `none` when it defines nothing there. -/
def Ctx.hookAt? (c : Ctx) (site : HookSite) : Option (Variant × HookEntry) :=
  match rd c.s.cfg.slots c.w.slot with
  | none => none
  | some v => (c.s.cfg.hooks.find? fun r => r.variant == v && r.site == site).map fun r => (v, r.entry)

/-- The acts of a defined hook. -/
def Ctx.hookActs (c : Ctx) (site : HookSite) (d : Variant × HookEntry) : List HookAct :=
  match d.2 with
  | .acts as => as
  | .free => Config.hookActs d.1 site (c.w.seenAt site) (c.s.hookView c.w.slot)

/-- A call of a free hook is a question to an oracle, so no two calls need answer alike (log 7). -/
def State.countHook (s : State) (d : Variant × HookEntry) : State :=
  match d.2 with
  | .acts _ => s
  | .free => { s with oracle := s.oracle + 1 }

/-! ### The wakeup contract (R350 to R354) -/

/-- One act of a wakeup or block policy: it may set or clear WAKEUP of its own slot and update its HS, and nothing else
(R354). -/
def policyAct (t : Slot) (s : State) : HookAct → State
  | .setWakeup b => s.setWakeup t b
  | .setHs n => s.setHs t n
  | _ => s

/-- `wakeupPolicy` and `blockPolicy` (R240, R354), with the default that sets or clears WAKEUP. -/
def State.policy (s : State) (t : Slot) (site : HookSite) (dflt : Bool) : State :=
  match Ctx.hookAt? { s := s, w := Wires.idle t } site with
  | none => s.setWakeup t dflt
  | some d => (Ctx.hookActs { s := s, w := Wires.idle t } site d).foldl (policyAct t) (s.countHook d)

/-- `WakeupTask(t)` (R351, R353). -/
def State.wakeupTask (s : State) (t : Slot) : State :=
  s.andThen fun s =>
    if !s.cfg.present t then s
    else if s.cfg.isEmulator t then s.fatal .fp4
    else s.policy t .wakeupPolicy true

/-- `BlockTask(t)` (R352, R353). -/
def State.blockTask (s : State) (t : Slot) : State :=
  s.andThen fun s =>
    if !s.cfg.present t then s
    else if s.cfg.isEmulator t then s.fatal .fp3
    else s.policy t .blockPolicy false

/-- `IsBlocked(t)` (R352): false for an absent slot; no effect on the state. -/
def State.isBlocked (s : State) (t : Slot) : Bool :=
  s.cfg.present t && !rd s.wakeup t

/-- The calls a device makes while it serves an access, in order (R73). -/
def State.contractCalls (s : State) (cs : List (Bool × Slot)) : State :=
  cs.foldl (fun s c => if c.1 then s.wakeupTask c.2 else s.blockTask c.2) s

/-! ### Devices (R75, R76) -/

/-- The index of a main-memory word: the flag is a third coordinate of every access (R64, R60, log 30). -/
def mainIndex (xm : Bool) (a : Word) : Nat :=
  xm.toNat * 65536 + a.toNat

/-- The main-memory word at an address. -/
def State.memWord (s : State) (xm : Bool) (a : Word) : Word :=
  Memory.readWord s.mem (mainIndex xm a)

/-- The main-memory word at an address, written. -/
def State.setMemWord (s : State) (xm : Bool) (a w : Word) : State :=
  { s with mem := Memory.writeWord s.mem (mainIndex xm a) w }

/-- `MemRead(a, 16)` (R75, R76): the word, and the state after the access; an unclaimed address reads 0. -/
def State.memRead (s : State) (a : Word) : Word × State :=
  match s.cfg.deviceAt a with
  | none => (0, s)
  | some .mainMemory => (s.memWord s.busXm a, s)
  | some (.external d) =>
    (Config.deviceRead s.oracle d a s.busTask s.busXm,
      State.contractCalls { s with oracle := s.oracle + 1 } (Config.deviceCalls s.oracle d a s.busTask s.busXm none))

/-- `MemWrite(a, 16, w)` (R75, R76); an unclaimed address discards it. -/
def State.memWrite (s : State) (a w : Word) : State :=
  match s.cfg.deviceAt a with
  | none => s
  | some .mainMemory => s.setMemWord s.busXm a w
  | some (.external d) =>
    State.contractCalls { s with oracle := s.oracle + 1 } (Config.deviceCalls s.oracle d a s.busTask s.busXm (some w))

/-! ### The memory bus (R67 to R78) -/

/-- The window a cycle falls in, if the table names it (R78). -/
def windowAt (ws : List (Nat × Window)) (cycle : Nat) : Option Window :=
  (ws.find? fun w => w.1 == cycle).map fun w => w.2

/-- The buffered read of the first word (R68). -/
def State.bufferFirst (s : State) : State :=
  if s.busActive && s.busCycle == s.cfg.memTiming.tRead1 then
    (s.memRead s.busMar).2.andThen fun s' => { s' with busMd1 := (s.memRead s.busMar).1 }
  else s

/-- The buffered read of the second word (R68). -/
def State.bufferSecond (s : State) : State :=
  if s.busActive && s.busCycle == s.cfg.memTiming.tRead2 then
    (s.memRead (s.cfg.memTiming.partner.apply s.busMar)).2.andThen fun s' =>
      { s' with busMd2 := (s.memRead (s.cfg.memTiming.partner.apply s.busMar)).1 }
  else s

/-- The auto-close (R68). -/
def State.autoClose (s : State) : State :=
  if s.busActive && s.busCycle == s.cfg.memTiming.tClose then { s with busActive := false, busDwStore := false } else s

/-- `Bus.Clock()` (R68); a stopped machine's bus does not advance (R371). -/
def State.busClock (s : State) : State :=
  (((s.andThen fun s => { s with busCycle := s.busCycle + 1 }).andThen State.bufferFirst).andThen
    State.bufferSecond).andThen State.autoClose

/-- `Bus.LoadMAR(address, task, xm)` (R69). -/
def State.busLoadMAR (s : State) (a : Word) (t : Slot) (xm : Bool) : State :=
  if s.busActive then s.fatal (.fp1 a t)
  else { s with busActive := true, busCycle := 1, busMar := a, busTask := t, busXm := xm
                busDwStore := false, busDwMixed := false }

/-- `Bus.Ready(op)` (R70). -/
def State.busReady (s : State) (op : MemOp) : Bool :=
  !s.busActive ||
    match op with
    | .loadAddress => false
    | .read => decide (s.cfg.memTiming.readyReadAfter < s.busCycle)
    | .store => decide (s.cfg.memTiming.readyStoreAfter < s.busCycle)

/-- Whether the idle branch of `Bus.ReadMD` returns the second word (R71). -/
def State.idleSecond (s : State) : Bool :=
  s.cfg.memTiming.tSecondIdle == some s.busCycle || (s.busCycle == s.cfg.memTiming.tClose && s.busDwMixed)

/-- `Bus.ReadMD()` (R71): the word, and the state after. A Fatal leaves no word; the machine is stopped. -/
def State.busReadMD (s : State) : Word × State :=
  if s.busActive then
    match windowAt s.cfg.memTiming.readWindow s.busCycle with
    | some .first => (s.busMd1, s)
    | some .second => (s.busMd2, s)
    | none => (0, s.fatal (.fp2 s.busCycle))
  else (if s.idleSecond then s.busMd2 else s.busMd1, { s with busDwMixed := false })

/-- `Bus.LoadMD(data)` (R72). -/
def State.busLoadMD (s : State) (w : Word) : State :=
  if s.busActive then
    match windowAt s.cfg.memTiming.storeWindow s.busCycle with
    | some .first => (s.memWrite s.busMar w).andThen fun s => { s with busMd1 := w, busDwStore := true, busDwMixed := true }
    | some .second =>
      (s.memWrite (if s.busDwStore then s.cfg.memTiming.partner.apply s.busMar else s.busMar) w).andThen
        fun s => { s with busMd1 := w }
    | none => s.warn .loadMDMistimed
  else s.warn .loadMDWhileIdle

/-! ### The control store (R260 to R279) -/

/-- The index of a control-store cell among the cells of its bank's kind: 1024 cells a bank (R260). -/
def cellIndex (b : Bank) (a : Addr) : Nat :=
  b.index * 1024 + a.toNat

/-- `CS[bank][a]` (R61, R264): a RAM cell in its executable form, no mask applied. -/
def State.csCell (s : State) (b : Bank) (a : Addr) : MicroWord :=
  if b.isRom then Memory.readCell s.cfg.romImage (cellIndex b a) else Memory.readCell s.csRam (cellIndex b a)

/-- The word the running slot fetches (R61): `CS[BANK[CUR]][MPC[CUR]]`. -/
def State.fetchWord (s : State) : MicroWord :=
  s.csCell (rd s.bank s.cur) (rd s.mpc s.cur)

/-- `CONST[a]` (R44, R66). -/
def State.const (s : State) (a : Byte) : Word :=
  Memory.readWord s.cfg.constRom a.toNat

/-- The four banks other than the given one. -/
def otherBanks : Bank → List Bank
  | .rom0 => [.rom1, .ram0, .ram1, .ram2]
  | .rom1 => [.rom0, .ram0, .ram1, .ram2]
  | .ram0 => [.rom0, .rom1, .ram1, .ram2]
  | .ram1 => [.rom0, .rom1, .ram0, .ram2]
  | .ram2 => [.rom0, .rom1, .ram0, .ram1]

/-- `SWMODE_TABLE[Toggle2]` (R271). -/
def toggle2 : Bank → Bank
  | .rom0 => .ram0
  | .ram0 => .rom0
  | b => b

/-- `SWMODE_TABLE[Split3]` (R272), on bit 8 of the next address. -/
def split3 (b : Bank) (bit8 : Bool) : Bank :=
  match b, bit8 with
  | .rom0, false => .ram0
  | .rom0, true => .rom1
  | .rom1, false => .rom0
  | .rom1, true => .ram0
  | .ram0, false => .rom0
  | .ram0, true => .rom1
  | b, _ => b

/-- `SWMODE_TABLE[Ram5]` (R273): open, but never the bank itself (log 11). -/
def ram5 (b : Bank) (a : Addr) : Bank :=
  ((otherBanks b)[(Config.ram5Pick b a).toNat]?).getD .rom0

/-- `SWMODE_TABLE[CS_CONFIG](bank, nextAddress)` (R270 to R273). The first two tables say nothing of a bank their
configuration lacks, and no slot is ever in one (R261); there the bank is left alone (log 12). -/
def swModeTable (c : CsConfig) (b : Bank) (a : Addr) : Bank :=
  match c with
  | .toggle2 => toggle2 b
  | .split3 => split3 b (a.getLsbD 8)
  | .ram5 => ram5 b a

/-- `SwitchMode(nextAddress, t)` (R270). -/
def State.switchMode (s : State) (a : Addr) (t : Slot) : State :=
  s.setBank t (swModeTable s.cfg.csConfig (rd s.bank t) a)

/-- `RAMbank(n)` (R278); `none` is bank number 3 under `Ram5`. -/
def ramBank (c : CsConfig) (n : BitVec 2) : Option Bank :=
  match c with
  | .ram5 => if n = 0 then some .ram0 else if n = 1 then some .ram1 else if n = 2 then some .ram2 else none
  | .toggle2 | .split3 => some .ram0

/-- CRAR[9:0] (R32). -/
def crarCell (w : Word) : Addr := w.extractLsb' 0 10

/-- CRAR[10] (R32): true selects the high half. -/
def crarHigh (w : Word) : Bool := w.getLsbD 10

/-- CRAR[11] (R32): true selects a ROM. -/
def crarRom (w : Word) : Bool := w.getLsbD 11

/-- CRAR[13:12] (R32). -/
def crarBank (w : Word) : BitVec 2 := w.extractLsb' 12 2

/-- `ReadRAM()` (R275): the half word, and the state after. A ROM, and bank number 3 under `Ram5`, are FD6 (R372, log 13). -/
def State.readRam (s : State) : Word × State :=
  if crarRom s.crar then (0, s.fatal (.fd6 s.crar))
  else
    match ramBank s.cfg.csConfig (crarBank s.crar) with
    | none => (0, s.fatal (.fd6 s.crar))
    | some b =>
      (if crarHigh s.crar then (s.csCell b (crarCell s.crar) ^^^ s.cfg.ramXorMask).extractLsb' 16 16
        else (s.csCell b (crarCell s.crar) ^^^ s.cfg.ramXorMask).extractLsb' 0 16, s)

/-- `WriteRAM(low, high)` (R276): a ROM is left alone; bank number 3 under `Ram5` is FD6 (R375, log 13). -/
def State.writeRam (s : State) (low high : Word) : State :=
  if crarRom s.crar then s
  else
    match ramBank s.cfg.csConfig (crarBank s.crar) with
    | none => s.fatal (.fd6 s.crar)
    | some b =>
      { s with csRam := Memory.writeCell s.csRam (cellIndex b (crarCell s.crar)) ((high ++ low) ^^^ s.cfg.ramXorMask) }

end Sys2Proof.Machine
end

