-- ==== Sys2Proof/Machine/Hooks.lean ====
section
/-! DEFINITION. What a hook's acts do (R46, R240), and the two operations a hook or the host may ask for that themselves
call hooks or undo everything: `SoftReset` (R403) and `Reset` (R401). -/

namespace Sys2Proof

/-! ### Which acts a site permits (R46, R240) -/

/-- The late sites of special functions 1 and 2, in which the branch bits, the shifter modifier and `load_r` may be
written (R240). -/
def HookSite.isLate : HookSite → Bool
  | .f1Late _ | .f2Late _ => true
  | _ => false

/-- The sites that return the bus value (R240). -/
def HookSite.returnsBus : HookSite → Bool
  | .busSource _ | .f2PostBus _ | .f1Early _ => true
  | _ => false

/-- The two policies, which may do nothing but set or clear WAKEUP and update HS (R354). -/
def HookSite.isPolicy : HookSite → Bool
  | .wakeupPolicy | .blockPolicy => true
  | _ => false

/-- The value an act uses, if it uses one. -/
def HookAct.val? : HookAct → Option HookVal
  | .setRsel v | .setBus v | .orNext v | .setR _ v | .setS _ v | .setIr v | .setRmr v | .loadMAR v _ | .loadMD v => some v
  | _ => none

/-- Whether a hook at the site can know the value the act uses: what the site is given (R240), and S for a RAM-resident
task only (R21). -/
def HookAct.visible (site : HookSite) (ram : Bool) (a : HookAct) : Bool :=
  match a.val? with
  | none => true
  | some v => site.sees v && (ram || v != .sReg)

/-- The read and write permissions of R46 and R240. `ram` says whether the task is RAM-resident: only then may a hook read
or write S, raise `load_s` (R21) or write RB (R36). An act that is not permitted has no effect (log 7). -/
def HookAct.permitted (site : HookSite) (ram : Bool) (a : HookAct) : Bool :=
  a.visible site ram &&
    match a with
    | .setRsel _ => match site with | .f2Early _ => true | _ => false
    | .setBus _ => site.returnsBus
    | .raiseLoadS => ram && match site with | .busSource _ => true | _ => false
    | .setLoadR _ => site.isLate || match site with | .busSource _ => true | _ => false
    | .orNext _ | .setShMod _ => site.isLate
    | .needShifter => match site with | .f2Late _ => true | _ => false
    | .setWakeup _ => site.isPolicy
    | .setHs _ => true
    | .setS _ _ | .setRb _ => ram && !site.isPolicy
    | .setR _ _ | .setIr _ | .setSkip _ | .setDnsCarry _ | .setRmr _ | .setSwMode _ | .setRdRam _ | .setWrtRam _
    | .loadMAR _ _ | .readMD | .loadMD _ | .wakeupTask _ | .blockTask _ | .softReset _ => !site.isPolicy

end Sys2Proof

namespace Sys2Proof.Machine

/-! ### What acts read -/

/-- A value an act uses. -/
def Ctx.hookVal (c : Ctx) : HookVal → Word
  | .const w => w
  | .bus => c.w.bus
  | .alu => c.w.alu
  | .shOut => c.w.shOut
  | .ir => c.s.ir
  | .md => c.w.md
  | .sReg => c.s.getS c.w.slot c.w.rsel

/-- A bit an act uses. -/
def Ctx.hookBit (c : Ctx) : HookBit → Bool
  | .const b => b
  | .aluCarry => c.s.aluCarry
  | .dnsCarry => c.s.dnsCarry

/-! ### What acts do -/

/-- Every act but `softReset`. A request for a control-store operation is written to the slot's latch at once and noted
on a wire when the slot is the one that runs, so that the operation its microinstruction carries out does not lose it
(R317, log 15). A bus transaction under `VariantA` is never extended (R77, log 32). -/
def Ctx.basicAct (c : Ctx) : HookAct → Ctx
  | .setRsel v => { c with w := { c.w with rsel := (c.hookVal v).extractLsb' 0 5 } }
  | .setBus v => { c with w := { c.w with bus := c.hookVal v } }
  | .raiseLoadS => { c with w := { c.w with loadS := true } }
  | .setLoadR b => { c with w := { c.w with loadR := b } }
  | .orNext v => { c with w := { c.w with nmOut := c.w.nmOut ||| (c.hookVal v).extractLsb' 0 10 } }
  | .setShMod m => { c with w := { c.w with shMod := m, needShifter := c.w.needShifter || m == .novaStyle } }
  | .needShifter => { c with w := { c.w with needShifter := true } }
  | .setHs n => { c with s := c.s.setHs c.w.slot n }
  | .setR i v => { c with s := c.s.setR i (c.hookVal v) }
  | .setS i v => { c with s := c.s.setS c.w.slot i (c.hookVal v) }
  | .setIr v => { c with s := { c.s with ir := c.hookVal v } }
  | .setSkip b => { c with s := { c.s with skip := c.hookBit b } }
  | .setDnsCarry b => { c with s := { c.s with dnsCarry := c.hookBit b } }
  | .setRmr v => { c with s := { c.s with rmr := c.hookVal v } }
  | .setRb b => { c with s := c.s.setRb c.w.slot b }
  | .setSwMode b =>
    { s := c.s.setSwModeP c.w.slot b, w := { c.w with swModeReq := if c.w.slot = c.w.runner then b else c.w.swModeReq } }
  | .setRdRam b =>
    { s := c.s.setRdRamP c.w.slot b, w := { c.w with rdRamReq := if c.w.slot = c.w.runner then b else c.w.rdRamReq } }
  | .setWrtRam b =>
    { s := c.s.setWrtRamP c.w.slot b, w := { c.w with wrtRamReq := if c.w.slot = c.w.runner then b else c.w.wrtRamReq } }
  | .loadMAR v xm =>
    { c with s := c.s.busLoadMAR (c.hookVal v) c.w.slot (xm && c.s.cfg.memTiming.variant == .variantB) }
  | .readMD => { s := c.s.busReadMD.2, w := { c.w with md := c.s.busReadMD.1 } }
  | .loadMD v => { c with s := c.s.busLoadMD (c.hookVal v) }
  | .wakeupTask t => { c with s := c.s.wakeupTask t }
  | .blockTask t => { c with s := c.s.blockTask t }
  | .softReset _ => c
  | .setWakeup b => { c with s := c.s.setWakeup c.w.slot b }

/-- `soft_reset_now <- true` (R403). -/
def Ctx.raiseSoftReset (c : Ctx) : Ctx :=
  { c with w := { c.w with softResetNow := true } }

/-- Any act. `call n` is what a soft reset of depth `n` does; inside a microinstruction it raises `soft_reset_now` (R318, R403). -/
def Ctx.actWith (call : Nat → Ctx → Ctx) (c : Ctx) (a : HookAct) : Ctx :=
  match a with
  | .softReset n => (call n c).raiseSoftReset
  | _ => c.basicAct a

/-- The acts a defined hook makes, one after the other, those its site permits; it has read no memory word yet. -/
def Ctx.runActsWith (call : Nat → Ctx → Ctx) (c : Ctx) (site : HookSite) (d : Variant × HookEntry) : Ctx :=
  ((c.hookActs site d).filter (HookAct.permitted site (c.s.cfg.isRamTask c.w.slot))).foldl
    (fun (c : Ctx) a => c.andThen fun c => c.actWith call a)
    { s := c.s.countHook d, w := { c.w with md := 0 } }

/-! ### Soft reset (R403, R404) -/

/-- The wires a hook of slot `t` begins with inside a soft reset: none of the microinstruction's, but for the record of its
running slot's requests. -/
def Wires.inReset (w : Wires) (t : Slot) : Wires :=
  { Wires.idle t with
    runner := w.runner, swModeReq := w.swModeReq, rdRamReq := w.rdRamReq, wrtRamReq := w.wrtRamReq }

/-- Back from that hook to the wires `w`: the record of the requests is all it leaves on them. -/
def Ctx.backFromReset (d : Ctx) (w : Wires) : Ctx :=
  { s := d.s, w := { w with swModeReq := d.w.swModeReq, rdRamReq := d.w.rdRamReq, wrtRamReq := d.w.wrtRamReq } }

/-- `onSoftReset` of slot `t`; `call` is what a soft reset that the hook itself asks for does. -/
def Ctx.softResetHook (call : Nat → Ctx → Ctx) (c : Ctx) (t : Slot) : Ctx :=
  match Ctx.hookAt? { s := c.s, w := c.w.inReset t } .onSoftReset with
  | none => c
  | some d => (Ctx.runActsWith call { s := c.s, w := c.w.inReset t } .onSoftReset d).backFromReset c.w

/-- The first loop of R403 for one slot: the hook, then the micro-program counter. -/
def Ctx.softResetSlot (call : Nat → Ctx → Ctx) (c : Ctx) (t : Slot) : Ctx :=
  c.andThen fun c =>
    if c.s.cfg.present t then
      (c.softResetHook call t).andThen fun c => { c with s := c.s.setMpc t (BitVec.ofNat 10 t.val) }
    else c

/-- The second loop of R403 for one slot: the bank from its bit of RMR. -/
def State.softResetBank (s : State) (t : Slot) : State :=
  s.setBank t (if s.rmr.getLsbD t.val then .rom0 else .ram0)

/-- The second loop of R403, RMR restored, and the emulator current. -/
def State.softResetRestart (s : State) : State :=
  { slotsUp.foldl State.softResetBank s with rmr := 0xFFFF, cur := s.cfg.emulatorSlot.getD s.cur }

/-- A contract call that names a task variant: a no-op when no slot is bound to it (R350, R403). -/
def State.callFor (s : State) (v : Variant) (call : State → Slot → State) : State :=
  match s.cfg.slotOf v with
  | none => s
  | some t => call s t

/-- The four adjustments, in D00's order (R404). -/
def State.softResetAdjust (s : State) : State :=
  (((s.callFor .diskSector State.wakeupTask).callFor .diskWord State.blockTask).callFor .tridentInput
    State.blockTask).callFor .tridentOutput State.blockTask

/-- `SoftReset()` (R403) in the midst of whatever calls it. The hooks run from slot 0 up, an order R403 does not fix
(log 33). -/
def Ctx.softResetWith (call : Nat → Ctx → Ctx) (c : Ctx) : Ctx :=
  ((slotsUp.foldl (Ctx.softResetSlot call) c).andThen fun c => { c with s := c.s.softResetRestart }).andThen fun c =>
    { c with s := c.s.softResetAdjust }

/-- A call of depth `n` in a nest with room for `room` more: the depth is `n`, or what room there is if that is less; with
no room there is no call (log 23). -/
def Ctx.softResetNest : Nat → Nat → Ctx → Ctx
  | 0, _ => id
  | room + 1, n => if n < room then Ctx.softResetNest room n else Ctx.softResetWith (Ctx.softResetNest room)

/-- `SoftReset()` (R403) called by a hook that no soft reset calls: an `onSoftReset` hook may call it again (R46), to the
depth its own call names (log 23). -/
def Ctx.softReset (c : Ctx) : Ctx :=
  c.softResetWith fun n => Ctx.softResetNest (n + 1) n

/-- `SoftReset()` (R403) called from outside. -/
def State.softReset (s : State) : State :=
  (Ctx.softReset { s := s, w := Wires.idle s.cur }).s

/-! ### Calling a hook -/

/-- Any act of a hook. -/
def Ctx.act (c : Ctx) (a : HookAct) : Ctx :=
  c.actWith (fun _ => Ctx.softReset) a

/-- The acts a defined hook makes, one after the other, those its site permits. -/
def Ctx.runActs (c : Ctx) (site : HookSite) (d : Variant × HookEntry) : Ctx :=
  c.runActsWith (fun _ => Ctx.softReset) site d

/-- A hook whose default is to do nothing (R240). -/
def Ctx.hook (c : Ctx) (site : HookSite) : Ctx :=
  match c.hookAt? site with
  | none => c
  | some d => c.runActs site d

/-- A hook without which a code is unknown: executing the code then is fatal (R241). -/
def Ctx.hookOr (c : Ctx) (site : HookSite) (unknown : FatalInfo) : Ctx :=
  match c.hookAt? site with
  | none => { c with s := c.s.fatal unknown }
  | some d => c.runActs site d

/-! ### Hard reset (R401) -/

/-- HS of a present slot takes its variant's reset value (R401, R46). -/
def State.resetHs (s : State) (t : Slot) : State :=
  if s.cfg.present t then s.setHs t (rd s.cfg.hsReset t) else s

/-- WAKEUP of the emulator slot is set, of any other cleared (R401). -/
def State.resetWakeup (s : State) (t : Slot) : State :=
  s.setWakeup t (s.cfg.isEmulator t)

/-- The slot the reset scan selects becomes current, its first instruction to come (R401). -/
def State.resetSelect (s : State) : State :=
  match s.scan with
  | none => s
  | some e => { s with cur := e }.setFirst e true

/-- `Reset()` (R401): from any state, running or stopped. The control RAM is not touched (R401);
the main memory, the parameters and the model's own fields are kept (log 25, DEDUCED). -/
def State.hardReset (s : State) : State :=
  (slotsUp.foldl State.resetWakeup (slotsUp.foldl State.resetHs
    { State.reset with
      csRam := s.csRam, mem := s.mem, cfg := s.cfg, hs := s.hs
      oracle := s.oracle, diagnostics := s.diagnostics, agenda := s.agenda, cur := s.cur
      first := Vector.replicate 16 false })).resetSelect

/-! ### The outside (R300, R350, R371, R400) -/

/-- One call from outside. While the machine is stopped only `Reset` changes the CORE (R371); a device-side store is the
device's own business. -/
def State.hostCall (s : State) : HostCall → State
  | .wakeupTask t => s.wakeupTask t
  | .blockTask t => s.blockTask t
  | .softReset => s.softReset
  | .reset => s.hardReset
  | .deviceStore xm a w => s.setMemWord xm a w

/-- The outside's turn at the end of a step (R300): the calls the agenda holds for it, in order (log 18). -/
def State.outside (s : State) : State :=
  match s.agenda with
  | [] => s
  | calls :: later => calls.foldl State.hostCall { s with agenda := later }

end Sys2Proof.Machine
end

