-- ==== Sys2Proof/Machine/Operands.lean ====
section
/-! DEFINITION. The operand values a microinstruction puts on the bus that are computed and not merely selected. -/

namespace Sys2Proof.Machine

/-- The displacement field of IR (R198): sign-extended when IR[9:8] is not 0. -/
def dispOperand (ir : Word) : Word :=
  if ir.extractLsb' 8 2 ≠ 0 ∧ ir.getLsbD 7 = true then (ir.extractLsb' 0 8).setWidth 16 ||| 0xFF00
  else (ir.extractLsb' 0 8).setWidth 16

/-- `0xFFF0 OR zext_16(MouseBits())` (R197). -/
def mouseOperand (bits : BitVec 4) : Word :=
  0xFFF0 ||| bits.setWidth 16

/-- `const_value` of R112, read for every word from the word's own RSEL and BS. -/
def State.constValue (s : State) (w : MicroInstr) : Word :=
  s.const w.constAddr

/-- The extended-memory flag of the reference a word starts (R77). -/
def extendedFlag (g : Config) (w : MicroInstr) : Bool :=
  g.memTiming.variant == .variantB && w.f2 == .storeMD

end Sys2Proof.Machine
end

