-- ==== Sys2Proof/Machine/BusSources.lean ====
section
/-! DEFINITION. The bus sources (R191 to R198), one function for each code of BS: what it puts on the bus. -/

namespace Sys2Proof.Machine

/-- BS = 0, `ReadR` (R191). -/
def srcReadR (c : Ctx) : Ctx :=
  { c with w := { c.w with bus := c.s.getR c.w.rsel } }

/-- BS = 1, `LoadR` (R192): the bus is 0, and the shifter output will be written to R. -/
def srcLoadR (c : Ctx) : Ctx :=
  { c with w := { c.w with bus := 0, loadR := true } }

/-- BS = 2, `None` (R193). -/
def srcNone (c : Ctx) : Ctx :=
  { c with w := { c.w with bus := 0xFFFF } }

/-- A task-specific source (R194): the running variant's hook, or FD2. A hook that names no bus value leaves the bus
undriven, all ones (log 24). -/
def Ctx.taskSource (c : Ctx) (b : BusSource) : Ctx :=
  ({ c with w := { c.w with bus := 0xFFFF } } : Ctx).hookOr (.busSource b) (.fd2 b c.w.slot)

/-- BS = 3, `TaskSpecific1` (R194). -/
def srcTaskSpecific1 (c : Ctx) : Ctx :=
  c.taskSource .taskSpecific1

/-- BS = 4, `TaskSpecific2` (R195). -/
def srcTaskSpecific2 (c : Ctx) : Ctx :=
  c.taskSource .taskSpecific2

/-- BS = 5, `ReadMD` (R196). -/
def srcReadMD (c : Ctx) : Ctx :=
  { s := c.s.busReadMD.2, w := { c.w with bus := c.s.busReadMD.1 } }

/-- BS = 6, `ReadMouse` (R197): the oracle's next answer. -/
def srcReadMouse (c : Ctx) : Ctx :=
  { s := { c.s with oracle := c.s.oracle + 1 }
    w := { c.w with bus := mouseOperand (Config.mouseBits c.s.oracle) } }

/-- BS = 7, `ReadDisp` (R198). -/
def srcReadDisp (c : Ctx) : Ctx :=
  { c with w := { c.w with bus := dispOperand c.s.ir } }

/-- The source a code selects. -/
def sourceTable : BusSource → Ctx → Ctx
  | .readR => srcReadR
  | .loadR => srcLoadR
  | .noSource => srcNone
  | .taskSpecific1 => srcTaskSpecific1
  | .taskSpecific2 => srcTaskSpecific2
  | .readMD => srcReadMD
  | .readMouse => srcReadMouse
  | .readDisp => srcReadDisp

end Sys2Proof.Machine
end

