-- ==== Sys2Proof/Machine/Loads.lean ====
section
/-! DEFINITION. The load flags LT and LL (R314, R315): the write-back of T with CRAR, and of L with M and ALUC0. -/

namespace Sys2Proof.Machine

/-- LT = 1 (R314, R278): T from the ALU or the bus as the function says (R115), CRAR from the ALU. -/
def loadT (c : Ctx) : Ctx :=
  { c with s := { c.s with t := if c.w.mi.aluf.loadTFromAlu then c.w.alu else c.w.bus, crar := c.w.alu } }

/-- LL = 1 (R315): L from the ALU, M too for a RAM-resident task, ALUC0 from this word's carry. -/
def loadL (c : Ctx) : Ctx :=
  { c with s := { c.s with l := c.w.alu, m := if c.s.cfg.isRamTask c.w.slot then c.w.alu else c.s.m
                           aluC0 := c.s.aluCarry } }

/-- A flag of 0: nothing is loaded. -/
def noLoad (c : Ctx) : Ctx := c

/-- The write-back of T that LT selects. -/
def ltTable : Bool → Ctx → Ctx
  | true => loadT
  | false => noLoad

/-- The write-back of L that LL selects. -/
def llTable : Bool → Ctx → Ctx
  | true => loadL
  | false => noLoad

end Sys2Proof.Machine
end

