-- ==== Sys2Proof/Machine/Shifter.lean ====
section
/-! DEFINITION. The shifter (R170 to R181): a pure function of the operation, the modifier, L, T and DNSCARRY. -/

namespace Sys2Proof.Machine

/-- `out[15:1] <- input[14:0]; out[0] <- low` (R173, R175, R178). -/
def shiftInLow (input : Word) (low : Bool) : Word :=
  input.extractLsb' 0 15 ++ BitVec.ofBool low

/-- `out[14:0] <- input[15:1]; out[15] <- high` (R174, R176, R179). -/
def shiftInHigh (high : Bool) (input : Word) : Word :=
  BitVec.ofBool high ++ input.extractLsb' 1 15

/-- `out[15:8] <- input[7:0]; out[7:0] <- input[15:8]` (R177). -/
def swapBytes (input : Word) : Word :=
  input.extractLsb' 0 8 ++ input.extractLsb' 8 8

/-- `DoOperation` (R170, R181): the output and DNSCARRY after. -/
def doOperation (op : ShOp) (mod : ShMod) (input aux : Word) (c : Bool) : Word × Bool :=
  match op, mod with
  | .none, _ => (input, c)
  | .shiftLeft, .none => (shiftInLow input false, c)
  | .shiftLeft, .magic => (shiftInLow input (aux.getLsbD 15), c)
  | .shiftLeft, .novaStyle => (shiftInLow input c, input.getLsbD 15)
  | .shiftRight, .none => (shiftInHigh false input, c)
  | .shiftRight, .magic => (shiftInHigh (aux.getLsbD 0) input, c)
  | .shiftRight, .novaStyle => (shiftInHigh c input, input.getLsbD 0)
  | .rotateLeft8, _ => (swapBytes input, c)

end Sys2Proof.Machine
end

