-- ==== Sys2Proof/Machine/SpecialF1.lean ====
section
/-! DEFINITION. Special function 1 (R210 to R218), one function for each code of F1: what it does when dispatched. -/

namespace Sys2Proof.Machine

/-- F1 = 0, `NOP` (R210). -/
def spNop1 (c : Ctx) : Ctx := c

/-- F1 = 1, `LoadMAR` (R211): the address is the ALU result. -/
def spLoadMAR (c : Ctx) : Ctx :=
  { c with s := c.s.busLoadMAR c.w.alu c.w.slot (extendedFlag c.s.cfg c.w.mi) }

/-- F1 = 2, `TASK` (R212): no effect in the first microinstruction after a switch. -/
def spTask (c : Ctx) : Ctx :=
  if rd c.s.first c.w.slot then c else { c with w := { c.w with taskSwitch := true } }

/-- F1 = 3, `BLOCK` (R213). -/
def spBlock (c : Ctx) : Ctx :=
  { s := c.s.blockTask c.w.slot, w := { c.w with blockNow := true } }

/-- F1 = 4, `LLSH1` (R214). -/
def spLlsh1 (c : Ctx) : Ctx :=
  { c with w := { c.w with shOp := .shiftLeft } }

/-- F1 = 5, `LRSH1` (R215). -/
def spLrsh1 (c : Ctx) : Ctx :=
  { c with w := { c.w with shOp := .shiftRight } }

/-- F1 = 6, `LLCY8` (R216). -/
def spLlcy8 (c : Ctx) : Ctx :=
  { c with w := { c.w with shOp := .rotateLeft8 } }

/-- F1 = 7, `CONSTANT` (R217): nothing at dispatch. -/
def spConstant1 (c : Ctx) : Ctx := c

/-- A task-specific code of F1 (R218): the running variant's late hook, or FD3 (R241). -/
def Ctx.taskF1 (c : Ctx) (f : F1Code) : Ctx :=
  c.hookOr (.f1Late f) (.fd3 f c.w.slot)

/-- F1 = 8, task-specific (R218). -/
def spF1Ts8 (c : Ctx) : Ctx := c.taskF1 .ts8

/-- F1 = 9, task-specific (R218). -/
def spF1Ts9 (c : Ctx) : Ctx := c.taskF1 .ts9

/-- F1 = 10, task-specific (R218). -/
def spF1Ts10 (c : Ctx) : Ctx := c.taskF1 .ts10

/-- F1 = 11, task-specific (R218). -/
def spF1Ts11 (c : Ctx) : Ctx := c.taskF1 .ts11

/-- F1 = 12, task-specific (R218). -/
def spF1Ts12 (c : Ctx) : Ctx := c.taskF1 .ts12

/-- F1 = 13, task-specific (R218). -/
def spF1Ts13 (c : Ctx) : Ctx := c.taskF1 .ts13

/-- F1 = 14, task-specific (R218). -/
def spF1Ts14 (c : Ctx) : Ctx := c.taskF1 .ts14

/-- F1 = 15, task-specific (R218). -/
def spF1Ts15 (c : Ctx) : Ctx := c.taskF1 .ts15

/-- The special function 1 a code selects. -/
def f1Table : F1Code → Ctx → Ctx
  | .nop => spNop1
  | .loadMAR => spLoadMAR
  | .task => spTask
  | .block => spBlock
  | .llsh1 => spLlsh1
  | .lrsh1 => spLrsh1
  | .llcy8 => spLlcy8
  | .constant => spConstant1
  | .ts8 => spF1Ts8
  | .ts9 => spF1Ts9
  | .ts10 => spF1Ts10
  | .ts11 => spF1Ts11
  | .ts12 => spF1Ts12
  | .ts13 => spF1Ts13
  | .ts14 => spF1Ts14
  | .ts15 => spF1Ts15

end Sys2Proof.Machine
end

