-- ==== Sys2Proof/Machine/SpecialF2.lean ====
section
/-! DEFINITION. Special function 2 (R220 to R229), one function for each code of F2. The two shifter tests act after the
shifter is evaluated (R222, R223, R311); every other code acts when dispatched. -/

namespace Sys2Proof.Machine

/-- Branch bits are ORed together (R225). -/
def Ctx.orBranch (c : Ctx) (bits : Addr) : Ctx :=
  { c with w := { c.w with nmOut := c.w.nmOut ||| bits } }

/-- F2 = 0, `NOP` (R220). -/
def spNop2 (c : Ctx) : Ctx := c

/-- F2 = 1, `BUS=0` (R221): the final bus value, not the ALU result. -/
def spBusZero (c : Ctx) : Ctx :=
  if c.w.bus = 0 then c.orBranch 1 else c

/-- F2 = 2, `SH<0` (R222), once the shifter output is known. -/
def spShNeg (c : Ctx) : Ctx :=
  if c.w.shOut.getLsbD 15 then c.orBranch 1 else c

/-- F2 = 3, `SH=0` (R223), once the shifter output is known. -/
def spShZero (c : Ctx) : Ctx :=
  if c.w.shOut = 0 then c.orBranch 1 else c

/-- F2 = 4, `BUS` (R224): the low ten bits of the bus. -/
def spBus (c : Ctx) : Ctx :=
  c.orBranch (c.w.bus.extractLsb' 0 10)

/-- F2 = 5, `ALUCY` (R226): ALUC0 before this word's own load of L. -/
def spAluCy (c : Ctx) : Ctx :=
  c.orBranch (if c.s.aluC0 then 1 else 0)

/-- F2 = 6, `StoreMD` (R227): the bus value; in an extended address load it only marks the reference (R77). -/
def spStoreMD (c : Ctx) : Ctx :=
  if c.w.mi.f1 = .loadMAR ∧ c.s.cfg.memTiming.variant = .variantB then c
  else { c with s := c.s.busLoadMD c.w.bus }

/-- F2 = 7, `CONSTANT` (R228): nothing at dispatch. -/
def spConstant2 (c : Ctx) : Ctx := c

/-- A task-specific code of F2 (R229): the running variant's late hook, or FD4 (R241). -/
def Ctx.taskF2 (c : Ctx) (f : F2Code) : Ctx :=
  c.hookOr (.f2Late f) (.fd4 f c.w.slot)

/-- F2 = 8, task-specific (R229). -/
def spF2Ts8 (c : Ctx) : Ctx := c.taskF2 .ts8

/-- F2 = 9, task-specific (R229). -/
def spF2Ts9 (c : Ctx) : Ctx := c.taskF2 .ts9

/-- F2 = 10, task-specific (R229). -/
def spF2Ts10 (c : Ctx) : Ctx := c.taskF2 .ts10

/-- F2 = 11, task-specific (R229). -/
def spF2Ts11 (c : Ctx) : Ctx := c.taskF2 .ts11

/-- F2 = 12, task-specific (R229). -/
def spF2Ts12 (c : Ctx) : Ctx := c.taskF2 .ts12

/-- F2 = 13, task-specific (R229). -/
def spF2Ts13 (c : Ctx) : Ctx := c.taskF2 .ts13

/-- F2 = 14, task-specific (R229). -/
def spF2Ts14 (c : Ctx) : Ctx := c.taskF2 .ts14

/-- F2 = 15, task-specific (R229). -/
def spF2Ts15 (c : Ctx) : Ctx := c.taskF2 .ts15

/-- What a code of F2 does when dispatched (R310). -/
def f2Table : F2Code → Ctx → Ctx
  | .nop => spNop2
  | .busZero => spBusZero
  | .shNeg => spNop2
  | .shZero => spNop2
  | .bus => spBus
  | .aluCy => spAluCy
  | .storeMD => spStoreMD
  | .constant => spConstant2
  | .ts8 => spF2Ts8
  | .ts9 => spF2Ts9
  | .ts10 => spF2Ts10
  | .ts11 => spF2Ts11
  | .ts12 => spF2Ts12
  | .ts13 => spF2Ts13
  | .ts14 => spF2Ts14
  | .ts15 => spF2Ts15

/-- What a code of F2 does after the shifter (R311). -/
def f2TestTable : F2Code → Ctx → Ctx
  | .shNeg => spShNeg
  | .shZero => spShZero
  | .nop | .busZero | .bus | .aluCy | .storeMD | .constant | .ts8 | .ts9 | .ts10 | .ts11 | .ts12 | .ts13 | .ts14 | .ts15 =>
    spNop2

end Sys2Proof.Machine
end

