-- ==== Sys2Proof/Machine/Sequencer.lean ====
section
/-! DEFINITION. `ExecuteNext` (R301 to R319) and `Clock` (R340 to R346): the order in which the parts of one
microinstruction act, and what the arbiter does with its completion. -/

namespace Sys2Proof.Machine

/-- What the fields of one word contribute to the sequence of R301. -/
structure Stages where
  /-- BS (R191 to R198). -/
  source : Ctx → Ctx
  /-- ALUF (R142 to R156). -/
  alu : Word → Word → Bool → Option AluOut
  /-- F1 (R210 to R218). -/
  f1 : Ctx → Ctx
  /-- F2 when dispatched (R220 to R229). -/
  f2 : Ctx → Ctx
  /-- F2 after the shifter (R222, R223). -/
  f2Test : Ctx → Ctx
  /-- LT (R314). -/
  loadT : Ctx → Ctx
  /-- LL (R315). -/
  loadL : Ctx → Ctx

/-- The contributions of a word's six codes. -/
def Stages.of (w : MicroInstr) : Stages :=
  { source := sourceTable w.bs, alu := aluTable w.aluf, f1 := f1Table w.f1, f2 := f2Table w.f2
    f2Test := f2TestTable w.f2, loadT := ltTable w.lt, loadL := llTable w.ll }

/-- The wires as an executed microinstruction begins (R302); the three latches are read here (R200, R277, R317). -/
def Ctx.begin (w : MicroInstr) (s : State) : Ctx :=
  { s := s
    w := { Wires.idle s.cur with
           mi := w, needShifter := w.needShifter
           swModeNow := rd s.swModeP s.cur, rdRamNow := rd s.rdRamP s.cur, wrtRamNow := rd s.wrtRamP s.cur } }

/-- Sub-step c (R303). -/
def takeBranchBits (c : Ctx) : Ctx :=
  { s := c.s.setNextMod c.w.slot 0, w := { c.w with nmIn := rd c.s.nextMod c.w.slot } }

/-- Sub-step d, the field (R304). -/
def selectRegister (c : Ctx) : Ctx :=
  { c with w := { c.w with rsel := c.w.mi.rsel } }

/-- Sub-step d, the early hook of special function 2 (R304). -/
def earlyF2 (c : Ctx) : Ctx :=
  c.hook (.f2Early c.w.mi.f2)

/-- Sub-step e, first stage (R199): a constant code replaces the source. -/
def selectSource (p : Stages) (c : Ctx) : Ctx :=
  if c.w.mi.constSf then { c with w := { c.w with bus := c.s.constValue c.w.mi } } else p.source c

/-- Sub-step e, second stage (R199): the constant mask. -/
def maskConstant (c : Ctx) : Ctx :=
  if c.w.mi.constAccess then { c with w := { c.w with bus := c.w.bus &&& c.s.constValue c.w.mi } } else c

/-- Sub-step e, third stage (R200, R307): control-RAM read data. -/
def pendingRead (c : Ctx) : Ctx :=
  if c.w.rdRamNow then
    ({ c with s := c.s.readRam.2 } : Ctx).andThen fun d =>
      { s := d.s.setRdRamP d.w.slot d.w.rdRamReq, w := { d.w with bus := d.w.bus &&& c.s.readRam.1 } }
  else c

/-- Sub-step e, fourth stage (R201): the post-bus hook of special function 2, the identity for codes 0 to 7 (log 31). -/
def postBusF2 (c : Ctx) : Ctx :=
  if c.w.mi.f2.taskSpecific then c.hook (.f2PostBus c.w.mi.f2) else c

/-- Sub-step e, last stage (R201): the early hook of special function 1, the identity for codes 0 to 7 (log 31). -/
def earlyF1 (c : Ctx) : Ctx :=
  if c.w.mi.f1.taskSpecific then c.hook (.f1Early c.w.mi.f1) else c

/-- Sub-step f (R308): the ALU runs in every executed microinstruction and overwrites ALUCARRY; FD1 (R156). -/
def runAlu (p : Stages) (c : Ctx) : Ctx :=
  match p.alu c.w.bus c.s.t c.s.skip with
  | none => { c with s := c.s.fatal (.fd1 c.w.mi.aluf) }
  | some out => { s := { c.s with aluCarry := out.carry }, w := { c.w with alu := out.result, cy := out.carry } }

/-- Sub-step g (R309, R277): a pending control-RAM write, with this word's ALU result and M. -/
def pendingWrite (c : Ctx) : Ctx :=
  if c.w.wrtRamNow then
    ({ c with s := c.s.writeRam c.w.alu c.s.m } : Ctx).andThen fun d =>
      { d with s := d.s.setWrtRamP d.w.slot d.w.wrtRamReq }
  else c

/-- Sub-step i, the shifter (R311): its output always exists (R114); DNSCARRY changes only when a consumer asks for the
output (R182, log 16). -/
def runShifter (c : Ctx) : Ctx :=
  { s := if c.w.loadR || c.w.loadS || c.w.needShifter then
           { c.s with dnsCarry := (doOperation c.w.shOp c.w.shMod c.s.l c.s.t c.s.dnsCarry).2 }
         else c.s
    w := { c.w with shOut := (doOperation c.w.shOp c.w.shMod c.s.l c.s.t c.s.dnsCarry).1 } }

/-- Sub-step j, R (R312). -/
def writeBackR (c : Ctx) : Ctx :=
  if c.w.loadR then { c with s := c.s.setR c.w.rsel c.w.shOut } else c

/-- Sub-step j, S (R313). -/
def writeBackS (c : Ctx) : Ctx :=
  if c.w.loadS then { c with s := c.s.setS c.w.slot c.w.rsel c.w.shOut } else c

/-- Sub-step k (R316): for every F2 code. -/
def afterShift (c : Ctx) : Ctx :=
  c.hook (.f2AfterShift c.w.mi.f2)

/-- The successor's address, `NEXT OR nm_in` (R318). -/
def Wires.successor (w : Wires) : Addr :=
  w.mi.next ||| w.nmIn

/-- Sub-step l, a pending bank switch (R317). -/
def pendingSwitch (c : Ctx) : Ctx :=
  if c.w.swModeNow then
    { c with s := (c.s.switchMode c.w.successor c.w.slot).setSwModeP c.w.slot c.w.swModeReq }
  else c

/-- Sub-step l, the block hook (R317). -/
def blockHook (c : Ctx) : Ctx :=
  if c.w.blockNow then c.hook .onBlock else c

/-- Sub-step m (R318): a soft reset in this microinstruction has already set MPC. -/
def nextAddress (c : Ctx) : Ctx :=
  { c with s := (if c.w.softResetNow then c.s else c.s.setMpc c.w.slot c.w.successor).setNextMod c.w.slot c.w.nmOut }

/-- Sub-step n (R319). -/
def clearFirst (c : Ctx) : Ctx :=
  { c with s := c.s.setFirst c.w.slot false }

/-- The sub-steps c to n of R301, in their order. -/
def subSteps (p : Stages) : List (Ctx → Ctx) :=
  [takeBranchBits, selectRegister, earlyF2, selectSource p, maskConstant, pendingRead, postBusF2, earlyF1, runAlu p,
    pendingWrite, p.f1, p.f2, runShifter, p.f2Test, writeBackR, writeBackS, p.loadT, p.loadL, afterShift, pendingSwitch,
    blockHook, nextAddress, clearFirst]

/-- The sub-steps one after the other; a Fatal stops the machine at the one that raises it (R301, R373). -/
def executeNext (p : Stages) (c : Ctx) : Ctx :=
  (subSteps p).foldl Ctx.andThen c

/-- Sub-step b (R302): whether the word must wait for the memory bus. -/
def State.stalls (s : State) (w : MicroInstr) : Bool :=
  match w.memOp with
  | none => false
  | some op => !s.busReady op

/-- The commit of a pending switch (R344, R377): the machine's counterpart of taking an interrupt. -/
def State.commitSwitch (s : State) : State :=
  match s.nextTask with
  | none => s
  | some n =>
    (Ctx.hook { s := { s with cur := n, nextTask := none }.setFirst n true, w := Wires.idle n } .onTaskSwitch).s

/-- What `Clock()` does with the completion of an executed microinstruction (R340): `TaskSwitch` makes the request (R342),
`Normal` commits a pending one (R344). -/
def Ctx.complete (c : Ctx) : State :=
  c.s.andThen fun s => if c.w.taskSwitch then { s with nextTask := s.scan } else s.commitSwitch

/-- `Clock()` (R340) on the word `w`, with the parts `p` of its fields: nothing while stopped (R371), nothing on
`MemoryWait` (R302, R346). -/
def State.clock (s : State) (p : Stages) (w : MicroInstr) : State :=
  s.andThen fun s => if s.stalls w then s else (executeNext p (Ctx.begin w s)).complete

/-- The outcome of a step of this machine. -/
abbrev Result := Host.Outcome State Fault Refusal

/-- `Clock()` as an outcome: it always has a next state (log 2). -/
def clockWith (p : Stages) (w : MicroInstr) (s : State) : Result :=
  .next (s.clock p w)

end Sys2Proof.Machine
end

