-- ==== Sys2Proof/Machine/AlufRows.lean ====
section
/-! DEFINITION. The meanings of the rows of ALUF (R142 to R156): `Clock()` on the word (R301, R340), with
the ALU function of the row in its place and the other fields as the word holds them. -/

namespace Sys2Proof.Machine

/-- `ALUF` = 0, `BUS` (R142). -/
def execAlufBus (o : AlufOps) (s : State) : Result :=
  clockWith { Stages.of (o.word .bus) with alu := aluBus } (o.word .bus) s

/-- `ALUF` = 1, `T` (R143). -/
def execAlufT (o : AlufOps) (s : State) : Result :=
  clockWith { Stages.of (o.word .t) with alu := aluT } (o.word .t) s

/-- `ALUF` = 2, `BUS OR T` (R144). -/
def execAlufBusOrT (o : AlufOps) (s : State) : Result :=
  clockWith { Stages.of (o.word .busOrT) with alu := aluBusOrT } (o.word .busOrT) s

/-- `ALUF` = 3, `BUS AND T` (R145). -/
def execAlufBusAndT (o : AlufOps) (s : State) : Result :=
  clockWith { Stages.of (o.word .busAndT) with alu := aluBusAndT } (o.word .busAndT) s

/-- `ALUF` = 4, `BUS XOR T` (R146). -/
def execAlufBusXorT (o : AlufOps) (s : State) : Result :=
  clockWith { Stages.of (o.word .busXorT) with alu := aluBusXorT } (o.word .busXorT) s

/-- `ALUF` = 5, `BUS+1` (R147). -/
def execAlufBusPlus1 (o : AlufOps) (s : State) : Result :=
  clockWith { Stages.of (o.word .busPlus1) with alu := aluBusPlus1 } (o.word .busPlus1) s

/-- `ALUF` = 6, `BUS-1` (R148). -/
def execAlufBusMinus1 (o : AlufOps) (s : State) : Result :=
  clockWith { Stages.of (o.word .busMinus1) with alu := aluBusMinus1 } (o.word .busMinus1) s

/-- `ALUF` = 7, `BUS+T` (R149). -/
def execAlufBusPlusT (o : AlufOps) (s : State) : Result :=
  clockWith { Stages.of (o.word .busPlusT) with alu := aluBusPlusT } (o.word .busPlusT) s

/-- `ALUF` = 8, `BUS-T` (R150). -/
def execAlufBusMinusT (o : AlufOps) (s : State) : Result :=
  clockWith { Stages.of (o.word .busMinusT) with alu := aluBusMinusT } (o.word .busMinusT) s

/-- `ALUF` = 9, `BUS-T-1` (R151). -/
def execAlufBusMinusTMinus1 (o : AlufOps) (s : State) : Result :=
  clockWith { Stages.of (o.word .busMinusTMinus1) with alu := aluBusMinusTMinus1 } (o.word .busMinusTMinus1) s

/-- `ALUF` = 10, `BUS+T+1` (R152). -/
def execAlufBusPlusTPlus1 (o : AlufOps) (s : State) : Result :=
  clockWith { Stages.of (o.word .busPlusTPlus1) with alu := aluBusPlusTPlus1 } (o.word .busPlusTPlus1) s

/-- `ALUF` = 11, `BUS+SKIP` (R153). -/
def execAlufBusPlusSkip (o : AlufOps) (s : State) : Result :=
  clockWith { Stages.of (o.word .busPlusSkip) with alu := aluBusPlusSkip } (o.word .busPlusSkip) s

/-- `ALUF` = 12, `BUS.T` (R154). -/
def execAlufBusDotT (o : AlufOps) (s : State) : Result :=
  clockWith { Stages.of (o.word .busDotT) with alu := aluBusDotT } (o.word .busDotT) s

/-- `ALUF` = 13, `BUS AND NOT T` (R155). -/
def execAlufBusAndNotT (o : AlufOps) (s : State) : Result :=
  clockWith { Stages.of (o.word .busAndNotT) with alu := aluBusAndNotT } (o.word .busAndNotT) s

/-- `ALUF` = 14, `undefined code 14` (R156): FD1, which stops the machine when sub-step f runs. -/
def execAlufUndef14 (o : AlufOps) (s : State) : Result :=
  clockWith { Stages.of (o.word .undef14) with alu := aluUndef14 } (o.word .undef14) s

/-- `ALUF` = 15, `undefined code 15` (R156): FD1, which stops the machine when sub-step f runs. -/
def execAlufUndef15 (o : AlufOps) (s : State) : Result :=
  clockWith { Stages.of (o.word .undef15) with alu := aluUndef15 } (o.word .undef15) s

end Sys2Proof.Machine
end

