-- ==== Sys2Proof/Machine/BsRows.lean ====
section
/-! DEFINITION. The meanings of the rows of BS (R191 to R198): `Clock()` on the word (R301, R340), with
the bus source of the row in its place and the other fields as the word holds them. -/

namespace Sys2Proof.Machine

/-- `BS` = 0, `ReadR` (R191). -/
def execBsReadR (o : BsOps) (s : State) : Result :=
  clockWith { Stages.of (o.word .readR) with source := srcReadR } (o.word .readR) s

/-- `BS` = 1, `LoadR` (R192). -/
def execBsLoadR (o : BsOps) (s : State) : Result :=
  clockWith { Stages.of (o.word .loadR) with source := srcLoadR } (o.word .loadR) s

/-- `BS` = 2, `None` (R193). -/
def execBsNoSource (o : BsOps) (s : State) : Result :=
  clockWith { Stages.of (o.word .noSource) with source := srcNone } (o.word .noSource) s

/-- `BS` = 3, `TaskSpecific1` (R194): the running variant's hook, FD2 where it defines none. -/
def execBsTaskSpecific1 (o : BsOps) (s : State) : Result :=
  clockWith { Stages.of (o.word .taskSpecific1) with source := srcTaskSpecific1 } (o.word .taskSpecific1) s

/-- `BS` = 4, `TaskSpecific2` (R195): the running variant's hook, FD2 where it defines none. -/
def execBsTaskSpecific2 (o : BsOps) (s : State) : Result :=
  clockWith { Stages.of (o.word .taskSpecific2) with source := srcTaskSpecific2 } (o.word .taskSpecific2) s

/-- `BS` = 5, `ReadMD` (R196). -/
def execBsReadMD (o : BsOps) (s : State) : Result :=
  clockWith { Stages.of (o.word .readMD) with source := srcReadMD } (o.word .readMD) s

/-- `BS` = 6, `ReadMouse` (R197). -/
def execBsReadMouse (o : BsOps) (s : State) : Result :=
  clockWith { Stages.of (o.word .readMouse) with source := srcReadMouse } (o.word .readMouse) s

/-- `BS` = 7, `ReadDisp` (R198). -/
def execBsReadDisp (o : BsOps) (s : State) : Result :=
  clockWith { Stages.of (o.word .readDisp) with source := srcReadDisp } (o.word .readDisp) s

end Sys2Proof.Machine
end

