-- ==== Sys2Proof/Machine/F1Rows.lean ====
section
/-! DEFINITION. The meanings of the rows of F1 (R210 to R218): `Clock()` on the word (R301, R340), with
the special function 1 of the row in its place and the other fields as the word holds them. -/

namespace Sys2Proof.Machine

/-- `F1` = 0, `NOP` (R210). -/
def execF1Nop (o : F1Ops) (s : State) : Result :=
  clockWith { Stages.of (o.word .nop) with f1 := spNop1 } (o.word .nop) s

/-- `F1` = 1, `LoadMAR` (R211). -/
def execF1LoadMAR (o : F1Ops) (s : State) : Result :=
  clockWith { Stages.of (o.word .loadMAR) with f1 := spLoadMAR } (o.word .loadMAR) s

/-- `F1` = 2, `TASK` (R212). -/
def execF1Task (o : F1Ops) (s : State) : Result :=
  clockWith { Stages.of (o.word .task) with f1 := spTask } (o.word .task) s

/-- `F1` = 3, `BLOCK` (R213). -/
def execF1Block (o : F1Ops) (s : State) : Result :=
  clockWith { Stages.of (o.word .block) with f1 := spBlock } (o.word .block) s

/-- `F1` = 4, `LLSH1` (R214). -/
def execF1Llsh1 (o : F1Ops) (s : State) : Result :=
  clockWith { Stages.of (o.word .llsh1) with f1 := spLlsh1 } (o.word .llsh1) s

/-- `F1` = 5, `LRSH1` (R215). -/
def execF1Lrsh1 (o : F1Ops) (s : State) : Result :=
  clockWith { Stages.of (o.word .lrsh1) with f1 := spLrsh1 } (o.word .lrsh1) s

/-- `F1` = 6, `LLCY8` (R216). -/
def execF1Llcy8 (o : F1Ops) (s : State) : Result :=
  clockWith { Stages.of (o.word .llcy8) with f1 := spLlcy8 } (o.word .llcy8) s

/-- `F1` = 7, `CONSTANT` (R217). -/
def execF1Constant (o : F1Ops) (s : State) : Result :=
  clockWith { Stages.of (o.word .constant) with f1 := spConstant1 } (o.word .constant) s

/-- `F1` = 8, `F1.TS8` (R218): the running variant's hook, FD3 where it defines none. -/
def execF1Ts8 (o : F1Ops) (s : State) : Result :=
  clockWith { Stages.of (o.word .ts8) with f1 := spF1Ts8 } (o.word .ts8) s

/-- `F1` = 9, `F1.TS9` (R218): the running variant's hook, FD3 where it defines none. -/
def execF1Ts9 (o : F1Ops) (s : State) : Result :=
  clockWith { Stages.of (o.word .ts9) with f1 := spF1Ts9 } (o.word .ts9) s

/-- `F1` = 10, `F1.TS10` (R218): the running variant's hook, FD3 where it defines none. -/
def execF1Ts10 (o : F1Ops) (s : State) : Result :=
  clockWith { Stages.of (o.word .ts10) with f1 := spF1Ts10 } (o.word .ts10) s

/-- `F1` = 11, `F1.TS11` (R218): the running variant's hook, FD3 where it defines none. -/
def execF1Ts11 (o : F1Ops) (s : State) : Result :=
  clockWith { Stages.of (o.word .ts11) with f1 := spF1Ts11 } (o.word .ts11) s

/-- `F1` = 12, `F1.TS12` (R218): the running variant's hook, FD3 where it defines none. -/
def execF1Ts12 (o : F1Ops) (s : State) : Result :=
  clockWith { Stages.of (o.word .ts12) with f1 := spF1Ts12 } (o.word .ts12) s

/-- `F1` = 13, `F1.TS13` (R218): the running variant's hook, FD3 where it defines none. -/
def execF1Ts13 (o : F1Ops) (s : State) : Result :=
  clockWith { Stages.of (o.word .ts13) with f1 := spF1Ts13 } (o.word .ts13) s

/-- `F1` = 14, `F1.TS14` (R218): the running variant's hook, FD3 where it defines none. -/
def execF1Ts14 (o : F1Ops) (s : State) : Result :=
  clockWith { Stages.of (o.word .ts14) with f1 := spF1Ts14 } (o.word .ts14) s

/-- `F1` = 15, `F1.TS15` (R218): the running variant's hook, FD3 where it defines none. -/
def execF1Ts15 (o : F1Ops) (s : State) : Result :=
  clockWith { Stages.of (o.word .ts15) with f1 := spF1Ts15 } (o.word .ts15) s

end Sys2Proof.Machine
end

