-- ==== Sys2Proof/Machine/F2Rows.lean ====
section
/-! DEFINITION. The meanings of the rows of F2 (R220 to R229): `Clock()` on the word (R301, R340), with
the special function 2, its dispatch and its test after the shifter of the row in its place and the other fields as the word holds them. -/

namespace Sys2Proof.Machine

/-- `F2` = 0, `NOP` (R220). -/
def execF2Nop (o : F2Ops) (s : State) : Result :=
  clockWith { Stages.of (o.word .nop) with f2 := spNop2, f2Test := spNop2 } (o.word .nop) s

/-- `F2` = 1, `BUS=0` (R221). -/
def execF2BusZero (o : F2Ops) (s : State) : Result :=
  clockWith { Stages.of (o.word .busZero) with f2 := spBusZero, f2Test := spNop2 } (o.word .busZero) s

/-- `F2` = 2, `SH<0` (R222). -/
def execF2ShNeg (o : F2Ops) (s : State) : Result :=
  clockWith { Stages.of (o.word .shNeg) with f2 := spNop2, f2Test := spShNeg } (o.word .shNeg) s

/-- `F2` = 3, `SH=0` (R223). -/
def execF2ShZero (o : F2Ops) (s : State) : Result :=
  clockWith { Stages.of (o.word .shZero) with f2 := spNop2, f2Test := spShZero } (o.word .shZero) s

/-- `F2` = 4, `BUS` (R224). -/
def execF2Bus (o : F2Ops) (s : State) : Result :=
  clockWith { Stages.of (o.word .bus) with f2 := spBus, f2Test := spNop2 } (o.word .bus) s

/-- `F2` = 5, `ALUCY` (R226). -/
def execF2AluCy (o : F2Ops) (s : State) : Result :=
  clockWith { Stages.of (o.word .aluCy) with f2 := spAluCy, f2Test := spNop2 } (o.word .aluCy) s

/-- `F2` = 6, `StoreMD` (R227). -/
def execF2StoreMD (o : F2Ops) (s : State) : Result :=
  clockWith { Stages.of (o.word .storeMD) with f2 := spStoreMD, f2Test := spNop2 } (o.word .storeMD) s

/-- `F2` = 7, `CONSTANT` (R228). -/
def execF2Constant (o : F2Ops) (s : State) : Result :=
  clockWith { Stages.of (o.word .constant) with f2 := spConstant2, f2Test := spNop2 } (o.word .constant) s

/-- `F2` = 8, `F2.TS8` (R229): the running variant's hook, FD4 where it defines none. -/
def execF2Ts8 (o : F2Ops) (s : State) : Result :=
  clockWith { Stages.of (o.word .ts8) with f2 := spF2Ts8, f2Test := spNop2 } (o.word .ts8) s

/-- `F2` = 9, `F2.TS9` (R229): the running variant's hook, FD4 where it defines none. -/
def execF2Ts9 (o : F2Ops) (s : State) : Result :=
  clockWith { Stages.of (o.word .ts9) with f2 := spF2Ts9, f2Test := spNop2 } (o.word .ts9) s

/-- `F2` = 10, `F2.TS10` (R229): the running variant's hook, FD4 where it defines none. -/
def execF2Ts10 (o : F2Ops) (s : State) : Result :=
  clockWith { Stages.of (o.word .ts10) with f2 := spF2Ts10, f2Test := spNop2 } (o.word .ts10) s

/-- `F2` = 11, `F2.TS11` (R229): the running variant's hook, FD4 where it defines none. -/
def execF2Ts11 (o : F2Ops) (s : State) : Result :=
  clockWith { Stages.of (o.word .ts11) with f2 := spF2Ts11, f2Test := spNop2 } (o.word .ts11) s

/-- `F2` = 12, `F2.TS12` (R229): the running variant's hook, FD4 where it defines none. -/
def execF2Ts12 (o : F2Ops) (s : State) : Result :=
  clockWith { Stages.of (o.word .ts12) with f2 := spF2Ts12, f2Test := spNop2 } (o.word .ts12) s

/-- `F2` = 13, `F2.TS13` (R229): the running variant's hook, FD4 where it defines none. -/
def execF2Ts13 (o : F2Ops) (s : State) : Result :=
  clockWith { Stages.of (o.word .ts13) with f2 := spF2Ts13, f2Test := spNop2 } (o.word .ts13) s

/-- `F2` = 14, `F2.TS14` (R229): the running variant's hook, FD4 where it defines none. -/
def execF2Ts14 (o : F2Ops) (s : State) : Result :=
  clockWith { Stages.of (o.word .ts14) with f2 := spF2Ts14, f2Test := spNop2 } (o.word .ts14) s

/-- `F2` = 15, `F2.TS15` (R229): the running variant's hook, FD4 where it defines none. -/
def execF2Ts15 (o : F2Ops) (s : State) : Result :=
  clockWith { Stages.of (o.word .ts15) with f2 := spF2Ts15, f2Test := spNop2 } (o.word .ts15) s

end Sys2Proof.Machine
end

