-- ==== Sys2Proof/Machine/LoadRows.lean ====
section
/-! DEFINITION. The meanings of the rows LT and LL (R314, R315): `Clock()` on the word (R301, R340) with the write-back the
flag selects in its place and the other fields as the word holds them. -/

namespace Sys2Proof.Machine

/-- `LT` = 1, load T and CRAR (R314). -/
def execLt (o : LtOps) (s : State) : Result :=
  clockWith { Stages.of o.word with loadT := loadT } o.word s

/-- `LL` = 1, load L, M and ALUC0 (R315). -/
def execLl (o : LlOps) (s : State) : Result :=
  clockWith { Stages.of o.word with loadL := loadL } o.word s

end Sys2Proof.Machine
end

