-- ==== Sys2Proof/Machine/Dispatch.lean ====
section
/-! DEFINITION. One arm per constructor of `Instr`, each one call of that row's meaning. -/

namespace Sys2Proof.Machine

/-- The meaning of an instruction (R301 to R319, R340 to R346). -/
def exec (i : Instr) (s : State) : Host.Outcome State Fault Refusal :=
  match i with
  | .alufBus o => Sys2Proof.Machine.execAlufBus o s
  | .alufT o => Sys2Proof.Machine.execAlufT o s
  | .alufBusOrT o => Sys2Proof.Machine.execAlufBusOrT o s
  | .alufBusAndT o => Sys2Proof.Machine.execAlufBusAndT o s
  | .alufBusXorT o => Sys2Proof.Machine.execAlufBusXorT o s
  | .alufBusPlus1 o => Sys2Proof.Machine.execAlufBusPlus1 o s
  | .alufBusMinus1 o => Sys2Proof.Machine.execAlufBusMinus1 o s
  | .alufBusPlusT o => Sys2Proof.Machine.execAlufBusPlusT o s
  | .alufBusMinusT o => Sys2Proof.Machine.execAlufBusMinusT o s
  | .alufBusMinusTMinus1 o => Sys2Proof.Machine.execAlufBusMinusTMinus1 o s
  | .alufBusPlusTPlus1 o => Sys2Proof.Machine.execAlufBusPlusTPlus1 o s
  | .alufBusPlusSkip o => Sys2Proof.Machine.execAlufBusPlusSkip o s
  | .alufBusDotT o => Sys2Proof.Machine.execAlufBusDotT o s
  | .alufBusAndNotT o => Sys2Proof.Machine.execAlufBusAndNotT o s
  | .alufUndef14 o => Sys2Proof.Machine.execAlufUndef14 o s
  | .alufUndef15 o => Sys2Proof.Machine.execAlufUndef15 o s
  | .bsReadR o => Sys2Proof.Machine.execBsReadR o s
  | .bsLoadR o => Sys2Proof.Machine.execBsLoadR o s
  | .bsNoSource o => Sys2Proof.Machine.execBsNoSource o s
  | .bsTaskSpecific1 o => Sys2Proof.Machine.execBsTaskSpecific1 o s
  | .bsTaskSpecific2 o => Sys2Proof.Machine.execBsTaskSpecific2 o s
  | .bsReadMD o => Sys2Proof.Machine.execBsReadMD o s
  | .bsReadMouse o => Sys2Proof.Machine.execBsReadMouse o s
  | .bsReadDisp o => Sys2Proof.Machine.execBsReadDisp o s
  | .f1Nop o => Sys2Proof.Machine.execF1Nop o s
  | .f1LoadMAR o => Sys2Proof.Machine.execF1LoadMAR o s
  | .f1Task o => Sys2Proof.Machine.execF1Task o s
  | .f1Block o => Sys2Proof.Machine.execF1Block o s
  | .f1Llsh1 o => Sys2Proof.Machine.execF1Llsh1 o s
  | .f1Lrsh1 o => Sys2Proof.Machine.execF1Lrsh1 o s
  | .f1Llcy8 o => Sys2Proof.Machine.execF1Llcy8 o s
  | .f1Constant o => Sys2Proof.Machine.execF1Constant o s
  | .f1Ts8 o => Sys2Proof.Machine.execF1Ts8 o s
  | .f1Ts9 o => Sys2Proof.Machine.execF1Ts9 o s
  | .f1Ts10 o => Sys2Proof.Machine.execF1Ts10 o s
  | .f1Ts11 o => Sys2Proof.Machine.execF1Ts11 o s
  | .f1Ts12 o => Sys2Proof.Machine.execF1Ts12 o s
  | .f1Ts13 o => Sys2Proof.Machine.execF1Ts13 o s
  | .f1Ts14 o => Sys2Proof.Machine.execF1Ts14 o s
  | .f1Ts15 o => Sys2Proof.Machine.execF1Ts15 o s
  | .f2Nop o => Sys2Proof.Machine.execF2Nop o s
  | .f2BusZero o => Sys2Proof.Machine.execF2BusZero o s
  | .f2ShNeg o => Sys2Proof.Machine.execF2ShNeg o s
  | .f2ShZero o => Sys2Proof.Machine.execF2ShZero o s
  | .f2Bus o => Sys2Proof.Machine.execF2Bus o s
  | .f2AluCy o => Sys2Proof.Machine.execF2AluCy o s
  | .f2StoreMD o => Sys2Proof.Machine.execF2StoreMD o s
  | .f2Constant o => Sys2Proof.Machine.execF2Constant o s
  | .f2Ts8 o => Sys2Proof.Machine.execF2Ts8 o s
  | .f2Ts9 o => Sys2Proof.Machine.execF2Ts9 o s
  | .f2Ts10 o => Sys2Proof.Machine.execF2Ts10 o s
  | .f2Ts11 o => Sys2Proof.Machine.execF2Ts11 o s
  | .f2Ts12 o => Sys2Proof.Machine.execF2Ts12 o s
  | .f2Ts13 o => Sys2Proof.Machine.execF2Ts13 o s
  | .f2Ts14 o => Sys2Proof.Machine.execF2Ts14 o s
  | .f2Ts15 o => Sys2Proof.Machine.execF2Ts15 o s
  | .lt o => Sys2Proof.Machine.execLt o s
  | .ll o => Sys2Proof.Machine.execLl o s

end Sys2Proof.Machine
end

