-- ==== Sys2Proof/Machine/System.lean ====
section
/-! DEFINITION. What a system step needs besides `Clock()`: the constraints on the parameters without which no rule of the
spec applies (U15), and the placing of a word in the cell that the next fetch reads. -/

namespace Sys2Proof

/-- Exactly one slot is bound to the emulator variant, and it is lower than every other present slot (R41). -/
def Config.emulatorLowest (g : Config) : Bool :=
  slotsUp.any fun e =>
    g.isEmulator e && slotsUp.all fun t => t == e || !g.present t || (decide (e < t) && !g.isEmulator t)

/-- Two ranges that share no address, or that one device declares. -/
def DeviceRange.apart (d e : DeviceRange) : Bool :=
  d.kind == e.kind || d.hi.ult d.lo || e.hi.ult e.lo || d.hi.ult e.lo || e.hi.ult d.lo

/-- No two devices claim one address (R75, U15). That the ranges one device declares may overlap is the model's choice
(log 36). -/
def devicesApart : List DeviceRange → Bool
  | [] => true
  | d :: ds => ds.all d.apart && devicesApart ds

/-- The constraints on the parameters (R41, R75, U15). -/
def Config.valid (g : Config) : Bool :=
  g.emulatorLowest && devicesApart g.devices

end Sys2Proof

namespace Sys2Proof.Machine

/-- The parameters meet their constraints and CUR names a present slot (U15). -/
def State.ready (s : State) : Bool :=
  s.cfg.valid && s.cfg.present s.cur

/-- The word placed in a cell of a bank: in ROM_IMAGE for a ROM, in the control RAM otherwise, in executable form (R264,
R274). -/
def State.setCsCell (s : State) (b : Bank) (a : Addr) (w : MicroWord) : State :=
  if b.isRom then { s with cfg := { s.cfg with romImage := Memory.writeCell s.cfg.romImage (cellIndex b a) w } }
  else { s with csRam := Memory.writeCell s.csRam (cellIndex b a) w }

/-- What `Clock()` answers, followed by the outside's turn (R300). -/
def State.afterClock (r : Result) : Result :=
  match r with
  | .next s => .next s.outside
  | .fault e => .fault e
  | .refused e => .refused e

end Sys2Proof.Machine
end

