-- ==== Sys2Proof/Machine/Step.lean ====
section
/-! DEFINITION. One system step (R300): `Bus.Clock()`, then `Clock()` on the word the running slot fetches, then the
outside's turn. A stopped machine takes no step of its own; only the outside can act on it, and only `Reset` revives it
(R371). -/

namespace Sys2Proof.Machine

/-- One system step (R300). -/
def step (s : State) : Host.Outcome State Fault Refusal :=
  if s.ready then
    match s.status with
    | .stopped _ _ => .next s.outside
    | .running =>
      match s.busClock.status with
      | .stopped _ _ => .next s.busClock.outside
      | .running => State.afterClock (exec (decode s.busClock.fetchWord) s.busClock)
  else .refused .badConfiguration

/-- `s` with the given instruction in the cell that the next step fetches: the cell MPC[CUR] of bank BANK[CUR] (R61). The
cell may be in a ROM: a ROM image is loaded from outside the machine, and this stands for that load (log 26). -/
def State.withFetchWord (s : State) (nbits w : Nat) : State :=
  s.setCsCell (rd s.bank s.cur) (rd s.mpc s.cur) (tableCell nbits w)

end Sys2Proof.Machine
end

