-- ==== Sys2Proof/Safety.lean ====
section
/-! DEFINITION. The terms the statements use: the invariant of the machine, the points inside one microinstruction, and
the result of a plain microinstruction written out field by field. -/

namespace Sys2Proof.Machine

/-! ### The invariant -/

/-- While a transaction is active its cycle number lies before the closing cycle (R67, R68); a stopped machine may be
caught inside `Bus.Clock()`. -/
def State.busInv (s : State) : Prop :=
  s.status = .running → s.busActive = true → 1 ≤ s.busCycle ∧ s.busCycle < s.cfg.memTiming.tClose

/-- What every step keeps: the parameters meet their constraints (R41, R75) and close a transaction after its first
cycle (R67); CUR and NEXT_TASK name present slots (R40); the emulator is always awake (R34); every slot is in a bank of
the configuration (R35, R261); the bus counts within a transaction; every memory is in its canonical form (log 6). -/
def State.Inv (s : State) : Prop :=
  s.cfg.valid = true ∧ 2 ≤ s.cfg.memTiming.tClose ∧
  s.cfg.present s.cur = true ∧ (∀ n, s.nextTask = some n → s.cfg.present n = true) ∧
  (∀ t, s.cfg.isEmulator t = true → rd s.wakeup t = true) ∧
  (∀ t, s.cfg.csConfig.hasBank (rd s.bank t) = true) ∧
  s.busInv ∧
  Memory.wf s.mem = true ∧ Memory.wf s.csRam = true ∧ Memory.wf s.cfg.romImage = true ∧ Memory.wf s.cfg.constRom = true

/-- A state from which the machine goes on: it has not met a fatal error (R371). -/
def State.safe (s : State) : Prop :=
  s.status = .running

/-! ### Points inside a microinstruction

The sub-steps of R301 are state transformers applied in order; `State.before` is where one of them begins, `Ctx.resume`
is what the rest of the microinstruction and the arbiter make of what it left. -/

/-- The sub-steps of R301, in the model's division. -/
inductive SubStep where
  | branchBits | register | earlyF2 | source | mask | ramRead | postBusF2 | earlyF1 | alu | ramWrite | f1 | f2 | shifter
  | f2Test | writeR | writeS | loadT | loadL | afterShift | bankSwitch | blockHook | nextAddress | clearFirst
  deriving DecidableEq, Repr

/-- The place of a sub-step in `subSteps`. -/
def SubStep.index : SubStep → Nat
  | .branchBits => 0
  | .register => 1
  | .earlyF2 => 2
  | .source => 3
  | .mask => 4
  | .ramRead => 5
  | .postBusF2 => 6
  | .earlyF1 => 7
  | .alu => 8
  | .ramWrite => 9
  | .f1 => 10
  | .f2 => 11
  | .shifter => 12
  | .f2Test => 13
  | .writeR => 14
  | .writeS => 15
  | .loadT => 16
  | .loadL => 17
  | .afterShift => 18
  | .bankSwitch => 19
  | .blockHook => 20
  | .nextAddress => 21
  | .clearFirst => 22

/-- The state and the wires as a sub-step of the word begins. -/
def State.before (s : State) (g : SubStep) (w : MicroInstr) : Ctx :=
  ((subSteps (Stages.of w)).take g.index).foldl Ctx.andThen (Ctx.begin w s)

/-- The word executes, is not stalled by the bus, and no sub-step before this one is fatal. -/
def State.reaches (s : State) (g : SubStep) (w : MicroInstr) : Prop :=
  s.status = .running ∧ s.stalls w = false ∧ (s.before g w).s.status = .running

/-- The rest of the word and the arbiter, from what a sub-step left. -/
def Ctx.resume (c : Ctx) (g : SubStep) (w : MicroInstr) : State :=
  (((subSteps (Stages.of w)).drop (g.index + 1)).foldl Ctx.andThen c).complete

/-- Whenever the instruction reaches the sub-step, `exec` answers the next state in which `f` is what that sub-step does. -/
def doesAt (i : Instr) (g : SubStep) (f : Ctx → Ctx) : Prop :=
  ∀ s : State, s.reaches g i.word → exec i s = .next ((f (s.before g i.word)).resume g i.word)

/-- The wires with an ALU result and its carry, which ALUCARRY takes (R308). -/
def Ctx.withAlu (c : Ctx) (result : Word) (carry : Bool) : Ctx :=
  { s := { c.s with aluCarry := carry }, w := { c.w with alu := result, cy := carry } }

/-- The wires with a bus value. -/
def Ctx.withBus (c : Ctx) (v : Word) : Ctx :=
  { c with w := { c.w with bus := v } }

/-! ### Plain microinstructions

A word is plain in a state when it executes to its end and no hook it calls acts on anything. Its result is written here
field by field, from the state the word begins in. -/

/-- The slot's variant defines no hook. -/
def State.hookFree (s : State) (t : Slot) : Bool :=
  s.cfg.hooks.all fun r => rd s.cfg.slots t != some r.variant

/-- Every hook the slot's variant defines acts on nothing, and none is a policy. -/
def State.quietHooks (s : State) (t : Slot) : Bool :=
  s.cfg.hooks.all fun r => rd s.cfg.slots t != some r.variant || (r.entry == .acts [] && !r.site.isPolicy)

/-- The running slot's variant defines a hook at the site. -/
def State.defines (s : State) (site : HookSite) : Bool :=
  (Ctx.hookAt? { s := s, w := Wires.idle s.cur } site).isSome

/-- The running task knows every code of the word: a task-specific one needs a hook (R105, R106, R117, R241), and the ALU
function must be a defined one (R156). -/
def State.knownCodes (s : State) (w : MicroInstr) : Bool :=
  (w.constSf || (w.bs != .taskSpecific1 && w.bs != .taskSpecific2) || s.defines (.busSource w.bs)) &&
    (!w.f1.taskSpecific || s.defines (.f1Late w.f1)) && (!w.f2.taskSpecific || s.defines (.f2Late w.f2)) &&
    (w.aluf != .undef14 && w.aluf != .undef15)

/-- The bus source before the mask, a constant code taken first (R191 to R199). A task-specific source whose hook names no
value leaves all ones (log 24). -/
def State.plainSource (s : State) (w : MicroInstr) : Word :=
  if w.constSf then s.constValue w
  else match w.bs with
    | .readR => s.getR w.rsel
    | .loadR => 0
    | .noSource | .taskSpecific1 | .taskSpecific2 => 0xFFFF
    | .readMD => s.busReadMD.1
    | .readMouse => mouseOperand (Config.mouseBits s.oracle)
    | .readDisp => dispOperand s.ir

/-- The bus value (R199, R200). -/
def State.plainBus (s : State) (w : MicroInstr) : Word :=
  s.plainSource w &&& (if w.constAccess then s.constValue w else 0xFFFF) &&&
    (if rd s.rdRamP s.cur then s.readRam.1 else 0xFFFF)

/-- The ALU's result and carry (R140). -/
def State.plainAlu (s : State) (w : MicroInstr) : AluOut :=
  (aluTable w.aluf (s.plainBus w) s.t s.skip).getD { result := 0, carry := false }

/-- The shifter's output: no hook sets a modifier (R172, R173, R176, R177). -/
def State.plainShift (s : State) (w : MicroInstr) : Word :=
  match w.f1 with
  | .llsh1 => s.l <<< 1
  | .lrsh1 => s.l >>> 1
  | .llcy8 => s.l.rotateLeft 8
  | _ => s.l

/-- The branch bits (R221 to R226). -/
def State.plainBranch (s : State) (w : MicroInstr) : Addr :=
  match w.f2 with
  | .busZero => if s.plainBus w = 0 then 1 else 0
  | .shNeg => if (s.plainShift w).msb then 1 else 0
  | .shZero => if s.plainShift w = 0 then 1 else 0
  | .bus => (s.plainBus w).setWidth 10
  | .aluCy => if s.aluC0 then 1 else 0
  | _ => 0

/-- Whether the word writes the shifter's output to R (R192, R312). -/
def loadsR (w : MicroInstr) : Bool :=
  w.bs == .loadR && !w.constSf

/-- Whether `TASK` has its effect (R212). -/
def State.tasks (s : State) (w : MicroInstr) : Bool :=
  w.f1 == .task && !rd s.first s.cur

/-- What the word's bus source leaves (R71, R197). -/
def State.plainRead (s : State) (w : MicroInstr) : State :=
  if w.constSf then s
  else if w.bs = .readMD then s.busReadMD.2
  else if w.bs = .readMouse then { s with oracle := s.oracle + 1 }
  else s

/-- The latches, ALUCARRY and the control RAM as special function 1 begins (R303, R308, R309). -/
def State.plainEarly (s : State) (w : MicroInstr) : State :=
  { s.plainRead w with
    nextMod := wr s.nextMod s.cur 0
    rdRamP := wr s.rdRamP s.cur false
    wrtRamP := wr s.wrtRamP s.cur false
    aluCarry := (s.plainAlu w).carry
    csRam := if rd s.wrtRamP s.cur then (s.writeRam (s.plainAlu w).result s.m).csRam else s.csRam }

/-- Special function 1's effect on the state (R211, R213). -/
def State.plainF1 (s : State) (w : MicroInstr) : State :=
  match w.f1 with
  | .loadMAR => (s.plainEarly w).busLoadMAR (s.plainAlu w).result s.cur (extendedFlag s.cfg w)
  | .block => (s.plainEarly w).setWakeup s.cur false
  | _ => s.plainEarly w

/-- Special function 2's effect on the state (R227). -/
def State.plainF2 (s : State) (w : MicroInstr) : State :=
  if w.f2 = .storeMD ∧ ¬(w.f1 = .loadMAR ∧ s.cfg.memTiming.variant = .variantB) then
    (s.plainF1 w).busLoadMD (s.plainBus w)
  else s.plainF1 w

/-- The successor's address (R318). -/
def State.plainNext (s : State) (w : MicroInstr) : Addr :=
  w.next ||| rd s.nextMod s.cur

/-- The state as the arbiter sees it: the write-backs (R312 to R315), the pending bank switch (R317) and the addresses
(R318, R319). -/
def State.plainDone (s : State) (w : MicroInstr) : State :=
  { s.plainF2 w with
    r := if loadsR w then wr s.r w.rsel.toFin (s.plainShift w) else s.r
    t := if w.lt then (if w.aluf.loadTFromAlu then (s.plainAlu w).result else s.plainBus w) else s.t
    crar := if w.lt then (s.plainAlu w).result else s.crar
    l := if w.ll then (s.plainAlu w).result else s.l
    m := if w.ll && s.cfg.isRamTask s.cur then (s.plainAlu w).result else s.m
    aluC0 := if w.ll then (s.plainAlu w).carry else s.aluC0
    bank := if rd s.swModeP s.cur then
        wr s.bank s.cur (swModeTable s.cfg.csConfig (rd s.bank s.cur) (s.plainNext w))
      else s.bank
    swModeP := wr s.swModeP s.cur false
    mpc := wr s.mpc s.cur (s.plainNext w)
    nextMod := wr s.nextMod s.cur (s.plainBranch w)
    first := wr s.first s.cur false }

/-- The next state of a plain word: the arbiter's request or commit is the last thing that happens (R342, R344). -/
def State.plainResult (s : State) (w : MicroInstr) : State :=
  if s.tasks w then { s.plainDone w with nextTask := (s.plainF2 w).scan }
  else match s.nextTask with
    | none => s.plainDone w
    | some n => { s.plainDone w with cur := n, nextTask := none, first := wr (wr s.first s.cur false) n true }

/-- The word executes to its end without a fatal error, and no hook it calls acts on anything. -/
def State.plain (s : State) (w : MicroInstr) : Prop :=
  s.status = .running ∧ s.stalls w = false ∧ s.knownCodes w = true ∧
  s.quietHooks s.cur = true ∧ (∀ n, s.nextTask = some n → s.quietHooks n = true) ∧
  (w.f1 = .block → s.cfg.present s.cur = true ∧ s.cfg.isEmulator s.cur = false) ∧
  (rd s.rdRamP s.cur = true → s.readRam.2.status = .running) ∧
  (rd s.wrtRamP s.cur = true → (s.writeRam (s.plainAlu w).result s.m).status = .running) ∧
  (s.plainF2 w).status = .running

/-! ### The soft reset of a committed switch -/

/-- The state and the wires after the last sub-step of the word. -/
def State.executed (s : State) (w : MicroInstr) : Ctx :=
  executeNext (Stages.of w) (Ctx.begin w s)

/-- What the task-switch hook of slot `n` begins with as the switch to it is committed (R344). -/
def State.switchedTo (s : State) (n : Slot) : Ctx :=
  { s := { s with cur := n, nextTask := none }.setFirst n true, w := Wires.idle n }

/-- That hook asks for a soft reset. -/
def State.switchResets (s : State) (n : Slot) : Prop :=
  ∃ d k, (s.switchedTo n).hookAt? .onTaskSwitch = some d ∧ .softReset k ∈ (s.switchedTo n).hookActs .onTaskSwitch d

/-! ### Where a store goes -/

/-- The index of the main-memory word at an address of the current transaction; none when main memory does not claim it
(R75, R76). -/
def State.mainWord (s : State) (a : Word) : Option Nat :=
  if s.cfg.deviceAt a = some .mainMemory then some (mainIndex s.busXm a) else none

/-- The main-memory word that `Bus.LoadMD` stores to in this state, if it stores to one (R72). -/
def State.storedWord (s : State) : Option Nat :=
  if s.busActive then
    match windowAt s.cfg.memTiming.storeWindow s.busCycle with
    | some .first => s.mainWord s.busMar
    | some .second => s.mainWord (if s.busDwStore then s.cfg.memTiming.partner.apply s.busMar else s.busMar)
    | none => none
  else none

/-- Whether the word calls `Bus.LoadMD` (R227). -/
def storesMD (g : Config) (w : MicroInstr) : Bool :=
  w.f2 == .storeMD && !(w.f1 == .loadMAR && g.memTiming.variant == .variantB)

/-- No hook runs in a word of this state: neither the running slot's variant nor that of a slot about to be switched to
defines one. -/
def State.noHooks (s : State) : Prop :=
  s.hookFree s.cur = true ∧ ∀ n, s.nextTask = some n → s.hookFree n = true

end Sys2Proof.Machine
end

