-- ==== Sys2Proof/Certificates/Slice0/Obligations.lean ====
section
/-! DEFINITION. The statements for the provers. `before` and `resume` are the two halves of a microinstruction around one
sub-step (Safety): a statement `doesAt i g f` says that whenever the word of `i` reaches sub-step `g`, whatever its other
fields, hooks and the state are, `exec` answers the next state in which `f` is what that sub-step does. -/

section

open Sys2Proof Sys2Proof.Machine

/-! ### Encoding -/

/-- R124, with the filing of log 1: encoding a well-formed instruction and decoding the word gives the instruction back. -/
def Obligations.EncodeThenDecode : Prop :=
  ∀ i : Instr, i.wf = true → decode (encode i) = i

/-- R124: `Encode` is the OR of the shifted fields; `Encode` after `Decode` and `Decode` after `Encode` are identities; the
worked example. -/
def Obligations.EncodingOfFields : Prop :=
  (∀ f : MicroInstr, encodeFields f =
    (f.rsel.setWidth 32 <<< 27) ||| (f.aluf.code.setWidth 32 <<< 23) ||| (f.bs.code.setWidth 32 <<< 20) |||
    (f.f1.code.setWidth 32 <<< 16) ||| (f.f2.code.setWidth 32 <<< 12) ||| ((BitVec.ofBool f.lt).setWidth 32 <<< 11) |||
    ((BitVec.ofBool f.ll).setWidth 32 <<< 10) ||| f.next.setWidth 32) ∧
  (∀ w : MicroWord, encodeFields (decodeFields w) = w) ∧
  (∀ f : MicroInstr, decodeFields (encodeFields f) = f) ∧
  decodeFields 0x2BD10000 = { rsel := 5, aluf := .busPlusT, bs := .readMD, f1 := .loadMAR, f2 := .nop
                              lt := false, ll := false, next := 0 } ∧
  encodeFields (decodeFields 0x2BD10000) = 0x2BD10000 ∧
  (decodeFields 0x2BD10000).memAccess = true ∧ (decodeFields 0x2BD10000).memOp = some .loadAddress ∧
  (decodeFields 0x2BD10000).constAccess = true ∧ (decodeFields 0x2BD10000).constSf = false

/-- R101: the eight fields are where the table's masks and shifts say, for every word, and no bit of the word lies outside
them. -/
def Obligations.FieldPositions : Prop :=
  ∀ w : MicroWord,
    encode (decode w) = w ∧
    (decode w).word.rsel.setWidth 32 = (w &&& 0xF8000000) >>> 27 ∧
    (decode w).word.aluf.code.setWidth 32 = (w &&& 0x07800000) >>> 23 ∧
    (decode w).word.bs.code.setWidth 32 = (w &&& 0x00700000) >>> 20 ∧
    (decode w).word.f1.code.setWidth 32 = (w &&& 0x000F0000) >>> 16 ∧
    (decode w).word.f2.code.setWidth 32 = (w &&& 0x0000F000) >>> 12 ∧
    (BitVec.ofBool (decode w).word.lt).setWidth 32 = (w &&& 0x00000800) >>> 11 ∧
    (BitVec.ofBool (decode w).word.ll).setWidth 32 = (w &&& 0x00000400) >>> 10 ∧
    (decode w).word.next.setWidth 32 = w &&& 0x000003FF

/-- R125: a word carries a row's code exactly when the row's mask and match say so, and it is read under a row it
carries, the leading one (log 1). -/
def Obligations.RowMasks : Prop :=
  ∀ w : MicroWord,
    (∀ a : AluFn, w &&& 0x07800000 = a.code.setWidth 32 <<< 23 ↔ (decode w).word.aluf = a) ∧
    (∀ b : BusSource, w &&& 0x00700000 = b.code.setWidth 32 <<< 20 ↔ (decode w).word.bs = b) ∧
    (∀ f : F1Code, w &&& 0x000F0000 = f.code.setWidth 32 <<< 16 ↔ (decode w).word.f1 = f) ∧
    (∀ f : F2Code, w &&& 0x0000F000 = f.code.setWidth 32 <<< 12 ↔ (decode w).word.f2 = f) ∧
    (w &&& 0x00000800 = 0x00000800 ↔ (decode w).word.lt = true) ∧
    (w &&& 0x00000400 = 0x00000400 ↔ (decode w).word.ll = true) ∧
    (decode w).wf = true

/-- A few words written out bit by bit from R101 and R116 to R119 decode to the instructions they stand for, each filed
under the row of its one code that is not 0 (log 1). -/
def Obligations.DecodeWords : Prop :=
  decode 0b00011_0111_000_0000_0000_0_0_0000000101#32 =
    .alufBusPlusT { rsel := 3, bs := .readR, f1 := .nop, f2 := .nop, lt := false, ll := false, next := 5 } ∧
  decode 0b00101_0000_101_0000_0000_0_0_0000000000#32 =
    .bsReadMD { rsel := 5, aluf := .bus, f1 := .nop, f2 := .nop, lt := false, ll := false, next := 0 } ∧
  decode 0b00001_0000_000_0001_0000_0_0_0000001111#32 =
    .f1LoadMAR { rsel := 1, aluf := .bus, bs := .readR, f2 := .nop, lt := false, ll := false, next := 15 } ∧
  decode 0b00000_0000_000_0000_0001_0_0_0000000010#32 =
    .f2BusZero { rsel := 0, aluf := .bus, bs := .readR, f1 := .nop, lt := false, ll := false, next := 2 } ∧
  decode 0b00000_0000_000_0000_0000_1_0_0000000001#32 =
    .lt { rsel := 0, aluf := .bus, bs := .readR, f1 := .nop, f2 := .nop, ll := false, next := 1 }

/-- Log 1: the rows a word is read under do not matter, since it carries the row of every field (R121, R125). -/
def Obligations.ReadingsAgree : Prop :=
  ∀ (i j : Instr) (s : State), i.word = j.word → exec i s = exec j s

/-! ### The step -/

/-- R300, R301: a system step clocks the bus, runs the instruction that the running slot's cell decodes to, and gives the
outside its turn (log 18). -/
def Obligations.StepRunsDecoded : Prop :=
  ∀ (s : State) (i : Instr), s.ready = true → s.status = .running → s.busClock.status = .running →
    decode (s.csCell (rd s.bank s.cur) (rd s.mpc s.cur)) = i →
    ∃ t, exec i s.busClock = .next t ∧ step s = .next t.outside

/-- R371, R373: a fatal error sets STATUS and nothing else; while the machine is stopped every instruction, the bus's
clock, the contract calls and a soft reset change nothing, and only a hard reset makes it run again. That a fatal
error is a next state and no fault is log 2. -/
def Obligations.StoppedIsInert : Prop :=
  (∀ (s : State) (i : FatalInfo), s.fatal i = { s with status := .stopped i.kind i }) ∧
  ∀ (s : State), s.status ≠ .running →
    (∀ i, exec i s = .next s) ∧ s.busClock = s ∧ (∀ t, s.wakeupTask t = s) ∧ (∀ t, s.blockTask t = s) ∧
    s.softReset = s ∧ s.hardReset.status = .running ∧ (s.ready = true → s.agenda = [] → step s = .next s)

/-- R61, R264 and log 26: a placed word is the word the next step fetches, in every state whose memories are in their
canonical form. -/
def Obligations.PlacedWordIsFetched : Prop :=
  ∀ (s : State) (w : MicroWord), Memory.wf s.csRam = true → Memory.wf s.cfg.romImage = true →
    (s.withFetchWord 32 w.toNat).busClock.fetchWord = w

/-- R70, R302, R346: a word that must wait for the bus changes nothing; when it must wait. -/
def Obligations.StallWaits : Prop :=
  (∀ (i : Instr) (s : State), s.stalls i.word = true → exec i s = .next s) ∧
  ∀ (s : State) (w : MicroInstr), s.stalls w = true ↔ s.busActive = true ∧
    (w.memOp = some .loadAddress ∨
      (w.memOp = some .read ∧ s.busCycle ≤ s.cfg.memTiming.readyReadAfter) ∨
      (w.memOp = some .store ∧ s.busCycle ≤ s.cfg.memTiming.readyStoreAfter))

/-- The invariant holds after reset, under the default parameters (log 4). -/
def Obligations.ResetInv : Prop :=
  State.reset.Inv

/-- Every step keeps the invariant, whatever word is fetched, whatever the hooks are and whatever the outside calls. The
canonical form of the memories is the model's own (log 6). -/
def Obligations.StepKeepsInv : Prop :=
  ∀ s t : State, s.Inv → step s = .next t → t.Inv

/-- R48: no step changes a parameter; the parameters are a field of the state (log 3). -/
def Obligations.ParametersConstant : Prop :=
  ∀ s t : State, step s = .next t → t.cfg = s.cfg

/-! ### Plain words -/

/-- The whole next state of every plain word (R301 to R319, R340 to R344), field by field. A task-specific code is one of
them where the running variant's hook for it acts on nothing; a bus source's hook that does so leaves all ones (log 24). -/
def Obligations.PlainResult : Prop :=
  ∀ (i : Instr) (s : State), s.plain i.word → exec i s = .next (s.plainResult i.word)

/-! ### The rows of ALUF -/

/-- R142 to R146, R154, R155: the pass-through and bitwise functions; the carry is 0. -/
def Obligations.AluBitwiseRows : Prop :=
  ∀ o : AlufOps,
    doesAt (.alufBus o) .alu (fun c => c.withAlu c.w.bus false) ∧
    doesAt (.alufT o) .alu (fun c => c.withAlu c.s.t false) ∧
    doesAt (.alufBusOrT o) .alu (fun c => c.withAlu (c.w.bus ||| c.s.t) false) ∧
    doesAt (.alufBusAndT o) .alu (fun c => c.withAlu (c.w.bus &&& c.s.t) false) ∧
    doesAt (.alufBusXorT o) .alu (fun c => c.withAlu (c.w.bus ^^^ c.s.t) false) ∧
    doesAt (.alufBusDotT o) .alu (fun c => c.withAlu (c.w.bus &&& c.s.t) false) ∧
    doesAt (.alufBusAndNotT o) .alu (fun c => c.withAlu (c.w.bus &&& ~~~c.s.t) false)

/-- R147, R149, R152, R153: the additions modulo 65536; the carry is 1 exactly when the sum exceeds 65535. -/
def Obligations.AluSumRows : Prop :=
  ∀ o : AlufOps,
    doesAt (.alufBusPlus1 o) .alu (fun c =>
      c.withAlu (BitVec.ofNat 16 (c.w.bus.toNat + 1)) (decide (65535 < c.w.bus.toNat + 1))) ∧
    doesAt (.alufBusPlusT o) .alu (fun c =>
      c.withAlu (BitVec.ofNat 16 (c.w.bus.toNat + c.s.t.toNat)) (decide (65535 < c.w.bus.toNat + c.s.t.toNat))) ∧
    doesAt (.alufBusPlusTPlus1 o) .alu (fun c =>
      c.withAlu (BitVec.ofNat 16 (c.w.bus.toNat + c.s.t.toNat + 1))
        (decide (65535 < c.w.bus.toNat + c.s.t.toNat + 1))) ∧
    doesAt (.alufBusPlusSkip o) .alu (fun c =>
      c.withAlu (BitVec.ofNat 16 (c.w.bus.toNat + if c.s.skip then 1 else 0))
        (decide (65535 < c.w.bus.toNat + if c.s.skip then 1 else 0)))

/-- R148, R150, R151: the subtractions modulo 65536; the carry is 1 exactly when there is no borrow. -/
def Obligations.AluDifferenceRows : Prop :=
  ∀ o : AlufOps,
    doesAt (.alufBusMinus1 o) .alu (fun c => c.withAlu (c.w.bus - 1) (decide (c.w.bus ≠ 0))) ∧
    doesAt (.alufBusMinusT o) .alu (fun c => c.withAlu (c.w.bus - c.s.t) (decide (c.s.t.toNat ≤ c.w.bus.toNat))) ∧
    doesAt (.alufBusMinusTMinus1 o) .alu (fun c =>
      c.withAlu (c.w.bus - c.s.t - 1) (decide (c.s.t.toNat < c.w.bus.toNat)))

/-- R156: the two undefined functions stop the machine; earlier sub-steps are not undone, later ones do not happen. -/
def Obligations.AluUndefinedRows : Prop :=
  ∀ (o : AlufOps) (s : State),
    (s.reaches .alu (o.word .undef14) →
      exec (.alufUndef14 o) s = .next ((s.before .alu (o.word .undef14)).s.fatal (.fd1 .undef14))) ∧
    (s.reaches .alu (o.word .undef15) →
      exec (.alufUndef15 o) s = .next ((s.before .alu (o.word .undef15)).s.fatal (.fd1 .undef15)))

/-! ### The rows of BS -/

/-- R191 to R193, R197, R198: the common sources of a word without a constant code. The mouse's four bits are whatever
the oracle answers (log 9). -/
def Obligations.BusSourceRows : Prop :=
  ∀ o : BsOps, o.f1 ≠ .constant → o.f2 ≠ .constant →
    doesAt (.bsReadR o) .source (fun c => c.withBus (c.s.getR c.w.rsel)) ∧
    doesAt (.bsLoadR o) .source (fun c => { s := c.s, w := { c.w with bus := 0, loadR := true } }) ∧
    doesAt (.bsNoSource o) .source (fun c => c.withBus 0xFFFF) ∧
    doesAt (.bsReadMouse o) .source (fun c =>
      { s := { c.s with oracle := c.s.oracle + 1 }
        w := { c.w with bus := 0xFFF0 ||| (Config.mouseBits c.s.oracle).setWidth 16 } }) ∧
    doesAt (.bsReadDisp o) .source (fun c =>
      c.withBus (if c.s.ir.extractLsb' 8 2 = 0 then (c.s.ir.extractLsb' 0 8).zeroExtend 16
        else (c.s.ir.extractLsb' 0 8).signExtend 16))

/-- R71, R196: memory data on the bus. Idle, the latched words; active, the word of the cycle's window, or FP2. -/
def Obligations.ReadMdRow : Prop :=
  ∀ (o : BsOps) (s : State) (c : Ctx), o.f1 ≠ .constant → o.f2 ≠ .constant → s.reaches .source (o.word .readMD) →
    c = s.before .source (o.word .readMD) →
    (c.s.busActive = false → exec (.bsReadMD o) s = .next
      (((({ s := { c.s with busDwMixed := false }, w := c.w } : Ctx).withBus
        (if c.s.cfg.memTiming.tSecondIdle = some c.s.busCycle ∨
            (c.s.busCycle = c.s.cfg.memTiming.tClose ∧ c.s.busDwMixed = true) then c.s.busMd2
          else c.s.busMd1))).resume .source (o.word .readMD))) ∧
    (c.s.busActive = true → windowAt c.s.cfg.memTiming.readWindow c.s.busCycle = some .first →
      exec (.bsReadMD o) s = .next ((c.withBus c.s.busMd1).resume .source (o.word .readMD))) ∧
    (c.s.busActive = true → windowAt c.s.cfg.memTiming.readWindow c.s.busCycle = some .second →
      exec (.bsReadMD o) s = .next ((c.withBus c.s.busMd2).resume .source (o.word .readMD))) ∧
    (c.s.busActive = true → windowAt c.s.cfg.memTiming.readWindow c.s.busCycle = none →
      exec (.bsReadMD o) s = .next (c.s.fatal (.fp2 c.s.busCycle)))

/-- R194, R195, R241: the task-specific sources run the running variant's hook; where it defines none, FD2. A hook that
names no bus value leaves the bus all ones (log 24). -/
def Obligations.TaskSourceRows : Prop :=
  ∀ (o : BsOps) (s : State) (b : BusSource) (i : Instr) (c : Ctx), o.f1 ≠ .constant → o.f2 ≠ .constant →
    (b = .taskSpecific1 ∧ i = .bsTaskSpecific1 o ∨ b = .taskSpecific2 ∧ i = .bsTaskSpecific2 o) →
    s.reaches .source (o.word b) → c = s.before .source (o.word b) →
    (∀ d, c.hookAt? (.busSource b) = some d →
      exec i s = .next (((c.withBus 0xFFFF).runActs (.busSource b) d).resume .source (o.word b))) ∧
    (c.hookAt? (.busSource b) = none → exec i s = .next (c.s.fatal (.fd2 b c.w.slot)))

/-- R199, R217, R228: under a constant code the bus is the constant at RSEL ++ BS, and the source does nothing, whatever
BS is. -/
def Obligations.ConstantReplacesSource : Prop :=
  ∀ i : Instr, (i.word.f1 = .constant ∨ i.word.f2 = .constant) →
    doesAt i .source (fun c =>
      c.withBus (Memory.readWord c.s.cfg.constRom (i.word.rsel.toNat * 8 + i.word.bs.code.toNat)))

/-- R111, R199: the constant mask, under a constant code or a source of 4 or more. -/
def Obligations.BusMask : Prop :=
  ∀ i : Instr, doesAt i .mask (fun c =>
    if i.word.f1 = .constant ∨ i.word.f2 = .constant ∨ 4 ≤ i.word.bs.code.toNat then
      c.withBus (c.w.bus &&& Memory.readWord c.s.cfg.constRom (i.word.rsel.toNat * 8 + i.word.bs.code.toNat))
    else c)

/-- R200, R277, R307, R309, R317: a control-store operation that was pending as the word began is carried out in it, and
only then; a request a hook of this word makes stays for the next (log 15). -/
def Obligations.PendingOperations : Prop :=
  ∀ (i : Instr) (s : State),
    (∀ c, s.reaches .ramRead i.word → c = s.before .ramRead i.word →
      (rd s.rdRamP s.cur = false → exec i s = .next (c.resume .ramRead i.word)) ∧
      (rd s.rdRamP s.cur = true → c.s.readRam.2.status = .running → exec i s = .next
        ((({ s := c.s.setRdRamP s.cur c.w.rdRamReq, w := c.w } : Ctx).withBus (c.w.bus &&& c.s.readRam.1)).resume
          .ramRead i.word)) ∧
      (rd s.rdRamP s.cur = true → crarRom c.s.crar = true → exec i s = .next (c.s.fatal (.fd6 c.s.crar)))) ∧
    (∀ c, s.reaches .ramWrite i.word → c = s.before .ramWrite i.word →
      (rd s.wrtRamP s.cur = false → exec i s = .next (c.resume .ramWrite i.word)) ∧
      (rd s.wrtRamP s.cur = true → (c.s.writeRam c.w.alu c.s.m).status = .running → exec i s = .next
        (({ s := (c.s.writeRam c.w.alu c.s.m).setWrtRamP s.cur c.w.wrtRamReq, w := c.w } : Ctx).resume
          .ramWrite i.word))) ∧
    (∀ c, s.reaches .bankSwitch i.word → c = s.before .bankSwitch i.word →
      (rd s.swModeP s.cur = false → exec i s = .next (c.resume .bankSwitch i.word)) ∧
      (rd s.swModeP s.cur = true → exec i s = .next
        (({ s := (c.s.switchMode (i.word.next ||| rd s.nextMod s.cur) s.cur).setSwModeP s.cur c.w.swModeReq
            w := c.w } : Ctx).resume .bankSwitch i.word)))

/-! ### The rows of F1 -/

/-- R210, R217, R220, R228: the codes that do nothing when dispatched. -/
def Obligations.NopRows : Prop :=
  (∀ o : F1Ops, doesAt (.f1Nop o) .f1 id ∧ doesAt (.f1Constant o) .f1 id) ∧
  ∀ o : F2Ops, doesAt (.f2Nop o) .f2 id ∧ doesAt (.f2Nop o) .f2Test id ∧
    doesAt (.f2Constant o) .f2 id ∧ doesAt (.f2Constant o) .f2Test id

/-- R69, R77, R211: `LoadMAR` starts a transaction at the ALU result on an idle bus; on an active one it is FP1. -/
def Obligations.LoadMarRow : Prop :=
  ∀ (o : F1Ops) (s : State) (c : Ctx), s.reaches .f1 (o.word .loadMAR) → c = s.before .f1 (o.word .loadMAR) →
    (c.s.busActive = false → exec (.f1LoadMAR o) s = .next (({ c with s :=
      { c.s with busActive := true, busCycle := 1, busMar := c.w.alu, busTask := c.w.slot
                 busXm := decide (c.s.cfg.memTiming.variant = .variantB ∧ o.f2 = .storeMD)
                 busDwStore := false, busDwMixed := false } } : Ctx).resume .f1 (o.word .loadMAR))) ∧
    (c.s.busActive = true → exec (.f1LoadMAR o) s = .next (c.s.fatal (.fp1 c.w.alu c.w.slot)))

/-- R212: `TASK` asks for a switch, but not in the first word after one. -/
def Obligations.TaskRow : Prop :=
  ∀ o : F1Ops, doesAt (.f1Task o) .f1 (fun c =>
    if rd c.s.first c.w.slot = true then c else { s := c.s, w := { c.w with taskSwitch := true } })

/-- R213, R352, R353: `BLOCK` clears the running slot's wakeup unless its variant has a policy of its own; the emulator's
is FP3. -/
def Obligations.BlockRow : Prop :=
  ∀ (o : F1Ops) (s : State) (c : Ctx), s.reaches .f1 (o.word .block) → c = s.before .f1 (o.word .block) →
    c.s.cfg.present c.w.slot = true →
    (c.s.cfg.isEmulator c.w.slot = false →
      Ctx.hookAt? { s := c.s, w := Wires.idle c.w.slot } .blockPolicy = none → exec (.f1Block o) s = .next
        (({ s := { c.s with wakeup := wr c.s.wakeup c.w.slot false }, w := { c.w with blockNow := true } } : Ctx).resume
          .f1 (o.word .block))) ∧
    (c.s.cfg.isEmulator c.w.slot = false → exec (.f1Block o) s = .next
        (({ s := c.s.policy c.w.slot .blockPolicy false, w := { c.w with blockNow := true } } : Ctx).resume
          .f1 (o.word .block))) ∧
    (c.s.cfg.isEmulator c.w.slot = true → exec (.f1Block o) s = .next (c.s.fatal .fp3))

/-- R214 to R216: the shifter operation of the word. -/
def Obligations.ShifterOperationRows : Prop :=
  ∀ o : F1Ops,
    doesAt (.f1Llsh1 o) .f1 (fun c => { s := c.s, w := { c.w with shOp := .shiftLeft } }) ∧
    doesAt (.f1Lrsh1 o) .f1 (fun c => { s := c.s, w := { c.w with shOp := .shiftRight } }) ∧
    doesAt (.f1Llcy8 o) .f1 (fun c => { s := c.s, w := { c.w with shOp := .rotateLeft8 } })

/-- R218, R241: a task-specific code of F1 runs the running variant's late hook (log 7); where it defines
none, FD3. -/
def Obligations.F1TaskSpecificRows : Prop :=
  ∀ (o : F1Ops) (f : F1Code) (i : Instr) (s : State) (c : Ctx),
    (f, i) ∈ [(F1Code.ts8, Instr.f1Ts8 o), (.ts9, .f1Ts9 o), (.ts10, .f1Ts10 o), (.ts11, .f1Ts11 o),
      (.ts12, .f1Ts12 o), (.ts13, .f1Ts13 o), (.ts14, .f1Ts14 o), (.ts15, .f1Ts15 o)] →
    s.reaches .f1 (o.word f) → c = s.before .f1 (o.word f) →
    (∀ d, c.hookAt? (.f1Late f) = some d → exec i s = .next ((c.runActs (.f1Late f) d).resume .f1 (o.word f))) ∧
    (c.hookAt? (.f1Late f) = none → exec i s = .next (c.s.fatal (.fd3 f c.w.slot)))

/-! ### The rows of F2 -/

/-- R221 to R226: the branch bits. `BUS=0`, `BUS` and `ALUCY` when dispatched, the shifter tests after the shifter. -/
def Obligations.BranchRows : Prop :=
  ∀ o : F2Ops,
    doesAt (.f2BusZero o) .f2 (fun c =>
      { s := c.s, w := { c.w with nmOut := c.w.nmOut ||| if c.w.bus = 0 then 1 else 0 } }) ∧
    doesAt (.f2Bus o) .f2 (fun c =>
      { s := c.s, w := { c.w with nmOut := c.w.nmOut ||| c.w.bus.setWidth 10 } }) ∧
    doesAt (.f2AluCy o) .f2 (fun c =>
      { s := c.s, w := { c.w with nmOut := c.w.nmOut ||| (BitVec.ofBool c.s.aluC0).setWidth 10 } }) ∧
    doesAt (.f2ShNeg o) .f2Test (fun c =>
      { s := c.s, w := { c.w with nmOut := c.w.nmOut ||| if c.w.shOut.msb then 1 else 0 } }) ∧
    doesAt (.f2ShZero o) .f2Test (fun c =>
      { s := c.s, w := { c.w with nmOut := c.w.nmOut ||| if c.w.shOut = 0 then 1 else 0 } })

/-- R72, R77, R227: `StoreMD` stores the bus value in the window's word, warns outside the window (log 17), and in an
extended address load does nothing. -/
def Obligations.StoreMdRow : Prop :=
  ∀ (o : F2Ops) (s : State) (c : Ctx), s.reaches .f2 (o.word .storeMD) → c = s.before .f2 (o.word .storeMD) →
    (o.f1 = .loadMAR ∧ c.s.cfg.memTiming.variant = .variantB →
      exec (.f2StoreMD o) s = .next (c.resume .f2 (o.word .storeMD))) ∧
    (¬(o.f1 = .loadMAR ∧ c.s.cfg.memTiming.variant = .variantB) →
      (c.s.busActive = false → exec (.f2StoreMD o) s = .next
        (({ c with s := c.s.warn .loadMDWhileIdle } : Ctx).resume .f2 (o.word .storeMD))) ∧
      (c.s.busActive = true → windowAt c.s.cfg.memTiming.storeWindow c.s.busCycle = none →
        exec (.f2StoreMD o) s = .next (({ c with s := c.s.warn .loadMDMistimed } : Ctx).resume .f2 (o.word .storeMD))) ∧
      (c.s.busActive = true → windowAt c.s.cfg.memTiming.storeWindow c.s.busCycle = some .first →
        c.s.cfg.deviceAt c.s.busMar = some .mainMemory → exec (.f2StoreMD o) s = .next
          (({ c with s := { c.s with
                mem := Memory.writeWord c.s.mem (mainIndex c.s.busXm c.s.busMar) c.w.bus
                busMd1 := c.w.bus, busDwStore := true, busDwMixed := true } } : Ctx).resume .f2 (o.word .storeMD))) ∧
      (∀ a, c.s.busActive = true → windowAt c.s.cfg.memTiming.storeWindow c.s.busCycle = some .second →
        a = (if c.s.busDwStore then c.s.cfg.memTiming.partner.apply c.s.busMar else c.s.busMar) →
        c.s.cfg.deviceAt a = some .mainMemory → exec (.f2StoreMD o) s = .next
          (({ c with s := { c.s with
                mem := Memory.writeWord c.s.mem (mainIndex c.s.busXm a) c.w.bus, busMd1 := c.w.bus } } : Ctx).resume
            .f2 (o.word .storeMD))))

/-- R229, R241: a task-specific code of F2 runs the running variant's late hook (log 7); where it defines
none, FD4. -/
def Obligations.F2TaskSpecificRows : Prop :=
  ∀ (o : F2Ops) (f : F2Code) (i : Instr) (s : State) (c : Ctx),
    (f, i) ∈ [(F2Code.ts8, Instr.f2Ts8 o), (.ts9, .f2Ts9 o), (.ts10, .f2Ts10 o), (.ts11, .f2Ts11 o),
      (.ts12, .f2Ts12 o), (.ts13, .f2Ts13 o), (.ts14, .f2Ts14 o), (.ts15, .f2Ts15 o)] →
    s.reaches .f2 (o.word f) → c = s.before .f2 (o.word f) →
    (∀ d, c.hookAt? (.f2Late f) = some d → exec i s = .next ((c.runActs (.f2Late f) d).resume .f2 (o.word f))) ∧
    (c.hookAt? (.f2Late f) = none → exec i s = .next (c.s.fatal (.fd4 f c.w.slot)))

/-! ### LT, LL and the write-backs -/

/-- R115, R314: LT loads T from the ALU or the bus, and CRAR from the ALU. -/
def Obligations.LoadTRow : Prop :=
  ∀ o : LtOps, doesAt (.lt o) .loadT (fun c =>
    { c with s := { c.s with
        t := if o.aluf ∈ [AluFn.bus, .busOrT, .busPlus1, .busMinus1, .busPlusTPlus1, .busPlusSkip, .busDotT]
          then c.w.alu else c.w.bus
        crar := c.w.alu } })

/-- R315: LL loads L from the ALU, M with it for a RAM-resident task only, and ALUC0 from ALUCARRY. -/
def Obligations.LoadLRow : Prop :=
  ∀ o : LlOps, doesAt (.ll o) .loadL (fun c =>
    { c with s := { c.s with
        l := c.w.alu
        m := if c.s.cfg.isRamTask c.w.slot = true then c.w.alu else c.s.m
        aluC0 := c.s.aluCarry } })

/-- R312, R313: the write-backs of R and S, of every word; register 0 is like any other. -/
def Obligations.WriteBacks : Prop :=
  ∀ i : Instr,
    doesAt i .writeR (fun c => if c.w.loadR then
      { c with s := { c.s with r := wr c.s.r c.w.rsel.toFin c.w.shOut } } else c) ∧
    doesAt i .writeS (fun c => if c.w.loadS then
      { c with s := { c.s with
          sRegs := wr c.s.sRegs (rd c.s.rb c.w.slot).toFin
            (wr (rd c.s.sRegs (rd c.s.rb c.w.slot).toFin) c.w.rsel.toFin c.w.shOut) } } else c)

/-! ### Frames -/

/-- What no other field of the word, no hook and no device touches (R46): T and CRAR without LT, L, M and ALUC0 without LL,
M of a task that is not RAM-resident. Of the model's own: the parameters, which R48 fixes and the model keeps in the state
(log 3), and the outside's agenda (log 18), which no rule speaks of. -/
def Obligations.FrameLoads : Prop :=
  ∀ (i : Instr) (s t : State), exec i s = .next t →
    (i.word.lt = false → t.t = s.t ∧ t.crar = s.crar) ∧
    (i.word.ll = false → t.l = s.l ∧ t.m = s.m ∧ t.aluC0 = s.aluC0) ∧
    (s.cfg.isRamTask s.cur = false → t.m = s.m) ∧ t.cfg = s.cfg ∧ t.agenda = s.agenda

/-- Where no hook runs: every R register but the one `LoadR` names is unchanged, and so are S, IR, SKIP, DNSCARRY, RMR and
RB. Of T, L, M, CRAR and ALUC0 `FrameLoads` speaks. -/
def Obligations.FrameRegisters : Prop :=
  ∀ (i : Instr) (s t : State), s.noHooks → exec i s = .next t →
    (∀ k : Reg, ¬(loadsR i.word = true ∧ k = i.word.rsel) → t.getR k = s.getR k) ∧
    t.sRegs = s.sRegs ∧ t.ir = s.ir ∧ t.skip = s.skip ∧ t.dnsCarry = s.dnsCarry ∧ t.rmr = s.rmr ∧ t.rb = s.rb

/-- Where no hook runs: every byte of main memory but the two of the word `Bus.LoadMD` stores to is unchanged. The store's
address is `storedWord` of the state that special function 2 begins in; a word is two bytes (log 5). -/
def Obligations.FrameMemory : Prop :=
  ∀ (i : Instr) (s t : State), s.noHooks → Memory.wf s.mem = true → exec i s = .next t →
    (storesMD s.cfg i.word = false → ∀ a, Memory.readByte t.mem a = Memory.readByte s.mem a) ∧
    ((s.before .f2 i.word).s.storedWord = none → ∀ a, Memory.readByte t.mem a = Memory.readByte s.mem a) ∧
    ∀ k, (s.before .f2 i.word).s.storedWord = some k → ∀ a, a ≠ 2 * k → a ≠ 2 * k + 1 →
      Memory.readByte t.mem a = Memory.readByte s.mem a

/-- R277, R86: the control RAM is unchanged unless a write was pending; then every byte but those of the cell CRAR names
is (four bytes to a cell, log 5). -/
def Obligations.FrameControlStore : Prop :=
  ∀ (i : Instr) (s t : State), Memory.wf s.csRam = true → exec i s = .next t →
    (rd s.wrtRamP s.cur = false → t.csRam = s.csRam) ∧
    (crarRom s.crar = true → t.csRam = s.csRam) ∧
    ∀ b, ramBank s.cfg.csConfig (crarBank s.crar) = some b → ∀ a, cellIndex b (crarCell s.crar) ≠ a / 4 →
      Memory.readByte t.csRam a = Memory.readByte s.csRam a

/-- Where no hook runs: nothing of another slot changes but FIRST of the slot switched to; with no device but main memory
no WAKEUP changes without `BLOCK`, and no HS. -/
def Obligations.FrameSlots : Prop :=
  ∀ (i : Instr) (s t : State), s.noHooks → exec i s = .next t →
    (∀ u, u ≠ s.cur → rd t.mpc u = rd s.mpc u ∧ rd t.nextMod u = rd s.nextMod u ∧ rd t.bank u = rd s.bank u ∧
      rd t.swModeP u = rd s.swModeP u ∧ rd t.rdRamP u = rd s.rdRamP u ∧ rd t.wrtRamP u = rd s.wrtRamP u) ∧
    (∀ u, u ≠ s.cur → s.nextTask ≠ some u → rd t.first u = rd s.first u) ∧
    ((∀ d ∈ s.cfg.devices, d.kind = .mainMemory) → t.hs = s.hs ∧
      ∀ u, (i.word.f1 ≠ .block ∨ u ≠ s.cur) → rd t.wakeup u = rd s.wakeup u)

/-! ### Sequencing and the arbiter -/

/-- R303, R318, R403: after an executed word the running slot's address is NEXT OR the branch bits its previous word left,
unless a hook of the word, or the hook of the switch that the word's completion commits, asked for a soft reset; then it is
the slot's number. -/
def Obligations.NextAddressRule : Prop :=
  ∀ (i : Instr) (s t : State), s.status = .running → s.stalls i.word = false → exec i s = .next t → t.status = .running →
    ((s.before .nextAddress i.word).w.softResetNow = false →
      (s.tasks i.word = true ∨ ∀ n, s.nextTask = some n → ¬(s.executed i.word).s.switchResets n) →
        rd t.mpc s.cur = i.word.next ||| rd s.nextMod s.cur) ∧
    ((s.before .nextAddress i.word).w.softResetNow = true → rd t.mpc s.cur = BitVec.ofNat 10 s.cur.val) ∧
    ∀ n, s.nextTask = some n → s.tasks i.word = false → (s.executed i.word).s.switchResets n →
      s.cfg.present s.cur = true → rd t.mpc s.cur = BitVec.ofNat 10 s.cur.val

/-- R212, R342: an executed `TASK` makes the scan's choice the next task and switches nothing yet; whatever hooks do. -/
def Obligations.SwitchRequest : Prop :=
  ∀ (i : Instr) (s t : State), i.word.f1 = .task → rd s.first s.cur = false → s.status = .running →
    s.stalls i.word = false → exec i s = .next t → t.status = .running →
    t.nextTask = t.scan ∧ rd t.first s.cur = false ∧ (s.noHooks → t.cur = s.cur)

/-- R344: a pending switch is committed by the next executed word that asks for none. -/
def Obligations.SwitchCommit : Prop :=
  ∀ (i : Instr) (s t : State) (n : Slot), s.nextTask = some n → s.tasks i.word = false → s.status = .running →
    s.stalls i.word = false → exec i s = .next t → t.status = .running →
    t.nextTask = none ∧ rd t.first n = true ∧ (s.hookFree n = true → t.cur = n)

/-- R341: the scan picks the highest present awake slot, and never none while the emulator is bound and awake. -/
def Obligations.ScanPicksHighest : Prop :=
  (∀ (s : State) (t : Slot), s.scan = some t ↔
    (s.cfg.present t = true ∧ rd s.wakeup t = true ∧
      ∀ u : Slot, t < u → ¬(s.cfg.present u = true ∧ rd s.wakeup u = true))) ∧
  ∀ s : State, s.Inv → s.scan ≠ none

/-- R351 to R354: the two contract calls on a running machine, with and without a policy of the variant. The
oracle count is the model's own (log 7). -/
def Obligations.ContractCalls : Prop :=
  ∀ (s : State) (t : Slot), s.status = .running →
    (s.cfg.present t = false → s.wakeupTask t = s ∧ s.blockTask t = s) ∧
    (s.cfg.isEmulator t = true → s.wakeupTask t = s.fatal .fp4 ∧ s.blockTask t = s.fatal .fp3) ∧
    (s.cfg.present t = true → s.cfg.isEmulator t = false → s.hookFree t = true →
      s.wakeupTask t = { s with wakeup := wr s.wakeup t true } ∧
      s.blockTask t = { s with wakeup := wr s.wakeup t false }) ∧
    (s.cfg.present t = true → s.cfg.isEmulator t = false →
      (∀ u, u ≠ t → rd (s.wakeupTask t).wakeup u = rd s.wakeup u ∧ rd (s.wakeupTask t).hs u = rd s.hs u) ∧
      { s.wakeupTask t with wakeup := s.wakeup, hs := s.hs, oracle := s.oracle } = s ∧
      (∀ u, u ≠ t → rd (s.blockTask t).wakeup u = rd s.wakeup u ∧ rd (s.blockTask t).hs u = rd s.hs u) ∧
      { s.blockTask t with wakeup := s.wakeup, hs := s.hs, oracle := s.oracle } = s)

/-! ### Reset -/

/-- From R401 and R402: what a hard reset leaves, from any state, running or stopped. That main memory and the parameters
stay is the model's inference (log 25, DEDUCED): R401 assigns neither, and R402 leaves the reset value of main memory to the
devices. -/
def Obligations.HardResetValues : Prop :=
  ∀ (s t : State), t = s.hardReset →
    t.status = .running ∧ (∀ k, t.getR k = 0) ∧ (∀ b k, rd (rd t.sRegs b) k = 0) ∧ t.t = 0 ∧ t.l = 0 ∧ t.m = 0 ∧
    t.ir = 0 ∧ t.aluC0 = false ∧ t.aluCarry = false ∧ t.skip = false ∧ t.dnsCarry = false ∧ t.rmr = 0xFFFF ∧ t.crar = 0 ∧
    (∀ u, rd t.mpc u = BitVec.ofNat 10 u.val ∧ rd t.bank u = .rom0 ∧ rd t.rb u = 0 ∧ rd t.nextMod u = 0 ∧
      rd t.swModeP u = false ∧ rd t.rdRamP u = false ∧ rd t.wrtRamP u = false ∧
      rd t.wakeup u = s.cfg.isEmulator u ∧ (s.cfg.present u = true → rd t.hs u = rd s.cfg.hsReset u)) ∧
    t.busActive = false ∧ t.busCycle = 0 ∧ t.busMar = 0 ∧ t.busTask = 0 ∧ t.busXm = false ∧ t.busMd1 = 0 ∧ t.busMd2 = 0 ∧
    t.busDwStore = false ∧ t.busDwMixed = false ∧ t.nextTask = none ∧ t.csRam = s.csRam ∧ t.mem = s.mem ∧ t.cfg = s.cfg ∧
    (s.cfg.valid = true → s.cfg.isEmulator t.cur = true ∧ ∀ u, rd t.first u = decide (u = t.cur))

/-- `State.reset`, with the default parameters (log 4) and empty memories (log 6), is a state that a hard reset leaves as it
is. That the reset keeps main memory and the parameters is log 25. -/
def Obligations.ResetIsHardReset : Prop :=
  State.reset.hardReset = State.reset

/-- R403, R404: what a soft reset changes where no variant defines a hook, and that it changes nothing else. Where a variant
is bound to several slots, `slotOf` names the lowest (log 34). -/
def Obligations.SoftResetValues : Prop :=
  ∀ (s t : State), s.status = .running → s.cfg.valid = true → s.cfg.hooks = [] → t = s.softReset →
    (∀ u, rd t.mpc u = if s.cfg.present u then BitVec.ofNat 10 u.val else rd s.mpc u) ∧
    (∀ u, rd t.bank u = if s.rmr.getLsbD u.val then .rom0 else .ram0) ∧
    s.cfg.isEmulator t.cur = true ∧
    (∀ u, rd t.wakeup u =
      if s.cfg.slotOf .diskSector = some u then true
      else if s.cfg.slotOf .diskWord = some u ∨ s.cfg.slotOf .tridentInput = some u ∨
          s.cfg.slotOf .tridentOutput = some u then false
      else rd s.wakeup u) ∧
    (∀ v u, s.cfg.slotOf v = some u ↔ (rd s.cfg.slots u = some v ∧ ∀ k, k < u → rd s.cfg.slots k ≠ some v)) ∧
    t = { s with mpc := t.mpc, bank := t.bank, rmr := 0xFFFF, cur := t.cur, wakeup := t.wakeup }

/-! ### The memory bus -/

/-- R68, R69, R71, R74, with the tables of R78 (log 20): after an address load on an idle bus, both words are read and the
processor sees them in their windows, under either variant. -/
def Obligations.DoubleWordRead : Prop :=
  ∀ (s c4 c5 : State) (a : Word) (t : Slot) (xm : Bool), s.status = .running → s.busActive = false →
    s.cfg.devices = [{ lo := 0, hi := 0xFFFF, kind := .mainMemory }] →
    c4 = (s.busLoadMAR a t xm).busClock.busClock.busClock.busClock → c5 = c4.busClock →
    (s.cfg.memTiming = .variantB → c4.busActive = false ∧ c4.busReadMD.1 = s.memWord xm a ∧
      c5.busReadMD.1 = s.memWord xm (a ^^^ 1)) ∧
    (s.cfg.memTiming = .variantA → c4.busActive = true ∧ c4.busReadMD.1 = s.memWord xm a ∧
      c5.busReadMD.1 = s.memWord xm (a ||| 1))

/-- R72, R74, with the tables of R78 (log 20): two stores in the two windows write the address and its partner.
The words of the two values of the extended-memory flag are apart (log 30). -/
def Obligations.DoubleWordStore : Prop :=
  ∀ (s f g : State) (a v w : Word) (t : Slot) (xm : Bool), s.status = .running → s.busActive = false →
    Memory.wf s.mem = true → s.cfg.devices = [{ lo := 0, hi := 0xFFFF, kind := .mainMemory }] →
    s.cfg.memTiming = .variantB →
    f = (s.busLoadMAR a t xm).busClock.busClock.busLoadMD v → g = f.busClock.busLoadMD w →
    f.memWord xm a = v ∧ g.memWord xm a = v ∧ g.memWord xm (a ^^^ 1) = w ∧
    ∀ x b, (x ≠ xm ∨ (b ≠ a ∧ b ≠ a ^^^ 1)) → g.memWord x b = s.memWord x b

/-- R76: an address that no device claims reads 0 and discards a store. -/
def Obligations.UnclaimedAddress : Prop :=
  ∀ (s : State) (a w : Word), (∀ d ∈ s.cfg.devices, ¬(d.lo.toNat ≤ a.toNat ∧ a.toNat ≤ d.hi.toNat)) →
    s.memRead a = (0, s) ∧ s.memWrite a w = s

/-! ### The control store -/

/-- R275, R276, R279: a control-RAM write, then a read of either half; the cell then fetched; a write to a ROM. -/
def Obligations.RamWriteRead : Prop :=
  ∀ (s : State) (low high : Word), Memory.wf s.csRam = true →
    (s.crar.getLsbD 11 = true → s.writeRam low high = s ∧ s.readRam.2.status = .stopped .unknownDecode (.fd6 s.crar)) ∧
    ∀ b, s.crar.getLsbD 11 = false → ramBank s.cfg.csConfig (s.crar.extractLsb' 12 2) = some b →
      (s.writeRam low high).readRam = (if s.crar.getLsbD 10 then high else low, s.writeRam low high) ∧
      (s.writeRam low high).csCell b (s.crar.extractLsb' 0 10) = (high ++ low) ^^^ s.cfg.ramXorMask ∧
      (∀ c a, (c ≠ b ∨ a ≠ s.crar.extractLsb' 0 10) → (s.writeRam low high).csCell c a = s.csCell c a) ∧
      s.writeRam low high = { s with csRam := (s.writeRam low high).csRam }

/-- R271, R272: the bank rotations of `Toggle2` and `Split3`. -/
def Obligations.SwitchTables : Prop :=
  ∀ a : Addr,
    swModeTable .toggle2 .rom0 a = .ram0 ∧ swModeTable .toggle2 .ram0 a = .rom0 ∧
    swModeTable .split3 .rom0 a = (if a.getLsbD 8 then .rom1 else .ram0) ∧
    swModeTable .split3 .rom1 a = (if a.getLsbD 8 then .ram0 else .rom0) ∧
    swModeTable .split3 .ram0 a = (if a.getLsbD 8 then .rom1 else .rom0)

/-- R261, R270, R273: a switch moves the named slot alone, to a bank of the configuration, never back to its own;
which one under `Ram5` is open (log 11). -/
def Obligations.SwitchMovesOneSlot : Prop :=
  ∀ (s : State) (a : Addr) (t : Slot), s.cfg.csConfig.hasBank (rd s.bank t) = true →
    rd (s.switchMode a t).bank t ≠ rd s.bank t ∧
    s.cfg.csConfig.hasBank (rd (s.switchMode a t).bank t) = true ∧
    (∀ u, u ≠ t → rd (s.switchMode a t).bank u = rd s.bank u) ∧
    { s.switchMode a t with bank := s.bank } = s

/-! ### The shifter -/

/-- R172 to R179: every operation under every modifier, with what it does to DNSCARRY. -/
def Obligations.ShifterFunction : Prop :=
  ∀ (x t : Word) (c : Bool) (m : ShMod),
    doOperation .none m x t c = (x, c) ∧
    doOperation .shiftLeft .none x t c = (BitVec.ofNat 16 (x.toNat * 2), c) ∧
    doOperation .shiftRight .none x t c = (BitVec.ofNat 16 (x.toNat / 2), c) ∧
    doOperation .shiftLeft .novaStyle x t c = (x <<< 1 ||| (BitVec.ofBool c).setWidth 16, x.msb) ∧
    doOperation .shiftRight .novaStyle x t c = (x >>> 1 ||| (BitVec.ofBool c).setWidth 16 <<< 15, x.getLsbD 0) ∧
    doOperation .rotateLeft8 m x t c = (BitVec.ofNat 16 (x.toNat % 256 * 256 + x.toNat / 256), c) ∧
    doOperation .shiftLeft .magic x t c = (x <<< 1 ||| (BitVec.ofBool t.msb).setWidth 16, c) ∧
    doOperation .shiftRight .magic x t c = (x >>> 1 ||| (BitVec.ofBool (t.getLsbD 0)).setWidth 16 <<< 15, c)

/-! ### Hooks -/

/-- R21, R36, R46: whatever a hook of a task that is not RAM-resident does, no S register and no register bank changes, and
`load_s` is not raised. The form of hooks is log 7. -/
def Obligations.HooksKeepS : Prop :=
  ∀ (c : Ctx) (site : HookSite) (d : Variant × HookEntry),
    c.s.cfg.isRamTask c.w.slot = false → (∀ a, a ∈ c.hookActs site d → ∀ n, a ≠ .softReset n) →
    (c.runActs site d).s.sRegs = c.s.sRegs ∧ (c.runActs site d).s.rb = c.s.rb ∧ (c.runActs site d).w.loadS = c.w.loadS

/-! ### The shifter in a word -/

/-- R182, R311: the shifter of a word: its output is that of L, T and DNSCARRY under the word's operation and modifier, and
DNSCARRY takes the shifter's new value exactly when the word asks for the output. That there is an output in every other
word too is log 16. -/
def Obligations.ShifterInWord : Prop :=
  ∀ i : Instr, doesAt i .shifter (fun c =>
    { s := if c.w.loadR = true ∨ c.w.loadS = true ∨ c.w.needShifter = true then
          { c.s with dnsCarry := (doOperation c.w.shOp c.w.shMod c.s.l c.s.t c.s.dnsCarry).2 }
        else c.s
      w := { c.w with shOut := (doOperation c.w.shOp c.w.shMod c.s.l c.s.t c.s.dnsCarry).1 } })

end
end

