-- ==== Sys2Proof/Laws/State.lean ====
section
/-! SUPPORT. For each named update of the state, what it makes of each field. -/

namespace Sys2Proof.Machine

theorem rd_wr_self {α : Type} {n : Nat} (v : Vector α n) (i : Fin n) (x : α) : rd (wr v i x) i = x := by
  simp [rd, wr]

theorem rd_wr_other {α : Type} {n : Nat} (v : Vector α n) {i j : Fin n} (x : α) (h : i ≠ j) : rd (wr v i x) j = rd v j := by
  simp only [rd, wr, Fin.getElem_fin]
  exact Vector.getElem_set_ne i.isLt j.isLt fun e => h (Fin.ext e)

theorem wr_wr {α : Type} {n : Nat} (v : Vector α n) (i : Fin n) (x y : α) : wr (wr v i x) i y = wr v i y := by
  simp [wr]

theorem wr_rd_self {α : Type} {n : Nat} {v : Vector α n} {i : Fin n} {x : α} (h : rd v i = x) : wr v i x = v := by
  subst h
  simp [wr, rd]

@[simp] theorem State.setR_r (s : State) (i : Reg) (v : Word) : (s.setR i v).r = wr s.r i.toFin v := rfl
@[simp] theorem State.setR_sRegs (s : State) (i : Reg) (v : Word) : (s.setR i v).sRegs = s.sRegs := rfl
@[simp] theorem State.setR_t (s : State) (i : Reg) (v : Word) : (s.setR i v).t = s.t := rfl
@[simp] theorem State.setR_l (s : State) (i : Reg) (v : Word) : (s.setR i v).l = s.l := rfl
@[simp] theorem State.setR_m (s : State) (i : Reg) (v : Word) : (s.setR i v).m = s.m := rfl
@[simp] theorem State.setR_ir (s : State) (i : Reg) (v : Word) : (s.setR i v).ir = s.ir := rfl
@[simp] theorem State.setR_aluC0 (s : State) (i : Reg) (v : Word) : (s.setR i v).aluC0 = s.aluC0 := rfl
@[simp] theorem State.setR_aluCarry (s : State) (i : Reg) (v : Word) : (s.setR i v).aluCarry = s.aluCarry := rfl
@[simp] theorem State.setR_skip (s : State) (i : Reg) (v : Word) : (s.setR i v).skip = s.skip := rfl
@[simp] theorem State.setR_dnsCarry (s : State) (i : Reg) (v : Word) : (s.setR i v).dnsCarry = s.dnsCarry := rfl
@[simp] theorem State.setR_rmr (s : State) (i : Reg) (v : Word) : (s.setR i v).rmr = s.rmr := rfl
@[simp] theorem State.setR_crar (s : State) (i : Reg) (v : Word) : (s.setR i v).crar = s.crar := rfl
@[simp] theorem State.setR_mpc (s : State) (i : Reg) (v : Word) : (s.setR i v).mpc = s.mpc := rfl
@[simp] theorem State.setR_wakeup (s : State) (i : Reg) (v : Word) : (s.setR i v).wakeup = s.wakeup := rfl
@[simp] theorem State.setR_bank (s : State) (i : Reg) (v : Word) : (s.setR i v).bank = s.bank := rfl
@[simp] theorem State.setR_rb (s : State) (i : Reg) (v : Word) : (s.setR i v).rb = s.rb := rfl
@[simp] theorem State.setR_first (s : State) (i : Reg) (v : Word) : (s.setR i v).first = s.first := rfl
@[simp] theorem State.setR_nextMod (s : State) (i : Reg) (v : Word) : (s.setR i v).nextMod = s.nextMod := rfl
@[simp] theorem State.setR_swModeP (s : State) (i : Reg) (v : Word) : (s.setR i v).swModeP = s.swModeP := rfl
@[simp] theorem State.setR_rdRamP (s : State) (i : Reg) (v : Word) : (s.setR i v).rdRamP = s.rdRamP := rfl
@[simp] theorem State.setR_wrtRamP (s : State) (i : Reg) (v : Word) : (s.setR i v).wrtRamP = s.wrtRamP := rfl
@[simp] theorem State.setR_cur (s : State) (i : Reg) (v : Word) : (s.setR i v).cur = s.cur := rfl
@[simp] theorem State.setR_nextTask (s : State) (i : Reg) (v : Word) : (s.setR i v).nextTask = s.nextTask := rfl
@[simp] theorem State.setR_csRam (s : State) (i : Reg) (v : Word) : (s.setR i v).csRam = s.csRam := rfl
@[simp] theorem State.setR_busActive (s : State) (i : Reg) (v : Word) : (s.setR i v).busActive = s.busActive := rfl
@[simp] theorem State.setR_busCycle (s : State) (i : Reg) (v : Word) : (s.setR i v).busCycle = s.busCycle := rfl
@[simp] theorem State.setR_busMar (s : State) (i : Reg) (v : Word) : (s.setR i v).busMar = s.busMar := rfl
@[simp] theorem State.setR_busTask (s : State) (i : Reg) (v : Word) : (s.setR i v).busTask = s.busTask := rfl
@[simp] theorem State.setR_busXm (s : State) (i : Reg) (v : Word) : (s.setR i v).busXm = s.busXm := rfl
@[simp] theorem State.setR_busMd1 (s : State) (i : Reg) (v : Word) : (s.setR i v).busMd1 = s.busMd1 := rfl
@[simp] theorem State.setR_busMd2 (s : State) (i : Reg) (v : Word) : (s.setR i v).busMd2 = s.busMd2 := rfl
@[simp] theorem State.setR_busDwStore (s : State) (i : Reg) (v : Word) : (s.setR i v).busDwStore = s.busDwStore := rfl
@[simp] theorem State.setR_busDwMixed (s : State) (i : Reg) (v : Word) : (s.setR i v).busDwMixed = s.busDwMixed := rfl
@[simp] theorem State.setR_hs (s : State) (i : Reg) (v : Word) : (s.setR i v).hs = s.hs := rfl
@[simp] theorem State.setR_status (s : State) (i : Reg) (v : Word) : (s.setR i v).status = s.status := rfl
@[simp] theorem State.setR_mem (s : State) (i : Reg) (v : Word) : (s.setR i v).mem = s.mem := rfl
@[simp] theorem State.setR_cfg (s : State) (i : Reg) (v : Word) : (s.setR i v).cfg = s.cfg := rfl
@[simp] theorem State.setR_oracle (s : State) (i : Reg) (v : Word) : (s.setR i v).oracle = s.oracle := rfl
@[simp] theorem State.setR_diagnostics (s : State) (i : Reg) (v : Word) : (s.setR i v).diagnostics = s.diagnostics := rfl
@[simp] theorem State.setR_agenda (s : State) (i : Reg) (v : Word) : (s.setR i v).agenda = s.agenda := rfl

@[simp] theorem State.setS_r (s : State) (t : Slot) (i : Reg) (v : Word) : (s.setS t i v).r = s.r := rfl
@[simp] theorem State.setS_sRegs (s : State) (t : Slot) (i : Reg) (v : Word) : (s.setS t i v).sRegs = wr s.sRegs (rd s.rb t).toFin (wr (rd s.sRegs (rd s.rb t).toFin) i.toFin v) := rfl
@[simp] theorem State.setS_t (s : State) (t : Slot) (i : Reg) (v : Word) : (s.setS t i v).t = s.t := rfl
@[simp] theorem State.setS_l (s : State) (t : Slot) (i : Reg) (v : Word) : (s.setS t i v).l = s.l := rfl
@[simp] theorem State.setS_m (s : State) (t : Slot) (i : Reg) (v : Word) : (s.setS t i v).m = s.m := rfl
@[simp] theorem State.setS_ir (s : State) (t : Slot) (i : Reg) (v : Word) : (s.setS t i v).ir = s.ir := rfl
@[simp] theorem State.setS_aluC0 (s : State) (t : Slot) (i : Reg) (v : Word) : (s.setS t i v).aluC0 = s.aluC0 := rfl
@[simp] theorem State.setS_aluCarry (s : State) (t : Slot) (i : Reg) (v : Word) : (s.setS t i v).aluCarry = s.aluCarry := rfl
@[simp] theorem State.setS_skip (s : State) (t : Slot) (i : Reg) (v : Word) : (s.setS t i v).skip = s.skip := rfl
@[simp] theorem State.setS_dnsCarry (s : State) (t : Slot) (i : Reg) (v : Word) : (s.setS t i v).dnsCarry = s.dnsCarry := rfl
@[simp] theorem State.setS_rmr (s : State) (t : Slot) (i : Reg) (v : Word) : (s.setS t i v).rmr = s.rmr := rfl
@[simp] theorem State.setS_crar (s : State) (t : Slot) (i : Reg) (v : Word) : (s.setS t i v).crar = s.crar := rfl
@[simp] theorem State.setS_mpc (s : State) (t : Slot) (i : Reg) (v : Word) : (s.setS t i v).mpc = s.mpc := rfl
@[simp] theorem State.setS_wakeup (s : State) (t : Slot) (i : Reg) (v : Word) : (s.setS t i v).wakeup = s.wakeup := rfl
@[simp] theorem State.setS_bank (s : State) (t : Slot) (i : Reg) (v : Word) : (s.setS t i v).bank = s.bank := rfl
@[simp] theorem State.setS_rb (s : State) (t : Slot) (i : Reg) (v : Word) : (s.setS t i v).rb = s.rb := rfl
@[simp] theorem State.setS_first (s : State) (t : Slot) (i : Reg) (v : Word) : (s.setS t i v).first = s.first := rfl
@[simp] theorem State.setS_nextMod (s : State) (t : Slot) (i : Reg) (v : Word) : (s.setS t i v).nextMod = s.nextMod := rfl
@[simp] theorem State.setS_swModeP (s : State) (t : Slot) (i : Reg) (v : Word) : (s.setS t i v).swModeP = s.swModeP := rfl
@[simp] theorem State.setS_rdRamP (s : State) (t : Slot) (i : Reg) (v : Word) : (s.setS t i v).rdRamP = s.rdRamP := rfl
@[simp] theorem State.setS_wrtRamP (s : State) (t : Slot) (i : Reg) (v : Word) : (s.setS t i v).wrtRamP = s.wrtRamP := rfl
@[simp] theorem State.setS_cur (s : State) (t : Slot) (i : Reg) (v : Word) : (s.setS t i v).cur = s.cur := rfl
@[simp] theorem State.setS_nextTask (s : State) (t : Slot) (i : Reg) (v : Word) : (s.setS t i v).nextTask = s.nextTask := rfl
@[simp] theorem State.setS_csRam (s : State) (t : Slot) (i : Reg) (v : Word) : (s.setS t i v).csRam = s.csRam := rfl
@[simp] theorem State.setS_busActive (s : State) (t : Slot) (i : Reg) (v : Word) : (s.setS t i v).busActive = s.busActive := rfl
@[simp] theorem State.setS_busCycle (s : State) (t : Slot) (i : Reg) (v : Word) : (s.setS t i v).busCycle = s.busCycle := rfl
@[simp] theorem State.setS_busMar (s : State) (t : Slot) (i : Reg) (v : Word) : (s.setS t i v).busMar = s.busMar := rfl
@[simp] theorem State.setS_busTask (s : State) (t : Slot) (i : Reg) (v : Word) : (s.setS t i v).busTask = s.busTask := rfl
@[simp] theorem State.setS_busXm (s : State) (t : Slot) (i : Reg) (v : Word) : (s.setS t i v).busXm = s.busXm := rfl
@[simp] theorem State.setS_busMd1 (s : State) (t : Slot) (i : Reg) (v : Word) : (s.setS t i v).busMd1 = s.busMd1 := rfl
@[simp] theorem State.setS_busMd2 (s : State) (t : Slot) (i : Reg) (v : Word) : (s.setS t i v).busMd2 = s.busMd2 := rfl
@[simp] theorem State.setS_busDwStore (s : State) (t : Slot) (i : Reg) (v : Word) : (s.setS t i v).busDwStore = s.busDwStore := rfl
@[simp] theorem State.setS_busDwMixed (s : State) (t : Slot) (i : Reg) (v : Word) : (s.setS t i v).busDwMixed = s.busDwMixed := rfl
@[simp] theorem State.setS_hs (s : State) (t : Slot) (i : Reg) (v : Word) : (s.setS t i v).hs = s.hs := rfl
@[simp] theorem State.setS_status (s : State) (t : Slot) (i : Reg) (v : Word) : (s.setS t i v).status = s.status := rfl
@[simp] theorem State.setS_mem (s : State) (t : Slot) (i : Reg) (v : Word) : (s.setS t i v).mem = s.mem := rfl
@[simp] theorem State.setS_cfg (s : State) (t : Slot) (i : Reg) (v : Word) : (s.setS t i v).cfg = s.cfg := rfl
@[simp] theorem State.setS_oracle (s : State) (t : Slot) (i : Reg) (v : Word) : (s.setS t i v).oracle = s.oracle := rfl
@[simp] theorem State.setS_diagnostics (s : State) (t : Slot) (i : Reg) (v : Word) : (s.setS t i v).diagnostics = s.diagnostics := rfl
@[simp] theorem State.setS_agenda (s : State) (t : Slot) (i : Reg) (v : Word) : (s.setS t i v).agenda = s.agenda := rfl

@[simp] theorem State.setMpc_r (s : State) (t : Slot) (a : Addr) : (s.setMpc t a).r = s.r := rfl
@[simp] theorem State.setMpc_sRegs (s : State) (t : Slot) (a : Addr) : (s.setMpc t a).sRegs = s.sRegs := rfl
@[simp] theorem State.setMpc_t (s : State) (t : Slot) (a : Addr) : (s.setMpc t a).t = s.t := rfl
@[simp] theorem State.setMpc_l (s : State) (t : Slot) (a : Addr) : (s.setMpc t a).l = s.l := rfl
@[simp] theorem State.setMpc_m (s : State) (t : Slot) (a : Addr) : (s.setMpc t a).m = s.m := rfl
@[simp] theorem State.setMpc_ir (s : State) (t : Slot) (a : Addr) : (s.setMpc t a).ir = s.ir := rfl
@[simp] theorem State.setMpc_aluC0 (s : State) (t : Slot) (a : Addr) : (s.setMpc t a).aluC0 = s.aluC0 := rfl
@[simp] theorem State.setMpc_aluCarry (s : State) (t : Slot) (a : Addr) : (s.setMpc t a).aluCarry = s.aluCarry := rfl
@[simp] theorem State.setMpc_skip (s : State) (t : Slot) (a : Addr) : (s.setMpc t a).skip = s.skip := rfl
@[simp] theorem State.setMpc_dnsCarry (s : State) (t : Slot) (a : Addr) : (s.setMpc t a).dnsCarry = s.dnsCarry := rfl
@[simp] theorem State.setMpc_rmr (s : State) (t : Slot) (a : Addr) : (s.setMpc t a).rmr = s.rmr := rfl
@[simp] theorem State.setMpc_crar (s : State) (t : Slot) (a : Addr) : (s.setMpc t a).crar = s.crar := rfl
@[simp] theorem State.setMpc_mpc (s : State) (t : Slot) (a : Addr) : (s.setMpc t a).mpc = wr s.mpc t a := rfl
@[simp] theorem State.setMpc_wakeup (s : State) (t : Slot) (a : Addr) : (s.setMpc t a).wakeup = s.wakeup := rfl
@[simp] theorem State.setMpc_bank (s : State) (t : Slot) (a : Addr) : (s.setMpc t a).bank = s.bank := rfl
@[simp] theorem State.setMpc_rb (s : State) (t : Slot) (a : Addr) : (s.setMpc t a).rb = s.rb := rfl
@[simp] theorem State.setMpc_first (s : State) (t : Slot) (a : Addr) : (s.setMpc t a).first = s.first := rfl
@[simp] theorem State.setMpc_nextMod (s : State) (t : Slot) (a : Addr) : (s.setMpc t a).nextMod = s.nextMod := rfl
@[simp] theorem State.setMpc_swModeP (s : State) (t : Slot) (a : Addr) : (s.setMpc t a).swModeP = s.swModeP := rfl
@[simp] theorem State.setMpc_rdRamP (s : State) (t : Slot) (a : Addr) : (s.setMpc t a).rdRamP = s.rdRamP := rfl
@[simp] theorem State.setMpc_wrtRamP (s : State) (t : Slot) (a : Addr) : (s.setMpc t a).wrtRamP = s.wrtRamP := rfl
@[simp] theorem State.setMpc_cur (s : State) (t : Slot) (a : Addr) : (s.setMpc t a).cur = s.cur := rfl
@[simp] theorem State.setMpc_nextTask (s : State) (t : Slot) (a : Addr) : (s.setMpc t a).nextTask = s.nextTask := rfl
@[simp] theorem State.setMpc_csRam (s : State) (t : Slot) (a : Addr) : (s.setMpc t a).csRam = s.csRam := rfl
@[simp] theorem State.setMpc_busActive (s : State) (t : Slot) (a : Addr) : (s.setMpc t a).busActive = s.busActive := rfl
@[simp] theorem State.setMpc_busCycle (s : State) (t : Slot) (a : Addr) : (s.setMpc t a).busCycle = s.busCycle := rfl
@[simp] theorem State.setMpc_busMar (s : State) (t : Slot) (a : Addr) : (s.setMpc t a).busMar = s.busMar := rfl
@[simp] theorem State.setMpc_busTask (s : State) (t : Slot) (a : Addr) : (s.setMpc t a).busTask = s.busTask := rfl
@[simp] theorem State.setMpc_busXm (s : State) (t : Slot) (a : Addr) : (s.setMpc t a).busXm = s.busXm := rfl
@[simp] theorem State.setMpc_busMd1 (s : State) (t : Slot) (a : Addr) : (s.setMpc t a).busMd1 = s.busMd1 := rfl
@[simp] theorem State.setMpc_busMd2 (s : State) (t : Slot) (a : Addr) : (s.setMpc t a).busMd2 = s.busMd2 := rfl
@[simp] theorem State.setMpc_busDwStore (s : State) (t : Slot) (a : Addr) : (s.setMpc t a).busDwStore = s.busDwStore := rfl
@[simp] theorem State.setMpc_busDwMixed (s : State) (t : Slot) (a : Addr) : (s.setMpc t a).busDwMixed = s.busDwMixed := rfl
@[simp] theorem State.setMpc_hs (s : State) (t : Slot) (a : Addr) : (s.setMpc t a).hs = s.hs := rfl
@[simp] theorem State.setMpc_status (s : State) (t : Slot) (a : Addr) : (s.setMpc t a).status = s.status := rfl
@[simp] theorem State.setMpc_mem (s : State) (t : Slot) (a : Addr) : (s.setMpc t a).mem = s.mem := rfl
@[simp] theorem State.setMpc_cfg (s : State) (t : Slot) (a : Addr) : (s.setMpc t a).cfg = s.cfg := rfl
@[simp] theorem State.setMpc_oracle (s : State) (t : Slot) (a : Addr) : (s.setMpc t a).oracle = s.oracle := rfl
@[simp] theorem State.setMpc_diagnostics (s : State) (t : Slot) (a : Addr) : (s.setMpc t a).diagnostics = s.diagnostics := rfl
@[simp] theorem State.setMpc_agenda (s : State) (t : Slot) (a : Addr) : (s.setMpc t a).agenda = s.agenda := rfl

@[simp] theorem State.setWakeup_r (s : State) (t : Slot) (b : Bool) : (s.setWakeup t b).r = s.r := rfl
@[simp] theorem State.setWakeup_sRegs (s : State) (t : Slot) (b : Bool) : (s.setWakeup t b).sRegs = s.sRegs := rfl
@[simp] theorem State.setWakeup_t (s : State) (t : Slot) (b : Bool) : (s.setWakeup t b).t = s.t := rfl
@[simp] theorem State.setWakeup_l (s : State) (t : Slot) (b : Bool) : (s.setWakeup t b).l = s.l := rfl
@[simp] theorem State.setWakeup_m (s : State) (t : Slot) (b : Bool) : (s.setWakeup t b).m = s.m := rfl
@[simp] theorem State.setWakeup_ir (s : State) (t : Slot) (b : Bool) : (s.setWakeup t b).ir = s.ir := rfl
@[simp] theorem State.setWakeup_aluC0 (s : State) (t : Slot) (b : Bool) : (s.setWakeup t b).aluC0 = s.aluC0 := rfl
@[simp] theorem State.setWakeup_aluCarry (s : State) (t : Slot) (b : Bool) : (s.setWakeup t b).aluCarry = s.aluCarry := rfl
@[simp] theorem State.setWakeup_skip (s : State) (t : Slot) (b : Bool) : (s.setWakeup t b).skip = s.skip := rfl
@[simp] theorem State.setWakeup_dnsCarry (s : State) (t : Slot) (b : Bool) : (s.setWakeup t b).dnsCarry = s.dnsCarry := rfl
@[simp] theorem State.setWakeup_rmr (s : State) (t : Slot) (b : Bool) : (s.setWakeup t b).rmr = s.rmr := rfl
@[simp] theorem State.setWakeup_crar (s : State) (t : Slot) (b : Bool) : (s.setWakeup t b).crar = s.crar := rfl
@[simp] theorem State.setWakeup_mpc (s : State) (t : Slot) (b : Bool) : (s.setWakeup t b).mpc = s.mpc := rfl
@[simp] theorem State.setWakeup_wakeup (s : State) (t : Slot) (b : Bool) : (s.setWakeup t b).wakeup = wr s.wakeup t b := rfl
@[simp] theorem State.setWakeup_bank (s : State) (t : Slot) (b : Bool) : (s.setWakeup t b).bank = s.bank := rfl
@[simp] theorem State.setWakeup_rb (s : State) (t : Slot) (b : Bool) : (s.setWakeup t b).rb = s.rb := rfl
@[simp] theorem State.setWakeup_first (s : State) (t : Slot) (b : Bool) : (s.setWakeup t b).first = s.first := rfl
@[simp] theorem State.setWakeup_nextMod (s : State) (t : Slot) (b : Bool) : (s.setWakeup t b).nextMod = s.nextMod := rfl
@[simp] theorem State.setWakeup_swModeP (s : State) (t : Slot) (b : Bool) : (s.setWakeup t b).swModeP = s.swModeP := rfl
@[simp] theorem State.setWakeup_rdRamP (s : State) (t : Slot) (b : Bool) : (s.setWakeup t b).rdRamP = s.rdRamP := rfl
@[simp] theorem State.setWakeup_wrtRamP (s : State) (t : Slot) (b : Bool) : (s.setWakeup t b).wrtRamP = s.wrtRamP := rfl
@[simp] theorem State.setWakeup_cur (s : State) (t : Slot) (b : Bool) : (s.setWakeup t b).cur = s.cur := rfl
@[simp] theorem State.setWakeup_nextTask (s : State) (t : Slot) (b : Bool) : (s.setWakeup t b).nextTask = s.nextTask := rfl
@[simp] theorem State.setWakeup_csRam (s : State) (t : Slot) (b : Bool) : (s.setWakeup t b).csRam = s.csRam := rfl
@[simp] theorem State.setWakeup_busActive (s : State) (t : Slot) (b : Bool) : (s.setWakeup t b).busActive = s.busActive := rfl
@[simp] theorem State.setWakeup_busCycle (s : State) (t : Slot) (b : Bool) : (s.setWakeup t b).busCycle = s.busCycle := rfl
@[simp] theorem State.setWakeup_busMar (s : State) (t : Slot) (b : Bool) : (s.setWakeup t b).busMar = s.busMar := rfl
@[simp] theorem State.setWakeup_busTask (s : State) (t : Slot) (b : Bool) : (s.setWakeup t b).busTask = s.busTask := rfl
@[simp] theorem State.setWakeup_busXm (s : State) (t : Slot) (b : Bool) : (s.setWakeup t b).busXm = s.busXm := rfl
@[simp] theorem State.setWakeup_busMd1 (s : State) (t : Slot) (b : Bool) : (s.setWakeup t b).busMd1 = s.busMd1 := rfl
@[simp] theorem State.setWakeup_busMd2 (s : State) (t : Slot) (b : Bool) : (s.setWakeup t b).busMd2 = s.busMd2 := rfl
@[simp] theorem State.setWakeup_busDwStore (s : State) (t : Slot) (b : Bool) : (s.setWakeup t b).busDwStore = s.busDwStore := rfl
@[simp] theorem State.setWakeup_busDwMixed (s : State) (t : Slot) (b : Bool) : (s.setWakeup t b).busDwMixed = s.busDwMixed := rfl
@[simp] theorem State.setWakeup_hs (s : State) (t : Slot) (b : Bool) : (s.setWakeup t b).hs = s.hs := rfl
@[simp] theorem State.setWakeup_status (s : State) (t : Slot) (b : Bool) : (s.setWakeup t b).status = s.status := rfl
@[simp] theorem State.setWakeup_mem (s : State) (t : Slot) (b : Bool) : (s.setWakeup t b).mem = s.mem := rfl
@[simp] theorem State.setWakeup_cfg (s : State) (t : Slot) (b : Bool) : (s.setWakeup t b).cfg = s.cfg := rfl
@[simp] theorem State.setWakeup_oracle (s : State) (t : Slot) (b : Bool) : (s.setWakeup t b).oracle = s.oracle := rfl
@[simp] theorem State.setWakeup_diagnostics (s : State) (t : Slot) (b : Bool) : (s.setWakeup t b).diagnostics = s.diagnostics := rfl
@[simp] theorem State.setWakeup_agenda (s : State) (t : Slot) (b : Bool) : (s.setWakeup t b).agenda = s.agenda := rfl

@[simp] theorem State.setBank_r (s : State) (t : Slot) (b : Bank) : (s.setBank t b).r = s.r := rfl
@[simp] theorem State.setBank_sRegs (s : State) (t : Slot) (b : Bank) : (s.setBank t b).sRegs = s.sRegs := rfl
@[simp] theorem State.setBank_t (s : State) (t : Slot) (b : Bank) : (s.setBank t b).t = s.t := rfl
@[simp] theorem State.setBank_l (s : State) (t : Slot) (b : Bank) : (s.setBank t b).l = s.l := rfl
@[simp] theorem State.setBank_m (s : State) (t : Slot) (b : Bank) : (s.setBank t b).m = s.m := rfl
@[simp] theorem State.setBank_ir (s : State) (t : Slot) (b : Bank) : (s.setBank t b).ir = s.ir := rfl
@[simp] theorem State.setBank_aluC0 (s : State) (t : Slot) (b : Bank) : (s.setBank t b).aluC0 = s.aluC0 := rfl
@[simp] theorem State.setBank_aluCarry (s : State) (t : Slot) (b : Bank) : (s.setBank t b).aluCarry = s.aluCarry := rfl
@[simp] theorem State.setBank_skip (s : State) (t : Slot) (b : Bank) : (s.setBank t b).skip = s.skip := rfl
@[simp] theorem State.setBank_dnsCarry (s : State) (t : Slot) (b : Bank) : (s.setBank t b).dnsCarry = s.dnsCarry := rfl
@[simp] theorem State.setBank_rmr (s : State) (t : Slot) (b : Bank) : (s.setBank t b).rmr = s.rmr := rfl
@[simp] theorem State.setBank_crar (s : State) (t : Slot) (b : Bank) : (s.setBank t b).crar = s.crar := rfl
@[simp] theorem State.setBank_mpc (s : State) (t : Slot) (b : Bank) : (s.setBank t b).mpc = s.mpc := rfl
@[simp] theorem State.setBank_wakeup (s : State) (t : Slot) (b : Bank) : (s.setBank t b).wakeup = s.wakeup := rfl
@[simp] theorem State.setBank_bank (s : State) (t : Slot) (b : Bank) : (s.setBank t b).bank = wr s.bank t b := rfl
@[simp] theorem State.setBank_rb (s : State) (t : Slot) (b : Bank) : (s.setBank t b).rb = s.rb := rfl
@[simp] theorem State.setBank_first (s : State) (t : Slot) (b : Bank) : (s.setBank t b).first = s.first := rfl
@[simp] theorem State.setBank_nextMod (s : State) (t : Slot) (b : Bank) : (s.setBank t b).nextMod = s.nextMod := rfl
@[simp] theorem State.setBank_swModeP (s : State) (t : Slot) (b : Bank) : (s.setBank t b).swModeP = s.swModeP := rfl
@[simp] theorem State.setBank_rdRamP (s : State) (t : Slot) (b : Bank) : (s.setBank t b).rdRamP = s.rdRamP := rfl
@[simp] theorem State.setBank_wrtRamP (s : State) (t : Slot) (b : Bank) : (s.setBank t b).wrtRamP = s.wrtRamP := rfl
@[simp] theorem State.setBank_cur (s : State) (t : Slot) (b : Bank) : (s.setBank t b).cur = s.cur := rfl
@[simp] theorem State.setBank_nextTask (s : State) (t : Slot) (b : Bank) : (s.setBank t b).nextTask = s.nextTask := rfl
@[simp] theorem State.setBank_csRam (s : State) (t : Slot) (b : Bank) : (s.setBank t b).csRam = s.csRam := rfl
@[simp] theorem State.setBank_busActive (s : State) (t : Slot) (b : Bank) : (s.setBank t b).busActive = s.busActive := rfl
@[simp] theorem State.setBank_busCycle (s : State) (t : Slot) (b : Bank) : (s.setBank t b).busCycle = s.busCycle := rfl
@[simp] theorem State.setBank_busMar (s : State) (t : Slot) (b : Bank) : (s.setBank t b).busMar = s.busMar := rfl
@[simp] theorem State.setBank_busTask (s : State) (t : Slot) (b : Bank) : (s.setBank t b).busTask = s.busTask := rfl
@[simp] theorem State.setBank_busXm (s : State) (t : Slot) (b : Bank) : (s.setBank t b).busXm = s.busXm := rfl
@[simp] theorem State.setBank_busMd1 (s : State) (t : Slot) (b : Bank) : (s.setBank t b).busMd1 = s.busMd1 := rfl
@[simp] theorem State.setBank_busMd2 (s : State) (t : Slot) (b : Bank) : (s.setBank t b).busMd2 = s.busMd2 := rfl
@[simp] theorem State.setBank_busDwStore (s : State) (t : Slot) (b : Bank) : (s.setBank t b).busDwStore = s.busDwStore := rfl
@[simp] theorem State.setBank_busDwMixed (s : State) (t : Slot) (b : Bank) : (s.setBank t b).busDwMixed = s.busDwMixed := rfl
@[simp] theorem State.setBank_hs (s : State) (t : Slot) (b : Bank) : (s.setBank t b).hs = s.hs := rfl
@[simp] theorem State.setBank_status (s : State) (t : Slot) (b : Bank) : (s.setBank t b).status = s.status := rfl
@[simp] theorem State.setBank_mem (s : State) (t : Slot) (b : Bank) : (s.setBank t b).mem = s.mem := rfl
@[simp] theorem State.setBank_cfg (s : State) (t : Slot) (b : Bank) : (s.setBank t b).cfg = s.cfg := rfl
@[simp] theorem State.setBank_oracle (s : State) (t : Slot) (b : Bank) : (s.setBank t b).oracle = s.oracle := rfl
@[simp] theorem State.setBank_diagnostics (s : State) (t : Slot) (b : Bank) : (s.setBank t b).diagnostics = s.diagnostics := rfl
@[simp] theorem State.setBank_agenda (s : State) (t : Slot) (b : Bank) : (s.setBank t b).agenda = s.agenda := rfl

@[simp] theorem State.setRb_r (s : State) (t : Slot) (b : BitVec 3) : (s.setRb t b).r = s.r := rfl
@[simp] theorem State.setRb_sRegs (s : State) (t : Slot) (b : BitVec 3) : (s.setRb t b).sRegs = s.sRegs := rfl
@[simp] theorem State.setRb_t (s : State) (t : Slot) (b : BitVec 3) : (s.setRb t b).t = s.t := rfl
@[simp] theorem State.setRb_l (s : State) (t : Slot) (b : BitVec 3) : (s.setRb t b).l = s.l := rfl
@[simp] theorem State.setRb_m (s : State) (t : Slot) (b : BitVec 3) : (s.setRb t b).m = s.m := rfl
@[simp] theorem State.setRb_ir (s : State) (t : Slot) (b : BitVec 3) : (s.setRb t b).ir = s.ir := rfl
@[simp] theorem State.setRb_aluC0 (s : State) (t : Slot) (b : BitVec 3) : (s.setRb t b).aluC0 = s.aluC0 := rfl
@[simp] theorem State.setRb_aluCarry (s : State) (t : Slot) (b : BitVec 3) : (s.setRb t b).aluCarry = s.aluCarry := rfl
@[simp] theorem State.setRb_skip (s : State) (t : Slot) (b : BitVec 3) : (s.setRb t b).skip = s.skip := rfl
@[simp] theorem State.setRb_dnsCarry (s : State) (t : Slot) (b : BitVec 3) : (s.setRb t b).dnsCarry = s.dnsCarry := rfl
@[simp] theorem State.setRb_rmr (s : State) (t : Slot) (b : BitVec 3) : (s.setRb t b).rmr = s.rmr := rfl
@[simp] theorem State.setRb_crar (s : State) (t : Slot) (b : BitVec 3) : (s.setRb t b).crar = s.crar := rfl
@[simp] theorem State.setRb_mpc (s : State) (t : Slot) (b : BitVec 3) : (s.setRb t b).mpc = s.mpc := rfl
@[simp] theorem State.setRb_wakeup (s : State) (t : Slot) (b : BitVec 3) : (s.setRb t b).wakeup = s.wakeup := rfl
@[simp] theorem State.setRb_bank (s : State) (t : Slot) (b : BitVec 3) : (s.setRb t b).bank = s.bank := rfl
@[simp] theorem State.setRb_rb (s : State) (t : Slot) (b : BitVec 3) : (s.setRb t b).rb = wr s.rb t b := rfl
@[simp] theorem State.setRb_first (s : State) (t : Slot) (b : BitVec 3) : (s.setRb t b).first = s.first := rfl
@[simp] theorem State.setRb_nextMod (s : State) (t : Slot) (b : BitVec 3) : (s.setRb t b).nextMod = s.nextMod := rfl
@[simp] theorem State.setRb_swModeP (s : State) (t : Slot) (b : BitVec 3) : (s.setRb t b).swModeP = s.swModeP := rfl
@[simp] theorem State.setRb_rdRamP (s : State) (t : Slot) (b : BitVec 3) : (s.setRb t b).rdRamP = s.rdRamP := rfl
@[simp] theorem State.setRb_wrtRamP (s : State) (t : Slot) (b : BitVec 3) : (s.setRb t b).wrtRamP = s.wrtRamP := rfl
@[simp] theorem State.setRb_cur (s : State) (t : Slot) (b : BitVec 3) : (s.setRb t b).cur = s.cur := rfl
@[simp] theorem State.setRb_nextTask (s : State) (t : Slot) (b : BitVec 3) : (s.setRb t b).nextTask = s.nextTask := rfl
@[simp] theorem State.setRb_csRam (s : State) (t : Slot) (b : BitVec 3) : (s.setRb t b).csRam = s.csRam := rfl
@[simp] theorem State.setRb_busActive (s : State) (t : Slot) (b : BitVec 3) : (s.setRb t b).busActive = s.busActive := rfl
@[simp] theorem State.setRb_busCycle (s : State) (t : Slot) (b : BitVec 3) : (s.setRb t b).busCycle = s.busCycle := rfl
@[simp] theorem State.setRb_busMar (s : State) (t : Slot) (b : BitVec 3) : (s.setRb t b).busMar = s.busMar := rfl
@[simp] theorem State.setRb_busTask (s : State) (t : Slot) (b : BitVec 3) : (s.setRb t b).busTask = s.busTask := rfl
@[simp] theorem State.setRb_busXm (s : State) (t : Slot) (b : BitVec 3) : (s.setRb t b).busXm = s.busXm := rfl
@[simp] theorem State.setRb_busMd1 (s : State) (t : Slot) (b : BitVec 3) : (s.setRb t b).busMd1 = s.busMd1 := rfl
@[simp] theorem State.setRb_busMd2 (s : State) (t : Slot) (b : BitVec 3) : (s.setRb t b).busMd2 = s.busMd2 := rfl
@[simp] theorem State.setRb_busDwStore (s : State) (t : Slot) (b : BitVec 3) : (s.setRb t b).busDwStore = s.busDwStore := rfl
@[simp] theorem State.setRb_busDwMixed (s : State) (t : Slot) (b : BitVec 3) : (s.setRb t b).busDwMixed = s.busDwMixed := rfl
@[simp] theorem State.setRb_hs (s : State) (t : Slot) (b : BitVec 3) : (s.setRb t b).hs = s.hs := rfl
@[simp] theorem State.setRb_status (s : State) (t : Slot) (b : BitVec 3) : (s.setRb t b).status = s.status := rfl
@[simp] theorem State.setRb_mem (s : State) (t : Slot) (b : BitVec 3) : (s.setRb t b).mem = s.mem := rfl
@[simp] theorem State.setRb_cfg (s : State) (t : Slot) (b : BitVec 3) : (s.setRb t b).cfg = s.cfg := rfl
@[simp] theorem State.setRb_oracle (s : State) (t : Slot) (b : BitVec 3) : (s.setRb t b).oracle = s.oracle := rfl
@[simp] theorem State.setRb_diagnostics (s : State) (t : Slot) (b : BitVec 3) : (s.setRb t b).diagnostics = s.diagnostics := rfl
@[simp] theorem State.setRb_agenda (s : State) (t : Slot) (b : BitVec 3) : (s.setRb t b).agenda = s.agenda := rfl

@[simp] theorem State.setFirst_r (s : State) (t : Slot) (b : Bool) : (s.setFirst t b).r = s.r := rfl
@[simp] theorem State.setFirst_sRegs (s : State) (t : Slot) (b : Bool) : (s.setFirst t b).sRegs = s.sRegs := rfl
@[simp] theorem State.setFirst_t (s : State) (t : Slot) (b : Bool) : (s.setFirst t b).t = s.t := rfl
@[simp] theorem State.setFirst_l (s : State) (t : Slot) (b : Bool) : (s.setFirst t b).l = s.l := rfl
@[simp] theorem State.setFirst_m (s : State) (t : Slot) (b : Bool) : (s.setFirst t b).m = s.m := rfl
@[simp] theorem State.setFirst_ir (s : State) (t : Slot) (b : Bool) : (s.setFirst t b).ir = s.ir := rfl
@[simp] theorem State.setFirst_aluC0 (s : State) (t : Slot) (b : Bool) : (s.setFirst t b).aluC0 = s.aluC0 := rfl
@[simp] theorem State.setFirst_aluCarry (s : State) (t : Slot) (b : Bool) : (s.setFirst t b).aluCarry = s.aluCarry := rfl
@[simp] theorem State.setFirst_skip (s : State) (t : Slot) (b : Bool) : (s.setFirst t b).skip = s.skip := rfl
@[simp] theorem State.setFirst_dnsCarry (s : State) (t : Slot) (b : Bool) : (s.setFirst t b).dnsCarry = s.dnsCarry := rfl
@[simp] theorem State.setFirst_rmr (s : State) (t : Slot) (b : Bool) : (s.setFirst t b).rmr = s.rmr := rfl
@[simp] theorem State.setFirst_crar (s : State) (t : Slot) (b : Bool) : (s.setFirst t b).crar = s.crar := rfl
@[simp] theorem State.setFirst_mpc (s : State) (t : Slot) (b : Bool) : (s.setFirst t b).mpc = s.mpc := rfl
@[simp] theorem State.setFirst_wakeup (s : State) (t : Slot) (b : Bool) : (s.setFirst t b).wakeup = s.wakeup := rfl
@[simp] theorem State.setFirst_bank (s : State) (t : Slot) (b : Bool) : (s.setFirst t b).bank = s.bank := rfl
@[simp] theorem State.setFirst_rb (s : State) (t : Slot) (b : Bool) : (s.setFirst t b).rb = s.rb := rfl
@[simp] theorem State.setFirst_first (s : State) (t : Slot) (b : Bool) : (s.setFirst t b).first = wr s.first t b := rfl
@[simp] theorem State.setFirst_nextMod (s : State) (t : Slot) (b : Bool) : (s.setFirst t b).nextMod = s.nextMod := rfl
@[simp] theorem State.setFirst_swModeP (s : State) (t : Slot) (b : Bool) : (s.setFirst t b).swModeP = s.swModeP := rfl
@[simp] theorem State.setFirst_rdRamP (s : State) (t : Slot) (b : Bool) : (s.setFirst t b).rdRamP = s.rdRamP := rfl
@[simp] theorem State.setFirst_wrtRamP (s : State) (t : Slot) (b : Bool) : (s.setFirst t b).wrtRamP = s.wrtRamP := rfl
@[simp] theorem State.setFirst_cur (s : State) (t : Slot) (b : Bool) : (s.setFirst t b).cur = s.cur := rfl
@[simp] theorem State.setFirst_nextTask (s : State) (t : Slot) (b : Bool) : (s.setFirst t b).nextTask = s.nextTask := rfl
@[simp] theorem State.setFirst_csRam (s : State) (t : Slot) (b : Bool) : (s.setFirst t b).csRam = s.csRam := rfl
@[simp] theorem State.setFirst_busActive (s : State) (t : Slot) (b : Bool) : (s.setFirst t b).busActive = s.busActive := rfl
@[simp] theorem State.setFirst_busCycle (s : State) (t : Slot) (b : Bool) : (s.setFirst t b).busCycle = s.busCycle := rfl
@[simp] theorem State.setFirst_busMar (s : State) (t : Slot) (b : Bool) : (s.setFirst t b).busMar = s.busMar := rfl
@[simp] theorem State.setFirst_busTask (s : State) (t : Slot) (b : Bool) : (s.setFirst t b).busTask = s.busTask := rfl
@[simp] theorem State.setFirst_busXm (s : State) (t : Slot) (b : Bool) : (s.setFirst t b).busXm = s.busXm := rfl
@[simp] theorem State.setFirst_busMd1 (s : State) (t : Slot) (b : Bool) : (s.setFirst t b).busMd1 = s.busMd1 := rfl
@[simp] theorem State.setFirst_busMd2 (s : State) (t : Slot) (b : Bool) : (s.setFirst t b).busMd2 = s.busMd2 := rfl
@[simp] theorem State.setFirst_busDwStore (s : State) (t : Slot) (b : Bool) : (s.setFirst t b).busDwStore = s.busDwStore := rfl
@[simp] theorem State.setFirst_busDwMixed (s : State) (t : Slot) (b : Bool) : (s.setFirst t b).busDwMixed = s.busDwMixed := rfl
@[simp] theorem State.setFirst_hs (s : State) (t : Slot) (b : Bool) : (s.setFirst t b).hs = s.hs := rfl
@[simp] theorem State.setFirst_status (s : State) (t : Slot) (b : Bool) : (s.setFirst t b).status = s.status := rfl
@[simp] theorem State.setFirst_mem (s : State) (t : Slot) (b : Bool) : (s.setFirst t b).mem = s.mem := rfl
@[simp] theorem State.setFirst_cfg (s : State) (t : Slot) (b : Bool) : (s.setFirst t b).cfg = s.cfg := rfl
@[simp] theorem State.setFirst_oracle (s : State) (t : Slot) (b : Bool) : (s.setFirst t b).oracle = s.oracle := rfl
@[simp] theorem State.setFirst_diagnostics (s : State) (t : Slot) (b : Bool) : (s.setFirst t b).diagnostics = s.diagnostics := rfl
@[simp] theorem State.setFirst_agenda (s : State) (t : Slot) (b : Bool) : (s.setFirst t b).agenda = s.agenda := rfl

@[simp] theorem State.setNextMod_r (s : State) (t : Slot) (a : Addr) : (s.setNextMod t a).r = s.r := rfl
@[simp] theorem State.setNextMod_sRegs (s : State) (t : Slot) (a : Addr) : (s.setNextMod t a).sRegs = s.sRegs := rfl
@[simp] theorem State.setNextMod_t (s : State) (t : Slot) (a : Addr) : (s.setNextMod t a).t = s.t := rfl
@[simp] theorem State.setNextMod_l (s : State) (t : Slot) (a : Addr) : (s.setNextMod t a).l = s.l := rfl
@[simp] theorem State.setNextMod_m (s : State) (t : Slot) (a : Addr) : (s.setNextMod t a).m = s.m := rfl
@[simp] theorem State.setNextMod_ir (s : State) (t : Slot) (a : Addr) : (s.setNextMod t a).ir = s.ir := rfl
@[simp] theorem State.setNextMod_aluC0 (s : State) (t : Slot) (a : Addr) : (s.setNextMod t a).aluC0 = s.aluC0 := rfl
@[simp] theorem State.setNextMod_aluCarry (s : State) (t : Slot) (a : Addr) : (s.setNextMod t a).aluCarry = s.aluCarry := rfl
@[simp] theorem State.setNextMod_skip (s : State) (t : Slot) (a : Addr) : (s.setNextMod t a).skip = s.skip := rfl
@[simp] theorem State.setNextMod_dnsCarry (s : State) (t : Slot) (a : Addr) : (s.setNextMod t a).dnsCarry = s.dnsCarry := rfl
@[simp] theorem State.setNextMod_rmr (s : State) (t : Slot) (a : Addr) : (s.setNextMod t a).rmr = s.rmr := rfl
@[simp] theorem State.setNextMod_crar (s : State) (t : Slot) (a : Addr) : (s.setNextMod t a).crar = s.crar := rfl
@[simp] theorem State.setNextMod_mpc (s : State) (t : Slot) (a : Addr) : (s.setNextMod t a).mpc = s.mpc := rfl
@[simp] theorem State.setNextMod_wakeup (s : State) (t : Slot) (a : Addr) : (s.setNextMod t a).wakeup = s.wakeup := rfl
@[simp] theorem State.setNextMod_bank (s : State) (t : Slot) (a : Addr) : (s.setNextMod t a).bank = s.bank := rfl
@[simp] theorem State.setNextMod_rb (s : State) (t : Slot) (a : Addr) : (s.setNextMod t a).rb = s.rb := rfl
@[simp] theorem State.setNextMod_first (s : State) (t : Slot) (a : Addr) : (s.setNextMod t a).first = s.first := rfl
@[simp] theorem State.setNextMod_nextMod (s : State) (t : Slot) (a : Addr) : (s.setNextMod t a).nextMod = wr s.nextMod t a := rfl
@[simp] theorem State.setNextMod_swModeP (s : State) (t : Slot) (a : Addr) : (s.setNextMod t a).swModeP = s.swModeP := rfl
@[simp] theorem State.setNextMod_rdRamP (s : State) (t : Slot) (a : Addr) : (s.setNextMod t a).rdRamP = s.rdRamP := rfl
@[simp] theorem State.setNextMod_wrtRamP (s : State) (t : Slot) (a : Addr) : (s.setNextMod t a).wrtRamP = s.wrtRamP := rfl
@[simp] theorem State.setNextMod_cur (s : State) (t : Slot) (a : Addr) : (s.setNextMod t a).cur = s.cur := rfl
@[simp] theorem State.setNextMod_nextTask (s : State) (t : Slot) (a : Addr) : (s.setNextMod t a).nextTask = s.nextTask := rfl
@[simp] theorem State.setNextMod_csRam (s : State) (t : Slot) (a : Addr) : (s.setNextMod t a).csRam = s.csRam := rfl
@[simp] theorem State.setNextMod_busActive (s : State) (t : Slot) (a : Addr) : (s.setNextMod t a).busActive = s.busActive := rfl
@[simp] theorem State.setNextMod_busCycle (s : State) (t : Slot) (a : Addr) : (s.setNextMod t a).busCycle = s.busCycle := rfl
@[simp] theorem State.setNextMod_busMar (s : State) (t : Slot) (a : Addr) : (s.setNextMod t a).busMar = s.busMar := rfl
@[simp] theorem State.setNextMod_busTask (s : State) (t : Slot) (a : Addr) : (s.setNextMod t a).busTask = s.busTask := rfl
@[simp] theorem State.setNextMod_busXm (s : State) (t : Slot) (a : Addr) : (s.setNextMod t a).busXm = s.busXm := rfl
@[simp] theorem State.setNextMod_busMd1 (s : State) (t : Slot) (a : Addr) : (s.setNextMod t a).busMd1 = s.busMd1 := rfl
@[simp] theorem State.setNextMod_busMd2 (s : State) (t : Slot) (a : Addr) : (s.setNextMod t a).busMd2 = s.busMd2 := rfl
@[simp] theorem State.setNextMod_busDwStore (s : State) (t : Slot) (a : Addr) : (s.setNextMod t a).busDwStore = s.busDwStore := rfl
@[simp] theorem State.setNextMod_busDwMixed (s : State) (t : Slot) (a : Addr) : (s.setNextMod t a).busDwMixed = s.busDwMixed := rfl
@[simp] theorem State.setNextMod_hs (s : State) (t : Slot) (a : Addr) : (s.setNextMod t a).hs = s.hs := rfl
@[simp] theorem State.setNextMod_status (s : State) (t : Slot) (a : Addr) : (s.setNextMod t a).status = s.status := rfl
@[simp] theorem State.setNextMod_mem (s : State) (t : Slot) (a : Addr) : (s.setNextMod t a).mem = s.mem := rfl
@[simp] theorem State.setNextMod_cfg (s : State) (t : Slot) (a : Addr) : (s.setNextMod t a).cfg = s.cfg := rfl
@[simp] theorem State.setNextMod_oracle (s : State) (t : Slot) (a : Addr) : (s.setNextMod t a).oracle = s.oracle := rfl
@[simp] theorem State.setNextMod_diagnostics (s : State) (t : Slot) (a : Addr) : (s.setNextMod t a).diagnostics = s.diagnostics := rfl
@[simp] theorem State.setNextMod_agenda (s : State) (t : Slot) (a : Addr) : (s.setNextMod t a).agenda = s.agenda := rfl

@[simp] theorem State.setSwModeP_r (s : State) (t : Slot) (b : Bool) : (s.setSwModeP t b).r = s.r := rfl
@[simp] theorem State.setSwModeP_sRegs (s : State) (t : Slot) (b : Bool) : (s.setSwModeP t b).sRegs = s.sRegs := rfl
@[simp] theorem State.setSwModeP_t (s : State) (t : Slot) (b : Bool) : (s.setSwModeP t b).t = s.t := rfl
@[simp] theorem State.setSwModeP_l (s : State) (t : Slot) (b : Bool) : (s.setSwModeP t b).l = s.l := rfl
@[simp] theorem State.setSwModeP_m (s : State) (t : Slot) (b : Bool) : (s.setSwModeP t b).m = s.m := rfl
@[simp] theorem State.setSwModeP_ir (s : State) (t : Slot) (b : Bool) : (s.setSwModeP t b).ir = s.ir := rfl
@[simp] theorem State.setSwModeP_aluC0 (s : State) (t : Slot) (b : Bool) : (s.setSwModeP t b).aluC0 = s.aluC0 := rfl
@[simp] theorem State.setSwModeP_aluCarry (s : State) (t : Slot) (b : Bool) : (s.setSwModeP t b).aluCarry = s.aluCarry := rfl
@[simp] theorem State.setSwModeP_skip (s : State) (t : Slot) (b : Bool) : (s.setSwModeP t b).skip = s.skip := rfl
@[simp] theorem State.setSwModeP_dnsCarry (s : State) (t : Slot) (b : Bool) : (s.setSwModeP t b).dnsCarry = s.dnsCarry := rfl
@[simp] theorem State.setSwModeP_rmr (s : State) (t : Slot) (b : Bool) : (s.setSwModeP t b).rmr = s.rmr := rfl
@[simp] theorem State.setSwModeP_crar (s : State) (t : Slot) (b : Bool) : (s.setSwModeP t b).crar = s.crar := rfl
@[simp] theorem State.setSwModeP_mpc (s : State) (t : Slot) (b : Bool) : (s.setSwModeP t b).mpc = s.mpc := rfl
@[simp] theorem State.setSwModeP_wakeup (s : State) (t : Slot) (b : Bool) : (s.setSwModeP t b).wakeup = s.wakeup := rfl
@[simp] theorem State.setSwModeP_bank (s : State) (t : Slot) (b : Bool) : (s.setSwModeP t b).bank = s.bank := rfl
@[simp] theorem State.setSwModeP_rb (s : State) (t : Slot) (b : Bool) : (s.setSwModeP t b).rb = s.rb := rfl
@[simp] theorem State.setSwModeP_first (s : State) (t : Slot) (b : Bool) : (s.setSwModeP t b).first = s.first := rfl
@[simp] theorem State.setSwModeP_nextMod (s : State) (t : Slot) (b : Bool) : (s.setSwModeP t b).nextMod = s.nextMod := rfl
@[simp] theorem State.setSwModeP_swModeP (s : State) (t : Slot) (b : Bool) : (s.setSwModeP t b).swModeP = wr s.swModeP t b := rfl
@[simp] theorem State.setSwModeP_rdRamP (s : State) (t : Slot) (b : Bool) : (s.setSwModeP t b).rdRamP = s.rdRamP := rfl
@[simp] theorem State.setSwModeP_wrtRamP (s : State) (t : Slot) (b : Bool) : (s.setSwModeP t b).wrtRamP = s.wrtRamP := rfl
@[simp] theorem State.setSwModeP_cur (s : State) (t : Slot) (b : Bool) : (s.setSwModeP t b).cur = s.cur := rfl
@[simp] theorem State.setSwModeP_nextTask (s : State) (t : Slot) (b : Bool) : (s.setSwModeP t b).nextTask = s.nextTask := rfl
@[simp] theorem State.setSwModeP_csRam (s : State) (t : Slot) (b : Bool) : (s.setSwModeP t b).csRam = s.csRam := rfl
@[simp] theorem State.setSwModeP_busActive (s : State) (t : Slot) (b : Bool) : (s.setSwModeP t b).busActive = s.busActive := rfl
@[simp] theorem State.setSwModeP_busCycle (s : State) (t : Slot) (b : Bool) : (s.setSwModeP t b).busCycle = s.busCycle := rfl
@[simp] theorem State.setSwModeP_busMar (s : State) (t : Slot) (b : Bool) : (s.setSwModeP t b).busMar = s.busMar := rfl
@[simp] theorem State.setSwModeP_busTask (s : State) (t : Slot) (b : Bool) : (s.setSwModeP t b).busTask = s.busTask := rfl
@[simp] theorem State.setSwModeP_busXm (s : State) (t : Slot) (b : Bool) : (s.setSwModeP t b).busXm = s.busXm := rfl
@[simp] theorem State.setSwModeP_busMd1 (s : State) (t : Slot) (b : Bool) : (s.setSwModeP t b).busMd1 = s.busMd1 := rfl
@[simp] theorem State.setSwModeP_busMd2 (s : State) (t : Slot) (b : Bool) : (s.setSwModeP t b).busMd2 = s.busMd2 := rfl
@[simp] theorem State.setSwModeP_busDwStore (s : State) (t : Slot) (b : Bool) : (s.setSwModeP t b).busDwStore = s.busDwStore := rfl
@[simp] theorem State.setSwModeP_busDwMixed (s : State) (t : Slot) (b : Bool) : (s.setSwModeP t b).busDwMixed = s.busDwMixed := rfl
@[simp] theorem State.setSwModeP_hs (s : State) (t : Slot) (b : Bool) : (s.setSwModeP t b).hs = s.hs := rfl
@[simp] theorem State.setSwModeP_status (s : State) (t : Slot) (b : Bool) : (s.setSwModeP t b).status = s.status := rfl
@[simp] theorem State.setSwModeP_mem (s : State) (t : Slot) (b : Bool) : (s.setSwModeP t b).mem = s.mem := rfl
@[simp] theorem State.setSwModeP_cfg (s : State) (t : Slot) (b : Bool) : (s.setSwModeP t b).cfg = s.cfg := rfl
@[simp] theorem State.setSwModeP_oracle (s : State) (t : Slot) (b : Bool) : (s.setSwModeP t b).oracle = s.oracle := rfl
@[simp] theorem State.setSwModeP_diagnostics (s : State) (t : Slot) (b : Bool) : (s.setSwModeP t b).diagnostics = s.diagnostics := rfl
@[simp] theorem State.setSwModeP_agenda (s : State) (t : Slot) (b : Bool) : (s.setSwModeP t b).agenda = s.agenda := rfl

@[simp] theorem State.setRdRamP_r (s : State) (t : Slot) (b : Bool) : (s.setRdRamP t b).r = s.r := rfl
@[simp] theorem State.setRdRamP_sRegs (s : State) (t : Slot) (b : Bool) : (s.setRdRamP t b).sRegs = s.sRegs := rfl
@[simp] theorem State.setRdRamP_t (s : State) (t : Slot) (b : Bool) : (s.setRdRamP t b).t = s.t := rfl
@[simp] theorem State.setRdRamP_l (s : State) (t : Slot) (b : Bool) : (s.setRdRamP t b).l = s.l := rfl
@[simp] theorem State.setRdRamP_m (s : State) (t : Slot) (b : Bool) : (s.setRdRamP t b).m = s.m := rfl
@[simp] theorem State.setRdRamP_ir (s : State) (t : Slot) (b : Bool) : (s.setRdRamP t b).ir = s.ir := rfl
@[simp] theorem State.setRdRamP_aluC0 (s : State) (t : Slot) (b : Bool) : (s.setRdRamP t b).aluC0 = s.aluC0 := rfl
@[simp] theorem State.setRdRamP_aluCarry (s : State) (t : Slot) (b : Bool) : (s.setRdRamP t b).aluCarry = s.aluCarry := rfl
@[simp] theorem State.setRdRamP_skip (s : State) (t : Slot) (b : Bool) : (s.setRdRamP t b).skip = s.skip := rfl
@[simp] theorem State.setRdRamP_dnsCarry (s : State) (t : Slot) (b : Bool) : (s.setRdRamP t b).dnsCarry = s.dnsCarry := rfl
@[simp] theorem State.setRdRamP_rmr (s : State) (t : Slot) (b : Bool) : (s.setRdRamP t b).rmr = s.rmr := rfl
@[simp] theorem State.setRdRamP_crar (s : State) (t : Slot) (b : Bool) : (s.setRdRamP t b).crar = s.crar := rfl
@[simp] theorem State.setRdRamP_mpc (s : State) (t : Slot) (b : Bool) : (s.setRdRamP t b).mpc = s.mpc := rfl
@[simp] theorem State.setRdRamP_wakeup (s : State) (t : Slot) (b : Bool) : (s.setRdRamP t b).wakeup = s.wakeup := rfl
@[simp] theorem State.setRdRamP_bank (s : State) (t : Slot) (b : Bool) : (s.setRdRamP t b).bank = s.bank := rfl
@[simp] theorem State.setRdRamP_rb (s : State) (t : Slot) (b : Bool) : (s.setRdRamP t b).rb = s.rb := rfl
@[simp] theorem State.setRdRamP_first (s : State) (t : Slot) (b : Bool) : (s.setRdRamP t b).first = s.first := rfl
@[simp] theorem State.setRdRamP_nextMod (s : State) (t : Slot) (b : Bool) : (s.setRdRamP t b).nextMod = s.nextMod := rfl
@[simp] theorem State.setRdRamP_swModeP (s : State) (t : Slot) (b : Bool) : (s.setRdRamP t b).swModeP = s.swModeP := rfl
@[simp] theorem State.setRdRamP_rdRamP (s : State) (t : Slot) (b : Bool) : (s.setRdRamP t b).rdRamP = wr s.rdRamP t b := rfl
@[simp] theorem State.setRdRamP_wrtRamP (s : State) (t : Slot) (b : Bool) : (s.setRdRamP t b).wrtRamP = s.wrtRamP := rfl
@[simp] theorem State.setRdRamP_cur (s : State) (t : Slot) (b : Bool) : (s.setRdRamP t b).cur = s.cur := rfl
@[simp] theorem State.setRdRamP_nextTask (s : State) (t : Slot) (b : Bool) : (s.setRdRamP t b).nextTask = s.nextTask := rfl
@[simp] theorem State.setRdRamP_csRam (s : State) (t : Slot) (b : Bool) : (s.setRdRamP t b).csRam = s.csRam := rfl
@[simp] theorem State.setRdRamP_busActive (s : State) (t : Slot) (b : Bool) : (s.setRdRamP t b).busActive = s.busActive := rfl
@[simp] theorem State.setRdRamP_busCycle (s : State) (t : Slot) (b : Bool) : (s.setRdRamP t b).busCycle = s.busCycle := rfl
@[simp] theorem State.setRdRamP_busMar (s : State) (t : Slot) (b : Bool) : (s.setRdRamP t b).busMar = s.busMar := rfl
@[simp] theorem State.setRdRamP_busTask (s : State) (t : Slot) (b : Bool) : (s.setRdRamP t b).busTask = s.busTask := rfl
@[simp] theorem State.setRdRamP_busXm (s : State) (t : Slot) (b : Bool) : (s.setRdRamP t b).busXm = s.busXm := rfl
@[simp] theorem State.setRdRamP_busMd1 (s : State) (t : Slot) (b : Bool) : (s.setRdRamP t b).busMd1 = s.busMd1 := rfl
@[simp] theorem State.setRdRamP_busMd2 (s : State) (t : Slot) (b : Bool) : (s.setRdRamP t b).busMd2 = s.busMd2 := rfl
@[simp] theorem State.setRdRamP_busDwStore (s : State) (t : Slot) (b : Bool) : (s.setRdRamP t b).busDwStore = s.busDwStore := rfl
@[simp] theorem State.setRdRamP_busDwMixed (s : State) (t : Slot) (b : Bool) : (s.setRdRamP t b).busDwMixed = s.busDwMixed := rfl
@[simp] theorem State.setRdRamP_hs (s : State) (t : Slot) (b : Bool) : (s.setRdRamP t b).hs = s.hs := rfl
@[simp] theorem State.setRdRamP_status (s : State) (t : Slot) (b : Bool) : (s.setRdRamP t b).status = s.status := rfl
@[simp] theorem State.setRdRamP_mem (s : State) (t : Slot) (b : Bool) : (s.setRdRamP t b).mem = s.mem := rfl
@[simp] theorem State.setRdRamP_cfg (s : State) (t : Slot) (b : Bool) : (s.setRdRamP t b).cfg = s.cfg := rfl
@[simp] theorem State.setRdRamP_oracle (s : State) (t : Slot) (b : Bool) : (s.setRdRamP t b).oracle = s.oracle := rfl
@[simp] theorem State.setRdRamP_diagnostics (s : State) (t : Slot) (b : Bool) : (s.setRdRamP t b).diagnostics = s.diagnostics := rfl
@[simp] theorem State.setRdRamP_agenda (s : State) (t : Slot) (b : Bool) : (s.setRdRamP t b).agenda = s.agenda := rfl

@[simp] theorem State.setWrtRamP_r (s : State) (t : Slot) (b : Bool) : (s.setWrtRamP t b).r = s.r := rfl
@[simp] theorem State.setWrtRamP_sRegs (s : State) (t : Slot) (b : Bool) : (s.setWrtRamP t b).sRegs = s.sRegs := rfl
@[simp] theorem State.setWrtRamP_t (s : State) (t : Slot) (b : Bool) : (s.setWrtRamP t b).t = s.t := rfl
@[simp] theorem State.setWrtRamP_l (s : State) (t : Slot) (b : Bool) : (s.setWrtRamP t b).l = s.l := rfl
@[simp] theorem State.setWrtRamP_m (s : State) (t : Slot) (b : Bool) : (s.setWrtRamP t b).m = s.m := rfl
@[simp] theorem State.setWrtRamP_ir (s : State) (t : Slot) (b : Bool) : (s.setWrtRamP t b).ir = s.ir := rfl
@[simp] theorem State.setWrtRamP_aluC0 (s : State) (t : Slot) (b : Bool) : (s.setWrtRamP t b).aluC0 = s.aluC0 := rfl
@[simp] theorem State.setWrtRamP_aluCarry (s : State) (t : Slot) (b : Bool) : (s.setWrtRamP t b).aluCarry = s.aluCarry := rfl
@[simp] theorem State.setWrtRamP_skip (s : State) (t : Slot) (b : Bool) : (s.setWrtRamP t b).skip = s.skip := rfl
@[simp] theorem State.setWrtRamP_dnsCarry (s : State) (t : Slot) (b : Bool) : (s.setWrtRamP t b).dnsCarry = s.dnsCarry := rfl
@[simp] theorem State.setWrtRamP_rmr (s : State) (t : Slot) (b : Bool) : (s.setWrtRamP t b).rmr = s.rmr := rfl
@[simp] theorem State.setWrtRamP_crar (s : State) (t : Slot) (b : Bool) : (s.setWrtRamP t b).crar = s.crar := rfl
@[simp] theorem State.setWrtRamP_mpc (s : State) (t : Slot) (b : Bool) : (s.setWrtRamP t b).mpc = s.mpc := rfl
@[simp] theorem State.setWrtRamP_wakeup (s : State) (t : Slot) (b : Bool) : (s.setWrtRamP t b).wakeup = s.wakeup := rfl
@[simp] theorem State.setWrtRamP_bank (s : State) (t : Slot) (b : Bool) : (s.setWrtRamP t b).bank = s.bank := rfl
@[simp] theorem State.setWrtRamP_rb (s : State) (t : Slot) (b : Bool) : (s.setWrtRamP t b).rb = s.rb := rfl
@[simp] theorem State.setWrtRamP_first (s : State) (t : Slot) (b : Bool) : (s.setWrtRamP t b).first = s.first := rfl
@[simp] theorem State.setWrtRamP_nextMod (s : State) (t : Slot) (b : Bool) : (s.setWrtRamP t b).nextMod = s.nextMod := rfl
@[simp] theorem State.setWrtRamP_swModeP (s : State) (t : Slot) (b : Bool) : (s.setWrtRamP t b).swModeP = s.swModeP := rfl
@[simp] theorem State.setWrtRamP_rdRamP (s : State) (t : Slot) (b : Bool) : (s.setWrtRamP t b).rdRamP = s.rdRamP := rfl
@[simp] theorem State.setWrtRamP_wrtRamP (s : State) (t : Slot) (b : Bool) : (s.setWrtRamP t b).wrtRamP = wr s.wrtRamP t b := rfl
@[simp] theorem State.setWrtRamP_cur (s : State) (t : Slot) (b : Bool) : (s.setWrtRamP t b).cur = s.cur := rfl
@[simp] theorem State.setWrtRamP_nextTask (s : State) (t : Slot) (b : Bool) : (s.setWrtRamP t b).nextTask = s.nextTask := rfl
@[simp] theorem State.setWrtRamP_csRam (s : State) (t : Slot) (b : Bool) : (s.setWrtRamP t b).csRam = s.csRam := rfl
@[simp] theorem State.setWrtRamP_busActive (s : State) (t : Slot) (b : Bool) : (s.setWrtRamP t b).busActive = s.busActive := rfl
@[simp] theorem State.setWrtRamP_busCycle (s : State) (t : Slot) (b : Bool) : (s.setWrtRamP t b).busCycle = s.busCycle := rfl
@[simp] theorem State.setWrtRamP_busMar (s : State) (t : Slot) (b : Bool) : (s.setWrtRamP t b).busMar = s.busMar := rfl
@[simp] theorem State.setWrtRamP_busTask (s : State) (t : Slot) (b : Bool) : (s.setWrtRamP t b).busTask = s.busTask := rfl
@[simp] theorem State.setWrtRamP_busXm (s : State) (t : Slot) (b : Bool) : (s.setWrtRamP t b).busXm = s.busXm := rfl
@[simp] theorem State.setWrtRamP_busMd1 (s : State) (t : Slot) (b : Bool) : (s.setWrtRamP t b).busMd1 = s.busMd1 := rfl
@[simp] theorem State.setWrtRamP_busMd2 (s : State) (t : Slot) (b : Bool) : (s.setWrtRamP t b).busMd2 = s.busMd2 := rfl
@[simp] theorem State.setWrtRamP_busDwStore (s : State) (t : Slot) (b : Bool) : (s.setWrtRamP t b).busDwStore = s.busDwStore := rfl
@[simp] theorem State.setWrtRamP_busDwMixed (s : State) (t : Slot) (b : Bool) : (s.setWrtRamP t b).busDwMixed = s.busDwMixed := rfl
@[simp] theorem State.setWrtRamP_hs (s : State) (t : Slot) (b : Bool) : (s.setWrtRamP t b).hs = s.hs := rfl
@[simp] theorem State.setWrtRamP_status (s : State) (t : Slot) (b : Bool) : (s.setWrtRamP t b).status = s.status := rfl
@[simp] theorem State.setWrtRamP_mem (s : State) (t : Slot) (b : Bool) : (s.setWrtRamP t b).mem = s.mem := rfl
@[simp] theorem State.setWrtRamP_cfg (s : State) (t : Slot) (b : Bool) : (s.setWrtRamP t b).cfg = s.cfg := rfl
@[simp] theorem State.setWrtRamP_oracle (s : State) (t : Slot) (b : Bool) : (s.setWrtRamP t b).oracle = s.oracle := rfl
@[simp] theorem State.setWrtRamP_diagnostics (s : State) (t : Slot) (b : Bool) : (s.setWrtRamP t b).diagnostics = s.diagnostics := rfl
@[simp] theorem State.setWrtRamP_agenda (s : State) (t : Slot) (b : Bool) : (s.setWrtRamP t b).agenda = s.agenda := rfl

@[simp] theorem State.setHs_r (s : State) (t : Slot) (n : Nat) : (s.setHs t n).r = s.r := rfl
@[simp] theorem State.setHs_sRegs (s : State) (t : Slot) (n : Nat) : (s.setHs t n).sRegs = s.sRegs := rfl
@[simp] theorem State.setHs_t (s : State) (t : Slot) (n : Nat) : (s.setHs t n).t = s.t := rfl
@[simp] theorem State.setHs_l (s : State) (t : Slot) (n : Nat) : (s.setHs t n).l = s.l := rfl
@[simp] theorem State.setHs_m (s : State) (t : Slot) (n : Nat) : (s.setHs t n).m = s.m := rfl
@[simp] theorem State.setHs_ir (s : State) (t : Slot) (n : Nat) : (s.setHs t n).ir = s.ir := rfl
@[simp] theorem State.setHs_aluC0 (s : State) (t : Slot) (n : Nat) : (s.setHs t n).aluC0 = s.aluC0 := rfl
@[simp] theorem State.setHs_aluCarry (s : State) (t : Slot) (n : Nat) : (s.setHs t n).aluCarry = s.aluCarry := rfl
@[simp] theorem State.setHs_skip (s : State) (t : Slot) (n : Nat) : (s.setHs t n).skip = s.skip := rfl
@[simp] theorem State.setHs_dnsCarry (s : State) (t : Slot) (n : Nat) : (s.setHs t n).dnsCarry = s.dnsCarry := rfl
@[simp] theorem State.setHs_rmr (s : State) (t : Slot) (n : Nat) : (s.setHs t n).rmr = s.rmr := rfl
@[simp] theorem State.setHs_crar (s : State) (t : Slot) (n : Nat) : (s.setHs t n).crar = s.crar := rfl
@[simp] theorem State.setHs_mpc (s : State) (t : Slot) (n : Nat) : (s.setHs t n).mpc = s.mpc := rfl
@[simp] theorem State.setHs_wakeup (s : State) (t : Slot) (n : Nat) : (s.setHs t n).wakeup = s.wakeup := rfl
@[simp] theorem State.setHs_bank (s : State) (t : Slot) (n : Nat) : (s.setHs t n).bank = s.bank := rfl
@[simp] theorem State.setHs_rb (s : State) (t : Slot) (n : Nat) : (s.setHs t n).rb = s.rb := rfl
@[simp] theorem State.setHs_first (s : State) (t : Slot) (n : Nat) : (s.setHs t n).first = s.first := rfl
@[simp] theorem State.setHs_nextMod (s : State) (t : Slot) (n : Nat) : (s.setHs t n).nextMod = s.nextMod := rfl
@[simp] theorem State.setHs_swModeP (s : State) (t : Slot) (n : Nat) : (s.setHs t n).swModeP = s.swModeP := rfl
@[simp] theorem State.setHs_rdRamP (s : State) (t : Slot) (n : Nat) : (s.setHs t n).rdRamP = s.rdRamP := rfl
@[simp] theorem State.setHs_wrtRamP (s : State) (t : Slot) (n : Nat) : (s.setHs t n).wrtRamP = s.wrtRamP := rfl
@[simp] theorem State.setHs_cur (s : State) (t : Slot) (n : Nat) : (s.setHs t n).cur = s.cur := rfl
@[simp] theorem State.setHs_nextTask (s : State) (t : Slot) (n : Nat) : (s.setHs t n).nextTask = s.nextTask := rfl
@[simp] theorem State.setHs_csRam (s : State) (t : Slot) (n : Nat) : (s.setHs t n).csRam = s.csRam := rfl
@[simp] theorem State.setHs_busActive (s : State) (t : Slot) (n : Nat) : (s.setHs t n).busActive = s.busActive := rfl
@[simp] theorem State.setHs_busCycle (s : State) (t : Slot) (n : Nat) : (s.setHs t n).busCycle = s.busCycle := rfl
@[simp] theorem State.setHs_busMar (s : State) (t : Slot) (n : Nat) : (s.setHs t n).busMar = s.busMar := rfl
@[simp] theorem State.setHs_busTask (s : State) (t : Slot) (n : Nat) : (s.setHs t n).busTask = s.busTask := rfl
@[simp] theorem State.setHs_busXm (s : State) (t : Slot) (n : Nat) : (s.setHs t n).busXm = s.busXm := rfl
@[simp] theorem State.setHs_busMd1 (s : State) (t : Slot) (n : Nat) : (s.setHs t n).busMd1 = s.busMd1 := rfl
@[simp] theorem State.setHs_busMd2 (s : State) (t : Slot) (n : Nat) : (s.setHs t n).busMd2 = s.busMd2 := rfl
@[simp] theorem State.setHs_busDwStore (s : State) (t : Slot) (n : Nat) : (s.setHs t n).busDwStore = s.busDwStore := rfl
@[simp] theorem State.setHs_busDwMixed (s : State) (t : Slot) (n : Nat) : (s.setHs t n).busDwMixed = s.busDwMixed := rfl
@[simp] theorem State.setHs_hs (s : State) (t : Slot) (n : Nat) : (s.setHs t n).hs = wr s.hs t n := rfl
@[simp] theorem State.setHs_status (s : State) (t : Slot) (n : Nat) : (s.setHs t n).status = s.status := rfl
@[simp] theorem State.setHs_mem (s : State) (t : Slot) (n : Nat) : (s.setHs t n).mem = s.mem := rfl
@[simp] theorem State.setHs_cfg (s : State) (t : Slot) (n : Nat) : (s.setHs t n).cfg = s.cfg := rfl
@[simp] theorem State.setHs_oracle (s : State) (t : Slot) (n : Nat) : (s.setHs t n).oracle = s.oracle := rfl
@[simp] theorem State.setHs_diagnostics (s : State) (t : Slot) (n : Nat) : (s.setHs t n).diagnostics = s.diagnostics := rfl
@[simp] theorem State.setHs_agenda (s : State) (t : Slot) (n : Nat) : (s.setHs t n).agenda = s.agenda := rfl

@[simp] theorem State.setMemWord_r (s : State) (x : Bool) (a w : Word) : (s.setMemWord x a w).r = s.r := rfl
@[simp] theorem State.setMemWord_sRegs (s : State) (x : Bool) (a w : Word) : (s.setMemWord x a w).sRegs = s.sRegs := rfl
@[simp] theorem State.setMemWord_t (s : State) (x : Bool) (a w : Word) : (s.setMemWord x a w).t = s.t := rfl
@[simp] theorem State.setMemWord_l (s : State) (x : Bool) (a w : Word) : (s.setMemWord x a w).l = s.l := rfl
@[simp] theorem State.setMemWord_m (s : State) (x : Bool) (a w : Word) : (s.setMemWord x a w).m = s.m := rfl
@[simp] theorem State.setMemWord_ir (s : State) (x : Bool) (a w : Word) : (s.setMemWord x a w).ir = s.ir := rfl
@[simp] theorem State.setMemWord_aluC0 (s : State) (x : Bool) (a w : Word) : (s.setMemWord x a w).aluC0 = s.aluC0 := rfl
@[simp] theorem State.setMemWord_aluCarry (s : State) (x : Bool) (a w : Word) : (s.setMemWord x a w).aluCarry = s.aluCarry := rfl
@[simp] theorem State.setMemWord_skip (s : State) (x : Bool) (a w : Word) : (s.setMemWord x a w).skip = s.skip := rfl
@[simp] theorem State.setMemWord_dnsCarry (s : State) (x : Bool) (a w : Word) : (s.setMemWord x a w).dnsCarry = s.dnsCarry := rfl
@[simp] theorem State.setMemWord_rmr (s : State) (x : Bool) (a w : Word) : (s.setMemWord x a w).rmr = s.rmr := rfl
@[simp] theorem State.setMemWord_crar (s : State) (x : Bool) (a w : Word) : (s.setMemWord x a w).crar = s.crar := rfl
@[simp] theorem State.setMemWord_mpc (s : State) (x : Bool) (a w : Word) : (s.setMemWord x a w).mpc = s.mpc := rfl
@[simp] theorem State.setMemWord_wakeup (s : State) (x : Bool) (a w : Word) : (s.setMemWord x a w).wakeup = s.wakeup := rfl
@[simp] theorem State.setMemWord_bank (s : State) (x : Bool) (a w : Word) : (s.setMemWord x a w).bank = s.bank := rfl
@[simp] theorem State.setMemWord_rb (s : State) (x : Bool) (a w : Word) : (s.setMemWord x a w).rb = s.rb := rfl
@[simp] theorem State.setMemWord_first (s : State) (x : Bool) (a w : Word) : (s.setMemWord x a w).first = s.first := rfl
@[simp] theorem State.setMemWord_nextMod (s : State) (x : Bool) (a w : Word) : (s.setMemWord x a w).nextMod = s.nextMod := rfl
@[simp] theorem State.setMemWord_swModeP (s : State) (x : Bool) (a w : Word) : (s.setMemWord x a w).swModeP = s.swModeP := rfl
@[simp] theorem State.setMemWord_rdRamP (s : State) (x : Bool) (a w : Word) : (s.setMemWord x a w).rdRamP = s.rdRamP := rfl
@[simp] theorem State.setMemWord_wrtRamP (s : State) (x : Bool) (a w : Word) : (s.setMemWord x a w).wrtRamP = s.wrtRamP := rfl
@[simp] theorem State.setMemWord_cur (s : State) (x : Bool) (a w : Word) : (s.setMemWord x a w).cur = s.cur := rfl
@[simp] theorem State.setMemWord_nextTask (s : State) (x : Bool) (a w : Word) : (s.setMemWord x a w).nextTask = s.nextTask := rfl
@[simp] theorem State.setMemWord_csRam (s : State) (x : Bool) (a w : Word) : (s.setMemWord x a w).csRam = s.csRam := rfl
@[simp] theorem State.setMemWord_busActive (s : State) (x : Bool) (a w : Word) : (s.setMemWord x a w).busActive = s.busActive := rfl
@[simp] theorem State.setMemWord_busCycle (s : State) (x : Bool) (a w : Word) : (s.setMemWord x a w).busCycle = s.busCycle := rfl
@[simp] theorem State.setMemWord_busMar (s : State) (x : Bool) (a w : Word) : (s.setMemWord x a w).busMar = s.busMar := rfl
@[simp] theorem State.setMemWord_busTask (s : State) (x : Bool) (a w : Word) : (s.setMemWord x a w).busTask = s.busTask := rfl
@[simp] theorem State.setMemWord_busXm (s : State) (x : Bool) (a w : Word) : (s.setMemWord x a w).busXm = s.busXm := rfl
@[simp] theorem State.setMemWord_busMd1 (s : State) (x : Bool) (a w : Word) : (s.setMemWord x a w).busMd1 = s.busMd1 := rfl
@[simp] theorem State.setMemWord_busMd2 (s : State) (x : Bool) (a w : Word) : (s.setMemWord x a w).busMd2 = s.busMd2 := rfl
@[simp] theorem State.setMemWord_busDwStore (s : State) (x : Bool) (a w : Word) : (s.setMemWord x a w).busDwStore = s.busDwStore := rfl
@[simp] theorem State.setMemWord_busDwMixed (s : State) (x : Bool) (a w : Word) : (s.setMemWord x a w).busDwMixed = s.busDwMixed := rfl
@[simp] theorem State.setMemWord_hs (s : State) (x : Bool) (a w : Word) : (s.setMemWord x a w).hs = s.hs := rfl
@[simp] theorem State.setMemWord_status (s : State) (x : Bool) (a w : Word) : (s.setMemWord x a w).status = s.status := rfl
@[simp] theorem State.setMemWord_mem (s : State) (x : Bool) (a w : Word) : (s.setMemWord x a w).mem = Memory.writeWord s.mem (mainIndex x a) w := rfl
@[simp] theorem State.setMemWord_cfg (s : State) (x : Bool) (a w : Word) : (s.setMemWord x a w).cfg = s.cfg := rfl
@[simp] theorem State.setMemWord_oracle (s : State) (x : Bool) (a w : Word) : (s.setMemWord x a w).oracle = s.oracle := rfl
@[simp] theorem State.setMemWord_diagnostics (s : State) (x : Bool) (a w : Word) : (s.setMemWord x a w).diagnostics = s.diagnostics := rfl
@[simp] theorem State.setMemWord_agenda (s : State) (x : Bool) (a w : Word) : (s.setMemWord x a w).agenda = s.agenda := rfl

@[simp] theorem State.fatal_r (s : State) (i : FatalInfo) : (s.fatal i).r = s.r := rfl
@[simp] theorem State.fatal_sRegs (s : State) (i : FatalInfo) : (s.fatal i).sRegs = s.sRegs := rfl
@[simp] theorem State.fatal_t (s : State) (i : FatalInfo) : (s.fatal i).t = s.t := rfl
@[simp] theorem State.fatal_l (s : State) (i : FatalInfo) : (s.fatal i).l = s.l := rfl
@[simp] theorem State.fatal_m (s : State) (i : FatalInfo) : (s.fatal i).m = s.m := rfl
@[simp] theorem State.fatal_ir (s : State) (i : FatalInfo) : (s.fatal i).ir = s.ir := rfl
@[simp] theorem State.fatal_aluC0 (s : State) (i : FatalInfo) : (s.fatal i).aluC0 = s.aluC0 := rfl
@[simp] theorem State.fatal_aluCarry (s : State) (i : FatalInfo) : (s.fatal i).aluCarry = s.aluCarry := rfl
@[simp] theorem State.fatal_skip (s : State) (i : FatalInfo) : (s.fatal i).skip = s.skip := rfl
@[simp] theorem State.fatal_dnsCarry (s : State) (i : FatalInfo) : (s.fatal i).dnsCarry = s.dnsCarry := rfl
@[simp] theorem State.fatal_rmr (s : State) (i : FatalInfo) : (s.fatal i).rmr = s.rmr := rfl
@[simp] theorem State.fatal_crar (s : State) (i : FatalInfo) : (s.fatal i).crar = s.crar := rfl
@[simp] theorem State.fatal_mpc (s : State) (i : FatalInfo) : (s.fatal i).mpc = s.mpc := rfl
@[simp] theorem State.fatal_wakeup (s : State) (i : FatalInfo) : (s.fatal i).wakeup = s.wakeup := rfl
@[simp] theorem State.fatal_bank (s : State) (i : FatalInfo) : (s.fatal i).bank = s.bank := rfl
@[simp] theorem State.fatal_rb (s : State) (i : FatalInfo) : (s.fatal i).rb = s.rb := rfl
@[simp] theorem State.fatal_first (s : State) (i : FatalInfo) : (s.fatal i).first = s.first := rfl
@[simp] theorem State.fatal_nextMod (s : State) (i : FatalInfo) : (s.fatal i).nextMod = s.nextMod := rfl
@[simp] theorem State.fatal_swModeP (s : State) (i : FatalInfo) : (s.fatal i).swModeP = s.swModeP := rfl
@[simp] theorem State.fatal_rdRamP (s : State) (i : FatalInfo) : (s.fatal i).rdRamP = s.rdRamP := rfl
@[simp] theorem State.fatal_wrtRamP (s : State) (i : FatalInfo) : (s.fatal i).wrtRamP = s.wrtRamP := rfl
@[simp] theorem State.fatal_cur (s : State) (i : FatalInfo) : (s.fatal i).cur = s.cur := rfl
@[simp] theorem State.fatal_nextTask (s : State) (i : FatalInfo) : (s.fatal i).nextTask = s.nextTask := rfl
@[simp] theorem State.fatal_csRam (s : State) (i : FatalInfo) : (s.fatal i).csRam = s.csRam := rfl
@[simp] theorem State.fatal_busActive (s : State) (i : FatalInfo) : (s.fatal i).busActive = s.busActive := rfl
@[simp] theorem State.fatal_busCycle (s : State) (i : FatalInfo) : (s.fatal i).busCycle = s.busCycle := rfl
@[simp] theorem State.fatal_busMar (s : State) (i : FatalInfo) : (s.fatal i).busMar = s.busMar := rfl
@[simp] theorem State.fatal_busTask (s : State) (i : FatalInfo) : (s.fatal i).busTask = s.busTask := rfl
@[simp] theorem State.fatal_busXm (s : State) (i : FatalInfo) : (s.fatal i).busXm = s.busXm := rfl
@[simp] theorem State.fatal_busMd1 (s : State) (i : FatalInfo) : (s.fatal i).busMd1 = s.busMd1 := rfl
@[simp] theorem State.fatal_busMd2 (s : State) (i : FatalInfo) : (s.fatal i).busMd2 = s.busMd2 := rfl
@[simp] theorem State.fatal_busDwStore (s : State) (i : FatalInfo) : (s.fatal i).busDwStore = s.busDwStore := rfl
@[simp] theorem State.fatal_busDwMixed (s : State) (i : FatalInfo) : (s.fatal i).busDwMixed = s.busDwMixed := rfl
@[simp] theorem State.fatal_hs (s : State) (i : FatalInfo) : (s.fatal i).hs = s.hs := rfl
@[simp] theorem State.fatal_status (s : State) (i : FatalInfo) : (s.fatal i).status = .stopped i.kind i := rfl
@[simp] theorem State.fatal_mem (s : State) (i : FatalInfo) : (s.fatal i).mem = s.mem := rfl
@[simp] theorem State.fatal_cfg (s : State) (i : FatalInfo) : (s.fatal i).cfg = s.cfg := rfl
@[simp] theorem State.fatal_oracle (s : State) (i : FatalInfo) : (s.fatal i).oracle = s.oracle := rfl
@[simp] theorem State.fatal_diagnostics (s : State) (i : FatalInfo) : (s.fatal i).diagnostics = s.diagnostics := rfl
@[simp] theorem State.fatal_agenda (s : State) (i : FatalInfo) : (s.fatal i).agenda = s.agenda := rfl

@[simp] theorem State.warn_r (s : State) (w : Warning) : (s.warn w).r = s.r := rfl
@[simp] theorem State.warn_sRegs (s : State) (w : Warning) : (s.warn w).sRegs = s.sRegs := rfl
@[simp] theorem State.warn_t (s : State) (w : Warning) : (s.warn w).t = s.t := rfl
@[simp] theorem State.warn_l (s : State) (w : Warning) : (s.warn w).l = s.l := rfl
@[simp] theorem State.warn_m (s : State) (w : Warning) : (s.warn w).m = s.m := rfl
@[simp] theorem State.warn_ir (s : State) (w : Warning) : (s.warn w).ir = s.ir := rfl
@[simp] theorem State.warn_aluC0 (s : State) (w : Warning) : (s.warn w).aluC0 = s.aluC0 := rfl
@[simp] theorem State.warn_aluCarry (s : State) (w : Warning) : (s.warn w).aluCarry = s.aluCarry := rfl
@[simp] theorem State.warn_skip (s : State) (w : Warning) : (s.warn w).skip = s.skip := rfl
@[simp] theorem State.warn_dnsCarry (s : State) (w : Warning) : (s.warn w).dnsCarry = s.dnsCarry := rfl
@[simp] theorem State.warn_rmr (s : State) (w : Warning) : (s.warn w).rmr = s.rmr := rfl
@[simp] theorem State.warn_crar (s : State) (w : Warning) : (s.warn w).crar = s.crar := rfl
@[simp] theorem State.warn_mpc (s : State) (w : Warning) : (s.warn w).mpc = s.mpc := rfl
@[simp] theorem State.warn_wakeup (s : State) (w : Warning) : (s.warn w).wakeup = s.wakeup := rfl
@[simp] theorem State.warn_bank (s : State) (w : Warning) : (s.warn w).bank = s.bank := rfl
@[simp] theorem State.warn_rb (s : State) (w : Warning) : (s.warn w).rb = s.rb := rfl
@[simp] theorem State.warn_first (s : State) (w : Warning) : (s.warn w).first = s.first := rfl
@[simp] theorem State.warn_nextMod (s : State) (w : Warning) : (s.warn w).nextMod = s.nextMod := rfl
@[simp] theorem State.warn_swModeP (s : State) (w : Warning) : (s.warn w).swModeP = s.swModeP := rfl
@[simp] theorem State.warn_rdRamP (s : State) (w : Warning) : (s.warn w).rdRamP = s.rdRamP := rfl
@[simp] theorem State.warn_wrtRamP (s : State) (w : Warning) : (s.warn w).wrtRamP = s.wrtRamP := rfl
@[simp] theorem State.warn_cur (s : State) (w : Warning) : (s.warn w).cur = s.cur := rfl
@[simp] theorem State.warn_nextTask (s : State) (w : Warning) : (s.warn w).nextTask = s.nextTask := rfl
@[simp] theorem State.warn_csRam (s : State) (w : Warning) : (s.warn w).csRam = s.csRam := rfl
@[simp] theorem State.warn_busActive (s : State) (w : Warning) : (s.warn w).busActive = s.busActive := rfl
@[simp] theorem State.warn_busCycle (s : State) (w : Warning) : (s.warn w).busCycle = s.busCycle := rfl
@[simp] theorem State.warn_busMar (s : State) (w : Warning) : (s.warn w).busMar = s.busMar := rfl
@[simp] theorem State.warn_busTask (s : State) (w : Warning) : (s.warn w).busTask = s.busTask := rfl
@[simp] theorem State.warn_busXm (s : State) (w : Warning) : (s.warn w).busXm = s.busXm := rfl
@[simp] theorem State.warn_busMd1 (s : State) (w : Warning) : (s.warn w).busMd1 = s.busMd1 := rfl
@[simp] theorem State.warn_busMd2 (s : State) (w : Warning) : (s.warn w).busMd2 = s.busMd2 := rfl
@[simp] theorem State.warn_busDwStore (s : State) (w : Warning) : (s.warn w).busDwStore = s.busDwStore := rfl
@[simp] theorem State.warn_busDwMixed (s : State) (w : Warning) : (s.warn w).busDwMixed = s.busDwMixed := rfl
@[simp] theorem State.warn_hs (s : State) (w : Warning) : (s.warn w).hs = s.hs := rfl
@[simp] theorem State.warn_status (s : State) (w : Warning) : (s.warn w).status = s.status := rfl
@[simp] theorem State.warn_mem (s : State) (w : Warning) : (s.warn w).mem = s.mem := rfl
@[simp] theorem State.warn_cfg (s : State) (w : Warning) : (s.warn w).cfg = s.cfg := rfl
@[simp] theorem State.warn_oracle (s : State) (w : Warning) : (s.warn w).oracle = s.oracle := rfl
@[simp] theorem State.warn_diagnostics (s : State) (w : Warning) : (s.warn w).diagnostics = w :: s.diagnostics := rfl
@[simp] theorem State.warn_agenda (s : State) (w : Warning) : (s.warn w).agenda = s.agenda := rfl

end Sys2Proof.Machine
end

