-- ==== Sys2Proof/Laws/Exec.lean ====
section
/-! SUPPORT. Every meaning is `Clock()` on its word: what a row writes of its own is what the table gives for its code. -/

namespace Sys2Proof.Machine

theorem execAlufBus_eq (o : AlufOps) (s : State) :
    execAlufBus o s = .next (s.clock (Stages.of (o.word .bus)) (o.word .bus)) := rfl

theorem execAlufT_eq (o : AlufOps) (s : State) :
    execAlufT o s = .next (s.clock (Stages.of (o.word .t)) (o.word .t)) := rfl

theorem execAlufBusOrT_eq (o : AlufOps) (s : State) :
    execAlufBusOrT o s = .next (s.clock (Stages.of (o.word .busOrT)) (o.word .busOrT)) := rfl

theorem execAlufBusAndT_eq (o : AlufOps) (s : State) :
    execAlufBusAndT o s = .next (s.clock (Stages.of (o.word .busAndT)) (o.word .busAndT)) := rfl

theorem execAlufBusXorT_eq (o : AlufOps) (s : State) :
    execAlufBusXorT o s = .next (s.clock (Stages.of (o.word .busXorT)) (o.word .busXorT)) := rfl

theorem execAlufBusPlus1_eq (o : AlufOps) (s : State) :
    execAlufBusPlus1 o s = .next (s.clock (Stages.of (o.word .busPlus1)) (o.word .busPlus1)) := rfl

theorem execAlufBusMinus1_eq (o : AlufOps) (s : State) :
    execAlufBusMinus1 o s = .next (s.clock (Stages.of (o.word .busMinus1)) (o.word .busMinus1)) := rfl

theorem execAlufBusPlusT_eq (o : AlufOps) (s : State) :
    execAlufBusPlusT o s = .next (s.clock (Stages.of (o.word .busPlusT)) (o.word .busPlusT)) := rfl

theorem execAlufBusMinusT_eq (o : AlufOps) (s : State) :
    execAlufBusMinusT o s = .next (s.clock (Stages.of (o.word .busMinusT)) (o.word .busMinusT)) := rfl

theorem execAlufBusMinusTMinus1_eq (o : AlufOps) (s : State) :
    execAlufBusMinusTMinus1 o s = .next (s.clock (Stages.of (o.word .busMinusTMinus1)) (o.word .busMinusTMinus1)) := rfl

theorem execAlufBusPlusTPlus1_eq (o : AlufOps) (s : State) :
    execAlufBusPlusTPlus1 o s = .next (s.clock (Stages.of (o.word .busPlusTPlus1)) (o.word .busPlusTPlus1)) := rfl

theorem execAlufBusPlusSkip_eq (o : AlufOps) (s : State) :
    execAlufBusPlusSkip o s = .next (s.clock (Stages.of (o.word .busPlusSkip)) (o.word .busPlusSkip)) := rfl

theorem execAlufBusDotT_eq (o : AlufOps) (s : State) :
    execAlufBusDotT o s = .next (s.clock (Stages.of (o.word .busDotT)) (o.word .busDotT)) := rfl

theorem execAlufBusAndNotT_eq (o : AlufOps) (s : State) :
    execAlufBusAndNotT o s = .next (s.clock (Stages.of (o.word .busAndNotT)) (o.word .busAndNotT)) := rfl

theorem execAlufUndef14_eq (o : AlufOps) (s : State) :
    execAlufUndef14 o s = .next (s.clock (Stages.of (o.word .undef14)) (o.word .undef14)) := rfl

theorem execAlufUndef15_eq (o : AlufOps) (s : State) :
    execAlufUndef15 o s = .next (s.clock (Stages.of (o.word .undef15)) (o.word .undef15)) := rfl

theorem execBsReadR_eq (o : BsOps) (s : State) :
    execBsReadR o s = .next (s.clock (Stages.of (o.word .readR)) (o.word .readR)) := rfl

theorem execBsLoadR_eq (o : BsOps) (s : State) :
    execBsLoadR o s = .next (s.clock (Stages.of (o.word .loadR)) (o.word .loadR)) := rfl

theorem execBsNoSource_eq (o : BsOps) (s : State) :
    execBsNoSource o s = .next (s.clock (Stages.of (o.word .noSource)) (o.word .noSource)) := rfl

theorem execBsTaskSpecific1_eq (o : BsOps) (s : State) :
    execBsTaskSpecific1 o s = .next (s.clock (Stages.of (o.word .taskSpecific1)) (o.word .taskSpecific1)) := rfl

theorem execBsTaskSpecific2_eq (o : BsOps) (s : State) :
    execBsTaskSpecific2 o s = .next (s.clock (Stages.of (o.word .taskSpecific2)) (o.word .taskSpecific2)) := rfl

theorem execBsReadMD_eq (o : BsOps) (s : State) :
    execBsReadMD o s = .next (s.clock (Stages.of (o.word .readMD)) (o.word .readMD)) := rfl

theorem execBsReadMouse_eq (o : BsOps) (s : State) :
    execBsReadMouse o s = .next (s.clock (Stages.of (o.word .readMouse)) (o.word .readMouse)) := rfl

theorem execBsReadDisp_eq (o : BsOps) (s : State) :
    execBsReadDisp o s = .next (s.clock (Stages.of (o.word .readDisp)) (o.word .readDisp)) := rfl

theorem execF1Nop_eq (o : F1Ops) (s : State) :
    execF1Nop o s = .next (s.clock (Stages.of (o.word .nop)) (o.word .nop)) := rfl

theorem execF1LoadMAR_eq (o : F1Ops) (s : State) :
    execF1LoadMAR o s = .next (s.clock (Stages.of (o.word .loadMAR)) (o.word .loadMAR)) := rfl

theorem execF1Task_eq (o : F1Ops) (s : State) :
    execF1Task o s = .next (s.clock (Stages.of (o.word .task)) (o.word .task)) := rfl

theorem execF1Block_eq (o : F1Ops) (s : State) :
    execF1Block o s = .next (s.clock (Stages.of (o.word .block)) (o.word .block)) := rfl

theorem execF1Llsh1_eq (o : F1Ops) (s : State) :
    execF1Llsh1 o s = .next (s.clock (Stages.of (o.word .llsh1)) (o.word .llsh1)) := rfl

theorem execF1Lrsh1_eq (o : F1Ops) (s : State) :
    execF1Lrsh1 o s = .next (s.clock (Stages.of (o.word .lrsh1)) (o.word .lrsh1)) := rfl

theorem execF1Llcy8_eq (o : F1Ops) (s : State) :
    execF1Llcy8 o s = .next (s.clock (Stages.of (o.word .llcy8)) (o.word .llcy8)) := rfl

theorem execF1Constant_eq (o : F1Ops) (s : State) :
    execF1Constant o s = .next (s.clock (Stages.of (o.word .constant)) (o.word .constant)) := rfl

theorem execF1Ts8_eq (o : F1Ops) (s : State) :
    execF1Ts8 o s = .next (s.clock (Stages.of (o.word .ts8)) (o.word .ts8)) := rfl

theorem execF1Ts9_eq (o : F1Ops) (s : State) :
    execF1Ts9 o s = .next (s.clock (Stages.of (o.word .ts9)) (o.word .ts9)) := rfl

theorem execF1Ts10_eq (o : F1Ops) (s : State) :
    execF1Ts10 o s = .next (s.clock (Stages.of (o.word .ts10)) (o.word .ts10)) := rfl

theorem execF1Ts11_eq (o : F1Ops) (s : State) :
    execF1Ts11 o s = .next (s.clock (Stages.of (o.word .ts11)) (o.word .ts11)) := rfl

theorem execF1Ts12_eq (o : F1Ops) (s : State) :
    execF1Ts12 o s = .next (s.clock (Stages.of (o.word .ts12)) (o.word .ts12)) := rfl

theorem execF1Ts13_eq (o : F1Ops) (s : State) :
    execF1Ts13 o s = .next (s.clock (Stages.of (o.word .ts13)) (o.word .ts13)) := rfl

theorem execF1Ts14_eq (o : F1Ops) (s : State) :
    execF1Ts14 o s = .next (s.clock (Stages.of (o.word .ts14)) (o.word .ts14)) := rfl

theorem execF1Ts15_eq (o : F1Ops) (s : State) :
    execF1Ts15 o s = .next (s.clock (Stages.of (o.word .ts15)) (o.word .ts15)) := rfl

theorem execF2Nop_eq (o : F2Ops) (s : State) :
    execF2Nop o s = .next (s.clock (Stages.of (o.word .nop)) (o.word .nop)) := rfl

theorem execF2BusZero_eq (o : F2Ops) (s : State) :
    execF2BusZero o s = .next (s.clock (Stages.of (o.word .busZero)) (o.word .busZero)) := rfl

theorem execF2ShNeg_eq (o : F2Ops) (s : State) :
    execF2ShNeg o s = .next (s.clock (Stages.of (o.word .shNeg)) (o.word .shNeg)) := rfl

theorem execF2ShZero_eq (o : F2Ops) (s : State) :
    execF2ShZero o s = .next (s.clock (Stages.of (o.word .shZero)) (o.word .shZero)) := rfl

theorem execF2Bus_eq (o : F2Ops) (s : State) :
    execF2Bus o s = .next (s.clock (Stages.of (o.word .bus)) (o.word .bus)) := rfl

theorem execF2AluCy_eq (o : F2Ops) (s : State) :
    execF2AluCy o s = .next (s.clock (Stages.of (o.word .aluCy)) (o.word .aluCy)) := rfl

theorem execF2StoreMD_eq (o : F2Ops) (s : State) :
    execF2StoreMD o s = .next (s.clock (Stages.of (o.word .storeMD)) (o.word .storeMD)) := rfl

theorem execF2Constant_eq (o : F2Ops) (s : State) :
    execF2Constant o s = .next (s.clock (Stages.of (o.word .constant)) (o.word .constant)) := rfl

theorem execF2Ts8_eq (o : F2Ops) (s : State) :
    execF2Ts8 o s = .next (s.clock (Stages.of (o.word .ts8)) (o.word .ts8)) := rfl

theorem execF2Ts9_eq (o : F2Ops) (s : State) :
    execF2Ts9 o s = .next (s.clock (Stages.of (o.word .ts9)) (o.word .ts9)) := rfl

theorem execF2Ts10_eq (o : F2Ops) (s : State) :
    execF2Ts10 o s = .next (s.clock (Stages.of (o.word .ts10)) (o.word .ts10)) := rfl

theorem execF2Ts11_eq (o : F2Ops) (s : State) :
    execF2Ts11 o s = .next (s.clock (Stages.of (o.word .ts11)) (o.word .ts11)) := rfl

theorem execF2Ts12_eq (o : F2Ops) (s : State) :
    execF2Ts12 o s = .next (s.clock (Stages.of (o.word .ts12)) (o.word .ts12)) := rfl

theorem execF2Ts13_eq (o : F2Ops) (s : State) :
    execF2Ts13 o s = .next (s.clock (Stages.of (o.word .ts13)) (o.word .ts13)) := rfl

theorem execF2Ts14_eq (o : F2Ops) (s : State) :
    execF2Ts14 o s = .next (s.clock (Stages.of (o.word .ts14)) (o.word .ts14)) := rfl

theorem execF2Ts15_eq (o : F2Ops) (s : State) :
    execF2Ts15 o s = .next (s.clock (Stages.of (o.word .ts15)) (o.word .ts15)) := rfl

theorem execLt_eq (o : LtOps) (s : State) : execLt o s = .next (s.clock (Stages.of o.word) o.word) := rfl

theorem execLl_eq (o : LlOps) (s : State) : execLl o s = .next (s.clock (Stages.of o.word) o.word) := rfl

/-- The meaning of an instruction depends on its word alone. -/
theorem exec_eq (i : Instr) (s : State) : exec i s = .next (s.clock (Stages.of i.word) i.word) := by
  cases i <;> rfl

/-- `Clock()` while the machine is stopped: nothing (R371). -/
theorem State.clock_stopped {s : State} (h : s.status ≠ .running) (p : Stages) (w : MicroInstr) : s.clock p w = s := by
  unfold State.clock State.andThen
  split
  · exact absurd (by assumption) h
  · rfl

/-- `Clock()` on a word that waits for the bus: nothing (R302). -/
theorem State.clock_stalled {s : State} {w : MicroInstr} (h : s.stalls w = true) (p : Stages) : s.clock p w = s := by
  unfold State.clock State.andThen
  split
  · exact if_pos h
  · rfl

/-- `Clock()` on a word that executes (R301, R340). -/
theorem State.clock_runs {s : State} {w : MicroInstr} (hr : s.status = .running) (h : s.stalls w = false) (p : Stages) :
    s.clock p w = (executeNext p (Ctx.begin w s)).complete := by
  simp [State.clock, State.andThen, hr, h]

end Sys2Proof.Machine
end

