-- ==== Sys2Proof/Laws/Memory.lean ====
section
/-! SUPPORT. Memory: what a write leaves to be read, and that every memory operation keeps the canonical form. -/

namespace Sys2Proof.Machine

/-! ### The canonical form -/

theorem Memory.wfFrom_cons {lo a : Nat} {v : Byte} {m : Memory} :
    Memory.wfFrom lo ((a, v) :: m) = true ↔ lo ≤ a ∧ v ≠ 0 ∧ Memory.wfFrom (a + 1) m = true := by
  simp [Memory.wfFrom, and_assoc]

theorem Memory.wfFrom_mono {lo lo' : Nat} {m : Memory} (h : Memory.wfFrom lo m = true) (hl : lo' ≤ lo) :
    Memory.wfFrom lo' m = true := by
  cases m with
  | nil => rfl
  | cons c m =>
    obtain ⟨a, v⟩ := c
    rw [Memory.wfFrom_cons] at *
    exact ⟨hl.trans h.1, h.2⟩

/-- A byte below a memory's first address is unlisted. -/
theorem Memory.readByte_below {lo a : Nat} {m : Memory} (h : Memory.wfFrom lo m = true) (ha : a < lo) :
    m.readByte a = 0 := by
  induction m generalizing lo with
  | nil => rfl
  | cons c m ih =>
    obtain ⟨b, v⟩ := c
    rw [Memory.wfFrom_cons] at h
    rw [Memory.readByte, if_neg (by omega)]
    exact ih h.2.2 (by omega)

theorem Memory.wfFrom_writeByte {lo : Nat} {m : Memory} (h : Memory.wfFrom lo m = true) {a : Nat} (ha : lo ≤ a) (v : Byte) :
    Memory.wfFrom lo (m.writeByte a v) = true := by
  induction m generalizing lo with
  | nil =>
    simp only [Memory.writeByte]
    split
    · rfl
    · rw [Memory.wfFrom_cons]; exact ⟨ha, by assumption, rfl⟩
  | cons c m ih =>
    obtain ⟨b, u⟩ := c
    have h' := h
    rw [Memory.wfFrom_cons] at h
    simp only [Memory.writeByte]
    split
    · split
      · exact h'
      · rw [Memory.wfFrom_cons, Memory.wfFrom_cons]
        exact ⟨ha, by assumption, by omega, h.2⟩
    · split
      · split
        · exact Memory.wfFrom_mono h.2.2 (by omega)
        · rename_i e _; subst e; rw [Memory.wfFrom_cons]; exact ⟨ha, by assumption, h.2.2⟩
      · rw [Memory.wfFrom_cons]; exact ⟨h.1, h.2.1, ih h.2.2 (by omega)⟩

/-- Writing a byte keeps the canonical form. -/
theorem Memory.wf_writeByte {m : Memory} (h : m.wf = true) (a : Nat) (v : Byte) : (m.writeByte a v).wf = true :=
  Memory.wfFrom_writeByte h (Nat.zero_le a) v

/-- Writing a 16-bit word keeps the canonical form. -/
theorem Memory.wf_writeWord {m : Memory} (h : m.wf = true) (k : Nat) (w : Word) : (m.writeWord k w).wf = true :=
  Memory.wf_writeByte (Memory.wf_writeByte h _ _) _ _

/-- Writing a control-store cell keeps the canonical form. -/
theorem Memory.wf_writeCell {m : Memory} (h : m.wf = true) (k : Nat) (w : MicroWord) : (m.writeCell k w).wf = true :=
  Memory.wf_writeByte (Memory.wf_writeByte (Memory.wf_writeByte (Memory.wf_writeByte h _ _) _ _) _ _) _ _

/-! ### Read after write -/

theorem Memory.readByte_writeFrom {lo : Nat} {m : Memory} (h : Memory.wfFrom lo m = true) (a b : Nat) (v : Byte) :
    (m.writeByte a v).readByte b = if b = a then v else m.readByte b := by
  induction m generalizing lo with
  | nil =>
    simp only [Memory.writeByte]
    split
    · rename_i hv; simp [Memory.readByte, hv]
    · simp [Memory.readByte]
  | cons c m ih =>
    obtain ⟨d, u⟩ := c
    rw [Memory.wfFrom_cons] at h
    simp only [Memory.writeByte]
    split
    · rename_i hlt
      split
      · rename_i hv
        split
        · rename_i e; subst e hv
          rw [Memory.readByte, if_neg (by omega)]
          exact Memory.readByte_below h.2.2 (by omega)
        · rfl
      · rw [Memory.readByte]
    · split
      · rename_i e; subst e
        split
        · rename_i hv
          split
          · rename_i e; subst e hv; exact Memory.readByte_below h.2.2 (by omega)
          · rename_i e; rw [Memory.readByte, if_neg e]
        · rw [Memory.readByte, Memory.readByte]
          split <;> rfl
      · rename_i h1 h2
        rw [Memory.readByte, ih h.2.2, Memory.readByte]
        split
        · rename_i e; rw [if_neg (by omega)]
        · rfl

/-- What a byte reads as after a byte is written. -/
theorem Memory.readByte_writeByte {m : Memory} (h : m.wf = true) (a b : Nat) (v : Byte) :
    (m.writeByte a v).readByte b = if b = a then v else m.readByte b :=
  Memory.readByte_writeFrom h a b v

/-- What a byte reads as after a 16-bit word is written. -/
theorem Memory.readByte_writeWord {m : Memory} (h : m.wf = true) (k b : Nat) (w : Word) :
    (m.writeWord k w).readByte b =
      if b = 2 * k then w.extractLsb' 0 8 else if b = 2 * k + 1 then w.extractLsb' 8 8 else m.readByte b := by
  rw [Memory.writeWord, Memory.readByte_writeByte (Memory.wf_writeByte h _ _), Memory.readByte_writeByte h]
  split
  · rw [if_neg (by omega)]
  · rfl

/-- What a byte reads as after a control-store cell is written. -/
theorem Memory.readByte_writeCell {m : Memory} (h : m.wf = true) (k b : Nat) (w : MicroWord) :
    (m.writeCell k w).readByte b =
      if b = 4 * k then w.extractLsb' 0 8 else if b = 4 * k + 1 then w.extractLsb' 8 8
      else if b = 4 * k + 2 then w.extractLsb' 16 8 else if b = 4 * k + 3 then w.extractLsb' 24 8 else m.readByte b := by
  have h1 := Memory.wf_writeByte h (4 * k) (w.extractLsb' 0 8)
  have h2 := Memory.wf_writeByte h1 (4 * k + 1) (w.extractLsb' 8 8)
  have h3 := Memory.wf_writeByte h2 (4 * k + 2) (w.extractLsb' 16 8)
  rw [Memory.writeCell, Memory.readByte_writeByte h3, Memory.readByte_writeByte h2, Memory.readByte_writeByte h1,
    Memory.readByte_writeByte h]
  split_ifs <;> first | rfl | omega

theorem Memory.joinWord (w : Word) : (w.extractLsb' 8 8 ++ w.extractLsb' 0 8 : Word) = w := by
  apply BitVec.eq_of_getLsbD_eq
  intro i hi
  simp only [BitVec.getLsbD_append, BitVec.getLsbD_extractLsb']
  split
  · simp [*]
  · rw [show 8 + (i - 8) = i by omega]; simp [show i - 8 < 8 by omega]

theorem cellOfBytes_extract (w : MicroWord) :
    cellOfBytes (w.extractLsb' 0 8) (w.extractLsb' 8 8) (w.extractLsb' 16 8) (w.extractLsb' 24 8) = w := by
  apply BitVec.eq_of_getLsbD_eq
  intro i hi
  simp only [cellOfBytes, BitVec.getLsbD_append, BitVec.getLsbD_extractLsb']
  split
  · simp [*]
  · split
    · rw [show 8 + (i - 8) = i by omega]; simp [*]
    · split
      · rw [show 16 + (i - 8 - 8) = i by omega]; simp [*]
      · rw [show 24 + (i - 8 - 8 - 8) = i by omega]; simp [show i - 8 - 8 - 8 < 8 by omega]

/-- A word written is the word read, and every other word is left alone. -/
theorem Memory.readWord_writeWord {m : Memory} (h : m.wf = true) (k j : Nat) (w : Word) :
    (m.writeWord k w).readWord j = if j = k then w else m.readWord j := by
  rw [Memory.readWord, Memory.readByte_writeWord h, Memory.readByte_writeWord h]
  by_cases e : j = k
  · subst e
    rw [if_neg (by omega), if_pos rfl, if_pos rfl, if_pos rfl]
    exact Memory.joinWord w
  · rw [if_neg (by omega), if_neg (by omega), if_neg (by omega), if_neg (by omega), if_neg e]; rfl

/-- A cell written is the cell read, and every other cell is left alone. -/
theorem Memory.readCell_writeCell {m : Memory} (h : m.wf = true) (k j : Nat) (w : MicroWord) :
    (m.writeCell k w).readCell j = if j = k then w else m.readCell j := by
  simp only [Memory.readCell, Memory.readByte_writeCell h]
  by_cases e : j = k
  · subst e
    simp only [if_true, Nat.add_right_cancel_iff, Nat.add_eq_left, Nat.reduceEqDiff, if_false]
    exact cellOfBytes_extract w
  · rw [if_neg e]
    congr 1 <;> rw [if_neg (by omega), if_neg (by omega), if_neg (by omega), if_neg (by omega)]

end Sys2Proof.Machine
end

