-- ==== Sys2Proof/Laws/Ops.lean ====
section
/-! SUPPORT. For each shared operation, once, everything it can do to the state: the fields it may write are named, every
other field is the one it started from. -/

namespace Sys2Proof.Machine

/-! ### Going on while running -/

theorem State.andThen_running {s : State} (h : s.status = .running) (f : State → State) : s.andThen f = f s := by
  simp [State.andThen, h]

theorem State.andThen_stopped {s : State} (h : s.status ≠ .running) (f : State → State) : s.andThen f = s := by
  unfold State.andThen
  split
  · exact absurd (by assumption) h
  · rfl

theorem State.andThen_cases (s : State) (f : State → State) :
    (s.status = .running ∧ s.andThen f = f s) ∨ (s.status ≠ .running ∧ s.andThen f = s) := by
  by_cases h : s.status = .running
  · exact .inl ⟨h, State.andThen_running h f⟩
  · exact .inr ⟨h, State.andThen_stopped h f⟩

theorem State.running_of_andThen {s : State} {f : State → State} (h : (s.andThen f).status = .running) :
    s.status = .running := by
  rcases State.andThen_cases s f with ⟨hr, _⟩ | ⟨_, e⟩
  · exact hr
  · rwa [e] at h

theorem Ctx.andThen_running {c : Ctx} (h : c.s.status = .running) (f : Ctx → Ctx) : c.andThen f = f c := by
  simp [Ctx.andThen, h]

theorem Ctx.andThen_stopped {c : Ctx} (h : c.s.status ≠ .running) (f : Ctx → Ctx) : c.andThen f = c := by
  unfold Ctx.andThen
  split
  · exact absurd (by assumption) h
  · rfl

theorem Ctx.andThen_cases (c : Ctx) (f : Ctx → Ctx) :
    (c.s.status = .running ∧ c.andThen f = f c) ∨ (c.s.status ≠ .running ∧ c.andThen f = c) := by
  by_cases h : c.s.status = .running
  · exact .inl ⟨h, Ctx.andThen_running h f⟩
  · exact .inr ⟨h, Ctx.andThen_stopped h f⟩

/-- A relation that every sub-step keeps is kept by all of them in order. -/
theorem Ctx.foldl_andThen {α : Type} {R : State → State → Prop} (hrefl : ∀ s, R s s)
    (htrans : ∀ {a b c}, R a b → R b c → R a c) (f : Ctx → α → Ctx) (as : List α)
    (hf : ∀ a ∈ as, ∀ c : Ctx, R c.s (f c a).s) (c : Ctx) :
    R c.s (as.foldl (fun (c : Ctx) a => c.andThen fun c => f c a) c).s := by
  induction as generalizing c with
  | nil => exact hrefl _
  | cons a as ih =>
    refine htrans ?_ (ih (fun b hb => hf b (List.mem_cons_of_mem a hb)) _)
    dsimp only
    rcases Ctx.andThen_cases c (fun c => f c a) with ⟨_, e⟩ | ⟨_, e⟩
    · rw [e]; exact hf a List.mem_cons_self c
    · rw [e]; exact hrefl _

/-! ### The wakeup contract (R350 to R354) -/

/-- A contract call writes WAKEUP, HS, STATUS and the oracle's count, nothing else; it starts no stopped machine. -/
def State.ContractFrame (s s' : State) : Prop :=
  ∃ wk hs o st, s' = { s with wakeup := wk, hs := hs, oracle := o, status := st } ∧
    (st = .running → s.status = .running)

theorem State.ContractFrame.refl (s : State) : s.ContractFrame s :=
  ⟨_, _, _, _, rfl, id⟩

theorem State.ContractFrame.trans {a b c : State} (h : a.ContractFrame b) (k : b.ContractFrame c) : a.ContractFrame c := by
  obtain ⟨_, _, _, _, rfl, h1⟩ := h
  obtain ⟨_, _, _, _, rfl, h2⟩ := k
  exact ⟨_, _, _, _, rfl, fun e => h1 (h2 e)⟩

theorem State.andThen_contract (s : State) {f : State → State} (h : s.status = .running → s.ContractFrame (f s)) :
    s.ContractFrame (s.andThen f) := by
  rcases State.andThen_cases s f with ⟨hr, e⟩ | ⟨_, e⟩
  · rw [e]; exact h hr
  · rw [e]; exact .refl s

theorem policyAct_contract (t : Slot) (s : State) (a : HookAct) : s.ContractFrame (policyAct t s a) := by
  cases a <;> exact ⟨_, _, _, _, rfl, id⟩

theorem State.countHook_contract (s : State) (d : Variant × HookEntry) : s.ContractFrame (s.countHook d) := by
  unfold State.countHook
  split <;> exact ⟨_, _, _, _, rfl, id⟩

theorem State.policyActs_contract (t : Slot) (as : List HookAct) (s : State) :
    s.ContractFrame (as.foldl (policyAct t) s) := by
  induction as generalizing s with
  | nil => exact .refl s
  | cons a as ih => exact (policyAct_contract t s a).trans (ih _)

theorem State.policy_contract (s : State) (t : Slot) (site : HookSite) (b : Bool) : s.ContractFrame (s.policy t site b) := by
  unfold State.policy
  split
  · exact ⟨_, _, _, _, rfl, id⟩
  · exact (s.countHook_contract _).trans (State.policyActs_contract t _ _)

theorem State.wakeupTask_contract (s : State) (t : Slot) : s.ContractFrame (s.wakeupTask t) := by
  refine s.andThen_contract fun hr => ?_
  split
  · exact .refl s
  · split
    · exact ⟨_, _, _, _, rfl, fun _ => hr⟩
    · exact s.policy_contract t _ _

theorem State.blockTask_contract (s : State) (t : Slot) : s.ContractFrame (s.blockTask t) := by
  refine s.andThen_contract fun hr => ?_
  split
  · exact .refl s
  · split
    · exact ⟨_, _, _, _, rfl, fun _ => hr⟩
    · exact s.policy_contract t _ _

theorem State.contractCalls_contract (cs : List (Bool × Slot)) (s : State) : s.ContractFrame (s.contractCalls cs) := by
  induction cs generalizing s with
  | nil => exact .refl s
  | cons c cs ih =>
    refine State.ContractFrame.trans ?_ (ih _)
    dsimp only
    split
    · exact s.wakeupTask_contract c.2
    · exact s.blockTask_contract c.2

theorem State.callFor_contract (s : State) (v : Variant) (call : State → Slot → State)
    (h : ∀ (s : State) (t : Slot), s.ContractFrame (call s t)) : s.ContractFrame (s.callFor v call) := by
  unfold State.callFor
  split
  · exact .refl s
  · exact h s _

/-! ### The memory bus (R67 to R78) -/

/-- A table in the parameters can give any partner function whatever (R78, log 35). -/
theorem partner_table_any (f : Word → Word) : ∃ rows, ∀ a, (Partner.table rows).apply a = f a := by
  have key : ∀ (ns : List Nat) (a : Word), a.toNat ∈ ns →
      ((ns.map fun n => (BitVec.ofNat 16 n, f (BitVec.ofNat 16 n))).find? fun r => r.1 == a) = some (a, f a) := by
    intro ns a h
    induction ns with
    | nil => cases h
    | cons n ns ih =>
      rw [List.map_cons, List.find?_cons]
      by_cases e : BitVec.ofNat 16 n = a
      · simp [e]
      · have hn : a.toNat ≠ n := fun k => e (by rw [← k, BitVec.ofNat_toNat, BitVec.setWidth_eq])
        rw [ih ((List.mem_cons.1 h).resolve_left hn), beq_false_of_ne e]
  refine ⟨(List.range 65536).map fun n => (BitVec.ofNat 16 n, f (BitVec.ofNat 16 n)), fun a => ?_⟩
  simp only [Partner.apply, key _ a (List.mem_range.2 a.isLt)]
  rfl

/-- A bus operation writes the bus, main memory, the diagnostics and what a contract call writes. -/
def State.BusFrame (s s' : State) : Prop :=
  ∃ ba bc bm bt bx b1 b2 bs bd mem di wk hs o st,
    s' = { s with busActive := ba, busCycle := bc, busMar := bm, busTask := bt, busXm := bx, busMd1 := b1, busMd2 := b2
                  busDwStore := bs, busDwMixed := bd, mem := mem, diagnostics := di
                  wakeup := wk, hs := hs, oracle := o, status := st } ∧
    (st = .running → s.status = .running)

theorem State.BusFrame.refl (s : State) : s.BusFrame s :=
  ⟨_, _, _, _, _, _, _, _, _, _, _, _, _, _, _, rfl, id⟩

theorem State.BusFrame.trans {a b c : State} (h : a.BusFrame b) (k : b.BusFrame c) : a.BusFrame c := by
  obtain ⟨_, _, _, _, _, _, _, _, _, _, _, _, _, _, _, rfl, h1⟩ := h
  obtain ⟨_, _, _, _, _, _, _, _, _, _, _, _, _, _, _, rfl, h2⟩ := k
  exact ⟨_, _, _, _, _, _, _, _, _, _, _, _, _, _, _, rfl, fun e => h1 (h2 e)⟩

theorem State.ContractFrame.bus {a b : State} (h : a.ContractFrame b) : a.BusFrame b := by
  obtain ⟨_, _, _, _, rfl, h1⟩ := h
  exact ⟨_, _, _, _, _, _, _, _, _, _, _, _, _, _, _, rfl, h1⟩

theorem State.andThen_bus (s : State) {f : State → State} (h : s.status = .running → s.BusFrame (f s)) :
    s.BusFrame (s.andThen f) := by
  rcases State.andThen_cases s f with ⟨hr, e⟩ | ⟨_, e⟩
  · rw [e]; exact h hr
  · rw [e]; exact .refl s

theorem State.memRead_contract (s : State) (a : Word) : s.ContractFrame (s.memRead a).2 := by
  unfold State.memRead
  split
  · exact .refl s
  · exact .refl s
  · exact State.ContractFrame.trans ⟨_, _, _, _, rfl, id⟩ (State.contractCalls_contract _ _)

theorem State.memWrite_bus (s : State) (a w : Word) : s.BusFrame (s.memWrite a w) := by
  unfold State.memWrite
  split
  · exact .refl s
  · exact ⟨_, _, _, _, _, _, _, _, _, _, _, _, _, _, _, rfl, id⟩
  · exact (State.ContractFrame.trans ⟨_, _, _, _, rfl, id⟩ (State.contractCalls_contract _ _)).bus

theorem State.bufferFirst_bus (s : State) : s.BusFrame s.bufferFirst := by
  unfold State.bufferFirst
  split
  · exact (s.memRead_contract _).bus.trans
      (State.andThen_bus _ fun _ => ⟨_, _, _, _, _, _, _, _, _, _, _, _, _, _, _, rfl, id⟩)
  · exact .refl s

theorem State.bufferSecond_bus (s : State) : s.BusFrame s.bufferSecond := by
  unfold State.bufferSecond
  split
  · exact (s.memRead_contract _).bus.trans
      (State.andThen_bus _ fun _ => ⟨_, _, _, _, _, _, _, _, _, _, _, _, _, _, _, rfl, id⟩)
  · exact .refl s

theorem State.autoClose_bus (s : State) : s.BusFrame s.autoClose := by
  unfold State.autoClose
  split
  · exact ⟨_, _, _, _, _, _, _, _, _, _, _, _, _, _, _, rfl, id⟩
  · exact .refl s

theorem State.busClock_bus (s : State) : s.BusFrame s.busClock := by
  unfold State.busClock
  refine State.BusFrame.trans (b := ((s.andThen fun s => { s with busCycle := s.busCycle + 1 }).andThen
    State.bufferFirst).andThen State.bufferSecond) (State.BusFrame.trans (b := (s.andThen fun s =>
      { s with busCycle := s.busCycle + 1 }).andThen State.bufferFirst) (State.BusFrame.trans
        (b := s.andThen fun s => { s with busCycle := s.busCycle + 1 }) ?_ ?_) ?_) ?_
  · exact s.andThen_bus fun _ => ⟨_, _, _, _, _, _, _, _, _, _, _, _, _, _, _, rfl, id⟩
  · exact State.andThen_bus _ fun _ => State.bufferFirst_bus _
  · exact State.andThen_bus _ fun _ => State.bufferSecond_bus _
  · exact State.andThen_bus _ fun _ => State.autoClose_bus _

/-- The bus's clock leaves the cell the running slot fetches where it is. -/
theorem State.busClock_fetchWord (s : State) : s.busClock.fetchWord = s.fetchWord := by
  obtain ⟨_, _, _, _, _, _, _, _, _, _, _, _, _, _, _, e, _⟩ := s.busClock_bus
  rw [e]; rfl

theorem State.busLoadMAR_bus (s : State) (a : Word) (t : Slot) (xm : Bool) (h : s.status = .running) :
    s.BusFrame (s.busLoadMAR a t xm) := by
  unfold State.busLoadMAR
  split
  · exact ⟨_, _, _, _, _, _, _, _, _, _, _, _, _, _, _, rfl, fun _ => h⟩
  · exact ⟨_, _, _, _, _, _, _, _, _, _, _, _, _, _, _, rfl, id⟩

theorem State.busReadMD_bus (s : State) (h : s.status = .running) : s.BusFrame s.busReadMD.2 := by
  unfold State.busReadMD
  split
  · split
    · exact .refl s
    · exact .refl s
    · exact ⟨_, _, _, _, _, _, _, _, _, _, _, _, _, _, _, rfl, fun _ => h⟩
  · exact ⟨_, _, _, _, _, _, _, _, _, _, _, _, _, _, _, rfl, id⟩

theorem State.busLoadMD_bus (s : State) (w : Word) : s.BusFrame (s.busLoadMD w) := by
  unfold State.busLoadMD
  split
  · split
    · exact (s.memWrite_bus _ _).trans
        (State.andThen_bus _ fun _ => ⟨_, _, _, _, _, _, _, _, _, _, _, _, _, _, _, rfl, id⟩)
    · exact (s.memWrite_bus _ _).trans
        (State.andThen_bus _ fun _ => ⟨_, _, _, _, _, _, _, _, _, _, _, _, _, _, _, rfl, id⟩)
    · exact ⟨_, _, _, _, _, _, _, _, _, _, _, _, _, _, _, rfl, id⟩
  · exact ⟨_, _, _, _, _, _, _, _, _, _, _, _, _, _, _, rfl, id⟩

/-! ### The control store (R270 to R278) -/

/-- A control-RAM read changes nothing, or is fatal. -/
theorem State.readRam_cases (s : State) : s.readRam.2 = s ∨ s.readRam.2 = s.fatal (.fd6 s.crar) := by
  unfold State.readRam
  split
  · exact .inr rfl
  · split
    · exact .inr rfl
    · exact .inl rfl

/-- A control-RAM write changes one cell of the control RAM, or nothing, or is fatal. -/
theorem State.writeRam_cases (s : State) (low high : Word) :
    s.writeRam low high = s ∨ s.writeRam low high = s.fatal (.fd6 s.crar) ∨
      ∃ b, ramBank s.cfg.csConfig (crarBank s.crar) = some b ∧ s.writeRam low high =
        { s with csRam := Memory.writeCell s.csRam (cellIndex b (crarCell s.crar)) ((high ++ low) ^^^ s.cfg.ramXorMask) } := by
  unfold State.writeRam
  split
  · exact .inl rfl
  · split
    · exact .inr (.inl rfl)
    · rename_i b hb
      exact .inr (.inr ⟨b, hb, rfl⟩)

/-- Every bank a switch leads to is a bank of the configuration. -/
theorem swModeTable_hasBank (c : CsConfig) (b : Bank) (a : Addr) (h : c.hasBank b = true) :
    c.hasBank (swModeTable c b a) = true := by
  cases c
  · cases b <;> simp_all [swModeTable, toggle2, CsConfig.hasBank]
  · simp only [swModeTable]
    generalize a.getLsbD 8 = k
    revert h
    cases b <;> cases k <;> decide
  · rfl

/-- Under `Ram5` a switch never stays in its bank. -/
theorem ram5_ne (b : Bank) (a : Addr) : ram5 b a ≠ b := by
  unfold ram5
  generalize Config.ram5Pick b a = k
  revert k
  cases b <;> decide

/-- A placed word is the word read at its cell. -/
theorem State.csCell_setCsCell {s : State} (b : Bank) (a : Addr) (w : MicroWord)
    (hr : Memory.wf s.csRam = true) (ho : Memory.wf s.cfg.romImage = true) : (s.setCsCell b a w).csCell b a = w := by
  unfold State.setCsCell State.csCell
  cases b.isRom
  · exact (Memory.readCell_writeCell hr _ _ _).trans (if_pos rfl)
  · exact (Memory.readCell_writeCell ho _ _ _).trans (if_pos rfl)

end Sys2Proof.Machine
end

