-- ==== Sys2Proof/Laws/Hooks.lean ====
section
/-! SUPPORT. What hooks can and cannot do (R46, R240), and the words they are called for. -/

namespace Sys2Proof.Machine

/-! ### Hooks that are not defined -/

theorem Ctx.hook_undefined {c : Ctx} {site : HookSite} (h : c.hookAt? site = none) : c.hook site = c := by
  simp [Ctx.hook, h]

theorem Ctx.hook_defined {c : Ctx} {site : HookSite} {d : Variant × HookEntry} (h : c.hookAt? site = some d) :
    c.hook site = c.runActs site d := by
  simp [Ctx.hook, h]

theorem Ctx.hookOr_undefined {c : Ctx} {site : HookSite} (i : FatalInfo) (h : c.hookAt? site = none) :
    c.hookOr site i = { c with s := c.s.fatal i } := by
  simp [Ctx.hookOr, h]

theorem Ctx.hookOr_defined {c : Ctx} {site : HookSite} {d : Variant × HookEntry} (i : FatalInfo)
    (h : c.hookAt? site = some d) : c.hookOr site i = c.runActs site d := by
  simp [Ctx.hookOr, h]

/-! ### What no hook writes

A hook never writes T, L, M, ALUC0, ALUCARRY, CRAR, FIRST, NEXTMOD, NEXT_TASK, the control RAM, the parameters or the
outside's agenda, and never starts a stopped machine. -/

/-- The fields a hook leaves alone. -/
structure State.HookFrame (s s' : State) : Prop where
  t : s'.t = s.t
  l : s'.l = s.l
  m : s'.m = s.m
  aluC0 : s'.aluC0 = s.aluC0
  aluCarry : s'.aluCarry = s.aluCarry
  crar : s'.crar = s.crar
  first : s'.first = s.first
  nextMod : s'.nextMod = s.nextMod
  nextTask : s'.nextTask = s.nextTask
  csRam : s'.csRam = s.csRam
  cfg : s'.cfg = s.cfg
  agenda : s'.agenda = s.agenda
  running : s'.status = .running → s.status = .running

theorem State.HookFrame.refl (s : State) : s.HookFrame s :=
  ⟨rfl, rfl, rfl, rfl, rfl, rfl, rfl, rfl, rfl, rfl, rfl, rfl, id⟩

theorem State.HookFrame.trans {a b c : State} (h : a.HookFrame b) (k : b.HookFrame c) : a.HookFrame c :=
  ⟨k.t.trans h.t, k.l.trans h.l, k.m.trans h.m, k.aluC0.trans h.aluC0, k.aluCarry.trans h.aluCarry, k.crar.trans h.crar,
    k.first.trans h.first, k.nextMod.trans h.nextMod, k.nextTask.trans h.nextTask, k.csRam.trans h.csRam,
    k.cfg.trans h.cfg, k.agenda.trans h.agenda, fun e => h.running (k.running e)⟩

theorem State.BusFrame.hook {a b : State} (h : a.BusFrame b) : a.HookFrame b := by
  obtain ⟨_, _, _, _, _, _, _, _, _, _, _, _, _, _, _, rfl, h1⟩ := h
  exact ⟨rfl, rfl, rfl, rfl, rfl, rfl, rfl, rfl, rfl, rfl, rfl, rfl, h1⟩

theorem State.andThen_hook (s : State) {f : State → State} (h : s.status = .running → s.HookFrame (f s)) :
    s.HookFrame (s.andThen f) := by
  rcases State.andThen_cases s f with ⟨hr, e⟩ | ⟨_, e⟩
  · rw [e]; exact h hr
  · rw [e]; exact .refl s

theorem State.foldl_hook {α : Type} (f : State → α → State) (hf : ∀ (s : State) a, s.HookFrame (f s a)) (as : List α) (s : State) :
    s.HookFrame (as.foldl f s) := by
  induction as generalizing s with
  | nil => exact .refl s
  | cons a as ih => exact (hf s a).trans (ih _)

theorem Ctx.basicAct_hook (c : Ctx) (h : c.s.status = .running) (a : HookAct) : c.s.HookFrame (c.basicAct a).s := by
  cases a with
  | loadMAR v xm => exact (c.s.busLoadMAR_bus _ _ _ h).hook
  | readMD => exact (c.s.busReadMD_bus h).hook
  | loadMD v => exact (c.s.busLoadMD_bus _).hook
  | wakeupTask t => exact (c.s.wakeupTask_contract t).bus.hook
  | blockTask t => exact (c.s.blockTask_contract t).bus.hook
  | _ => exact ⟨rfl, rfl, rfl, rfl, rfl, rfl, rfl, rfl, rfl, rfl, rfl, rfl, id⟩

/-- Acts one after the other: each begins in a running state. -/
theorem Ctx.acts_hook (act : Ctx → HookAct → Ctx)
    (hact : ∀ (c : Ctx) a, c.s.status = .running → c.s.HookFrame (act c a).s) (as : List HookAct) (c : Ctx) :
    c.s.HookFrame (as.foldl (fun (c : Ctx) a => c.andThen fun c => act c a) c).s := by
  induction as generalizing c with
  | nil => exact .refl _
  | cons a as ih =>
    refine State.HookFrame.trans ?_ (ih _)
    dsimp only
    rcases Ctx.andThen_cases c (fun c => act c a) with ⟨hr, e⟩ | ⟨_, e⟩
    · rw [e]; exact hact c a hr
    · rw [e]; exact .refl _

/-- What a soft reset may be told to do when a hook calls for it. -/
def Ctx.CallFrame (call : Nat → Ctx → Ctx) : Prop :=
  ∀ (n : Nat) (c : Ctx), c.s.HookFrame (call n c).s

theorem Ctx.actWith_hook {call : Nat → Ctx → Ctx} (hc : Ctx.CallFrame call) (c : Ctx) (h : c.s.status = .running) (a : HookAct) :
    c.s.HookFrame (c.actWith call a).s := by
  unfold Ctx.actWith
  split
  · exact hc _ c
  · exact c.basicAct_hook h a

theorem Ctx.runActsWith_hook {call : Nat → Ctx → Ctx} (hc : Ctx.CallFrame call) (c : Ctx) (site : HookSite)
    (d : Variant × HookEntry) : c.s.HookFrame (c.runActsWith call site d).s :=
  (c.s.countHook_contract d).bus.hook.trans
    (Ctx.acts_hook (Ctx.actWith call) (fun c a h => c.actWith_hook hc h a) _
      { s := c.s.countHook d, w := { c.w with md := 0 } })

theorem Ctx.softResetHook_hook {call : Nat → Ctx → Ctx} (hc : Ctx.CallFrame call) (c : Ctx) (t : Slot) :
    c.s.HookFrame (c.softResetHook call t).s := by
  unfold Ctx.softResetHook
  split
  · exact .refl _
  · exact Ctx.runActsWith_hook hc { s := c.s, w := c.w.inReset t } _ _

theorem Ctx.andThen_hook (c : Ctx) {f : Ctx → Ctx} (h : c.s.HookFrame (f c).s) : c.s.HookFrame (c.andThen f).s := by
  rcases Ctx.andThen_cases c f with ⟨_, e⟩ | ⟨_, e⟩
  · rw [e]; exact h
  · rw [e]; exact .refl _

theorem Ctx.softResetSlot_hook {call : Nat → Ctx → Ctx} (hc : Ctx.CallFrame call) (c : Ctx) (t : Slot) :
    c.s.HookFrame (c.softResetSlot call t).s := by
  refine c.andThen_hook ?_
  split
  · exact (c.softResetHook_hook hc t).trans (Ctx.andThen_hook _
      ⟨rfl, rfl, rfl, rfl, rfl, rfl, rfl, rfl, rfl, rfl, rfl, rfl, id⟩)
  · exact .refl _

theorem State.HookFrame.restart {a b : State} (h : a.HookFrame b) (v : Word) (e : Slot) :
    a.HookFrame { b with rmr := v, cur := e } :=
  h.trans ⟨rfl, rfl, rfl, rfl, rfl, rfl, rfl, rfl, rfl, rfl, rfl, rfl, id⟩

theorem State.softResetRestart_hook (s : State) : s.HookFrame s.softResetRestart :=
  (State.foldl_hook State.softResetBank
    (fun _ _ => ⟨rfl, rfl, rfl, rfl, rfl, rfl, rfl, rfl, rfl, rfl, rfl, rfl, id⟩) slotsUp s).restart _ _

/-- The four adjustments are contract calls. -/
theorem State.softResetAdjust_contract (s : State) : s.ContractFrame s.softResetAdjust :=
  (((State.callFor_contract s _ _ State.wakeupTask_contract).trans
    (State.callFor_contract _ _ _ State.blockTask_contract)).trans
      (State.callFor_contract _ _ _ State.blockTask_contract)).trans
        (State.callFor_contract _ _ _ State.blockTask_contract)

theorem Ctx.softResetSlots_hook {call : Nat → Ctx → Ctx} (hc : Ctx.CallFrame call) (ts : List Slot) (c : Ctx) :
    c.s.HookFrame (ts.foldl (Ctx.softResetSlot call) c).s := by
  induction ts generalizing c with
  | nil => exact .refl _
  | cons t ts ih => exact (c.softResetSlot_hook hc t).trans (ih _)

theorem Ctx.softResetWith_hook {call : Nat → Ctx → Ctx} (hc : Ctx.CallFrame call) (c : Ctx) :
    c.s.HookFrame (c.softResetWith call).s :=
  ((c.softResetSlots_hook hc slotsUp).trans (Ctx.andThen_hook _ (State.softResetRestart_hook _))).trans
    (Ctx.andThen_hook _ (State.softResetAdjust_contract _).bus.hook)

theorem Ctx.softResetNest_hook (room : Nat) : Ctx.CallFrame (Ctx.softResetNest room) := by
  induction room with
  | zero => exact fun _ c => .refl c.s
  | succ room ih =>
    intro n c
    unfold Ctx.softResetNest
    split
    · exact ih n c
    · exact c.softResetWith_hook ih

/-- A soft reset that a hook calls leaves those fields alone. -/
theorem Ctx.softReset_hook (c : Ctx) : c.s.HookFrame c.softReset.s :=
  c.softResetWith_hook fun n => Ctx.softResetNest_hook (n + 1) n

theorem State.softReset_hook (s : State) : s.HookFrame s.softReset :=
  Ctx.softReset_hook { s := s, w := Wires.idle s.cur }

/-- A defined hook leaves those fields alone. -/
theorem Ctx.runActs_hook (c : Ctx) (site : HookSite) (d : Variant × HookEntry) : c.s.HookFrame (c.runActs site d).s :=
  Ctx.runActsWith_hook (fun _ => Ctx.softReset_hook) c site d

theorem Ctx.hook_hook (c : Ctx) (site : HookSite) : c.s.HookFrame (c.hook site).s := by
  unfold Ctx.hook
  split
  · exact .refl _
  · exact c.runActs_hook site _

theorem Ctx.hookOr_hook (c : Ctx) (site : HookSite) (i : FatalInfo) : c.s.HookFrame (c.hookOr site i).s := by
  unfold Ctx.hookOr
  split
  · exact ⟨rfl, rfl, rfl, rfl, rfl, rfl, rfl, rfl, rfl, rfl, rfl, rfl, fun e => nomatch e⟩
  · exact c.runActs_hook site _

/-! ### Which wires no hook writes -/

/-- The wires a hook leaves alone: the word, the slots, the latches read as the word began, the shifter's operation and its
output, the branch bits taken, the ALU's result and carry, and the two completion wires. -/
structure Wires.HookFrame (w w' : Wires) : Prop where
  mi : w'.mi = w.mi
  slot : w'.slot = w.slot
  runner : w'.runner = w.runner
  swModeNow : w'.swModeNow = w.swModeNow
  rdRamNow : w'.rdRamNow = w.rdRamNow
  wrtRamNow : w'.wrtRamNow = w.wrtRamNow
  nmIn : w'.nmIn = w.nmIn
  alu : w'.alu = w.alu
  cy : w'.cy = w.cy
  shOp : w'.shOp = w.shOp
  shOut : w'.shOut = w.shOut
  blockNow : w'.blockNow = w.blockNow
  taskSwitch : w'.taskSwitch = w.taskSwitch

theorem Wires.HookFrame.refl (w : Wires) : w.HookFrame w :=
  ⟨rfl, rfl, rfl, rfl, rfl, rfl, rfl, rfl, rfl, rfl, rfl, rfl, rfl⟩

theorem Wires.HookFrame.trans {a b c : Wires} (h : a.HookFrame b) (k : b.HookFrame c) : a.HookFrame c :=
  ⟨k.mi.trans h.mi, k.slot.trans h.slot, k.runner.trans h.runner, k.swModeNow.trans h.swModeNow,
    k.rdRamNow.trans h.rdRamNow, k.wrtRamNow.trans h.wrtRamNow, k.nmIn.trans h.nmIn, k.alu.trans h.alu, k.cy.trans h.cy, k.shOp.trans h.shOp,
    k.shOut.trans h.shOut, k.blockNow.trans h.blockNow, k.taskSwitch.trans h.taskSwitch⟩

theorem Ctx.andThen_wires (c : Ctx) {f : Ctx → Ctx} (h : c.w.HookFrame (f c).w) : c.w.HookFrame (c.andThen f).w := by
  rcases Ctx.andThen_cases c f with ⟨_, e⟩ | ⟨_, e⟩
  · rw [e]; exact h
  · rw [e]; exact .refl _

theorem Ctx.foldl_wires {α : Type} {f : Ctx → α → Ctx} (hf : ∀ (c : Ctx) a, c.w.HookFrame (f c a).w) (as : List α) (c : Ctx) :
    c.w.HookFrame (as.foldl f c).w := by
  induction as generalizing c with
  | nil => exact .refl _
  | cons a as ih => exact (hf c a).trans (ih _)

theorem Ctx.softResetSlot_wires (call : Nat → Ctx → Ctx) (c : Ctx) (t : Slot) : c.w.HookFrame (c.softResetSlot call t).w := by
  refine c.andThen_wires ?_
  split
  · refine Wires.HookFrame.trans (b := (c.softResetHook call t).w) ?_ (Ctx.andThen_wires _ (.refl _))
    unfold Ctx.softResetHook
    split
    · exact .refl _
    · exact ⟨rfl, rfl, rfl, rfl, rfl, rfl, rfl, rfl, rfl, rfl, rfl, rfl, rfl⟩
  · exact .refl _

theorem Ctx.softReset_wires (c : Ctx) : c.w.HookFrame c.softReset.w :=
  ((Ctx.foldl_wires (Ctx.softResetSlot_wires _) slotsUp c).trans (Ctx.andThen_wires _ (.refl _))).trans
    (Ctx.andThen_wires _ (.refl _))

theorem Ctx.act_wires (c : Ctx) (a : HookAct) : c.w.HookFrame (c.act a).w := by
  cases a
  case softReset =>
    exact c.softReset_wires.trans ⟨rfl, rfl, rfl, rfl, rfl, rfl, rfl, rfl, rfl, rfl, rfl, rfl, rfl⟩
  all_goals exact ⟨rfl, rfl, rfl, rfl, rfl, rfl, rfl, rfl, rfl, rfl, rfl, rfl, rfl⟩

/-- A defined hook leaves those wires alone. -/
theorem Ctx.runActs_wires (c : Ctx) (site : HookSite) (d : Variant × HookEntry) : c.w.HookFrame (c.runActs site d).w :=
  Wires.HookFrame.trans (b := { c.w with md := 0 }) ⟨rfl, rfl, rfl, rfl, rfl, rfl, rfl, rfl, rfl, rfl, rfl, rfl, rfl⟩
    (Ctx.foldl_wires (fun c a => c.andThen_wires (c.act_wires a)) _ { s := c.s.countHook d, w := { c.w with md := 0 } })

theorem Ctx.hook_wires (c : Ctx) (site : HookSite) : c.w.HookFrame (c.hook site).w := by
  unfold Ctx.hook
  split
  · exact .refl _
  · exact c.runActs_wires site _

theorem Ctx.hookOr_wires (c : Ctx) (site : HookSite) (i : FatalInfo) : c.w.HookFrame (c.hookOr site i).w := by
  unfold Ctx.hookOr
  split
  · exact .refl _
  · exact c.runActs_wires site _

end Sys2Proof.Machine
end

