-- ==== Sys2Proof/Laws/SubSteps.lean ====
section
/-! SUPPORT. One microinstruction around one of its sub-steps: what that sub-step is, and the wires that none of the earlier
ones has changed. -/

namespace Sys2Proof.Machine

/-- What a sub-step does, given what the word's fields contribute. -/
def SubStep.run (p : Stages) : SubStep → Ctx → Ctx
  | .branchBits => takeBranchBits
  | .register => selectRegister
  | .earlyF2 => Sys2Proof.Machine.earlyF2
  | .source => selectSource p
  | .mask => maskConstant
  | .ramRead => pendingRead
  | .postBusF2 => Sys2Proof.Machine.postBusF2
  | .earlyF1 => Sys2Proof.Machine.earlyF1
  | .alu => runAlu p
  | .ramWrite => pendingWrite
  | .f1 => p.f1
  | .f2 => p.f2
  | .shifter => runShifter
  | .f2Test => p.f2Test
  | .writeR => writeBackR
  | .writeS => writeBackS
  | .loadT => p.loadT
  | .loadL => p.loadL
  | .afterShift => Sys2Proof.Machine.afterShift
  | .bankSwitch => pendingSwitch
  | .blockHook => Sys2Proof.Machine.blockHook
  | .nextAddress => Sys2Proof.Machine.nextAddress
  | .clearFirst => Sys2Proof.Machine.clearFirst

theorem subSteps_split (p : Stages) (g : SubStep) :
    subSteps p = (subSteps p).take g.index ++ g.run p :: (subSteps p).drop (g.index + 1) := by
  cases g <;> rfl

/-- A word that reaches a sub-step goes on from what the sub-step makes of it. -/
theorem exec_at {i : Instr} {s : State} {g : SubStep} (h : s.reaches g i.word) :
    exec i s = .next ((g.run (Stages.of i.word) (s.before g i.word)).resume g i.word) := by
  rw [exec_eq, State.clock_runs h.1 h.2.1, executeNext]
  conv => lhs; rw [subSteps_split _ g]
  rw [List.foldl_append, List.foldl_cons, ← State.before, Ctx.andThen_running h.2.2]
  rfl

/-- From a stopped state the rest of the word does nothing. -/
theorem Ctx.resume_stopped {c : Ctx} (h : c.s.status ≠ .running) (g : SubStep) (w : MicroInstr) : c.resume g w = c.s := by
  have key : ∀ fs : List (Ctx → Ctx), fs.foldl Ctx.andThen c = c := by
    intro fs
    induction fs with
    | nil => rfl
    | cons f fs ih => rw [List.foldl_cons, Ctx.andThen_stopped h, ih]
  rw [Ctx.resume, key, Ctx.complete, State.andThen_stopped h]

/-! ### Wires that a sub-step leaves alone -/

/-- The wires that are fixed once the branch bits are taken. -/
structure Wires.Fixed (w w' : Wires) : Prop where
  mi : w'.mi = w.mi
  slot : w'.slot = w.slot
  swModeNow : w'.swModeNow = w.swModeNow
  rdRamNow : w'.rdRamNow = w.rdRamNow
  wrtRamNow : w'.wrtRamNow = w.wrtRamNow

theorem Wires.Fixed.refl (w : Wires) : w.Fixed w :=
  ⟨rfl, rfl, rfl, rfl, rfl⟩

theorem Wires.Fixed.trans {a b c : Wires} (h : a.Fixed b) (k : b.Fixed c) : a.Fixed c :=
  ⟨k.mi.trans h.mi, k.slot.trans h.slot, k.swModeNow.trans h.swModeNow, k.rdRamNow.trans h.rdRamNow,
    k.wrtRamNow.trans h.wrtRamNow⟩

theorem Wires.HookFrame.fixed {a b : Wires} (h : a.HookFrame b) : a.Fixed b :=
  ⟨h.mi, h.slot, h.swModeNow, h.rdRamNow, h.wrtRamNow⟩

theorem sourceTable_fixed (b : BusSource) (c : Ctx) : c.w.Fixed (sourceTable b c).w := by
  cases b
  case taskSpecific1 =>
    exact Wires.Fixed.trans (b := (c.withBus 0xFFFF).w) ⟨rfl, rfl, rfl, rfl, rfl⟩
      (Ctx.hookOr_wires (c.withBus 0xFFFF) (.busSource .taskSpecific1) (.fd2 .taskSpecific1 c.w.slot)).fixed
  case taskSpecific2 =>
    exact Wires.Fixed.trans (b := (c.withBus 0xFFFF).w) ⟨rfl, rfl, rfl, rfl, rfl⟩
      (Ctx.hookOr_wires (c.withBus 0xFFFF) (.busSource .taskSpecific2) (.fd2 .taskSpecific2 c.w.slot)).fixed
  all_goals exact ⟨rfl, rfl, rfl, rfl, rfl⟩

theorem f1Table_fixed (f : F1Code) (c : Ctx) : c.w.Fixed (f1Table f c).w := by
  cases f
  case task => simp only [f1Table, spTask]; split <;> exact ⟨rfl, rfl, rfl, rfl, rfl⟩
  all_goals first
    | exact (Ctx.hookOr_wires c _ _).fixed
    | exact ⟨rfl, rfl, rfl, rfl, rfl⟩

theorem f2Table_fixed (f : F2Code) (c : Ctx) : c.w.Fixed (f2Table f c).w := by
  cases f
  case busZero => simp only [f2Table, spBusZero]; split <;> exact ⟨rfl, rfl, rfl, rfl, rfl⟩
  case storeMD => simp only [f2Table, spStoreMD]; split <;> exact ⟨rfl, rfl, rfl, rfl, rfl⟩
  all_goals first
    | exact (Ctx.hookOr_wires c _ _).fixed
    | exact ⟨rfl, rfl, rfl, rfl, rfl⟩

theorem f2TestTable_fixed (f : F2Code) (c : Ctx) : c.w.Fixed (f2TestTable f c).w := by
  cases f
  case shNeg => simp only [f2TestTable, spShNeg]; split <;> exact ⟨rfl, rfl, rfl, rfl, rfl⟩
  case shZero => simp only [f2TestTable, spShZero]; split <;> exact ⟨rfl, rfl, rfl, rfl, rfl⟩
  all_goals exact ⟨rfl, rfl, rfl, rfl, rfl⟩

theorem Ctx.andThen_fixed (c : Ctx) {f : Ctx → Ctx} (h : c.w.Fixed (f c).w) : c.w.Fixed (c.andThen f).w := by
  rcases Ctx.andThen_cases c f with ⟨_, e⟩ | ⟨_, e⟩
  · rw [e]; exact h
  · rw [e]; exact .refl _

/-- No sub-step changes the word, the slot or the latches read as the word began. -/
theorem SubStep.run_fixed (w : MicroInstr) (g : SubStep) (c : Ctx) : c.w.Fixed (g.run (Stages.of w) c).w := by
  cases g
  case earlyF2 => exact (Ctx.hook_wires c _).fixed
  case source =>
    simp only [SubStep.run, selectSource]
    split
    · exact ⟨rfl, rfl, rfl, rfl, rfl⟩
    · exact sourceTable_fixed _ c
  case mask => simp only [SubStep.run, maskConstant]; split <;> exact ⟨rfl, rfl, rfl, rfl, rfl⟩
  case ramRead =>
    simp only [SubStep.run, pendingRead]
    split
    · exact Ctx.andThen_fixed ({ c with s := c.s.readRam.2 } : Ctx) ⟨rfl, rfl, rfl, rfl, rfl⟩
    · exact .refl _
  case postBusF2 =>
    simp only [SubStep.run, Sys2Proof.Machine.postBusF2]
    split
    · exact (Ctx.hook_wires c _).fixed
    · exact .refl _
  case earlyF1 =>
    simp only [SubStep.run, Sys2Proof.Machine.earlyF1]
    split
    · exact (Ctx.hook_wires c _).fixed
    · exact .refl _
  case alu => simp only [SubStep.run, runAlu]; split <;> exact ⟨rfl, rfl, rfl, rfl, rfl⟩
  case ramWrite =>
    simp only [SubStep.run, pendingWrite]
    split
    · exact Ctx.andThen_fixed ({ c with s := c.s.writeRam c.w.alu c.s.m } : Ctx) ⟨rfl, rfl, rfl, rfl, rfl⟩
    · exact .refl _
  case f1 => exact f1Table_fixed _ c
  case f2 => exact f2Table_fixed _ c
  case f2Test => exact f2TestTable_fixed _ c
  case writeR => simp only [SubStep.run, writeBackR]; split <;> exact ⟨rfl, rfl, rfl, rfl, rfl⟩
  case writeS => simp only [SubStep.run, writeBackS]; split <;> exact ⟨rfl, rfl, rfl, rfl, rfl⟩
  case loadT => simp only [SubStep.run, Stages.of]; cases w.lt <;> exact ⟨rfl, rfl, rfl, rfl, rfl⟩
  case loadL => simp only [SubStep.run, Stages.of]; cases w.ll <;> exact ⟨rfl, rfl, rfl, rfl, rfl⟩
  case afterShift => exact (Ctx.hook_wires c _).fixed
  case bankSwitch => simp only [SubStep.run, pendingSwitch]; split <;> exact ⟨rfl, rfl, rfl, rfl, rfl⟩
  case blockHook =>
    simp only [SubStep.run, Sys2Proof.Machine.blockHook]
    split
    · exact (Ctx.hook_wires c _).fixed
    · exact .refl _
  all_goals exact ⟨rfl, rfl, rfl, rfl, rfl⟩

/-- Every function of the sequence is one of the named sub-steps. -/
theorem mem_subSteps {p : Stages} {f : Ctx → Ctx} (h : f ∈ subSteps p) : ∃ g : SubStep, f = g.run p := by
  simp only [subSteps, List.mem_cons, List.not_mem_nil, or_false] at h
  rcases h with h | h | h | h | h | h | h | h | h | h | h | h | h | h | h | h | h | h | h | h | h | h | h
  exacts [⟨.branchBits, h⟩, ⟨.register, h⟩, ⟨.earlyF2, h⟩, ⟨.source, h⟩, ⟨.mask, h⟩, ⟨.ramRead, h⟩, ⟨.postBusF2, h⟩,
    ⟨.earlyF1, h⟩, ⟨.alu, h⟩, ⟨.ramWrite, h⟩, ⟨.f1, h⟩, ⟨.f2, h⟩, ⟨.shifter, h⟩, ⟨.f2Test, h⟩, ⟨.writeR, h⟩, ⟨.writeS, h⟩,
    ⟨.loadT, h⟩, ⟨.loadL, h⟩, ⟨.afterShift, h⟩, ⟨.bankSwitch, h⟩, ⟨.blockHook, h⟩, ⟨.nextAddress, h⟩, ⟨.clearFirst, h⟩]

/-- A relation every sub-step keeps holds from the start of the word to each of its sub-steps. -/
theorem State.before_rel {R : Ctx → Ctx → Prop} (hrefl : ∀ c, R c c) (htrans : ∀ {a b c}, R a b → R b c → R a c)
    (w : MicroInstr) (hstep : ∀ (g : SubStep) (c : Ctx), c.s.status = .running → R c (g.run (Stages.of w) c))
    (s : State) (g : SubStep) : R (Ctx.begin w s) (s.before g w) := by
  have key : ∀ fs : List (Ctx → Ctx), (∀ f ∈ fs, f ∈ subSteps (Stages.of w)) → ∀ c, R c (fs.foldl Ctx.andThen c) := by
    intro fs
    induction fs with
    | nil => intro _ c; exact hrefl c
    | cons f fs ih =>
      intro h c
      refine htrans ?_ (ih (fun k hk => h k (List.mem_cons_of_mem _ hk)) _)
      obtain ⟨g, rfl⟩ := mem_subSteps (h f List.mem_cons_self)
      rcases Ctx.andThen_cases c (g.run (Stages.of w)) with ⟨hr, e⟩ | ⟨_, e⟩
      · rw [e]; exact hstep g c hr
      · rw [e]; exact hrefl c
  exact key _ (fun f hf => List.mem_of_mem_take hf) _

/-- The wires fixed from the start of the word, as a sub-step begins. -/
theorem State.before_fixed (s : State) (g : SubStep) (w : MicroInstr) : (Ctx.begin w s).w.Fixed (s.before g w).w :=
  State.before_rel (R := fun a b => a.w.Fixed b.w) (fun c => .refl c.w) (fun h k => h.trans k) w
    (fun g c _ => g.run_fixed w c) s g

theorem State.before_mi (s : State) (g : SubStep) (w : MicroInstr) : (s.before g w).w.mi = w :=
  (s.before_fixed g w).mi

theorem State.before_slot (s : State) (g : SubStep) (w : MicroInstr) : (s.before g w).w.slot = s.cur :=
  (s.before_fixed g w).slot

end Sys2Proof.Machine
end

