-- ==== Sys2Proof/Laws/Clock.lean ====
section
/-! SUPPORT. One whole microinstruction: what `exec` can answer, what the arbiter makes of a completion, and the two ways a
fact about single sub-steps becomes one about the word: as a relation and as an invariant. -/

namespace Sys2Proof.Machine

/-! ### What `exec` can answer -/

/-- A word leaves the state alone (stopped, or stalled by the bus) or executes to its completion. -/
theorem exec_cases {i : Instr} {s t : State} (h : exec i s = .next t) :
    t = s ∨ (s.status = .running ∧ s.stalls i.word = false ∧
      t = (executeNext (Stages.of i.word) (Ctx.begin i.word s)).complete) := by
  rw [exec_eq] at h
  injection h with h
  subst h
  unfold State.clock
  rcases State.andThen_cases s (fun s => if s.stalls i.word then s else
    (executeNext (Stages.of i.word) (Ctx.begin i.word s)).complete) with ⟨hr, e⟩ | ⟨_, e⟩ <;> rw [e]
  · split
    · exact .inl rfl
    · rename_i h
      exact .inr ⟨hr, by simpa using h, rfl⟩
  · exact .inl rfl

/-- The arbiter leaves the state alone, makes the request, or commits a pending switch. -/
theorem Ctx.complete_cases (c : Ctx) :
    c.complete = c.s ∨ c.complete = { c.s with nextTask := c.s.scan } ∨ c.complete = c.s.commitSwitch := by
  unfold Ctx.complete
  rcases State.andThen_cases c.s (fun s => if c.w.taskSwitch then { s with nextTask := s.scan } else s.commitSwitch) with
    ⟨_, e⟩ | ⟨_, e⟩
  · rw [e]
    split
    · exact .inr (.inl rfl)
    · exact .inr (.inr rfl)
  · exact .inl e

/-- A commit changes CUR, NEXT_TASK and FIRST, then runs a hook. -/
theorem State.commitSwitch_hook (s : State) :
    ∃ cur nt fi, State.HookFrame { s with cur := cur, nextTask := nt, first := fi } s.commitSwitch := by
  unfold State.commitSwitch
  split
  · exact ⟨_, _, _, .refl s⟩
  · rename_i n _
    exact ⟨_, _, _, Ctx.hook_hook { s := { s with cur := n, nextTask := none }.setFirst n true, w := Wires.idle n } _⟩

/-! ### From sub-steps to the word -/

/-- A relation that each function of a list keeps while the machine runs holds over the whole list. -/
theorem Ctx.foldl_rel {R : Ctx → Ctx → Prop} (hrefl : ∀ c, R c c) (htrans : ∀ {a b c}, R a b → R b c → R a c)
    (fs : List (Ctx → Ctx)) (h : ∀ f ∈ fs, ∀ c : Ctx, c.s.status = .running → R c (f c)) (c : Ctx) :
    R c (fs.foldl Ctx.andThen c) := by
  induction fs generalizing c with
  | nil => exact hrefl c
  | cons f fs ih =>
    refine htrans ?_ (ih (fun k hk => h k (List.mem_cons_of_mem _ hk)) _)
    rcases Ctx.andThen_cases c f with ⟨hr, e⟩ | ⟨_, e⟩
    · rw [e]; exact h f List.mem_cons_self c hr
    · rw [e]; exact hrefl c

/-- A property that each function of a list keeps while the machine runs holds after the whole list. -/
theorem Ctx.foldl_inv {P : Ctx → Prop} (fs : List (Ctx → Ctx))
    (h : ∀ f ∈ fs, ∀ c : Ctx, P c → c.s.status = .running → P (f c)) (c : Ctx) (hc : P c) : P (fs.foldl Ctx.andThen c) :=
  Ctx.foldl_rel (R := fun a b => P a → P b) (fun _ => id) (fun h k => k ∘ h) fs (fun f hf c hr hp => h f hf c hp hr) c hc

/-- A property that every sub-step keeps holds at the end of the word if it holds at its start. -/
theorem executeNext_inv {P : Ctx → Prop} (w : MicroInstr)
    (h : ∀ (g : SubStep) (c : Ctx), P c → c.s.status = .running → P (g.run (Stages.of w) c)) (c : Ctx) (hc : P c) :
    P (executeNext (Stages.of w) c) :=
  Ctx.foldl_inv _ (fun f hf c hp hr => by obtain ⟨g, rfl⟩ := mem_subSteps hf; exact h g c hp hr) c hc

/-! ### A slot whose variant defines no hook -/

theorem Ctx.hookAt?_free {c : Ctx} (h : c.s.hookFree c.w.slot = true) (site : HookSite) : c.hookAt? site = none := by
  unfold Ctx.hookAt?
  split
  · rfl
  · rename_i v hv
    simp only [Option.map_eq_none_iff, List.find?_eq_none]
    intro r hr
    have := List.all_eq_true.1 h r hr
    simp [hv] at this ⊢
    intro e
    simp [e] at this

theorem Ctx.hook_free {c : Ctx} (h : c.s.hookFree c.w.slot = true) (site : HookSite) : c.hook site = c :=
  Ctx.hook_undefined (Ctx.hookAt?_free h site)

theorem Ctx.hookOr_free {c : Ctx} (h : c.s.hookFree c.w.slot = true) (site : HookSite) (i : FatalInfo) :
    c.hookOr site i = { c with s := c.s.fatal i } :=
  Ctx.hookOr_undefined i (Ctx.hookAt?_free h site)

/-! ### What a sub-step can do to the state -/

/-- A relation on states that no sub-step of the word breaks, loads of T and L apart: it holds over hooks and the bus, and
over any change of the items the other sub-steps write. -/
structure SubStep.Rel (R : State → State → Prop) : Prop where
  refl : ∀ s, R s s
  hook : ∀ {a b : State}, a.HookFrame b → R a b
  update : ∀ (s : State) al cr nm sp rp wp fi mpc bank r sr dc,
    R s { s with aluCarry := al, csRam := cr, nextMod := nm, swModeP := sp, rdRamP := rp, wrtRamP := wp, first := fi
                 mpc := mpc, bank := bank, r := r, sRegs := sr, dnsCarry := dc }

theorem State.fatal_hook {s : State} (h : s.status = .running) (i : FatalInfo) : s.HookFrame (s.fatal i) :=
  ⟨rfl, rfl, rfl, rfl, rfl, rfl, rfl, rfl, rfl, rfl, rfl, rfl, fun _ => h⟩

/-- What any sub-step can do to the state: the loads of T and L are the two cases left to the caller. -/
theorem SubStep.run_rel {R : State → State → Prop} (H : SubStep.Rel R) (w : MicroInstr)
    (loadT : w.lt = true → ∀ (s : State) t cr, R s { s with t := t, crar := cr })
    (g : SubStep) (c : Ctx)
    (loadL : w.ll = true → ∀ (s : State) l m ac, (s.cfg.isRamTask c.w.slot = false → m = s.m) →
      R s { s with l := l, m := m, aluC0 := ac })
    (hr : c.s.status = .running) : R c.s (g.run (Stages.of w) c).s := by
  have up : ∀ s s' : State, (∃ al cr nm sp rp wp fi mpc bank r sr dc, s' = { s with
      aluCarry := al, csRam := cr, nextMod := nm, swModeP := sp, rdRamP := rp, wrtRamP := wp, first := fi
      mpc := mpc, bank := bank, r := r, sRegs := sr, dnsCarry := dc }) → R s s' := by
    rintro s s' ⟨_, _, _, _, _, _, _, _, _, _, _, _, rfl⟩
    exact H.update s _ _ _ _ _ _ _ _ _ _ _ _
  cases g
  case branchBits => exact up _ _ ⟨_, _, _, _, _, _, _, _, _, _, _, _, rfl⟩
  case register => exact H.refl _
  case earlyF2 => exact H.hook (Ctx.hook_hook c _)
  case source =>
    simp only [SubStep.run, selectSource]
    split
    · exact H.refl _
    · show R c.s (sourceTable w.bs c).s
      cases w.bs
      case taskSpecific1 => exact H.hook (Ctx.hookOr_hook (c.withBus 0xFFFF) (.busSource .taskSpecific1) (.fd2 .taskSpecific1 c.w.slot))
      case taskSpecific2 => exact H.hook (Ctx.hookOr_hook (c.withBus 0xFFFF) (.busSource .taskSpecific2) (.fd2 .taskSpecific2 c.w.slot))
      case readMD => exact H.hook (c.s.busReadMD_bus hr).hook
      case readMouse => exact H.hook ⟨rfl, rfl, rfl, rfl, rfl, rfl, rfl, rfl, rfl, rfl, rfl, rfl, id⟩
      all_goals exact H.refl _
  case mask => simp only [SubStep.run, maskConstant]; split <;> exact H.refl _
  case ramRead =>
    simp only [SubStep.run, pendingRead]
    split
    · rcases c.s.readRam_cases with e | e
      · rw [Ctx.andThen_running (by show c.s.readRam.2.status = _; rw [e, hr])]
        show R c.s (c.s.readRam.2.setRdRamP _ _); rw [e]; exact up _ _ ⟨_, _, _, _, _, _, _, _, _, _, _, _, rfl⟩
      · rw [Ctx.andThen_stopped (by show c.s.readRam.2.status ≠ _; rw [e]; simp [State.fatal])]
        show R c.s c.s.readRam.2; rw [e]; exact H.hook (State.fatal_hook hr _)
    · exact H.refl _
  case postBusF2 =>
    simp only [SubStep.run, Sys2Proof.Machine.postBusF2]
    split
    · exact H.hook (Ctx.hook_hook c _)
    · exact H.refl _
  case earlyF1 =>
    simp only [SubStep.run, Sys2Proof.Machine.earlyF1]
    split
    · exact H.hook (Ctx.hook_hook c _)
    · exact H.refl _
  case alu =>
    simp only [SubStep.run, runAlu]; split
    · exact H.hook (State.fatal_hook hr _)
    · exact up _ _ ⟨_, _, _, _, _, _, _, _, _, _, _, _, rfl⟩
  case ramWrite =>
    simp only [SubStep.run, pendingWrite]
    split
    · rcases c.s.writeRam_cases c.w.alu c.s.m with e | e | ⟨b, _, e⟩
      · rw [Ctx.andThen_running (by show (c.s.writeRam _ _).status = _; rw [e, hr])]
        show R c.s ((c.s.writeRam _ _).setWrtRamP _ _); rw [e]; exact up _ _ ⟨_, _, _, _, _, _, _, _, _, _, _, _, rfl⟩
      · rw [Ctx.andThen_stopped (by show (c.s.writeRam _ _).status ≠ _; rw [e]; simp [State.fatal])]
        show R c.s (c.s.writeRam _ _); rw [e]; exact H.hook (State.fatal_hook hr _)
      · rw [Ctx.andThen_running (by show (c.s.writeRam _ _).status = _; rw [e]; exact hr)]
        show R c.s ((c.s.writeRam _ _).setWrtRamP _ _); rw [e]; exact up _ _ ⟨_, _, _, _, _, _, _, _, _, _, _, _, rfl⟩
    · exact H.refl _
  case f1 =>
    show R c.s (f1Table w.f1 c).s
    cases w.f1
    case task => simp only [f1Table, spTask]; split <;> exact H.refl _
    case loadMAR => exact H.hook (c.s.busLoadMAR_bus _ _ _ hr).hook
    case block => exact H.hook (c.s.blockTask_contract _).bus.hook
    all_goals first | exact H.refl _ | exact H.hook (Ctx.hookOr_hook c _ _)
  case f2 =>
    show R c.s (f2Table w.f2 c).s
    cases w.f2
    case busZero => simp only [f2Table, spBusZero]; split <;> exact H.refl _
    case storeMD =>
      simp only [f2Table, spStoreMD]; split
      · exact H.refl _
      · exact H.hook (c.s.busLoadMD_bus _).hook
    all_goals first | exact H.refl _ | exact H.hook (Ctx.hookOr_hook c _ _)
  case shifter =>
    simp only [SubStep.run, runShifter]; split
    · exact up _ _ ⟨_, _, _, _, _, _, _, _, _, _, _, _, rfl⟩
    · exact H.refl _
  case f2Test =>
    show R c.s (f2TestTable w.f2 c).s
    cases w.f2
    case shNeg => simp only [f2TestTable, spShNeg]; split <;> exact H.refl _
    case shZero => simp only [f2TestTable, spShZero]; split <;> exact H.refl _
    all_goals exact H.refl _
  case writeR =>
    simp only [SubStep.run, writeBackR]; split
    · exact up _ _ ⟨_, _, _, _, _, _, _, _, _, _, _, _, rfl⟩
    · exact H.refl _
  case writeS =>
    simp only [SubStep.run, writeBackS]; split
    · exact up _ _ ⟨_, _, _, _, _, _, _, _, _, _, _, _, rfl⟩
    · exact H.refl _
  case loadT =>
    simp only [SubStep.run, Stages.of]; cases h : w.lt
    · exact H.refl _
    · exact loadT h _ _ _
  case loadL =>
    simp only [SubStep.run, Stages.of]; cases h : w.ll
    · exact H.refl _
    · refine loadL h _ _ _ _ ?_
      intro h; rw [if_neg (by simp [h])]
  case afterShift => exact H.hook (Ctx.hook_hook c _)
  case bankSwitch =>
    simp only [SubStep.run, pendingSwitch]; split
    · exact up _ _ ⟨_, _, _, _, _, _, _, _, _, _, _, _, rfl⟩
    · exact H.refl _
  case blockHook =>
    simp only [SubStep.run, Sys2Proof.Machine.blockHook]
    split
    · exact H.hook (Ctx.hook_hook c _)
    · exact H.refl _
  case nextAddress =>
    show R c.s ((if c.w.softResetNow then c.s else c.s.setMpc c.w.slot c.w.successor).setNextMod c.w.slot c.w.nmOut)
    split
    · exact up _ _ ⟨_, _, _, _, _, _, _, _, _, _, _, _, rfl⟩
    · exact up _ _ ⟨_, _, _, _, _, _, _, _, _, _, _, _, rfl⟩
  case clearFirst => exact up _ _ ⟨_, _, _, _, _, _, _, _, _, _, _, _, rfl⟩

end Sys2Proof.Machine
end

