-- ==== Sys2Proof/Laws/PerInstr.lean ====
section
/-! SUPPORT. Statements for all instructions, made per instruction. `Filed`: reading the word of a well-formed instruction
under its leading row gives the instruction back. -/

namespace Sys2Proof.Laws

/-- The word of a well-formed instruction is filed as that instruction. -/
def Filed.Statement (i : Instr) : Prop :=
  i.wf = true → Instr.ofWord i.word = i

theorem lead_of_wf {i : Instr} (h : i.wf = true) : i.word.lead = i.field := by
  simpa [Instr.wf] using (of_decide_eq_true (by simpa [Instr.wf] using h) : i.field = i.word.lead).symm

theorem Filed.alufBus (o : AlufOps) : Filed.Statement (.alufBus o) := fun h => by
  rw [Instr.ofWord, lead_of_wf h]; rfl

theorem Filed.alufT (o : AlufOps) : Filed.Statement (.alufT o) := fun h => by
  rw [Instr.ofWord, lead_of_wf h]; rfl

theorem Filed.alufBusOrT (o : AlufOps) : Filed.Statement (.alufBusOrT o) := fun h => by
  rw [Instr.ofWord, lead_of_wf h]; rfl

theorem Filed.alufBusAndT (o : AlufOps) : Filed.Statement (.alufBusAndT o) := fun h => by
  rw [Instr.ofWord, lead_of_wf h]; rfl

theorem Filed.alufBusXorT (o : AlufOps) : Filed.Statement (.alufBusXorT o) := fun h => by
  rw [Instr.ofWord, lead_of_wf h]; rfl

theorem Filed.alufBusPlus1 (o : AlufOps) : Filed.Statement (.alufBusPlus1 o) := fun h => by
  rw [Instr.ofWord, lead_of_wf h]; rfl

theorem Filed.alufBusMinus1 (o : AlufOps) : Filed.Statement (.alufBusMinus1 o) := fun h => by
  rw [Instr.ofWord, lead_of_wf h]; rfl

theorem Filed.alufBusPlusT (o : AlufOps) : Filed.Statement (.alufBusPlusT o) := fun h => by
  rw [Instr.ofWord, lead_of_wf h]; rfl

theorem Filed.alufBusMinusT (o : AlufOps) : Filed.Statement (.alufBusMinusT o) := fun h => by
  rw [Instr.ofWord, lead_of_wf h]; rfl

theorem Filed.alufBusMinusTMinus1 (o : AlufOps) : Filed.Statement (.alufBusMinusTMinus1 o) := fun h => by
  rw [Instr.ofWord, lead_of_wf h]; rfl

theorem Filed.alufBusPlusTPlus1 (o : AlufOps) : Filed.Statement (.alufBusPlusTPlus1 o) := fun h => by
  rw [Instr.ofWord, lead_of_wf h]; rfl

theorem Filed.alufBusPlusSkip (o : AlufOps) : Filed.Statement (.alufBusPlusSkip o) := fun h => by
  rw [Instr.ofWord, lead_of_wf h]; rfl

theorem Filed.alufBusDotT (o : AlufOps) : Filed.Statement (.alufBusDotT o) := fun h => by
  rw [Instr.ofWord, lead_of_wf h]; rfl

theorem Filed.alufBusAndNotT (o : AlufOps) : Filed.Statement (.alufBusAndNotT o) := fun h => by
  rw [Instr.ofWord, lead_of_wf h]; rfl

theorem Filed.alufUndef14 (o : AlufOps) : Filed.Statement (.alufUndef14 o) := fun h => by
  rw [Instr.ofWord, lead_of_wf h]; rfl

theorem Filed.alufUndef15 (o : AlufOps) : Filed.Statement (.alufUndef15 o) := fun h => by
  rw [Instr.ofWord, lead_of_wf h]; rfl

theorem Filed.bsReadR (o : BsOps) : Filed.Statement (.bsReadR o) := fun h => by
  rw [Instr.ofWord, lead_of_wf h]; rfl

theorem Filed.bsLoadR (o : BsOps) : Filed.Statement (.bsLoadR o) := fun h => by
  rw [Instr.ofWord, lead_of_wf h]; rfl

theorem Filed.bsNoSource (o : BsOps) : Filed.Statement (.bsNoSource o) := fun h => by
  rw [Instr.ofWord, lead_of_wf h]; rfl

theorem Filed.bsTaskSpecific1 (o : BsOps) : Filed.Statement (.bsTaskSpecific1 o) := fun h => by
  rw [Instr.ofWord, lead_of_wf h]; rfl

theorem Filed.bsTaskSpecific2 (o : BsOps) : Filed.Statement (.bsTaskSpecific2 o) := fun h => by
  rw [Instr.ofWord, lead_of_wf h]; rfl

theorem Filed.bsReadMD (o : BsOps) : Filed.Statement (.bsReadMD o) := fun h => by
  rw [Instr.ofWord, lead_of_wf h]; rfl

theorem Filed.bsReadMouse (o : BsOps) : Filed.Statement (.bsReadMouse o) := fun h => by
  rw [Instr.ofWord, lead_of_wf h]; rfl

theorem Filed.bsReadDisp (o : BsOps) : Filed.Statement (.bsReadDisp o) := fun h => by
  rw [Instr.ofWord, lead_of_wf h]; rfl

theorem Filed.f1Nop (o : F1Ops) : Filed.Statement (.f1Nop o) := fun h => by
  rw [Instr.ofWord, lead_of_wf h]; rfl

theorem Filed.f1LoadMAR (o : F1Ops) : Filed.Statement (.f1LoadMAR o) := fun h => by
  rw [Instr.ofWord, lead_of_wf h]; rfl

theorem Filed.f1Task (o : F1Ops) : Filed.Statement (.f1Task o) := fun h => by
  rw [Instr.ofWord, lead_of_wf h]; rfl

theorem Filed.f1Block (o : F1Ops) : Filed.Statement (.f1Block o) := fun h => by
  rw [Instr.ofWord, lead_of_wf h]; rfl

theorem Filed.f1Llsh1 (o : F1Ops) : Filed.Statement (.f1Llsh1 o) := fun h => by
  rw [Instr.ofWord, lead_of_wf h]; rfl

theorem Filed.f1Lrsh1 (o : F1Ops) : Filed.Statement (.f1Lrsh1 o) := fun h => by
  rw [Instr.ofWord, lead_of_wf h]; rfl

theorem Filed.f1Llcy8 (o : F1Ops) : Filed.Statement (.f1Llcy8 o) := fun h => by
  rw [Instr.ofWord, lead_of_wf h]; rfl

theorem Filed.f1Constant (o : F1Ops) : Filed.Statement (.f1Constant o) := fun h => by
  rw [Instr.ofWord, lead_of_wf h]; rfl

theorem Filed.f1Ts8 (o : F1Ops) : Filed.Statement (.f1Ts8 o) := fun h => by
  rw [Instr.ofWord, lead_of_wf h]; rfl

theorem Filed.f1Ts9 (o : F1Ops) : Filed.Statement (.f1Ts9 o) := fun h => by
  rw [Instr.ofWord, lead_of_wf h]; rfl

theorem Filed.f1Ts10 (o : F1Ops) : Filed.Statement (.f1Ts10 o) := fun h => by
  rw [Instr.ofWord, lead_of_wf h]; rfl

theorem Filed.f1Ts11 (o : F1Ops) : Filed.Statement (.f1Ts11 o) := fun h => by
  rw [Instr.ofWord, lead_of_wf h]; rfl

theorem Filed.f1Ts12 (o : F1Ops) : Filed.Statement (.f1Ts12 o) := fun h => by
  rw [Instr.ofWord, lead_of_wf h]; rfl

theorem Filed.f1Ts13 (o : F1Ops) : Filed.Statement (.f1Ts13 o) := fun h => by
  rw [Instr.ofWord, lead_of_wf h]; rfl

theorem Filed.f1Ts14 (o : F1Ops) : Filed.Statement (.f1Ts14 o) := fun h => by
  rw [Instr.ofWord, lead_of_wf h]; rfl

theorem Filed.f1Ts15 (o : F1Ops) : Filed.Statement (.f1Ts15 o) := fun h => by
  rw [Instr.ofWord, lead_of_wf h]; rfl

theorem Filed.f2Nop (o : F2Ops) : Filed.Statement (.f2Nop o) := fun h => by
  rw [Instr.ofWord, lead_of_wf h]; rfl

theorem Filed.f2BusZero (o : F2Ops) : Filed.Statement (.f2BusZero o) := fun h => by
  rw [Instr.ofWord, lead_of_wf h]; rfl

theorem Filed.f2ShNeg (o : F2Ops) : Filed.Statement (.f2ShNeg o) := fun h => by
  rw [Instr.ofWord, lead_of_wf h]; rfl

theorem Filed.f2ShZero (o : F2Ops) : Filed.Statement (.f2ShZero o) := fun h => by
  rw [Instr.ofWord, lead_of_wf h]; rfl

theorem Filed.f2Bus (o : F2Ops) : Filed.Statement (.f2Bus o) := fun h => by
  rw [Instr.ofWord, lead_of_wf h]; rfl

theorem Filed.f2AluCy (o : F2Ops) : Filed.Statement (.f2AluCy o) := fun h => by
  rw [Instr.ofWord, lead_of_wf h]; rfl

theorem Filed.f2StoreMD (o : F2Ops) : Filed.Statement (.f2StoreMD o) := fun h => by
  rw [Instr.ofWord, lead_of_wf h]; rfl

theorem Filed.f2Constant (o : F2Ops) : Filed.Statement (.f2Constant o) := fun h => by
  rw [Instr.ofWord, lead_of_wf h]; rfl

theorem Filed.f2Ts8 (o : F2Ops) : Filed.Statement (.f2Ts8 o) := fun h => by
  rw [Instr.ofWord, lead_of_wf h]; rfl

theorem Filed.f2Ts9 (o : F2Ops) : Filed.Statement (.f2Ts9 o) := fun h => by
  rw [Instr.ofWord, lead_of_wf h]; rfl

theorem Filed.f2Ts10 (o : F2Ops) : Filed.Statement (.f2Ts10 o) := fun h => by
  rw [Instr.ofWord, lead_of_wf h]; rfl

theorem Filed.f2Ts11 (o : F2Ops) : Filed.Statement (.f2Ts11 o) := fun h => by
  rw [Instr.ofWord, lead_of_wf h]; rfl

theorem Filed.f2Ts12 (o : F2Ops) : Filed.Statement (.f2Ts12 o) := fun h => by
  rw [Instr.ofWord, lead_of_wf h]; rfl

theorem Filed.f2Ts13 (o : F2Ops) : Filed.Statement (.f2Ts13 o) := fun h => by
  rw [Instr.ofWord, lead_of_wf h]; rfl

theorem Filed.f2Ts14 (o : F2Ops) : Filed.Statement (.f2Ts14 o) := fun h => by
  rw [Instr.ofWord, lead_of_wf h]; rfl

theorem Filed.f2Ts15 (o : F2Ops) : Filed.Statement (.f2Ts15 o) := fun h => by
  rw [Instr.ofWord, lead_of_wf h]; rfl

theorem Filed.lt (o : LtOps) : Filed.Statement (.lt o) := fun h => by
  rw [Instr.ofWord, lead_of_wf h]; rfl

theorem Filed.ll (o : LlOps) : Filed.Statement (.ll o) := fun h => by
  rw [Instr.ofWord, lead_of_wf h]; rfl

end Sys2Proof.Laws
end

