-- ==== Sys2Proof/Laws/SoftReset.lean ====
section
/-! SUPPORT. What a soft reset and a hook do to the micro-program counters (R318, R403): a soft reset leaves MPC of every
present slot at the slot's number, and nothing else a hook does writes an MPC. -/

namespace Sys2Proof.Machine

theorem State.BusFrame.mpc {a b : State} (h : a.BusFrame b) : b.mpc = a.mpc := by
  obtain ⟨_, _, _, _, _, _, _, _, _, _, _, _, _, _, _, rfl, _⟩ := h
  rfl

/-- MPC of every present slot is the slot's number; every other is as it was. -/
def State.MpcReset (a b : State) : Prop :=
  ∀ u, (a.cfg.present u = true → rd b.mpc u = BitVec.ofNat 10 u.val) ∧ (a.cfg.present u = false → rd b.mpc u = rd a.mpc u)

/-- Each MPC is as it was, or it is the number of its slot, a present one. -/
def State.MpcKept (a b : State) : Prop :=
  ∀ u, rd b.mpc u = rd a.mpc u ∨ (a.cfg.present u = true ∧ rd b.mpc u = BitVec.ofNat 10 u.val)

theorem State.MpcKept.refl (s : State) : s.MpcKept s :=
  fun _ => .inl rfl

theorem State.MpcReset.kept {a b : State} (h : a.MpcReset b) : a.MpcKept b := by
  intro u
  cases hp : a.cfg.present u
  · exact .inl ((h u).2 hp)
  · exact .inr ⟨rfl, (h u).1 hp⟩

theorem State.MpcKept.trans {a b c : State} (e : b.cfg = a.cfg) (h : a.MpcKept b) (k : b.MpcKept c) : a.MpcKept c := by
  intro u
  rcases k u with k | ⟨kp, k⟩
  · rcases h u with h | ⟨hp, h⟩
    · exact .inl (k.trans h)
    · exact .inr ⟨hp, k.trans h⟩
  · exact .inr ⟨e ▸ kp, k⟩

/-- A soft reset that an `onSoftReset` hook calls keeps the MPCs so, unless it ends in a fatal error. -/
def Ctx.CallKeepsMpc (call : Nat → Ctx → Ctx) : Prop :=
  ∀ (n : Nat) (c : Ctx), (call n c).s.status = .running → c.s.MpcKept (call n c).s

/-- What a hook does to the MPCs, unless it ends in a fatal error: nothing, or a soft reset, which it then has said. -/
def Ctx.MpcHook (c d : Ctx) : Prop :=
  d.s.status = .running →
    (d.s.mpc = c.s.mpc ∧ d.w.softResetNow = c.w.softResetNow) ∨ (d.w.softResetNow = true ∧ c.s.MpcReset d.s)

theorem Ctx.MpcHook.trans {a b c : Ctx} (f : a.s.HookFrame b.s) (g : b.s.HookFrame c.s) (h : a.MpcHook b)
    (k : b.MpcHook c) : a.MpcHook c := by
  intro hr
  rcases k hr with ⟨k1, k2⟩ | ⟨k1, k2⟩ <;> rcases h (g.running hr) with ⟨h1, h2⟩ | ⟨h1, h2⟩
  · exact .inl ⟨k1.trans h1, k2.trans h2⟩
  · exact .inr ⟨k2.trans h1, fun u => k1 ▸ h2 u⟩
  · exact .inr ⟨k1, fun u => h1 ▸ f.cfg ▸ k2 u⟩
  · refine .inr ⟨k1, fun u => ⟨fun hp => (k2 u).1 (f.cfg.symm ▸ hp), fun hp => ?_⟩⟩
    exact ((k2 u).2 (f.cfg.symm ▸ hp)).trans ((h2 u).2 hp)

/-! ### From single acts to a hook -/

theorem Ctx.basicAct_mpc (c : Ctx) (h : c.s.status = .running) (a : HookAct) :
    (c.basicAct a).s.mpc = c.s.mpc ∧ (c.basicAct a).w.softResetNow = c.w.softResetNow := by
  cases a with
  | loadMAR v xm => exact ⟨(c.s.busLoadMAR_bus _ _ _ h).mpc, rfl⟩
  | readMD => exact ⟨(c.s.busReadMD_bus h).mpc, rfl⟩
  | loadMD v => exact ⟨(c.s.busLoadMD_bus _).mpc, rfl⟩
  | wakeupTask t => exact ⟨(c.s.wakeupTask_contract t).bus.mpc, rfl⟩
  | blockTask t => exact ⟨(c.s.blockTask_contract t).bus.mpc, rfl⟩
  | _ => exact ⟨rfl, rfl⟩

/-- A relation that every act has, and that holds where the MPCs stay, holds of the whole hook. -/
theorem Ctx.runActsWith_rel {call : Nat → Ctx → Ctx} (hf : Ctx.CallFrame call) {R : Ctx → Ctx → Prop}
    (same : ∀ {c d : Ctx}, d.s.mpc = c.s.mpc → d.w.softResetNow = c.w.softResetNow → R c d)
    (trans : ∀ {a b c : Ctx}, a.s.HookFrame b.s → b.s.HookFrame c.s → R a b → R b c → R a c)
    (soft : ∀ (n : Nat) (c : Ctx), R c (call n c).raiseSoftReset) (c : Ctx) (site : HookSite) (d : Variant × HookEntry) :
    R c (c.runActsWith call site d) := by
  have rest := Ctx.acts_hook (Ctx.actWith call) fun c a h => c.actWith_hook hf h a
  have acts : ∀ (as : List HookAct) (c : Ctx), R c (as.foldl (fun (c : Ctx) a => c.andThen fun c => c.actWith call a) c) := by
    intro as
    induction as with
    | nil => exact fun _ => same rfl rfl
    | cons a as ih =>
      intro c
      rw [List.foldl_cons]
      rcases Ctx.andThen_cases c (fun c => c.actWith call a) with ⟨hr, e⟩ | ⟨_, e⟩ <;> rw [e]
      · refine trans (c.actWith_hook hf hr a) (rest _ _) ?_ (ih _)
        unfold Ctx.actWith
        split
        · exact soft _ c
        · exact same (c.basicAct_mpc hr a).1 (c.basicAct_mpc hr a).2
      · exact ih c
  have count := (c.s.countHook_contract d).bus
  exact trans (b := { s := c.s.countHook d, w := { c.w with md := 0 } }) count.hook (rest _ _) (same count.mpc rfl) (acts _ _)

/-- An `onSoftReset` hook keeps the MPCs so. -/
theorem Ctx.runActsWith_kept {call : Nat → Ctx → Ctx} (hc : Ctx.CallKeepsMpc call) (hf : Ctx.CallFrame call) (c : Ctx)
    (site : HookSite) (d : Variant × HookEntry) :
    (c.runActsWith call site d).s.status = .running → c.s.MpcKept (c.runActsWith call site d).s :=
  Ctx.runActsWith_rel (R := fun c d => d.s.status = .running → c.s.MpcKept d.s) hf
    (fun e _ _ u => .inl (congrArg (rd · u) e)) (fun f g h k hr => (h (g.running hr)).trans f.cfg (k hr))
    (fun n c hr => hc n c hr) c site d

/-! ### Soft reset -/

theorem Ctx.softResetHook_mpc {call : Nat → Ctx → Ctx} (hc : Ctx.CallKeepsMpc call) (hf : Ctx.CallFrame call) (c : Ctx) (t : Slot) :
    (c.softResetHook call t).w.softResetNow = c.w.softResetNow ∧
      ((c.softResetHook call t).s.status = .running → c.s.MpcKept (c.softResetHook call t).s) := by
  unfold Ctx.softResetHook
  split
  · exact ⟨rfl, fun _ => .refl _⟩
  · refine ⟨rfl, fun hr => ?_⟩
    exact Ctx.runActsWith_kept hc hf { s := c.s, w := c.w.inReset t } .onSoftReset _ hr

theorem Ctx.softResetSlot_mpc {call : Nat → Ctx → Ctx} (hc : Ctx.CallKeepsMpc call) (hf : Ctx.CallFrame call) (c : Ctx) (t : Slot) :
    (c.softResetSlot call t).w.softResetNow = c.w.softResetNow ∧
      ((c.softResetSlot call t).s.status = .running → c.s.MpcKept (c.softResetSlot call t).s ∧
        (c.s.cfg.present t = true → rd (c.softResetSlot call t).s.mpc t = BitVec.ofNat 10 t.val)) := by
  unfold Ctx.softResetSlot
  rcases Ctx.andThen_cases c (fun c => if c.s.cfg.present t then
      (c.softResetHook call t).andThen fun c => { c with s := c.s.setMpc t (BitVec.ofNat 10 t.val) } else c)
    with ⟨_, e⟩ | ⟨hr, e⟩
  · rw [e]
    by_cases hp : c.s.cfg.present t = true
    · rw [if_pos hp]
      obtain ⟨k1, k2⟩ := c.softResetHook_mpc hc hf t
      rcases Ctx.andThen_cases (c.softResetHook call t)
        (fun c => { c with s := c.s.setMpc t (BitVec.ofNat 10 t.val) }) with ⟨hr, e⟩ | ⟨hr, e⟩
      · rw [e]
        refine ⟨k1, fun _ => ⟨fun u => ?_, fun _ => rd_wr_self _ _ _⟩⟩
        by_cases hu : u = t
        · exact .inr ⟨hu ▸ hp, hu ▸ rd_wr_self _ _ _⟩
        · have other := rd_wr_other (c.softResetHook call t).s.mpc (BitVec.ofNat 10 t.val) (Ne.symm hu)
          exact (k2 hr u).imp other.trans fun h => ⟨h.1, other.trans h.2⟩
      · rw [e]
        exact ⟨k1, fun h => absurd h hr⟩
    · rw [if_neg hp]
      exact ⟨rfl, fun _ => ⟨.refl _, fun h => absurd h hp⟩⟩
  · rw [e]
    exact ⟨rfl, fun h => absurd h hr⟩

theorem Ctx.softResetSlots_mpc {call : Nat → Ctx → Ctx} (hc : Ctx.CallKeepsMpc call) (hf : Ctx.CallFrame call) (ts : List Slot)
    (c : Ctx) : (ts.foldl (Ctx.softResetSlot call) c).w.softResetNow = c.w.softResetNow ∧
      ((ts.foldl (Ctx.softResetSlot call) c).s.status = .running →
        c.s.MpcKept (ts.foldl (Ctx.softResetSlot call) c).s ∧
        ∀ t ∈ ts, c.s.cfg.present t = true →
          rd (ts.foldl (Ctx.softResetSlot call) c).s.mpc t = BitVec.ofNat 10 t.val) := by
  induction ts generalizing c with
  | nil => exact ⟨rfl, fun _ => ⟨.refl _, fun _ h => nomatch h⟩⟩
  | cons a ts ih =>
    rw [List.foldl_cons]
    obtain ⟨i1, i2⟩ := ih (c.softResetSlot call a)
    obtain ⟨a1, a2⟩ := c.softResetSlot_mpc hc hf a
    have e := (c.softResetSlot_hook hf a).cfg
    refine ⟨i1.trans a1, fun hr => ?_⟩
    obtain ⟨j1, j2⟩ := i2 hr
    obtain ⟨b1, b2⟩ := a2 ((Ctx.softResetSlots_hook hf ts (c.softResetSlot call a)).running hr)
    refine ⟨b1.trans e j1, fun t ht hp => ?_⟩
    rcases List.mem_cons.1 ht with rfl | ht
    · rcases j1 t with j | j
      · exact j.trans (b2 hp)
      · exact j.2
    · exact j2 t ht (e.symm ▸ hp)

theorem State.softResetRestart_mpc (s : State) : s.softResetRestart.mpc = s.mpc := by
  have banks : ∀ (ts : List Slot) (s : State), (ts.foldl State.softResetBank s).mpc = s.mpc := by
    intro ts
    induction ts with
    | nil => exact fun _ => rfl
    | cons t ts ih => exact fun s => ih (s.softResetBank t)
  unfold State.softResetRestart
  dsimp only
  rw [banks]

theorem mem_slotsUp (u : Slot) : u ∈ slotsUp := by
  revert u
  decide

/-- A soft reset that comes to its end leaves MPC of every present slot at the slot's number (R403). -/
theorem Ctx.softResetWith_mpc {call : Nat → Ctx → Ctx} (hc : Ctx.CallKeepsMpc call) (hf : Ctx.CallFrame call) (c : Ctx)
    (hr : (c.softResetWith call).s.status = .running) :
    c.s.MpcReset (c.softResetWith call).s ∧ (c.softResetWith call).w.softResetNow = c.w.softResetNow := by
  obtain ⟨k1, k2⟩ := Ctx.softResetSlots_mpc hc hf slotsUp c
  unfold Ctx.softResetWith at hr ⊢
  generalize slotsUp.foldl (Ctx.softResetSlot call) c = x at *
  have r2 := (Ctx.andThen_hook _ (State.softResetAdjust_contract _).bus.hook).running hr
  have r1 := (Ctx.andThen_hook x (f := fun c => { c with s := c.s.softResetRestart })
    (State.softResetRestart_hook _)).running r2
  rw [Ctx.andThen_running r2, Ctx.andThen_running r1]
  have e : x.s.softResetRestart.softResetAdjust.mpc = x.s.mpc :=
    (State.softResetAdjust_contract _).bus.mpc.trans x.s.softResetRestart_mpc
  obtain ⟨j1, j2⟩ := k2 r1
  refine ⟨fun u => ?_, k1⟩
  dsimp only
  rw [e]
  refine ⟨j2 u (mem_slotsUp u), fun hp => (j1 u).resolve_right fun h => ?_⟩
  rw [hp] at h
  exact Bool.false_ne_true h.1

theorem Ctx.softResetNest_mpc (room : Nat) : Ctx.CallKeepsMpc (Ctx.softResetNest room) := by
  induction room with
  | zero => exact fun _ c _ => .refl c.s
  | succ room ih =>
    intro n c hr
    unfold Ctx.softResetNest at hr ⊢
    split at hr
    · rw [if_pos ‹_›]
      exact ih n c hr
    · rw [if_neg ‹_›]
      exact (c.softResetWith_mpc ih (Ctx.softResetNest_hook room) hr).1.kept

/-- A soft reset leaves MPC of every present slot at the slot's number, however its hooks nest (R403). -/
theorem Ctx.softReset_mpc (c : Ctx) (hr : c.softReset.s.status = .running) :
    c.s.MpcReset c.softReset.s ∧ c.softReset.w.softResetNow = c.w.softResetNow :=
  c.softResetWith_mpc (fun n => Ctx.softResetNest_mpc (n + 1) n) (fun n => Ctx.softResetNest_hook (n + 1) n) hr

/-- A defined hook leaves the MPCs alone, or has raised `soft_reset_now` and left those of a soft reset. -/
theorem Ctx.runActs_mpc (c : Ctx) (site : HookSite) (d : Variant × HookEntry) : c.MpcHook (c.runActs site d) :=
  Ctx.runActsWith_rel (fun _ => Ctx.softReset_hook) (fun e k _ => .inl ⟨e, k⟩) Ctx.MpcHook.trans
    (fun _ c hr => .inr ⟨rfl, (c.softReset_mpc hr).1⟩) c site d

theorem Ctx.hook_mpc (c : Ctx) (site : HookSite) : c.MpcHook (c.hook site) := by
  unfold Ctx.hook
  split
  · exact fun _ => .inl ⟨rfl, rfl⟩
  · exact c.runActs_mpc site _

theorem Ctx.hookOr_mpc (c : Ctx) (site : HookSite) (i : FatalInfo) : c.MpcHook (c.hookOr site i) := by
  unfold Ctx.hookOr
  split
  · exact fun h => nomatch h
  · exact c.runActs_mpc site _

end Sys2Proof.Machine
end

