-- ==== Sys2Proof/Tests/Slice0.lean ====
section
/-! SUPPORT. Tests, each about one step or one operation on a small state. The expected values are those of
`95_test_vectors.md`, whose vector each theorem names, or follow by hand from the rule it cites. The second half gives, for
every statement with hypotheses, concrete states that meet them, clause by clause. -/

namespace Sys2Proof.Tests

open Sys2Proof Sys2Proof.Machine

/-! ### Small states -/

/-- The word whose fields are all 0. -/
def w0 : MicroInstr :=
  { rsel := 0, aluf := .bus, bs := .readR, f1 := .nop, f2 := .nop, lt := false, ll := false, next := 0 }

/-- What `exec` answers on a word. -/
def run (w : MicroWord) (s : State) : State :=
  match exec (decode w) s with
  | .next t => t
  | _ => s

/-- The slot bound to a variant. -/
def bind (t : Slot) (v : Variant) (s : State) : State :=
  { s with cfg := { s.cfg with slots := wr s.cfg.slots t (some v) } }

/-- The constant word given. -/
def const (k : Nat) (w : Word) (s : State) : State :=
  { s with cfg := { s.cfg with constRom := Memory.writeWord s.cfg.constRom k w } }

/-- The hook table given. -/
def hooked (rows : List HookRow) (s : State) : State :=
  { s with cfg := { s.cfg with hooks := rows } }

/-- The timing record given. -/
def timed (m : MemTiming) (s : State) : State :=
  { s with cfg := { s.cfg with memTiming := m } }

/-- A transaction at 0x0400, active at the cycle given. -/
def busy (cycle : Nat) (s : State) : State :=
  { s with busActive := true, busCycle := cycle, busMar := 0x0400 }

/-- The slot given current, as if it had run a word already. -/
def running (t : Slot) (s : State) : State :=
  { s with cur := t, first := Vector.replicate 16 false }

/-- The emulator in slot 0 and the disk-sector task awake in slot 9, which is current. -/
def disk : State :=
  running 9 ((bind 9 .diskSector State.reset).setWakeup 9 true)

/-! ### Well-formedness -/

/-- Log 1: word 0 is filed under `BUS`; read under `ReadR` it is not well formed, and the check refuses it. -/
theorem test_wf_refuses : Instr.wf (.bsReadR w0.bsOps) = false := by decide

/-- The same word read under its leading row is well formed. -/
theorem test_wf_accepts : Instr.wf (.alufBus w0.alufOps) = true := by decide

/-- Log 1: a word that loads L and names an ALU function is filed under the function, not under LL. -/
theorem test_wf_refuses_ll : Instr.wf (.ll ({ w0 with aluf := .t }).llOps) = false := by decide

/-! ### Decoding: words written out from R101 and R116 to R119 -/

/-- The words of a list decode to the instructions beside them. -/
def decodes (l : List (MicroWord × Instr)) : Bool :=
  l.all fun p => decode p.1 == p.2

/-- Every code of ALUF from 0 to 7. -/
theorem test_decode_aluf_low : decodes [
    (0b00101_0000_000_0000_0000_0_0_1000000001, .alufBus { rsel := 5, bs := .readR, f1 := .nop, f2 := .nop, lt := false, ll := false, next := 513 }),
    (0b01100_0001_000_0000_0000_1_0_1001000100, .alufT { rsel := 12, bs := .readR, f1 := .nop, f2 := .nop, lt := true, ll := false, next := 580 }),
    (0b10011_0010_000_0000_0000_0_1_1010000111, .alufBusOrT { rsel := 19, bs := .readR, f1 := .nop, f2 := .nop, lt := false, ll := true, next := 647 }),
    (0b11010_0011_000_0000_0000_1_1_1011001010, .alufBusAndT { rsel := 26, bs := .readR, f1 := .nop, f2 := .nop, lt := true, ll := true, next := 714 }),
    (0b00001_0100_000_0000_0000_0_0_1100001101, .alufBusXorT { rsel := 1, bs := .readR, f1 := .nop, f2 := .nop, lt := false, ll := false, next := 781 }),
    (0b01000_0101_000_0000_0000_1_0_1101010000, .alufBusPlus1 { rsel := 8, bs := .readR, f1 := .nop, f2 := .nop, lt := true, ll := false, next := 848 }),
    (0b01111_0110_000_0000_0000_0_1_1110010011, .alufBusMinus1 { rsel := 15, bs := .readR, f1 := .nop, f2 := .nop, lt := false, ll := true, next := 915 }),
    (0b10110_0111_000_0000_0000_1_1_1111010110, .alufBusPlusT { rsel := 22, bs := .readR, f1 := .nop, f2 := .nop, lt := true, ll := true, next := 982 })] = true := by decide

/-- Every code of ALUF from 8 to 15. -/
theorem test_decode_aluf_high : decodes [
    (0b11101_1000_000_0000_0000_0_0_0000011001, .alufBusMinusT { rsel := 29, bs := .readR, f1 := .nop, f2 := .nop, lt := false, ll := false, next := 25 }),
    (0b00100_1001_000_0000_0000_1_0_0001011100, .alufBusMinusTMinus1 { rsel := 4, bs := .readR, f1 := .nop, f2 := .nop, lt := true, ll := false, next := 92 }),
    (0b01011_1010_000_0000_0000_0_1_0010011111, .alufBusPlusTPlus1 { rsel := 11, bs := .readR, f1 := .nop, f2 := .nop, lt := false, ll := true, next := 159 }),
    (0b10010_1011_000_0000_0000_1_1_0011100010, .alufBusPlusSkip { rsel := 18, bs := .readR, f1 := .nop, f2 := .nop, lt := true, ll := true, next := 226 }),
    (0b11001_1100_000_0000_0000_0_0_0100100101, .alufBusDotT { rsel := 25, bs := .readR, f1 := .nop, f2 := .nop, lt := false, ll := false, next := 293 }),
    (0b00000_1101_000_0000_0000_1_0_0101101000, .alufBusAndNotT { rsel := 0, bs := .readR, f1 := .nop, f2 := .nop, lt := true, ll := false, next := 360 }),
    (0b00111_1110_000_0000_0000_0_1_0110101011, .alufUndef14 { rsel := 7, bs := .readR, f1 := .nop, f2 := .nop, lt := false, ll := true, next := 427 }),
    (0b01110_1111_000_0000_0000_1_1_0111101110, .alufUndef15 { rsel := 14, bs := .readR, f1 := .nop, f2 := .nop, lt := true, ll := true, next := 494 })] = true := by decide

/-- Every code of BS. -/
theorem test_decode_bs : decodes [
    (0b00101_0101_000_0100_0001_0_0_1000000001, .bsReadR { rsel := 5, aluf := .busPlus1, f1 := .llsh1, f2 := .busZero, lt := false, ll := false, next := 513 }),
    (0b01100_0000_001_0000_0000_1_0_1001000100, .bsLoadR { rsel := 12, aluf := .bus, f1 := .nop, f2 := .nop, lt := true, ll := false, next := 580 }),
    (0b10011_0000_010_0000_0000_0_1_1010000111, .bsNoSource { rsel := 19, aluf := .bus, f1 := .nop, f2 := .nop, lt := false, ll := true, next := 647 }),
    (0b11010_0000_011_0000_0000_1_1_1011001010, .bsTaskSpecific1 { rsel := 26, aluf := .bus, f1 := .nop, f2 := .nop, lt := true, ll := true, next := 714 }),
    (0b00001_0000_100_0000_0000_0_0_1100001101, .bsTaskSpecific2 { rsel := 1, aluf := .bus, f1 := .nop, f2 := .nop, lt := false, ll := false, next := 781 }),
    (0b01000_0000_101_0000_0000_1_0_1101010000, .bsReadMD { rsel := 8, aluf := .bus, f1 := .nop, f2 := .nop, lt := true, ll := false, next := 848 }),
    (0b01111_0000_110_0000_0000_0_1_1110010011, .bsReadMouse { rsel := 15, aluf := .bus, f1 := .nop, f2 := .nop, lt := false, ll := true, next := 915 }),
    (0b10110_0000_111_0000_0000_1_1_1111010110, .bsReadDisp { rsel := 22, aluf := .bus, f1 := .nop, f2 := .nop, lt := true, ll := true, next := 982 })] = true := by decide

/-- Every code of F1 from 0 to 7. -/
theorem test_decode_f1_low : decodes [
    (0b00101_0101_010_0000_0001_0_0_1000000001, .f1Nop { rsel := 5, aluf := .busPlus1, bs := .noSource, f2 := .busZero, lt := false, ll := false, next := 513 }),
    (0b01100_0000_000_0001_0000_1_0_1001000100, .f1LoadMAR { rsel := 12, aluf := .bus, bs := .readR, f2 := .nop, lt := true, ll := false, next := 580 }),
    (0b10011_0000_000_0010_0000_0_1_1010000111, .f1Task { rsel := 19, aluf := .bus, bs := .readR, f2 := .nop, lt := false, ll := true, next := 647 }),
    (0b11010_0000_000_0011_0000_1_1_1011001010, .f1Block { rsel := 26, aluf := .bus, bs := .readR, f2 := .nop, lt := true, ll := true, next := 714 }),
    (0b00001_0000_000_0100_0000_0_0_1100001101, .f1Llsh1 { rsel := 1, aluf := .bus, bs := .readR, f2 := .nop, lt := false, ll := false, next := 781 }),
    (0b01000_0000_000_0101_0000_1_0_1101010000, .f1Lrsh1 { rsel := 8, aluf := .bus, bs := .readR, f2 := .nop, lt := true, ll := false, next := 848 }),
    (0b01111_0000_000_0110_0000_0_1_1110010011, .f1Llcy8 { rsel := 15, aluf := .bus, bs := .readR, f2 := .nop, lt := false, ll := true, next := 915 }),
    (0b10110_0000_000_0111_0000_1_1_1111010110, .f1Constant { rsel := 22, aluf := .bus, bs := .readR, f2 := .nop, lt := true, ll := true, next := 982 })] = true := by decide

/-- Every code of F1 from 8 to 15. -/
theorem test_decode_f1_high : decodes [
    (0b11101_0000_000_1000_0000_0_0_0000011001, .f1Ts8 { rsel := 29, aluf := .bus, bs := .readR, f2 := .nop, lt := false, ll := false, next := 25 }),
    (0b00100_0000_000_1001_0000_1_0_0001011100, .f1Ts9 { rsel := 4, aluf := .bus, bs := .readR, f2 := .nop, lt := true, ll := false, next := 92 }),
    (0b01011_0000_000_1010_0000_0_1_0010011111, .f1Ts10 { rsel := 11, aluf := .bus, bs := .readR, f2 := .nop, lt := false, ll := true, next := 159 }),
    (0b10010_0000_000_1011_0000_1_1_0011100010, .f1Ts11 { rsel := 18, aluf := .bus, bs := .readR, f2 := .nop, lt := true, ll := true, next := 226 }),
    (0b11001_0000_000_1100_0000_0_0_0100100101, .f1Ts12 { rsel := 25, aluf := .bus, bs := .readR, f2 := .nop, lt := false, ll := false, next := 293 }),
    (0b00000_0000_000_1101_0000_1_0_0101101000, .f1Ts13 { rsel := 0, aluf := .bus, bs := .readR, f2 := .nop, lt := true, ll := false, next := 360 }),
    (0b00111_0000_000_1110_0000_0_1_0110101011, .f1Ts14 { rsel := 7, aluf := .bus, bs := .readR, f2 := .nop, lt := false, ll := true, next := 427 }),
    (0b01110_0000_000_1111_0000_1_1_0111101110, .f1Ts15 { rsel := 14, aluf := .bus, bs := .readR, f2 := .nop, lt := true, ll := true, next := 494 })] = true := by decide

/-- Every code of F2 from 0 to 7. -/
theorem test_decode_f2_low : decodes [
    (0b00101_0101_010_0100_0000_0_0_1000000001, .f2Nop { rsel := 5, aluf := .busPlus1, bs := .noSource, f1 := .llsh1, lt := false, ll := false, next := 513 }),
    (0b01100_0000_000_0000_0001_1_0_1001000100, .f2BusZero { rsel := 12, aluf := .bus, bs := .readR, f1 := .nop, lt := true, ll := false, next := 580 }),
    (0b10011_0000_000_0000_0010_0_1_1010000111, .f2ShNeg { rsel := 19, aluf := .bus, bs := .readR, f1 := .nop, lt := false, ll := true, next := 647 }),
    (0b11010_0000_000_0000_0011_1_1_1011001010, .f2ShZero { rsel := 26, aluf := .bus, bs := .readR, f1 := .nop, lt := true, ll := true, next := 714 }),
    (0b00001_0000_000_0000_0100_0_0_1100001101, .f2Bus { rsel := 1, aluf := .bus, bs := .readR, f1 := .nop, lt := false, ll := false, next := 781 }),
    (0b01000_0000_000_0000_0101_1_0_1101010000, .f2AluCy { rsel := 8, aluf := .bus, bs := .readR, f1 := .nop, lt := true, ll := false, next := 848 }),
    (0b01111_0000_000_0000_0110_0_1_1110010011, .f2StoreMD { rsel := 15, aluf := .bus, bs := .readR, f1 := .nop, lt := false, ll := true, next := 915 }),
    (0b10110_0000_000_0000_0111_1_1_1111010110, .f2Constant { rsel := 22, aluf := .bus, bs := .readR, f1 := .nop, lt := true, ll := true, next := 982 })] = true := by decide

/-- Every code of F2 from 8 to 15. -/
theorem test_decode_f2_high : decodes [
    (0b11101_0000_000_0000_1000_0_0_0000011001, .f2Ts8 { rsel := 29, aluf := .bus, bs := .readR, f1 := .nop, lt := false, ll := false, next := 25 }),
    (0b00100_0000_000_0000_1001_1_0_0001011100, .f2Ts9 { rsel := 4, aluf := .bus, bs := .readR, f1 := .nop, lt := true, ll := false, next := 92 }),
    (0b01011_0000_000_0000_1010_0_1_0010011111, .f2Ts10 { rsel := 11, aluf := .bus, bs := .readR, f1 := .nop, lt := false, ll := true, next := 159 }),
    (0b10010_0000_000_0000_1011_1_1_0011100010, .f2Ts11 { rsel := 18, aluf := .bus, bs := .readR, f1 := .nop, lt := true, ll := true, next := 226 }),
    (0b11001_0000_000_0000_1100_0_0_0100100101, .f2Ts12 { rsel := 25, aluf := .bus, bs := .readR, f1 := .nop, lt := false, ll := false, next := 293 }),
    (0b00000_0000_000_0000_1101_1_0_0101101000, .f2Ts13 { rsel := 0, aluf := .bus, bs := .readR, f1 := .nop, lt := true, ll := false, next := 360 }),
    (0b00111_0000_000_0000_1110_0_1_0110101011, .f2Ts14 { rsel := 7, aluf := .bus, bs := .readR, f1 := .nop, lt := false, ll := true, next := 427 }),
    (0b01110_0000_000_0000_1111_1_1_0111101110, .f2Ts15 { rsel := 14, aluf := .bus, bs := .readR, f1 := .nop, lt := true, ll := true, next := 494 })] = true := by decide

/-- LT and LL. -/
theorem test_decode_loads : decodes [
    (0b11111_0000_000_0000_0000_1_1_1111111111, .lt { rsel := 31, aluf := .bus, bs := .readR, f1 := .nop, f2 := .nop, ll := true, next := 1023 }),
    (0b10000_0000_000_0000_0000_0_1_1000000000, .ll { rsel := 16, aluf := .bus, bs := .readR, f1 := .nop, f2 := .nop, lt := false, next := 512 })] = true := by decide

/-- The fields and the metadata of one row of the decoder's vectors. -/
def decoderRow (w : MicroWord) (codes : List Nat) (sf acc : Bool) (op : Option MemOp) (sh fromAlu : Bool) (addr : Nat) : Bool :=
  let m := decodeFields w
  [m.rsel.toNat, m.aluf.code.toNat, m.bs.code.toNat, m.f1.code.toNat, m.f2.code.toNat, m.lt.toNat, m.ll.toNat,
    m.next.toNat] == codes &&
    m.constSf == sf && m.constAccess == acc && m.memOp == op && m.needShifter == sh && m.aluf.loadTFromAlu == fromAlu &&
    m.constAddr.toNat == addr && encode (decode w) == w

/-- VD1 to VD16. -/
theorem test_decoder_vectors :
    decoderRow 0x2BD10000 [5, 7, 5, 1, 0, 0, 0, 0] false true (some .loadAddress) false false 45 = true ∧
    decoderRow 0x00000000 [0, 0, 0, 0, 0, 0, 0, 0] false false none false true 0 = true ∧
    decoderRow 0xFFFFFFFF [31, 15, 7, 15, 15, 1, 1, 1023] false true none false false 255 = true ∧
    decoderRow 0x08507000 [1, 0, 5, 0, 7, 0, 0, 0] true true none false true 13 = true ∧
    decoderRow 0x001423FF [0, 0, 1, 4, 2, 0, 0, 1023] false false none true true 1 = true ∧
    decoderRow 0x00016000 [0, 0, 0, 1, 6, 0, 0, 0] false false (some .loadAddress) false true 0 = true ∧
    decoderRow 0x00506000 [0, 0, 5, 0, 6, 0, 0, 0] false true (some .read) false true 5 = true ∧
    decoderRow 0x00006000 [0, 0, 0, 0, 6, 0, 0, 0] false false (some .store) false true 0 = true ∧
    decoderRow 0x06000800 [0, 12, 0, 0, 0, 1, 0, 0] false false none false true 0 = true ∧
    decoderRow 0x01800800 [0, 3, 0, 0, 0, 1, 0, 0] false false none false false 0 = true ∧
    decoderRow 0xF8400000 [31, 0, 4, 0, 0, 0, 0, 0] false true none false true 252 = true ∧
    decoderRow 0x10170401 [2, 0, 1, 7, 0, 0, 1, 1] true true none true true 17 = true ∧
    decoderRow 0x80000000 [16, 0, 0, 0, 0, 0, 0, 0] false false none false true 128 = true ∧
    decoderRow 0x00000400 [0, 0, 0, 0, 0, 0, 1, 0] false false none false true 0 = true ∧
    decoderRow 0x00000800 [0, 0, 0, 0, 0, 1, 0, 0] false false none false true 0 = true ∧
    decoderRow 0x00088400 [0, 0, 0, 8, 8, 0, 1, 0] false false none false true 0 = true := by decide

/-- Log 5: the decoder reads a cell's four bytes with the least significant at the lowest address (word VD1), and rejects
fewer. -/
theorem test_decode_bytes :
    decodeBytes [0x00, 0x00, 0xD1, 0x2B] = .ok (decode 0x2BD10000, []) ∧ decodeBytes [0x00, 0x00, 0xD1] = .error .truncated :=
  ⟨by decide, by decide⟩

/-! ### The ALU -/

/-- A function gives the result and the carry of every row: bus, T, SKIP, result, carry. -/
def aluRows (f : AluFn) (l : List (Word × Word × Bool × Word × Bool)) : Bool :=
  l.all fun v => aluTable f v.1 v.2.1 v.2.2.1 == some { result := v.2.2.2.1, carry := v.2.2.2.2 }

/-- VA1 to VA8. -/
theorem test_alu_bus : aluRows .bus [
    (0x0000, 0x0000, false, 0x0000, false), (0xFFFF, 0x0001, false, 0xFFFF, false),
    (0xFFFF, 0xFFFF, true, 0xFFFF, false), (0x0000, 0x0001, true, 0x0000, false),
    (0x8000, 0x8000, false, 0x8000, false), (0x7FFF, 0x0001, true, 0x7FFF, false),
    (0x1234, 0x0FF0, false, 0x1234, false), (0x0000, 0xFFFF, false, 0x0000, false)] = true := by decide

/-- VA9 to VA16. -/
theorem test_alu_t : aluRows .t [
    (0x0000, 0x0000, false, 0x0000, false), (0xFFFF, 0x0001, false, 0x0001, false),
    (0xFFFF, 0xFFFF, true, 0xFFFF, false), (0x0000, 0x0001, true, 0x0001, false),
    (0x8000, 0x8000, false, 0x8000, false), (0x7FFF, 0x0001, true, 0x0001, false),
    (0x1234, 0x0FF0, false, 0x0FF0, false), (0x0000, 0xFFFF, false, 0xFFFF, false)] = true := by decide

/-- VA17 to VA24. -/
theorem test_alu_busOrT : aluRows .busOrT [
    (0x0000, 0x0000, false, 0x0000, false), (0xFFFF, 0x0001, false, 0xFFFF, false),
    (0xFFFF, 0xFFFF, true, 0xFFFF, false), (0x0000, 0x0001, true, 0x0001, false),
    (0x8000, 0x8000, false, 0x8000, false), (0x7FFF, 0x0001, true, 0x7FFF, false),
    (0x1234, 0x0FF0, false, 0x1FF4, false), (0x0000, 0xFFFF, false, 0xFFFF, false)] = true := by decide

/-- VA25 to VA32. -/
theorem test_alu_busAndT : aluRows .busAndT [
    (0x0000, 0x0000, false, 0x0000, false), (0xFFFF, 0x0001, false, 0x0001, false),
    (0xFFFF, 0xFFFF, true, 0xFFFF, false), (0x0000, 0x0001, true, 0x0000, false),
    (0x8000, 0x8000, false, 0x8000, false), (0x7FFF, 0x0001, true, 0x0001, false),
    (0x1234, 0x0FF0, false, 0x0230, false), (0x0000, 0xFFFF, false, 0x0000, false)] = true := by decide

/-- VA33 to VA40. -/
theorem test_alu_busXorT : aluRows .busXorT [
    (0x0000, 0x0000, false, 0x0000, false), (0xFFFF, 0x0001, false, 0xFFFE, false),
    (0xFFFF, 0xFFFF, true, 0x0000, false), (0x0000, 0x0001, true, 0x0001, false),
    (0x8000, 0x8000, false, 0x0000, false), (0x7FFF, 0x0001, true, 0x7FFE, false),
    (0x1234, 0x0FF0, false, 0x1DC4, false), (0x0000, 0xFFFF, false, 0xFFFF, false)] = true := by decide

/-- VA41 to VA48. -/
theorem test_alu_busPlus1 : aluRows .busPlus1 [
    (0x0000, 0x0000, false, 0x0001, false), (0xFFFF, 0x0001, false, 0x0000, true),
    (0xFFFF, 0xFFFF, true, 0x0000, true), (0x0000, 0x0001, true, 0x0001, false),
    (0x8000, 0x8000, false, 0x8001, false), (0x7FFF, 0x0001, true, 0x8000, false),
    (0x1234, 0x0FF0, false, 0x1235, false), (0x0000, 0xFFFF, false, 0x0001, false)] = true := by decide

/-- VA49 to VA56. -/
theorem test_alu_busMinus1 : aluRows .busMinus1 [
    (0x0000, 0x0000, false, 0xFFFF, false), (0xFFFF, 0x0001, false, 0xFFFE, true),
    (0xFFFF, 0xFFFF, true, 0xFFFE, true), (0x0000, 0x0001, true, 0xFFFF, false),
    (0x8000, 0x8000, false, 0x7FFF, true), (0x7FFF, 0x0001, true, 0x7FFE, true),
    (0x1234, 0x0FF0, false, 0x1233, true), (0x0000, 0xFFFF, false, 0xFFFF, false)] = true := by decide

/-- VA57 to VA64. -/
theorem test_alu_busPlusT : aluRows .busPlusT [
    (0x0000, 0x0000, false, 0x0000, false), (0xFFFF, 0x0001, false, 0x0000, true),
    (0xFFFF, 0xFFFF, true, 0xFFFE, true), (0x0000, 0x0001, true, 0x0001, false),
    (0x8000, 0x8000, false, 0x0000, true), (0x7FFF, 0x0001, true, 0x8000, false),
    (0x1234, 0x0FF0, false, 0x2224, false), (0x0000, 0xFFFF, false, 0xFFFF, false)] = true := by decide

/-- VA65 to VA72. -/
theorem test_alu_busMinusT : aluRows .busMinusT [
    (0x0000, 0x0000, false, 0x0000, true), (0xFFFF, 0x0001, false, 0xFFFE, true),
    (0xFFFF, 0xFFFF, true, 0x0000, true), (0x0000, 0x0001, true, 0xFFFF, false),
    (0x8000, 0x8000, false, 0x0000, true), (0x7FFF, 0x0001, true, 0x7FFE, true),
    (0x1234, 0x0FF0, false, 0x0244, true), (0x0000, 0xFFFF, false, 0x0001, false)] = true := by decide

/-- VA73 to VA80. -/
theorem test_alu_busMinusTMinus1 : aluRows .busMinusTMinus1 [
    (0x0000, 0x0000, false, 0xFFFF, false), (0xFFFF, 0x0001, false, 0xFFFD, true),
    (0xFFFF, 0xFFFF, true, 0xFFFF, false), (0x0000, 0x0001, true, 0xFFFE, false),
    (0x8000, 0x8000, false, 0xFFFF, false), (0x7FFF, 0x0001, true, 0x7FFD, true),
    (0x1234, 0x0FF0, false, 0x0243, true), (0x0000, 0xFFFF, false, 0x0000, false)] = true := by decide

/-- VA81 to VA88. -/
theorem test_alu_busPlusTPlus1 : aluRows .busPlusTPlus1 [
    (0x0000, 0x0000, false, 0x0001, false), (0xFFFF, 0x0001, false, 0x0001, true),
    (0xFFFF, 0xFFFF, true, 0xFFFF, true), (0x0000, 0x0001, true, 0x0002, false),
    (0x8000, 0x8000, false, 0x0001, true), (0x7FFF, 0x0001, true, 0x8001, false),
    (0x1234, 0x0FF0, false, 0x2225, false), (0x0000, 0xFFFF, false, 0x0000, true)] = true := by decide

/-- VA89 to VA96. -/
theorem test_alu_busPlusSkip : aluRows .busPlusSkip [
    (0x0000, 0x0000, false, 0x0000, false), (0xFFFF, 0x0001, false, 0xFFFF, false),
    (0xFFFF, 0xFFFF, true, 0x0000, true), (0x0000, 0x0001, true, 0x0001, false),
    (0x8000, 0x8000, false, 0x8000, false), (0x7FFF, 0x0001, true, 0x8000, false),
    (0x1234, 0x0FF0, false, 0x1234, false), (0x0000, 0xFFFF, false, 0x0000, false)] = true := by decide

/-- VA97 to VA104. -/
theorem test_alu_busDotT : aluRows .busDotT [
    (0x0000, 0x0000, false, 0x0000, false), (0xFFFF, 0x0001, false, 0x0001, false),
    (0xFFFF, 0xFFFF, true, 0xFFFF, false), (0x0000, 0x0001, true, 0x0000, false),
    (0x8000, 0x8000, false, 0x8000, false), (0x7FFF, 0x0001, true, 0x0001, false),
    (0x1234, 0x0FF0, false, 0x0230, false), (0x0000, 0xFFFF, false, 0x0000, false)] = true := by decide

/-- VA105 to VA112. -/
theorem test_alu_busAndNotT : aluRows .busAndNotT [
    (0x0000, 0x0000, false, 0x0000, false), (0xFFFF, 0x0001, false, 0xFFFE, false),
    (0xFFFF, 0xFFFF, true, 0x0000, false), (0x0000, 0x0001, true, 0x0000, false),
    (0x8000, 0x8000, false, 0x0000, false), (0x7FFF, 0x0001, true, 0x7FFE, false),
    (0x1234, 0x0FF0, false, 0x1004, false), (0x0000, 0xFFFF, false, 0x0000, false)] = true := by decide

/-- VA113, VA114: the undefined functions give nothing. -/
theorem test_alu_undefined : aluTable .undef14 1 2 true = none ∧ aluTable .undef15 1 2 true = none := by decide

/-- One word with R[1] = 0x1234 on the bus, T = 0x0FF0 and LT leaves the T and the CRAR given. -/
def loadsT (w : MicroWord) (t crar : Word) : Bool :=
  (run w { State.reset.setR 1 0x1234 with t := 0x0FF0 }).t == t &&
    (run w { State.reset.setR 1 0x1234 with t := 0x0FF0 }).crar == crar

/-- VL1 to VL14. -/
theorem test_load_t :
    loadsT 0x08000800 0x1234 0x1234 = true ∧
    loadsT 0x08800800 0x1234 0x0FF0 = true ∧
    loadsT 0x09000800 0x1FF4 0x1FF4 = true ∧
    loadsT 0x09800800 0x1234 0x0230 = true ∧
    loadsT 0x0A000800 0x1234 0x1DC4 = true ∧
    loadsT 0x0A800800 0x1235 0x1235 = true ∧
    loadsT 0x0B000800 0x1233 0x1233 = true ∧
    loadsT 0x0B800800 0x1234 0x2224 = true ∧
    loadsT 0x0C000800 0x1234 0x0244 = true ∧
    loadsT 0x0C800800 0x1234 0x0243 = true ∧
    loadsT 0x0D000800 0x2225 0x2225 = true ∧
    loadsT 0x0D800800 0x1234 0x1234 = true ∧
    loadsT 0x0E000800 0x0230 0x0230 = true ∧
    loadsT 0x0E800800 0x1234 0x1004 = true := by decide

/-! ### The shifter -/

/-- The shifter's rows for one operation: modifier, input, auxiliary, carry, output, carry after. -/
def shiftRows (op : ShOp) (l : List (ShMod × Word × Word × Bool × Word × Bool)) : Bool :=
  l.all fun v => doOperation op v.1 v.2.1 v.2.2.1 v.2.2.2.1 == (v.2.2.2.2.1, v.2.2.2.2.2)

/-- VS1 to VS12. -/
theorem test_shift_none : shiftRows .none [
    (.none, 0x8001, 0x8001, false, 0x8001, false), (.none, 0x8001, 0x7FFE, true, 0x8001, true),
    (.none, 0x4002, 0x0001, true, 0x4002, true), (.none, 0x12AB, 0xFFFF, false, 0x12AB, false),
    (.magic, 0x8001, 0x8001, false, 0x8001, false), (.magic, 0x8001, 0x7FFE, true, 0x8001, true),
    (.magic, 0x4002, 0x0001, true, 0x4002, true), (.magic, 0x12AB, 0xFFFF, false, 0x12AB, false),
    (.novaStyle, 0x8001, 0x8001, false, 0x8001, false), (.novaStyle, 0x8001, 0x7FFE, true, 0x8001, true),
    (.novaStyle, 0x4002, 0x0001, true, 0x4002, true), (.novaStyle, 0x12AB, 0xFFFF, false, 0x12AB, false)] = true := by decide

/-- VS13 to VS24. -/
theorem test_shift_shiftLeft : shiftRows .shiftLeft [
    (.none, 0x8001, 0x8001, false, 0x0002, false), (.none, 0x8001, 0x7FFE, true, 0x0002, true),
    (.none, 0x4002, 0x0001, true, 0x8004, true), (.none, 0x12AB, 0xFFFF, false, 0x2556, false),
    (.magic, 0x8001, 0x8001, false, 0x0003, false), (.magic, 0x8001, 0x7FFE, true, 0x0002, true),
    (.magic, 0x4002, 0x0001, true, 0x8004, true), (.magic, 0x12AB, 0xFFFF, false, 0x2557, false),
    (.novaStyle, 0x8001, 0x8001, false, 0x0002, true), (.novaStyle, 0x8001, 0x7FFE, true, 0x0003, true),
    (.novaStyle, 0x4002, 0x0001, true, 0x8005, false), (.novaStyle, 0x12AB, 0xFFFF, false, 0x2556, false)] = true := by decide

/-- VS25 to VS36. -/
theorem test_shift_shiftRight : shiftRows .shiftRight [
    (.none, 0x8001, 0x8001, false, 0x4000, false), (.none, 0x8001, 0x7FFE, true, 0x4000, true),
    (.none, 0x4002, 0x0001, true, 0x2001, true), (.none, 0x12AB, 0xFFFF, false, 0x0955, false),
    (.magic, 0x8001, 0x8001, false, 0xC000, false), (.magic, 0x8001, 0x7FFE, true, 0x4000, true),
    (.magic, 0x4002, 0x0001, true, 0xA001, true), (.magic, 0x12AB, 0xFFFF, false, 0x8955, false),
    (.novaStyle, 0x8001, 0x8001, false, 0x4000, true), (.novaStyle, 0x8001, 0x7FFE, true, 0xC000, true),
    (.novaStyle, 0x4002, 0x0001, true, 0xA001, false), (.novaStyle, 0x12AB, 0xFFFF, false, 0x0955, true)] = true := by decide

/-- VS37 to VS48. -/
theorem test_shift_rotateLeft8 : shiftRows .rotateLeft8 [
    (.none, 0x8001, 0x8001, false, 0x0180, false), (.none, 0x8001, 0x7FFE, true, 0x0180, true),
    (.none, 0x4002, 0x0001, true, 0x0240, true), (.none, 0x12AB, 0xFFFF, false, 0xAB12, false),
    (.magic, 0x8001, 0x8001, false, 0x0180, false), (.magic, 0x8001, 0x7FFE, true, 0x0180, true),
    (.magic, 0x4002, 0x0001, true, 0x0240, true), (.magic, 0x12AB, 0xFFFF, false, 0xAB12, false),
    (.novaStyle, 0x8001, 0x8001, false, 0x0180, false), (.novaStyle, 0x8001, 0x7FFE, true, 0x0180, true),
    (.novaStyle, 0x4002, 0x0001, true, 0x0240, true), (.novaStyle, 0x12AB, 0xFFFF, false, 0xAB12, false)] = true := by decide

/-! ### Bus sources and constants: the bus is seen in L -/

/-- The state of file 95's section 2.4. -/
def buses : State :=
  const 6 0x000F (const 5 0xFFFF (const 10 0x0F0F (const 15 0xFFFF (const 7 0x00FF
    { State.reset.setR 3 0x00AA with busMd1 := 0x1111 }))))

/-- VB1. -/
theorem test_readR : (run 0x18000400 buses).l = 0x00AA := by decide

/-- VB2: the old L goes to R[3], the bus is 0. -/
theorem test_loadR : (run 0x18100400 { buses with l := 0x2224 }).getR 3 = 0x2224 ∧
    (run 0x18100400 { buses with l := 0x2224 }).l = 0 := by decide

/-- VB3, VB4. -/
theorem test_noSource : (run 0x00200400 buses).l = 0xFFFF ∧ (run 0x02A00400 buses).l = 0 ∧
    (run 0x02A00400 buses).aluC0 = true := by decide

/-- VB5: FD2. -/
theorem test_taskSpecific1 : (run 0x00300000 buses).status = .stopped .unknownDecode (.fd2 .taskSpecific1 0) := by decide

/-- R195: a defined source of 4 is masked with constant 4 of its RSEL. -/
theorem test_taskSpecific2 : (run 0x00400400 (const 4 0x0FF0
    (hooked [⟨.emulator, .busSource .taskSpecific2, .acts [.setBus (.const 0x1234)]⟩] buses))).l = 0x0230 := by decide

/-- VB6. -/
theorem test_readMD : (run 0x00500400 { buses with busDwMixed := true }).l = 0x1111 ∧
    (run 0x00500400 { buses with busDwMixed := true }).busDwMixed = false := by decide

/-- VB7: the word's low four bits are the mouse's, whatever they are; with 0b0101 it is 0x0005 under the mask. -/
theorem test_readMouse : mouseOperand 0b0101 &&& 0x000F = 0x0005 ∧ ∀ b : BitVec 4, mouseOperand b = 0xFFF0 + b.setWidth 16 := by decide

/-- VB8 to VB11. -/
theorem test_readDisp : (run 0x00700400 { buses with ir := 0x01FF }).l = 0x00FF ∧
    (run 0x08700400 { buses with ir := 0x01FF }).l = 0xFFFF ∧
    (run 0x08700400 { buses with ir := 0x00FF }).l = 0x00FF ∧
    (run 0x08700400 { buses with ir := 0x037F }).l = 0x007F := by decide

/-- VB12, VB13: a constant code replaces the source, so `LoadR` loads nothing. -/
theorem test_constant : (run 0x08207400 buses).l = 0x0F0F ∧ (run 0x08170400 (buses.setR 1 7)).getR 1 = 7 := by decide

/-- VB14: with a constant code `ReadMD` is not called, and the word is not stalled by an active bus. -/
theorem test_constant_no_read : (run 0x00507400 (busy 1 buses)).l = 0xFFFF := by decide

/-- R196, log 29: beside a `ReadMD` that a constant code replaces, `StoreMD` is the memory operation. -/
theorem test_constant_store : (decode 0x00576000).word.memOp = some .store ∧ (decode 0x00506000).word.memOp = some .read ∧
    (decode 0x00570000).word.memOp = none := by decide

/-! ### Special functions: the branch bits are seen in NEXTMOD -/

/-- VF1, VF2. -/
theorem test_busZero : rd (run 0x28001000 State.reset).nextMod 0 = 1 ∧ rd (run 0x28001000 (State.reset.setR 5 7)).nextMod 0 = 0 := by decide

/-- VF3, VF4. -/
theorem test_shNeg : rd (run 0x00002000 { State.reset with l := 0x8000 }).nextMod 0 = 1 ∧
    rd (run 0x00042000 { State.reset with l := 0x8000 }).nextMod 0 = 0 := by decide

/-- VF5. -/
theorem test_shZero : rd (run 0x00043000 { State.reset with l := 0x8000 }).nextMod 0 = 1 := by decide

/-- VF6. -/
theorem test_bus : rd (run 0x10004000 (State.reset.setR 2 0xFC05)).nextMod 0 = 0x005 := by decide

/-- VF7: the old ALUC0 branches, the new one is this carry. -/
theorem test_aluCy : rd (run 0x02805400 { State.reset with aluC0 := true }).nextMod 0 = 1 ∧
    (run 0x02805400 { State.reset with aluC0 := true }).aluC0 = false := by decide

/-- VF8. -/
theorem test_successor : rd (run 0x00000020 (State.reset.setNextMod 0 1)).mpc 0 = 0x021 := by decide

/-- VF9, VF10: ignored in the first word after a switch. -/
theorem test_task : (run 0x00020000 State.reset).nextTask = none ∧ (run 0x00020000 (State.reset.setFirst 0 false)).nextTask = some 0 := by decide

/-- VF11: FP3. VF12: slot 9 keeps running. -/
theorem test_block : (run 0x00030000 State.reset).status = .stopped .protocolViolation .fp3 ∧
    rd (run 0x00030000 disk).wakeup 9 = false ∧ (run 0x00030000 disk).cur = 9 := by decide

/-- R214 to R216's examples. -/
theorem test_shifts : (run 0x18140000 { State.reset with l := 0x1234 }).getR 3 = 0x2468 ∧
    (run 0x18150000 { State.reset with l := 0x2468 }).getR 3 = 0x1234 ∧
    (run 0x18160000 { State.reset with l := 0x12AB }).getR 3 = 0xAB12 := by decide

/-- R211's example. -/
theorem test_loadMAR : (run 0x08010000 (State.reset.setR 1 0x0400)).busMar = 0x0400 ∧
    (run 0x08010000 (State.reset.setR 1 0x0400)).busCycle = 1 := by decide

/-- R227's example, and the second store of P5s. -/
theorem test_storeMD : (run 0x10006000 (busy 3 (State.reset.setR 2 0x1111))).memWord false 0x0400 = 0x1111 ∧
    (run 0x10006000 { busy 4 (State.reset.setR 2 0x2222) with busDwStore := true }).memWord false 0x0401 = 0x2222 := by decide

/-- VF13: FD3. VF14: FD4. -/
theorem test_undefined_codes : (run 0x00080000 State.reset).status = .stopped .unknownDecode (.fd3 .ts8 0) ∧
    (run 0x0000F000 State.reset).status = .stopped .unknownDecode (.fd4 .ts15 0) := by decide

/-- VF15. -/
theorem test_constant_load : (run 0x10170800 (const 17 0x8000 State.reset)).t = 0x8000 ∧
    (run 0x10170800 (const 17 0x8000 State.reset)).crar = 0x8000 := by decide

/-- R315: a task that is not RAM-resident loads L but not M. -/
theorem test_load_l : (run 0x08000400 (State.reset.setR 1 8)).m = 8 ∧ (run 0x08000400 (disk.setR 1 8)).l = 8 ∧
    (run 0x08000400 (disk.setR 1 8)).m = 0 := by decide

/-- A Nova-style shift that a late hook selects (R175, R240): the carry shifts in, the top bit shifts out. -/
theorem test_hook_nova : (run 0x18148000 (hooked [⟨.emulator, .f2Late .ts8, .acts [.setShMod .novaStyle]⟩]
    { State.reset with l := 0x8001, dnsCarry := true })).getR 3 = 0x0003 := by decide

/-- R313: a source hook of a RAM-resident task raises `load_s`, and S takes the shifter output in the bank RB names. -/
theorem test_hook_load_s : (run 0x18300000 (hooked [⟨.emulator, .busSource .taskSpecific1, .acts [.raiseLoadS]⟩]
    { State.reset.setRb 0 2 with l := 0x4321 })).getS 0 3 = 0x4321 := by decide

/-- R21, R46: the same hook of a task that is not RAM-resident changes no S register. -/
theorem test_hook_no_s : (run 0x18300000 (hooked [⟨.diskSector, .busSource .taskSpecific1, .acts [.raiseLoadS]⟩]
    { disk with l := 0x4321 })).sRegs = State.reset.sRegs := by decide

/-- R240: the block hook is given the state alone, so the bus value is no value of its acts. -/
theorem test_hook_sees : (run 0x18030000 (hooked [⟨.diskSector, .onBlock, .acts [.setR 4 .bus, .setR 5 (.const 7)]⟩] (disk.setR 3 9))).getR 4 = 0 ∧
    (run 0x18030000 (hooked [⟨.diskSector, .onBlock, .acts [.setR 4 .bus, .setR 5 (.const 7)]⟩] (disk.setR 3 9))).getR 5 = 7 := by decide

/-- R77, log 32: a hook's own address load is extended under `VariantB` where the hook says so, never under `VariantA`. -/
theorem test_hook_xm : (run 0x00080000 (hooked [⟨.emulator, .f1Late .ts8, .acts [.loadMAR (.const 4) true]⟩] State.reset)).busXm = true ∧
    (run 0x00080000 (hooked [⟨.emulator, .f1Late .ts8, .acts [.loadMAR (.const 4) true]⟩] (timed .variantA State.reset))).busXm = false := by decide

/-- R46, R403: a soft reset in the hook of a soft reset has its whole effect, RMR restored, before the outer one reads RMR (log 23). -/
theorem test_nested_reset : rd (hooked [⟨.emulator, .onSoftReset, .acts [.setRmr (.const 0)]⟩] State.reset).softReset.bank 0 = .ram0 ∧
    rd (hooked [⟨.emulator, .onSoftReset, .acts [.setRmr (.const 0), .softReset 0]⟩] State.reset).softReset.bank 0 = .rom0 := by decide

/-- R74, R78: a record with a partner function of its own (log 35). -/
theorem test_partner_table : (Partner.table [(4, 9), (4, 2)]).apply 4 = 9 ∧ (Partner.table [(4, 9)]).apply 5 = 5 := by decide

/-- R75, U15: one device may claim an address twice, two devices may not (log 36). -/
theorem test_device_ranges : devicesApart [⟨0, 8, .external 1⟩, ⟨8, 9, .external 1⟩] = true ∧ devicesApart [⟨0, 8, .external 1⟩, ⟨8, 9, .external 2⟩] = false ∧
    devicesApart [⟨0, 7, .external 1⟩, ⟨8, 9, .external 2⟩] = true := by decide

/-- R243, log 15: the request that `onSoftReset` makes for the slot that runs, in the word that carries one out, is kept. -/
theorem test_reset_request : rd (run 0x00080000 (hooked [⟨.emulator, .f1Late .ts8, .acts [.softReset 0]⟩, ⟨.emulator, .onSoftReset, .acts [.setSwMode true]⟩]
      (State.reset.setSwModeP 0 true))).swModeP 0 = true := by decide

/-! ### The control store -/

/-- VC1, VC2. -/
theorem test_toggle2 : rd (State.reset.switchMode 0x10 0).bank 0 = .ram0 ∧ rd ((State.reset.setBank 0 .ram0).switchMode 0x3FF 0).bank 0 = .rom0 := by decide

/-- VC3 to VC6. -/
theorem test_split3 : swModeTable .split3 .rom0 0x020 = .ram0 ∧ swModeTable .split3 .rom0 0x120 = .rom1 ∧
    swModeTable .split3 .rom1 0x020 = .rom0 ∧ swModeTable .split3 .rom1 0x120 = .ram0 ∧
    swModeTable .split3 .ram0 0x020 = .rom0 ∧ swModeTable .split3 .ram0 0x120 = .rom1 := by decide

/-- VC7 to VC9. -/
theorem test_ram_write : ({ State.reset with crar := 0x0005 }.writeRam 0x0000 0x2BD1).csCell .ram0 5 = 0x2BD98400 ∧
    ({ State.reset with crar := 0x0005 }.writeRam 0x0000 0x2BD1).readRam.1 = 0x0000 ∧
    { { State.reset with crar := 0x0005 }.writeRam 0x0000 0x2BD1 with crar := 0x0405 }.readRam.1 = 0x2BD1 := by decide

/-- VC10, VC11: FD6. -/
theorem test_ram_rom : { State.reset with crar := 0x0805 }.writeRam 1 2 = { State.reset with crar := 0x0805 } ∧
    { State.reset with crar := 0x0805 }.readRam.2.status = .stopped .unknownDecode (.fd6 0x0805) := by decide

/-- P6, the word at 0o3: the pending write takes this word's ALU result and M, and clears the latch. -/
theorem test_pending_write : (run 0x18000004 { (State.reset.setR 3 0x8430).setWrtRamP 0 true with crar := 0x0030, m := 0x0008 }).csCell .ram0 0x30 = 0x30 ∧
    rd (run 0x18000004 { (State.reset.setR 3 0x8430).setWrtRamP 0 true with crar := 0x0030, m := 0x0008 }).wrtRamP 0 = false := by decide

/-- P6, the word at 0o5: the half is ANDed onto all ones. The word at 0o7: the switch follows its successor address. -/
theorem test_pending_read_switch : (run 0x00200406 { (State.reset.setCsCell .ram0 0x30 0x30).setRdRamP 0 true with crar := 0x0030 }).l = 0x8430 ∧
    rd (run 0x00000030 (State.reset.setSwModeP 0 true)).bank 0 = .ram0 := by decide

/-- Log 15: a request made in the word that carries one out is kept for the next. -/
theorem test_request_kept : rd (run 0x00080000 (hooked [⟨.emulator, .f1Late .ts8, .acts [.setSwMode true]⟩] (State.reset.setSwModeP 0 true))).swModeP 0 = true := by decide

/-! ### The arbiter -/

/-- VT1, VT2. -/
theorem test_scan : ((bind 5 .cursor (bind 9 .diskSector State.reset)).setWakeup 5 true).scan = some 5 ∧
    (bind 5 .cursor (bind 9 .diskSector State.reset)).scan = some 0 := by decide

/-- VT3: the commit to the task already running. -/
theorem test_commit_same : (run 0 { State.reset.setFirst 0 false with nextTask := some 0 }).cur = 0 ∧
    rd (run 0 { State.reset.setFirst 0 false with nextTask := some 0 }).first 0 = true := by decide

/-- VT5: FP4, FP3. VT6: an absent slot. -/
theorem test_contract : (State.reset.wakeupTask 0).status = .stopped .protocolViolation .fp4 ∧
    (State.reset.blockTask 0).status = .stopped .protocolViolation .fp3 ∧ State.reset.wakeupTask 2 = State.reset ∧
    State.reset.isBlocked 2 = false := by decide

/-- VT7, VT8: levels; a block does not undo a pending switch. -/
theorem test_levels : rd (((disk.wakeupTask 9).wakeupTask 9).blockTask 9).wakeup 9 = false ∧
    (run 0 { (running 0 disk).blockTask 9 with nextTask := some 9 }).cur = 9 := by decide

/-- R345 (2): a second `TASK` commits nothing. R345 (1), VT10: nor does a stalled word. -/
theorem test_pending_switch : (run 0x00020000 { running 0 disk with nextTask := some 9 }).cur = 0 ∧
    run 0x00500812 (busy 3 { running 0 disk with nextTask := some 9 }) = busy 3 { running 0 disk with nextTask := some 9 } := by decide

/-! ### The memory bus -/

/-- A row of the bus vectors: whether the bus is active, the three answers of `Ready`, which word `ReadMD` gives (none is
FP2), and what the step's `LoadMD` leaves in the first and the second word. -/
def busRow (m : MemTiming) (j : Nat) (active la rd st : Bool) (read : Option Word) (w1 w2 : Word) : Bool :=
  let s := (List.replicate j State.busClock).foldl (fun s f => f s) ((timed m State.reset).busLoadMAR 0x0400 0 false)
  let s := { s with busMd1 := 0x1111, busMd2 := 0x2222 }
  let t := s.busLoadMD 0x3333
  s.busCycle == j + 1 && s.busActive == active && s.busReady .loadAddress == la && s.busReady .read == rd &&
    s.busReady .store == st && (if s.busReadMD.2.status == .running then some s.busReadMD.1 else none) == read &&
    t.memWord false 0x0400 == w1 && t.memWord false 0x0401 == w2 && t.diagnostics.length == (if w1 == 0 then 1 else 0)

/-- VM1 to VM7; a single store in the second window writes the address itself (R72). -/
theorem test_bus_variantA :
    busRow .variantA 1 true false false false none 0 0 = true ∧
    busRow .variantA 2 true false false false none 0 0 = true ∧
    busRow .variantA 3 true false false false none 0 0 = true ∧
    busRow .variantA 4 true false true true (some 0x1111) 0x3333 0 = true ∧
    busRow .variantA 5 true false true true (some 0x2222) 0x3333 0 = true ∧
    busRow .variantA 6 false true true true (some 0x1111) 0 0 = true ∧
    busRow .variantA 7 false true true true (some 0x1111) 0 0 = true := by decide

/-- VM8 to VM14; a single store in the second window writes the address itself (R72). -/
theorem test_bus_variantB :
    busRow .variantB 1 true false false false none 0 0 = true ∧
    busRow .variantB 2 true false false true none 0x3333 0 = true ∧
    busRow .variantB 3 true false false true none 0x3333 0 = true ∧
    busRow .variantB 4 false true true true (some 0x1111) 0 0 = true ∧
    busRow .variantB 5 false true true true (some 0x2222) 0 0 = true ∧
    busRow .variantB 6 false true true true (some 0x1111) 0 0 = true ∧
    busRow .variantB 7 false true true true (some 0x1111) 0 0 = true := by decide

/-- VM15: FP1. VM17: W1. VM18. -/
theorem test_bus_calls : ((busy 1 State.reset).busLoadMAR 7 0 false).status = .stopped .protocolViolation (.fp1 7 0) ∧
    (State.reset.busLoadMD 7).diagnostics = [.loadMDWhileIdle] ∧ State.reset.busReadMD.1 = 0 := by decide

/-- VM20, VM21. -/
theorem test_extended : (run 0x00016000 State.reset).busXm = true ∧ (run 0x00016000 State.reset).diagnostics = [] ∧
    (run 0x00016000 (timed .variantA State.reset)).busXm = false ∧
    (run 0x00016000 (timed .variantA State.reset)).diagnostics = [.loadMDMistimed] := by decide

/-! ### Reset and fatal errors -/

/-- A state of V-RST2: registers set, RMR as given, slot 0 in RAM0. -/
def worn (rmr : Word) : State :=
  { ((bind 5 .cursor (bind 9 .diskSector State.reset)).setBank 0 .ram0).setR 3 0x1003 with
    t := 0x1111, l := 0x2222, m := 0x3333, ir := 0x4444, rmr := rmr
    mpc := wr (wr (wr State.reset.mpc 0 0x53) 5 0x28) 9 0x21 }

/-- V-RST1, V-RST5: from a stopped state, slots 0, 5 and 9 present. -/
theorem test_hard_reset : ((worn 0x0FFF).fatal .fp3).hardReset = bind 5 .cursor (bind 9 .diskSector State.reset) := by rfl

/-- V-RST2, but for the disk-sector task: here it is present, and the soft reset wakes it (R404). -/
theorem test_soft_reset : (worn 0xFFFF).softReset = { (worn 0xFFFF) with
      bank := State.reset.bank, mpc := State.reset.mpc, wakeup := wr State.reset.wakeup 9 true } := by rfl

/-- V-RST3. -/
theorem test_soft_reset_ram : rd (worn 0xFFFE).softReset.bank 0 = .ram0 ∧ rd (worn 0xFFFE).softReset.bank 5 = .rom0 ∧ (worn 0xFFFE).softReset.rmr = 0xFFFF := by decide

/-- V-RST4. -/
theorem test_soft_reset_disk : rd ((bind 4 .diskSector (bind 14 .diskWord State.reset)).setWakeup 14 true).softReset.wakeup 4 = true ∧
    rd ((bind 4 .diskSector (bind 14 .diskWord State.reset)).setWakeup 14 true).softReset.wakeup 14 = false := by decide

/-- VX1, step 2. -/
theorem test_fatal_alu : run 0x07001802 { State.reset.setMpc 0 1 with aluCarry := true } = { State.reset.setMpc 0 1 with
      aluCarry := true, status := .stopped .unknownDecode (.fd1 .undef14) } := by rfl

/-- VX2: the bus source comes first. -/
theorem test_fatal_order : (run 0x07380000 State.reset).status = .stopped .unknownDecode (.fd2 .taskSpecific1 0) := by decide

/-- P1, step 2, through `step`: the NOP at 0o20 goes to 0o21. -/
theorem test_step : step ((State.reset.setMpc 0 0x10).withFetchWord 32 0x00000011) = .next
    { (((State.reset.setMpc 0 0x10).withFetchWord 32 0x00000011).setMpc 0 0x11).setFirst 0 false with busCycle := 1 } := by rfl

/-- R371: a stopped machine's step is the identity. -/
theorem test_step_stopped : step (State.reset.fatal .fp3) = .next (State.reset.fatal .fp3) := by rfl

/-- U15, log 19: no rule applies where no slot is bound to the emulator. -/
theorem test_step_refused : step { State.reset with cfg := { State.reset.cfg with slots := Vector.replicate 16 none } } =
    .refused .badConfiguration := by rfl

/-! ### Witnesses: the hypotheses of each statement can be met, clause by clause -/

/-- Every code that needs a hook has one, which acts on nothing. -/
def quiet : State :=
  hooked ([.busSource .taskSpecific1, .busSource .taskSpecific2, .f1Late .ts8, .f1Late .ts9, .f1Late .ts10, .f1Late .ts11,
    .f1Late .ts12, .f1Late .ts13, .f1Late .ts14, .f1Late .ts15, .f2Late .ts8, .f2Late .ts9, .f2Late .ts10, .f2Late .ts11,
    .f2Late .ts12, .f2Late .ts13, .f2Late .ts14, .f2Late .ts15].map fun g => ⟨.emulator, g, .acts []⟩) State.reset

/-- A word of which `exec` is asked in the witnesses: all fields 0 but those named. -/
def word (bs : BusSource) (f1 : F1Code) (f2 : F2Code) : MicroInstr :=
  { w0 with bs := bs, f1 := f1, f2 := f2 }

/-- A bus with its transaction at its last active cycle under `VariantB`. -/
theorem wit_inv : State.Inv (busy 4 State.reset) := by
  unfold State.Inv State.busInv
  refine ⟨by decide, by decide, by decide, by decide, by decide, by decide, by decide, by decide, by decide, by decide,
    by decide⟩

theorem wit_EncodeThenDecode : Instr.wf (.f2Ts15 (word .readR .nop .ts15).f2Ops) = true ∧
    Instr.wf (.ll w0.llOps) = true := by decide

theorem wit_ReadingsAgree : (Instr.bsReadR w0.bsOps).word = (Instr.alufBus w0.alufOps).word ∧
    Instr.bsReadR w0.bsOps ≠ .alufBus w0.alufOps := by decide

theorem wit_StepRunsDecoded : State.reset.ready = true ∧ State.reset.status = .running ∧
    State.reset.busClock.status = .running ∧
    decode (State.reset.csCell (rd State.reset.bank State.reset.cur) (rd State.reset.mpc State.reset.cur)) =
      .alufBus w0.alufOps := by decide

theorem wit_StoppedIsInert : (State.reset.fatal .fp3).status ≠ .running ∧ (State.reset.fatal .fp3).ready = true ∧
    (State.reset.fatal .fp3).agenda = [] := by decide

/-- One cell of the control RAM holds a word, the other memories are empty. -/
theorem wit_PlacedWordIsFetched : Memory.wf (State.reset.setCsCell .ram0 0x3FF 0x80000001).csRam = true ∧
    Memory.wf (State.reset.setCsCell .ram0 0x3FF 0x80000001).cfg.romImage = true := by decide

/-- Each cause of a wait at the last cycle that waits, and the cycle after it. -/
theorem wit_StallWaits : (busy 4 State.reset).stalls (word .readR .loadMAR .nop) = true ∧
    State.reset.stalls (word .readR .loadMAR .nop) = false ∧
    (busy 4 (timed .variantA State.reset)).stalls (word .readMD .nop .nop) = true ∧
    (busy 5 (timed .variantA State.reset)).stalls (word .readMD .nop .nop) = false ∧
    (busy 2 State.reset).stalls (word .readR .nop .storeMD) = true ∧
    (busy 3 State.reset).stalls (word .readR .nop .storeMD) = false := by decide

theorem wit_StepKeepsInv : State.Inv (busy 4 State.reset) ∧ ∃ t, step (busy 4 State.reset) = .next t :=
  ⟨wit_inv, _, rfl⟩

theorem wit_ParametersConstant : ∃ t, step (disk.withFetchWord 32 0x00030000) = .next t := ⟨_, rfl⟩

/-- Every function of the ALU but the undefined ones. -/
theorem wit_PlainResult_alu (a : AluFn) : a = .undef14 ∨ a = .undef15 ∨ State.reset.plain { w0 with aluf := a } := by
  cases a <;> (unfold State.plain; decide)

theorem wit_PlainResult_bs (b : BusSource) : quiet.plain { w0 with bs := b } := by
  cases b <;> (unfold State.plain; decide)

/-- Every code of F1 but `BLOCK`, which is no plain word of the emulator. -/
theorem wit_PlainResult_f1 (f : F1Code) : f = .block ∨ quiet.plain { w0 with f1 := f } := by
  cases f <;> (unfold State.plain; decide)

theorem wit_PlainResult_block : disk.plain (word .readR .block .nop) := by unfold State.plain; decide

theorem wit_PlainResult_f2 (f : F2Code) : quiet.plain { w0 with f2 := f } := by
  cases f <;> (unfold State.plain; decide)

theorem wit_PlainResult_loads : State.reset.plain { w0 with lt := true } ∧ State.reset.plain { w0 with ll := true } := by
  unfold State.plain; decide

/-- With every latch pending, and a switch to the slot above. -/
theorem wit_PlainResult_pending :
    { ((disk.setRdRamP 9 true).setWrtRamP 9 true).setSwModeP 9 true with nextTask := some 0 }.plain w0 := by
  unfold State.plain; decide

/-- The rows of ALUF: `AluBitwiseRows`, `AluSumRows`, `AluDifferenceRows` and `AluUndefinedRows`. -/
theorem wit_AluRows (a : AluFn) : State.reset.reaches .alu (w0.alufOps.word a) := by
  cases a <;> (unfold State.reaches; decide)

/-- The rows of BS: `BusSourceRows` and `TaskSourceRows`, with a hook and without. -/
theorem wit_BusSourceRows (b : BusSource) : w0.bsOps.f1 ≠ .constant ∧ w0.bsOps.f2 ≠ .constant ∧
    State.reset.reaches .source (w0.bsOps.word b) ∧ quiet.reaches .source (w0.bsOps.word b) := by
  cases b <;> (unfold State.reaches; decide)

/-- Idle; the two windows; and a cycle that a custom table leaves out. -/
theorem wit_ReadMdRow :
    (State.reset.reaches .source (w0.bsOps.word .readMD) ∧
      (State.reset.before .source (w0.bsOps.word .readMD)).s.busActive = false) ∧
    ((busy 5 (timed .variantA State.reset)).reaches .source (w0.bsOps.word .readMD) ∧
      windowAt MemTiming.variantA.readWindow 5 = some .first) ∧
    ((busy 6 (timed .variantA State.reset)).reaches .source (w0.bsOps.word .readMD) ∧
      windowAt MemTiming.variantA.readWindow 6 = some .second ∧
      ((busy 6 (timed .variantA State.reset)).before .source (w0.bsOps.word .readMD)).s.busActive = true) ∧
    ((busy 6 (timed { MemTiming.variantA with readWindow := [(5, .first)] } State.reset)).reaches .source
      (w0.bsOps.word .readMD) ∧ windowAt [(5, Window.first)] 6 = none) := by
  unfold State.reaches; decide

theorem wit_TaskSourceRows (b : BusSource) (h : b = .taskSpecific1 ∨ b = .taskSpecific2) :
    (quiet.before .source (w0.bsOps.word b)).hookAt? (.busSource b) = some (.emulator, .acts []) ∧
    (State.reset.before .source (w0.bsOps.word b)).hookAt? (.busSource b) = none := by
  obtain rfl | rfl := h <;> decide

theorem wit_ConstantReplacesSource :
    (Instr.f1Constant (word .readDisp .constant .nop).f1Ops).word.f1 = .constant ∧
    State.reset.reaches .source (word .readDisp .constant .nop) ∧
    (Instr.f2Constant (word .taskSpecific1 .nop .constant).f2Ops).word.f2 = .constant ∧
    State.reset.reaches .source (word .taskSpecific1 .nop .constant) := by
  unfold State.reaches; decide

/-- A constant code over the lowest source; the sources 3 and 4 on both sides of the mask's bound. -/
theorem wit_BusMask : State.reset.reaches .mask (word .readR .nop .constant) ∧
    quiet.reaches .mask (word .taskSpecific1 .nop .nop) ∧ quiet.reaches .mask (word .taskSpecific2 .nop .nop) := by
  unfold State.reaches; decide

/-- Each latch clear and set; a read of the highest cell of the RAM, and of the lowest of a ROM. -/
theorem wit_PendingOperations :
    (State.reset.reaches .ramRead w0 ∧ rd State.reset.rdRamP 0 = false) ∧
    ({ State.reset.setRdRamP 0 true with crar := 0x07FF }.reaches .ramRead w0 ∧
      { State.reset.setRdRamP 0 true with crar := 0x07FF }.readRam.2.status = .running) ∧
    ({ State.reset.setRdRamP 0 true with crar := 0x0800 }.reaches .ramRead w0 ∧ crarRom 0x0800 = true) ∧
    (State.reset.reaches .ramWrite w0 ∧ rd State.reset.wrtRamP 0 = false) ∧
    ((State.reset.setWrtRamP 0 true).reaches .ramWrite w0 ∧ (State.reset.writeRam 0 0).status = .running) ∧
    (State.reset.reaches .bankSwitch w0 ∧ rd State.reset.swModeP 0 = false) ∧
    (State.reset.setSwModeP 0 true).reaches .bankSwitch w0 := by
  unfold State.reaches; decide

/-- The rows of F1: `NopRows`, `ShifterOperationRows` and `F1TaskSpecificRows`. -/
theorem wit_F1Rows (f : F1Code) : State.reset.reaches .f1 (w0.f1Ops.word f) ∧ quiet.reaches .f1 (w0.f1Ops.word f) := by
  cases f <;> (unfold State.reaches; decide)

/-- The rows of F2: `NopRows`, `BranchRows` and `F2TaskSpecificRows`. -/
theorem wit_F2Rows (f : F2Code) : State.reset.reaches .f2 (w0.f2Ops.word f) ∧ quiet.reaches .f2 (w0.f2Ops.word f) ∧
    quiet.reaches .f2Test (w0.f2Ops.word f) := by
  cases f <;> (unfold State.reaches; decide)

/-- An early hook has started a transaction. -/
def early : State :=
  hooked [⟨.emulator, .f2Early .nop, .acts [.loadMAR (.const 0x0400) false]⟩] State.reset

theorem wit_LoadMarRow : State.reset.reaches .f1 (w0.f1Ops.word .loadMAR) ∧
    (State.reset.before .f1 (w0.f1Ops.word .loadMAR)).s.busActive = false ∧
    early.reaches .f1 (w0.f1Ops.word .loadMAR) ∧
    (early.before .f1 (w0.f1Ops.word .loadMAR)).s.busActive = true := by
  unfold State.reaches; decide

theorem wit_TaskRow : State.reset.reaches .f1 (w0.f1Ops.word .task) ∧ rd State.reset.first 0 = true ∧
    disk.reaches .f1 (w0.f1Ops.word .task) ∧ rd disk.first 9 = false := by
  unfold State.reaches; decide

/-- The disk-sector task without a policy and with one; the emulator. -/
theorem wit_BlockRow :
    (disk.reaches .f1 (w0.f1Ops.word .block) ∧ disk.cfg.present 9 = true ∧ disk.cfg.isEmulator 9 = false ∧
      Ctx.hookAt? { s := disk, w := Wires.idle 9 } .blockPolicy = none) ∧
    ((hooked [⟨.diskSector, .blockPolicy, .acts [.setHs 7]⟩] disk).reaches .f1 (w0.f1Ops.word .block) ∧
      Ctx.hookAt? { s := hooked [⟨.diskSector, .blockPolicy, .acts [.setHs 7]⟩] disk, w := Wires.idle 9 } .blockPolicy ≠
        none) ∧
    (State.reset.reaches .f1 (w0.f1Ops.word .block) ∧ State.reset.cfg.present 0 = true ∧
      State.reset.cfg.isEmulator 0 = true) := by
  unfold State.reaches; decide

theorem wit_F1TaskSpecificRows : [F1Code.ts8, .ts9, .ts10, .ts11, .ts12, .ts13, .ts14, .ts15].all (fun f =>
    (quiet.before .f1 (w0.f1Ops.word f)).hookAt? (.f1Late f) == some (.emulator, .acts []) &&
    (State.reset.before .f1 (w0.f1Ops.word f)).hookAt? (.f1Late f) == none) = true := by decide

theorem wit_F2TaskSpecificRows : [F2Code.ts8, .ts9, .ts10, .ts11, .ts12, .ts13, .ts14, .ts15].all (fun f =>
    (quiet.before .f2 (w0.f2Ops.word f)).hookAt? (.f2Late f) == some (.emulator, .acts []) &&
    (State.reset.before .f2 (w0.f2Ops.word f)).hookAt? (.f2Late f) == none) = true := by decide

/-- An extended address load; an idle bus; an address load under `VariantA`, whose store comes in cycle 1, outside the
window. -/
theorem wit_StoreMdRow :
    (State.reset.reaches .f2 (word .readR .loadMAR .storeMD) ∧ State.reset.cfg.memTiming.variant = .variantB) ∧
    (State.reset.reaches .f2 (w0.f2Ops.word .storeMD) ∧ (State.reset.before .f2 (w0.f2Ops.word .storeMD)).s.busActive = false) ∧
    ((timed .variantA State.reset).reaches .f2 (word .readR .loadMAR .storeMD) ∧
      ((timed .variantA State.reset).before .f2 (word .readR .loadMAR .storeMD)).s.busActive = true ∧
      windowAt MemTiming.variantA.storeWindow 1 = none) := by
  unfold State.reaches; decide

/-- The first window; the second after a first store and alone, at the highest address. -/
theorem wit_StoreMdRow_windows :
    ((busy 3 State.reset).reaches .f2 (w0.f2Ops.word .storeMD) ∧ windowAt MemTiming.variantB.storeWindow 3 = some .first ∧
      State.reset.cfg.deviceAt 0x0400 = some .mainMemory) ∧
    ({ busy 4 State.reset with busDwStore := true, busMar := 0xFFFF }.reaches .f2 (w0.f2Ops.word .storeMD) ∧
      windowAt MemTiming.variantB.storeWindow 4 = some .second ∧
      State.reset.cfg.deviceAt (MemTiming.variantB.partner.apply 0xFFFF) = some .mainMemory) ∧
    ({ busy 4 State.reset with busMar := 0xFFFF }.reaches .f2 (w0.f2Ops.word .storeMD) ∧
      State.reset.cfg.deviceAt 0xFFFF = some .mainMemory) := by
  unfold State.reaches; decide

theorem wit_LoadTRow : State.reset.reaches .loadT w0.ltOps.word := by unfold State.reaches; decide

/-- A task that is RAM-resident, and one that is not. -/
theorem wit_LoadLRow : State.reset.reaches .loadL w0.llOps.word ∧ State.reset.cfg.isRamTask 0 = true ∧
    disk.reaches .loadL w0.llOps.word ∧ disk.cfg.isRamTask 9 = false := by
  unfold State.reaches; decide

/-- A source hook has raised `load_s`. -/
def raising : State :=
  hooked [⟨.emulator, .busSource .taskSpecific1, .acts [.raiseLoadS]⟩] State.reset

theorem wit_WriteBacks :
    (State.reset.reaches .writeR (word .loadR .nop .nop) ∧
      (State.reset.before .writeR (word .loadR .nop .nop)).w.loadR = true) ∧
    (State.reset.reaches .writeS w0 ∧ (State.reset.before .writeS w0).w.loadS = false ∧
      (State.reset.before .writeR w0).w.loadR = false) ∧
    (raising.reaches .writeS (word .taskSpecific1 .nop .nop) ∧
      (raising.before .writeS (word .taskSpecific1 .nop .nop)).w.loadS = true) := by
  unfold State.reaches; decide

/-- A word of a task that is not RAM-resident, loading neither register. -/
theorem wit_FrameLoads : (∃ t, exec (.alufT w0.alufOps) disk = .next t) ∧ (w0.alufOps.word .t).lt = false ∧
    (w0.alufOps.word .t).ll = false ∧ disk.cfg.isRamTask disk.cur = false :=
  ⟨⟨_, rfl⟩, by decide⟩

/-- `LoadR` of the highest register, with a switch pending. -/
theorem wit_FrameRegisters : { disk with nextTask := some 0 }.noHooks ∧
    (∃ t, exec (.bsLoadR { w0.bsOps with rsel := 31 }) { disk with nextTask := some 0 } = .next t) ∧
    loadsR (word .loadR .nop .nop) = true :=
  ⟨by unfold State.noHooks; decide, ⟨_, rfl⟩, by decide⟩

/-- No `StoreMD`; a `StoreMD` outside the window; one that stores, to the lowest word and to the highest. -/
theorem wit_FrameMemory : State.reset.noHooks ∧ Memory.wf (busy 3 State.reset).mem = true ∧
    (∃ t, exec (.f2StoreMD w0.f2Ops) (busy 3 State.reset) = .next t) ∧ storesMD State.reset.cfg w0 = false ∧
    (State.reset.before .f2 (w0.f2Ops.word .storeMD)).s.storedWord = none ∧
    ({ busy 3 State.reset with busMar := 0 }.before .f2 (w0.f2Ops.word .storeMD)).s.storedWord = some 0 ∧
    ({ busy 3 State.reset with busMar := 0xFFFF, busXm := true }.before .f2 (w0.f2Ops.word .storeMD)).s.storedWord =
      some 0x1FFFF :=
  ⟨by unfold State.noHooks; decide, by decide, ⟨_, rfl⟩, by decide⟩

/-- No write pending; CRAR naming a ROM; CRAR naming the highest cell of the third RAM bank. -/
theorem wit_FrameControlStore : Memory.wf State.reset.csRam = true ∧
    (∃ t, exec (.alufBus w0.alufOps) (State.reset.setWrtRamP 0 true) = .next t) ∧ rd State.reset.wrtRamP 0 = false ∧
    crarRom 0x0800 = true ∧ ramBank .ram5 (crarBank 0x23FF) = some .ram2 ∧ cellIndex .ram2 (crarCell 0x23FF) = 3071 :=
  ⟨by decide, ⟨_, rfl⟩, by decide⟩

theorem wit_FrameSlots : { disk with nextTask := some 0 }.noHooks ∧
    (∃ t, exec (.f1Block w0.f1Ops) { disk with nextTask := some 0 } = .next t) ∧
    ∀ d ∈ disk.cfg.devices, d.kind = .mainMemory :=
  ⟨by unfold State.noHooks; decide, ⟨_, rfl⟩, by decide⟩

/-- A hook of the emulator that asks for a soft reset. -/
def resetting (g : HookSite) : State :=
  hooked [⟨.emulator, g, .acts [.softReset 0]⟩] { State.reset.setFirst 0 false with nextTask := some 0 }

/-- A word's own successor, and beside it a request that leaves the pending switch alone; a soft reset by a hook of the
word; one by the hook of the switch it commits. -/
theorem wit_NextAddressRule :
    (rd (run 0x00000020 (State.reset.setNextMod 0 1)).mpc 0 = 0x021 ∧
      (run 0x00000020 (State.reset.setNextMod 0 1)).status = .running) ∧
    ((resetting .onTaskSwitch).tasks (decode 0x00020020).word = true ∧
      rd (run 0x00020020 (resetting .onTaskSwitch)).mpc 0 = 0x020) ∧
    (((resetting (.f1Late .ts8)).before .nextAddress (decode 0x00080020).word).w.softResetNow = true ∧
      (run 0x00080020 (resetting (.f1Late .ts8))).status = .running ∧
      rd (run 0x00080020 (resetting (.f1Late .ts8))).mpc 0 = 0) ∧
    ((resetting .onTaskSwitch).tasks (decode 0x00000020).word = false ∧
      (run 0x00000020 (resetting .onTaskSwitch)).status = .running ∧
      rd (run 0x00000020 (resetting .onTaskSwitch)).mpc 0 = 0) := by decide

theorem wit_NextAddressRule_commit :
    ((resetting .onTaskSwitch).executed (decode 0x00000020).word).s.switchResets 0 ∧
    ¬((resetting .onBlock).executed (decode 0x00000020).word).s.switchResets 0 :=
  ⟨⟨(.emulator, .acts [.softReset 0]), 0, by decide, by decide⟩, fun ⟨d, _, h, _⟩ => nomatch (h.symm.trans (by decide) : some d = none)⟩

theorem wit_SwitchRequest : (w0.f1Ops.word .task).f1 = .task ∧ rd disk.first disk.cur = false ∧ disk.status = .running ∧
    disk.stalls (w0.f1Ops.word .task) = false ∧ disk.noHooks ∧
    ∃ t, exec (.f1Task w0.f1Ops) disk = .next t ∧ t.status = .running :=
  ⟨by decide, by decide, by decide, by decide, by unfold State.noHooks; decide, _, rfl, by decide⟩

theorem wit_SwitchCommit : { disk with nextTask := some 0 }.tasks w0 = false ∧
    { disk with nextTask := some 0 }.stalls w0 = false ∧ { disk with nextTask := some 0 }.hookFree 0 = true ∧
    ∃ t, exec (.alufBus w0.alufOps) { disk with nextTask := some 0 } = .next t ∧ t.status = .running :=
  ⟨by decide, by decide, by decide, _, rfl, by decide⟩

theorem wit_ScanPicksHighest : State.Inv (busy 4 State.reset) ∧ (busy 4 State.reset).scan = some 0 :=
  ⟨wit_inv, by decide⟩

/-- An absent slot, the emulator, a slot without a policy, and one with a policy. -/
theorem wit_ContractCalls : disk.status = .running ∧ disk.cfg.present 15 = false ∧ disk.cfg.isEmulator 0 = true ∧
    (disk.cfg.present 9 = true ∧ disk.cfg.isEmulator 9 = false ∧ disk.hookFree 9 = true) ∧
    (hooked [⟨.diskSector, .wakeupPolicy, .acts [.setHs 7]⟩] disk).hookFree 9 = false := by decide

theorem wit_HardResetValues : (worn 0).cfg.valid = true ∧ (worn 0).cfg.present 9 = true := by decide

theorem wit_SoftResetValues : (worn 0).status = .running ∧ (worn 0).cfg.valid = true ∧ (worn 0).cfg.hooks = [] := by decide

/-- Under each table, at the lowest and the highest address. -/
theorem wit_DoubleWordRead : State.reset.status = .running ∧ State.reset.busActive = false ∧
    State.reset.cfg.devices = [{ lo := 0, hi := 0xFFFF, kind := .mainMemory }] ∧
    State.reset.cfg.memTiming = .variantB ∧ (timed .variantA State.reset).cfg.memTiming = .variantA := by decide

theorem wit_DoubleWordStore : State.reset.status = .running ∧ State.reset.busActive = false ∧
    Memory.wf State.reset.mem = true ∧ State.reset.cfg.devices = [{ lo := 0, hi := 0xFFFF, kind := .mainMemory }] ∧
    State.reset.cfg.memTiming = .variantB := by decide

/-- The first address past the one claimed range. -/
theorem wit_UnclaimedAddress :
    ∀ d ∈ [({ lo := 0, hi := 0xFDFF, kind := .mainMemory } : DeviceRange)],
      ¬(d.lo.toNat ≤ (0xFE00 : Word).toNat ∧ (0xFE00 : Word).toNat ≤ d.hi.toNat) := by decide

/-- A ROM; the highest cell of the third RAM bank, its high half. -/
theorem wit_RamWriteRead : Memory.wf State.reset.csRam = true ∧ (0x0800 : Word).getLsbD 11 = true ∧
    (0x27FF : Word).getLsbD 11 = false ∧ ramBank .ram5 ((0x27FF : Word).extractLsb' 12 2) = some .ram2 := by decide

theorem wit_SwitchMovesOneSlot : CsConfig.toggle2.hasBank .ram0 = true ∧ CsConfig.split3.hasBank .rom1 = true ∧
    CsConfig.ram5.hasBank .ram2 = true := by decide

/-- With a consumer of the output, and without. -/
theorem wit_ShifterInWord : State.reset.reaches .shifter (word .loadR .llsh1 .nop) ∧
    (State.reset.before .shifter (word .loadR .llsh1 .nop)).w.loadR = true ∧ State.reset.reaches .shifter w0 ∧
    (State.reset.before .shifter w0).w.needShifter = false := by
  unfold State.reaches; decide

/-- A hook of the disk-sector task that asks for S. -/
theorem wit_HooksKeepS : disk.cfg.isRamTask (Ctx.begin w0 disk).w.slot = false ∧
    ∀ a, a ∈ (Ctx.begin w0 disk).hookActs (.busSource .taskSpecific1) (.diskSector, .acts [.raiseLoadS, .setBus .sReg]) →
      ∀ n, a ≠ .softReset n :=
  ⟨by decide, fun a h n e => by subst e; simp [Ctx.hookActs] at h⟩

end Sys2Proof.Tests
end

section
/-! O57: what a hook of a task that is not RAM-resident leaves alone (R21, R36, R46). -/

namespace Sys2Proof.Machine

/-- S, the register banks and the wire `load_s` are as they were. -/
structure Ctx.KeepsS (c d : Ctx) : Prop where
  sRegs : d.s.sRegs = c.s.sRegs
  rb : d.s.rb = c.s.rb
  loadS : d.w.loadS = c.w.loadS

theorem Ctx.KeepsS.refl (c : Ctx) : c.KeepsS c :=
  ⟨rfl, rfl, rfl⟩

theorem Ctx.KeepsS.trans {a b c : Ctx} (h : a.KeepsS b) (k : b.KeepsS c) : a.KeepsS c :=
  ⟨k.sRegs.trans h.sRegs, k.rb.trans h.rb, k.loadS.trans h.loadS⟩

/-- A bus operation or a contract call, whatever it does to the other wires. -/
theorem State.BusFrame.keepsS {c d : Ctx} (h : c.s.BusFrame d.s) (hw : d.w.loadS = c.w.loadS) : c.KeepsS d := by
  obtain ⟨s, w⟩ := d
  obtain ⟨_, _, _, _, _, _, _, _, _, _, _, _, _, _, _, rfl, _⟩ := h
  exact ⟨rfl, rfl, hw⟩

/-- The three acts that touch S are not permitted to a task that is not RAM-resident; no other act touches it. -/
theorem Ctx.basicAct_keepsS {site : HookSite} {a : HookAct} (hp : a.permitted site false = true) (c : Ctx)
    (hr : c.s.status = .running) : c.KeepsS (c.basicAct a) := by
  cases a with
  | setS | setRb | raiseLoadS => simp [HookAct.permitted] at hp
  | loadMAR v xm => exact (c.s.busLoadMAR_bus _ _ _ hr).keepsS rfl
  | readMD => exact (c.s.busReadMD_bus hr).keepsS rfl
  | loadMD v => exact (c.s.busLoadMD_bus _).keepsS rfl
  | wakeupTask t => exact (c.s.wakeupTask_contract t).bus.keepsS rfl
  | blockTask t => exact (c.s.blockTask_contract t).bus.keepsS rfl
  | _ => exact ⟨rfl, rfl, rfl⟩

theorem Ctx.act_eq_basicAct {a : HookAct} (h : ∀ n, a ≠ .softReset n) (c : Ctx) : c.act a = c.basicAct a := by
  cases a with
  | softReset n => exact absurd rfl (h n)
  | _ => rfl

/-- Acts one after the other, each permitted and none a soft reset. -/
theorem Ctx.acts_keepsS {site : HookSite} (as : List HookAct)
    (h : ∀ a ∈ as, a.permitted site false = true ∧ ∀ n, a ≠ .softReset n) (c : Ctx) :
    c.KeepsS (as.foldl (fun (c : Ctx) a => c.andThen fun c => c.act a) c) := by
  have fold := Ctx.foldl_rel (R := Ctx.KeepsS) .refl .trans (as.map fun a c => c.act a) ?_ c
  · rwa [List.foldl_map] at fold
  · intro f hf c hr
    obtain ⟨a, ha, rfl⟩ := List.mem_map.1 hf
    obtain ⟨hp, hn⟩ := h a ha
    dsimp only
    rw [Ctx.act_eq_basicAct hn]
    exact Ctx.basicAct_keepsS hp c hr

/-- Settles O57: of the acts a hook asks for, the site's permissions leave none that touches S. -/
theorem hooksKeepS : Obligations.HooksKeepS := by
  intro c site d hram hsoft
  have count : c.KeepsS { s := c.s.countHook d, w := { c.w with md := 0 } } :=
    (c.s.countHook_contract d).bus.keepsS rfl
  have acts := Ctx.acts_keepsS (site := site) ((c.hookActs site d).filter (HookAct.permitted site false))
    (fun a ha => ⟨(List.mem_filter.1 ha).2, hsoft a (List.mem_filter.1 ha).1⟩)
    { s := c.s.countHook d, w := { c.w with md := 0 } }
  have hook : c.KeepsS (c.runActs site d) := by
    unfold Ctx.runActs Ctx.runActsWith
    rw [hram]
    exact count.trans acts
  exact ⟨hook.sRegs, hook.rb, hook.loadS⟩

end Sys2Proof.Machine
end

section
/-! O37: what a word without LT or LL, and a hook, leave alone (R46, R314, R315). -/

namespace Sys2Proof.Machine

/-- What the word `w`, run by slot `u`, leaves alone whatever its hooks do. -/
structure State.LoadFrame (w : MicroInstr) (u : Slot) (a b : State) : Prop where
  lt : w.lt = false → b.t = a.t ∧ b.crar = a.crar
  ll : w.ll = false → b.l = a.l ∧ b.m = a.m ∧ b.aluC0 = a.aluC0
  notRam : a.cfg.isRamTask u = false → b.m = a.m
  cfg : b.cfg = a.cfg
  agenda : b.agenda = a.agenda

namespace State.LoadFrame

theorem of_fields {w : MicroInstr} {u : Slot} {a b : State} (ht : b.t = a.t) (hcr : b.crar = a.crar) (hl : b.l = a.l)
    (hm : b.m = a.m) (hc : b.aluC0 = a.aluC0) (hcfg : b.cfg = a.cfg) (hag : b.agenda = a.agenda) : LoadFrame w u a b :=
  ⟨fun _ => ⟨ht, hcr⟩, fun _ => ⟨hl, hm, hc⟩, fun _ => hm, hcfg, hag⟩

theorem refl {w : MicroInstr} {u : Slot} (s : State) : LoadFrame w u s s :=
  of_fields rfl rfl rfl rfl rfl rfl rfl

theorem trans {w : MicroInstr} {u : Slot} {a b c : State} (h : LoadFrame w u a b) (k : LoadFrame w u b c) :
    LoadFrame w u a c where
  lt e := ⟨(k.lt e).1.trans (h.lt e).1, (k.lt e).2.trans (h.lt e).2⟩
  ll e := by
    obtain ⟨hl, hm, hc⟩ := h.ll e
    obtain ⟨kl, km, kc⟩ := k.ll e
    exact ⟨kl.trans hl, km.trans hm, kc.trans hc⟩
  notRam e := (k.notRam (h.cfg ▸ e)).trans (h.notRam e)
  cfg := k.cfg.trans h.cfg
  agenda := k.agenda.trans h.agenda

theorem of_hook {w : MicroInstr} {u : Slot} {a b : State} (h : a.HookFrame b) : LoadFrame w u a b :=
  of_fields h.t h.crar h.l h.m h.aluC0 h.cfg h.agenda

/-- The sub-steps other than the two loads write nothing of it. -/
theorem subStep_rel (w : MicroInstr) (u : Slot) : SubStep.Rel (LoadFrame w u) where
  refl := refl
  hook := of_hook
  update _ _ _ _ _ _ _ _ _ _ _ _ _ := of_fields rfl rfl rfl rfl rfl rfl rfl

end State.LoadFrame

theorem SubStep.run_loadFrame (w : MicroInstr) (g : SubStep) (c : Ctx) (hr : c.s.status = .running) :
    State.LoadFrame w c.w.slot c.s (g.run (Stages.of w) c).s := by
  refine SubStep.run_rel (State.LoadFrame.subStep_rel w c.w.slot) w ?loadT g c ?loadL hr
  case loadT =>
    intro h s t cr
    exact ⟨fun e => by simp [h] at e, fun _ => ⟨rfl, rfl, rfl⟩, fun _ => rfl, rfl, rfl⟩
  case loadL =>
    intro h s l m ac hm
    exact ⟨fun _ => ⟨rfl, rfl⟩, fun e => by simp [h] at e, hm, rfl, rfl⟩

theorem executeNext_loadFrame (w : MicroInstr) (s : State) :
    State.LoadFrame w s.cur s (executeNext (Stages.of w) (Ctx.begin w s)).s := by
  refine (executeNext_inv (P := fun c => c.w.slot = s.cur ∧ State.LoadFrame w s.cur s c.s) w ?_ _ ⟨rfl, .refl s⟩).2
  rintro g c ⟨hslot, hframe⟩ hr
  have run := g.run_loadFrame w c hr
  rw [hslot] at run
  exact ⟨(g.run_fixed w c).slot.trans hslot, hframe.trans run⟩

theorem Ctx.complete_loadFrame (w : MicroInstr) (u : Slot) (c : Ctx) : State.LoadFrame w u c.s c.complete := by
  rcases c.complete_cases with e | e | e <;> rw [e]
  · exact .refl _
  · exact .of_fields rfl rfl rfl rfl rfl rfl rfl
  · obtain ⟨cur, nt, fi, h⟩ := c.s.commitSwitch_hook
    exact .of_fields h.t h.crar h.l h.m h.aluC0 h.cfg h.agenda

/-- An instruction keeps what no load of it writes (R46). -/
theorem exec_loadFrame {i : Instr} {s t : State} (h : exec i s = .next t) : State.LoadFrame i.word s.cur s t := by
  rcases exec_cases h with rfl | ⟨_, _, rfl⟩
  · exact .refl _
  · exact (executeNext_loadFrame i.word s).trans (Ctx.complete_loadFrame i.word s.cur _)

/-- Settles O37: only the sub-steps LT and LL write these fields. -/
theorem frameLoads : Obligations.FrameLoads := by
  intro i s t h
  have frame := exec_loadFrame h
  exact ⟨frame.lt, frame.ll, frame.notRam, frame.cfg, frame.agenda⟩

end Sys2Proof.Machine
end

section
/-! O13: no part of a system step writes the parameters (R48). -/

namespace Sys2Proof.Machine

theorem State.foldl_cfg {α : Type} {f : State → α → State} (hf : ∀ (s : State) a, (f s a).cfg = s.cfg) (as : List α)
    (s : State) : (as.foldl f s).cfg = s.cfg := by
  induction as generalizing s with
  | nil => rfl
  | cons a as ih => exact (ih _).trans (hf s a)

theorem State.resetHs_cfg (s : State) (t : Slot) : (s.resetHs t).cfg = s.cfg := by
  unfold State.resetHs
  split <;> rfl

theorem State.resetSelect_cfg (s : State) : s.resetSelect.cfg = s.cfg := by
  unfold State.resetSelect
  split <;> rfl

/-- A hard reset keeps the parameters (log 25). -/
theorem State.hardReset_cfg (s : State) : s.hardReset.cfg = s.cfg := by
  unfold State.hardReset
  rw [State.resetSelect_cfg, State.foldl_cfg (f := State.resetWakeup) (fun _ _ => rfl),
    State.foldl_cfg State.resetHs_cfg]

theorem State.hostCall_cfg (s : State) (h : HostCall) : (s.hostCall h).cfg = s.cfg := by
  cases h with
  | wakeupTask t => exact (s.wakeupTask_contract t).bus.hook.cfg
  | blockTask t => exact (s.blockTask_contract t).bus.hook.cfg
  | softReset => exact s.softReset_hook.cfg
  | reset => exact s.hardReset_cfg
  | deviceStore xm a w => rfl

theorem State.outside_cfg (s : State) : s.outside.cfg = s.cfg := by
  unfold State.outside
  split
  · rfl
  · exact State.foldl_cfg State.hostCall_cfg _ _

/-- What a system step that answers a state is made of: the outside's turn after nothing (a stopped machine), after
`Bus.Clock()` (which stopped it), or after `Bus.Clock()` and the fetched word (R300, R371). -/
theorem step_cases {s t : State} (h : step s = .next t) :
    t = s.outside ∨ t = s.busClock.outside ∨
      ∃ u, exec (decode s.busClock.fetchWord) s.busClock = .next u ∧ t = u.outside := by
  unfold step at h
  split at h
  · split at h
    · injection h with h
      exact .inl h.symm
    · split at h
      · injection h with h
        exact .inr (.inl h.symm)
      · rw [exec_eq] at h ⊢
        injection h with h
        exact .inr (.inr ⟨_, rfl, h.symm⟩)
  · cases h

/-- Settles O13: the bus's clock, the word and the outside each keep the parameters. -/
theorem parametersConstant : Obligations.ParametersConstant := by
  intro s t h
  have bus : s.busClock.cfg = s.cfg := s.busClock_bus.hook.cfg
  rcases step_cases h with rfl | rfl | ⟨u, hu, rfl⟩ <;> rw [State.outside_cfg]
  · exact bus
  · exact (exec_loadFrame hu).cfg.trans bus

end Sys2Proof.Machine
end

section
/-! O38 and O41: what one word of a slot without hooks leaves alone, of the registers and of the other slots. -/

namespace Sys2Proof.Machine

/-! ### Devices -/

/-- Main memory is the only device. -/
def Config.MainOnly (g : Config) : Prop :=
  ∀ d ∈ g.devices, d.kind = .mainMemory

theorem Config.MainOnly.deviceAt_ne {g : Config} (h : Config.MainOnly g) (a : Word) (id : Nat) :
    g.deviceAt a ≠ some (.external id) := by
  intro e
  obtain ⟨d, hd, hk⟩ := Option.map_eq_some_iff.1 e
  rw [h d (List.mem_of_find?_eq_some hd)] at hk
  cases hk

/-- WAKEUP and HS of every slot are as they were. -/
structure State.WakeupKept (a b : State) : Prop where
  wakeup : b.wakeup = a.wakeup
  hs : b.hs = a.hs

theorem State.memWrite_wakeupKept {s : State} (h : Config.MainOnly s.cfg) (a w : Word) : s.WakeupKept (s.memWrite a w) := by
  unfold State.memWrite
  split
  · exact ⟨rfl, rfl⟩
  · exact ⟨rfl, rfl⟩
  · rename_i id e
    exact absurd e (h.deviceAt_ne a id)

theorem State.WakeupKept.andThen {a b : State} (h : a.WakeupKept b) {f : State → State}
    (hf : ∀ s, State.WakeupKept s (f s)) : a.WakeupKept (b.andThen f) := by
  rcases b.andThen_cases f with ⟨_, e⟩ | ⟨_, e⟩ <;> rw [e]
  · exact ⟨(hf b).wakeup.trans h.wakeup, (hf b).hs.trans h.hs⟩
  · exact h

/-- A store on the bus makes a contract call only where a device other than main memory serves it (R73). -/
theorem State.busLoadMD_wakeupKept {s : State} (h : Config.MainOnly s.cfg) (w : Word) : s.WakeupKept (s.busLoadMD w) := by
  unfold State.busLoadMD
  split
  · split
    · exact (State.memWrite_wakeupKept h _ _).andThen fun _ => ⟨rfl, rfl⟩
    · exact (State.memWrite_wakeupKept h _ _).andThen fun _ => ⟨rfl, rfl⟩
    · exact ⟨rfl, rfl⟩
  · exact ⟨rfl, rfl⟩

theorem State.busLoadMAR_wakeupKept (s : State) (a : Word) (t : Slot) (xm : Bool) : s.WakeupKept (s.busLoadMAR a t xm) := by
  unfold State.busLoadMAR
  split <;> exact ⟨rfl, rfl⟩

theorem State.busReadMD_wakeupKept (s : State) : s.WakeupKept s.busReadMD.2 := by
  unfold State.busReadMD
  split
  · split <;> exact ⟨rfl, rfl⟩
  · exact ⟨rfl, rfl⟩

/-- `BlockTask` of a slot without a policy (R352, R353). -/
theorem State.blockTask_free {s : State} {t : Slot} (h : s.hookFree t = true) :
    s.blockTask t = s ∨ s.blockTask t = s.fatal .fp3 ∨ s.blockTask t = s.setWakeup t false := by
  have policy : s.policy t .blockPolicy false = s.setWakeup t false := by
    unfold State.policy
    rw [Ctx.hookAt?_free (c := { s := s, w := Wires.idle t }) h]
  unfold State.blockTask
  rcases s.andThen_cases _ with ⟨_, e⟩ | ⟨_, e⟩ <;> rw [e]
  · split
    · exact .inl rfl
    · split
      · exact .inr (.inl rfl)
      · exact .inr (.inr policy)
  · exact .inl rfl

/-! ### The frame of a word -/

/-- The two vectors differ at `u` at most. -/
def OnlyAt {α : Type} {n : Nat} (u : Fin n) (v v' : Vector α n) : Prop :=
  ∀ k, k ≠ u → rd v' k = rd v k

theorem OnlyAt.refl {α : Type} {n : Nat} {u : Fin n} (v : Vector α n) : OnlyAt u v v :=
  fun _ _ => rfl

theorem OnlyAt.trans {α : Type} {n : Nat} {u : Fin n} {a b c : Vector α n} (h : OnlyAt u a b) (k : OnlyAt u b c) :
    OnlyAt u a c :=
  fun i hi => (k i hi).trans (h i hi)

theorem onlyAt_wr {α : Type} {n : Nat} (u : Fin n) (v : Vector α n) (x : α) : OnlyAt u v (wr v u x) :=
  fun _ hk => rd_wr_other v x hk.symm

/-- The registers a word may write only through `LoadR`, or not at all. -/
structure State.RegisterFrame (w : MicroInstr) (a b : State) : Prop where
  r : ∀ k, ¬(loadsR w = true ∧ k = w.rsel) → b.getR k = a.getR k
  sRegs : b.sRegs = a.sRegs
  ir : b.ir = a.ir
  skip : b.skip = a.skip
  dnsCarry : b.dnsCarry = a.dnsCarry
  rmr : b.rmr = a.rmr
  rb : b.rb = a.rb

theorem State.RegisterFrame.refl {w : MicroInstr} (s : State) : State.RegisterFrame w s s :=
  ⟨fun _ _ => rfl, rfl, rfl, rfl, rfl, rfl, rfl⟩

theorem State.RegisterFrame.trans {w : MicroInstr} {a b c : State} (h : State.RegisterFrame w a b)
    (k : State.RegisterFrame w b c) : State.RegisterFrame w a c :=
  ⟨fun i hi => (k.r i hi).trans (h.r i hi), k.sRegs.trans h.sRegs, k.ir.trans h.ir, k.skip.trans h.skip,
    k.dnsCarry.trans h.dnsCarry, k.rmr.trans h.rmr, k.rb.trans h.rb⟩

/-- The per-slot items a word of slot `u` may write for `u` only. -/
structure State.SlotFrame (w : MicroInstr) (u : Slot) (a b : State) : Prop where
  mpc : OnlyAt u a.mpc b.mpc
  nextMod : OnlyAt u a.nextMod b.nextMod
  bank : OnlyAt u a.bank b.bank
  swModeP : OnlyAt u a.swModeP b.swModeP
  rdRamP : OnlyAt u a.rdRamP b.rdRamP
  wrtRamP : OnlyAt u a.wrtRamP b.wrtRamP
  first : OnlyAt u a.first b.first
  hs : Config.MainOnly a.cfg → b.hs = a.hs
  wakeup : Config.MainOnly a.cfg → ∀ k, (w.f1 ≠ .block ∨ k ≠ u) → rd b.wakeup k = rd a.wakeup k
  nextTask : b.nextTask = a.nextTask
  cfg : b.cfg = a.cfg

theorem State.SlotFrame.refl {w : MicroInstr} {u : Slot} (s : State) : State.SlotFrame w u s s :=
  ⟨.refl _, .refl _, .refl _, .refl _, .refl _, .refl _, .refl _, fun _ => rfl, fun _ _ _ => rfl, rfl, rfl⟩

theorem State.SlotFrame.trans {w : MicroInstr} {u : Slot} {a b c : State} (h : State.SlotFrame w u a b)
    (k : State.SlotFrame w u b c) : State.SlotFrame w u a c where
  mpc := h.mpc.trans k.mpc
  nextMod := h.nextMod.trans k.nextMod
  bank := h.bank.trans k.bank
  swModeP := h.swModeP.trans k.swModeP
  rdRamP := h.rdRamP.trans k.rdRamP
  wrtRamP := h.wrtRamP.trans k.wrtRamP
  first := h.first.trans k.first
  hs e := (k.hs (h.cfg ▸ e)).trans (h.hs e)
  wakeup e i hi := (k.wakeup (h.cfg ▸ e) i hi).trans (h.wakeup e i hi)
  nextTask := k.nextTask.trans h.nextTask
  cfg := k.cfg.trans h.cfg

theorem State.SlotFrame.of_fields {w : MicroInstr} {u : Slot} {a b : State} (mpc : OnlyAt u a.mpc b.mpc)
    (nextMod : OnlyAt u a.nextMod b.nextMod) (bank : OnlyAt u a.bank b.bank) (swModeP : OnlyAt u a.swModeP b.swModeP)
    (rdRamP : OnlyAt u a.rdRamP b.rdRamP) (wrtRamP : OnlyAt u a.wrtRamP b.wrtRamP) (first : OnlyAt u a.first b.first)
    (hs : b.hs = a.hs) (wakeup : b.wakeup = a.wakeup) (nextTask : b.nextTask = a.nextTask) (cfg : b.cfg = a.cfg) :
    State.SlotFrame w u a b :=
  ⟨mpc, nextMod, bank, swModeP, rdRamP, wrtRamP, first, fun _ => hs, fun _ k _ => congrArg (rd · k) wakeup, nextTask, cfg⟩

/-- What a word of slot `u` leaves alone where `u` has no hooks. -/
structure State.WordFrame (w : MicroInstr) (u : Slot) (a b : State) : Prop where
  registers : State.RegisterFrame w a b
  slots : State.SlotFrame w u a b

namespace State.WordFrame

variable {w : MicroInstr} {u : Slot}

theorem refl (s : State) : WordFrame w u s s :=
  ⟨.refl s, .refl s⟩

theorem trans {a b c : State} (h : WordFrame w u a b) (k : WordFrame w u b c) : WordFrame w u a c :=
  ⟨h.registers.trans k.registers, h.slots.trans k.slots⟩

theorem of_bus {a b : State} (h : a.BusFrame b) (k : Config.MainOnly a.cfg → a.WakeupKept b) : WordFrame w u a b := by
  obtain ⟨_, _, _, _, _, _, _, _, _, _, _, _, _, _, _, rfl, _⟩ := h
  exact ⟨⟨fun _ _ => rfl, rfl, rfl, rfl, rfl, rfl, rfl⟩, .refl _, .refl _, .refl _, .refl _, .refl _, .refl _, .refl _,
    fun e => (k e).hs, fun e i _ => congrArg (rd · i) (k e).wakeup, rfl, rfl⟩

/-- Entries of slot `u`, and items that the frame does not speak of. -/
theorem update {s : State} {t cr l m c0 cy cs st o mpc nm bank sp rp wp fi} (hmpc : OnlyAt u s.mpc mpc)
    (hnm : OnlyAt u s.nextMod nm) (hbank : OnlyAt u s.bank bank) (hsp : OnlyAt u s.swModeP sp)
    (hrp : OnlyAt u s.rdRamP rp) (hwp : OnlyAt u s.wrtRamP wp) (hfi : OnlyAt u s.first fi) :
    WordFrame w u s
      { s with t := t, crar := cr, l := l, m := m, aluC0 := c0, aluCarry := cy, csRam := cs, status := st, oracle := o
               mpc := mpc, nextMod := nm, bank := bank, swModeP := sp, rdRamP := rp, wrtRamP := wp, first := fi } :=
  ⟨⟨fun _ _ => rfl, rfl, rfl, rfl, rfl, rfl, rfl⟩,
    .of_fields hmpc hnm hbank hsp hrp hwp hfi rfl rfl rfl rfl⟩

theorem unwatched {s : State} {t cr l m c0 cy cs st o} : WordFrame w u s
    { s with t := t, crar := cr, l := l, m := m, aluC0 := c0, aluCarry := cy, csRam := cs, status := st, oracle := o } :=
  update (.refl _) (.refl _) (.refl _) (.refl _) (.refl _) (.refl _) (.refl _)

theorem fatal (s : State) (i : FatalInfo) : WordFrame w u s (s.fatal i) :=
  unwatched

theorem setMpc (s : State) (a : Addr) : WordFrame w u s (s.setMpc u a) :=
  update (onlyAt_wr _ _ _) (.refl _) (.refl _) (.refl _) (.refl _) (.refl _) (.refl _)

theorem setNextMod (s : State) (a : Addr) : WordFrame w u s (s.setNextMod u a) :=
  update (.refl _) (onlyAt_wr _ _ _) (.refl _) (.refl _) (.refl _) (.refl _) (.refl _)

theorem setBank (s : State) (b : Bank) : WordFrame w u s (s.setBank u b) :=
  update (.refl _) (.refl _) (onlyAt_wr _ _ _) (.refl _) (.refl _) (.refl _) (.refl _)

theorem setSwModeP (s : State) (b : Bool) : WordFrame w u s (s.setSwModeP u b) :=
  update (.refl _) (.refl _) (.refl _) (onlyAt_wr _ _ _) (.refl _) (.refl _) (.refl _)

theorem setRdRamP (s : State) (b : Bool) : WordFrame w u s (s.setRdRamP u b) :=
  update (.refl _) (.refl _) (.refl _) (.refl _) (onlyAt_wr _ _ _) (.refl _) (.refl _)

theorem setWrtRamP (s : State) (b : Bool) : WordFrame w u s (s.setWrtRamP u b) :=
  update (.refl _) (.refl _) (.refl _) (.refl _) (.refl _) (onlyAt_wr _ _ _) (.refl _)

theorem setFirst (s : State) (b : Bool) : WordFrame w u s (s.setFirst u b) :=
  update (.refl _) (.refl _) (.refl _) (.refl _) (.refl _) (.refl _) (onlyAt_wr _ _ _)

/-- The write-back of R by a word with `LoadR` (R312). -/
theorem setR (h : loadsR w = true) (s : State) (v : Word) : WordFrame w u s (s.setR w.rsel v) :=
  ⟨⟨fun _ hk => rd_wr_other s.r v fun e => hk ⟨h, (BitVec.toFin_injective e).symm⟩, rfl, rfl, rfl, rfl, rfl, rfl⟩,
    .of_fields (.refl _) (.refl _) (.refl _) (.refl _) (.refl _) (.refl _) (.refl _) rfl rfl rfl rfl⟩

/-- `BLOCK` of a slot without a policy (R213). -/
theorem blockTask (h : w.f1 = .block) {s : State} (hf : s.hookFree u = true) : WordFrame w u s (s.blockTask u) := by
  rcases State.blockTask_free hf with e | e | e <;> rw [e]
  · exact .refl s
  · exact .fatal s _
  · exact ⟨⟨fun _ _ => rfl, rfl, rfl, rfl, rfl, rfl, rfl⟩, .refl _, .refl _, .refl _, .refl _, .refl _, .refl _,
      .refl _, fun _ => rfl, fun _ k hk => onlyAt_wr u s.wakeup false k (hk.resolve_left (not_not_intro h)), rfl, rfl⟩

theorem hookFree {a b : State} (h : WordFrame w u a b) (v : Slot) : b.hookFree v = a.hookFree v := by
  unfold State.hookFree
  rw [h.slots.cfg]

end State.WordFrame

/-! ### One sub-step where no hook runs -/

/-- The wires of a word of slot `u` that only hooks would change, once its register is selected (R304). -/
structure Wires.Quiet (w : MicroInstr) (u : Slot) (x : Wires) : Prop where
  mi : x.mi = w
  slot : x.slot = u
  rsel : x.rsel = w.rsel
  loadR : x.loadR = true → loadsR w = true
  loadS : x.loadS = false
  shMod : x.shMod = .none

/-- A sub-step of such a word. -/
structure Ctx.QuietStep (w : MicroInstr) (u : Slot) (c d : Ctx) : Prop where
  wires : d.w.Quiet w u
  frame : State.WordFrame w u c.s d.s

section

variable {w : MicroInstr} {u : Slot}

theorem Wires.Quiet.keep {x y : Wires} (h : x.Quiet w u)
    (e : (y.mi, y.slot, y.rsel, y.loadR, y.loadS, y.shMod) = (x.mi, x.slot, x.rsel, x.loadR, x.loadS, x.shMod)) :
    y.Quiet w u := by
  simp only [Prod.mk.injEq] at e
  obtain ⟨hmi, hslot, hrsel, hloadR, hloadS, hshMod⟩ := e
  exact ⟨hmi.trans h.mi, hslot.trans h.slot, hrsel.trans h.rsel, fun k => h.loadR (hloadR ▸ k), hloadS.trans h.loadS,
    hshMod.trans h.shMod⟩

theorem Ctx.QuietStep.refl {c : Ctx} (h : c.w.Quiet w u) : c.QuietStep w u c :=
  ⟨h, .refl _⟩

theorem Ctx.QuietStep.trans {a b c : Ctx} (h : a.QuietStep w u b) (k : b.QuietStep w u c) : a.QuietStep w u c :=
  ⟨k.wires, h.frame.trans k.frame⟩

/-- The sub-step goes on only while the machine runs. -/
theorem Ctx.QuietStep.andThen {c d : Ctx} (h : c.QuietStep w u d) {f : Ctx → Ctx} (hf : d.QuietStep w u (f d)) :
    c.QuietStep w u (d.andThen f) := by
  rcases d.andThen_cases f with ⟨_, e⟩ | ⟨_, e⟩ <;> rw [e]
  · exact h.trans hf
  · exact h

/-- A hook that is not defined does nothing. -/
theorem Ctx.quiet_hook {c : Ctx} (h : c.w.Quiet w u) (hf : c.s.hookFree u = true) (site : HookSite) :
    c.QuietStep w u (c.hook site) := by
  rw [Ctx.hook_free (h.slot.symm ▸ hf)]
  exact .refl h

/-- A code that needs a hook is fatal (R241). -/
theorem Ctx.quiet_hookOr {c : Ctx} (h : c.w.Quiet w u) (hf : c.s.hookFree u = true) (site : HookSite) (i : FatalInfo) :
    c.QuietStep w u (c.hookOr site i) := by
  rw [Ctx.hookOr_free (h.slot.symm ▸ hf)]
  exact ⟨h, .fatal _ _⟩

/-- Only a constant code keeps `LoadR` from naming its register (R199). -/
theorem sourceTable_quiet {c : Ctx} (h : c.w.Quiet w u) (hf : c.s.hookFree u = true) (hr : c.s.status = .running)
    (hsf : w.constSf = false) : c.QuietStep w u (sourceTable w.bs c) := by
  have undriven : c.QuietStep w u (c.withBus 0xFFFF) := ⟨h.keep rfl, .refl _⟩
  have task : ∀ b, c.QuietStep w u (c.taskSource b) := fun b =>
    undriven.trans (Ctx.quiet_hookOr (c := c.withBus 0xFFFF) undriven.wires hf (.busSource b) (.fd2 b c.w.slot))
  cases hb : w.bs with
  | loadR => exact ⟨⟨h.mi, h.slot, h.rsel, fun _ => by simp [loadsR, hb, hsf], h.loadS, h.shMod⟩, .refl _⟩
  | taskSpecific1 => exact task _
  | taskSpecific2 => exact task _
  | readMD => exact ⟨h.keep rfl, .of_bus (c.s.busReadMD_bus hr) fun _ => c.s.busReadMD_wakeupKept⟩
  | readMouse => exact ⟨h.keep rfl, .unwatched⟩
  | readR | noSource | readDisp => exact ⟨h.keep rfl, .refl _⟩

theorem f1Table_quiet {c : Ctx} (h : c.w.Quiet w u) (hf : c.s.hookFree u = true) (hr : c.s.status = .running) :
    c.QuietStep w u (f1Table w.f1 c) := by
  have late : ∀ f, c.QuietStep w u (c.taskF1 f) := fun f => Ctx.quiet_hookOr h hf _ _
  cases hf1 : w.f1 with
  | loadMAR => exact ⟨h, .of_bus (c.s.busLoadMAR_bus _ _ _ hr) fun _ => c.s.busLoadMAR_wakeupKept _ _ _⟩
  | task => simp only [f1Table, spTask]; split <;> exact ⟨h.keep rfl, .refl _⟩
  | block => exact ⟨h.keep rfl, h.slot.symm ▸ .blockTask hf1 (h.slot.symm ▸ hf)⟩
  | nop | llsh1 | lrsh1 | llcy8 | constant => exact ⟨h.keep rfl, .refl _⟩
  | ts8 | ts9 | ts10 | ts11 | ts12 | ts13 | ts14 | ts15 => exact late _

theorem f2Table_quiet {c : Ctx} (h : c.w.Quiet w u) (hf : c.s.hookFree u = true) :
    c.QuietStep w u (f2Table w.f2 c) := by
  have late : ∀ f, c.QuietStep w u (c.taskF2 f) := fun f => Ctx.quiet_hookOr h hf _ _
  cases w.f2 with
  | busZero => simp only [f2Table, spBusZero]; split <;> exact ⟨h.keep rfl, .refl _⟩
  | storeMD =>
    simp only [f2Table, spStoreMD]
    split
    · exact .refl h
    · exact ⟨h, .of_bus (c.s.busLoadMD_bus _) fun e => State.busLoadMD_wakeupKept e _⟩
  | nop | shNeg | shZero | bus | aluCy | constant => exact ⟨h.keep rfl, .refl _⟩
  | ts8 | ts9 | ts10 | ts11 | ts12 | ts13 | ts14 | ts15 => exact late _

/-- The shifter's tests change the branch bits alone (R222, R223). -/
theorem f2TestTable_quiet {c : Ctx} (h : c.w.Quiet w u) (f : F2Code) : c.QuietStep w u (f2TestTable f c) := by
  cases f
  case shNeg => simp only [f2TestTable, spShNeg]; split <;> exact ⟨h.keep rfl, .refl _⟩
  case shZero => simp only [f2TestTable, spShZero]; split <;> exact ⟨h.keep rfl, .refl _⟩
  all_goals exact .refl h

/-- Without a modifier no operation of the shifter changes DNSCARRY (R172, R173, R176). -/
theorem doOperation_none_carry (op : ShOp) (input aux : Word) (c : Bool) : (doOperation op .none input aux c).2 = c := by
  cases op <;> rfl

theorem runShifter_quiet {c : Ctx} (h : c.w.Quiet w u) : c.QuietStep w u (runShifter c) := by
  have state : (runShifter c).s = c.s := by
    simp only [runShifter, h.shMod, doOperation_none_carry, ite_self]
  exact ⟨h.keep rfl, state ▸ .refl _⟩

theorem pendingRead_quiet {c : Ctx} (h : c.w.Quiet w u) : c.QuietStep w u (pendingRead c) := by
  obtain rfl := h.slot
  unfold pendingRead
  split
  · refine Ctx.QuietStep.andThen (d := { c with s := c.s.readRam.2 }) ⟨h, ?_⟩
      ⟨h.keep rfl, .setRdRamP _ _⟩
    rcases c.s.readRam_cases with e | e <;> dsimp only <;> rw [e]
    · exact .refl _
    · exact .fatal _ _
  · exact .refl h

theorem pendingWrite_quiet {c : Ctx} (h : c.w.Quiet w u) : c.QuietStep w u (pendingWrite c) := by
  obtain rfl := h.slot
  unfold pendingWrite
  split
  · refine Ctx.QuietStep.andThen (d := { c with s := c.s.writeRam c.w.alu c.s.m }) ⟨h, ?_⟩
      ⟨h.keep rfl, .setWrtRamP _ _⟩
    rcases c.s.writeRam_cases c.w.alu c.s.m with e | e | ⟨b, _, e⟩ <;> dsimp only <;> rw [e]
    · exact .refl _
    · exact .fatal _ _
    · exact .unwatched
  · exact .refl h

/-- Every sub-step of a word of a slot without hooks (R301). -/
theorem SubStep.run_quiet {c : Ctx} (g : SubStep) (h : c.w.Quiet w u) (hf : c.s.hookFree u = true)
    (hr : c.s.status = .running) : c.QuietStep w u (g.run (Stages.of w) c) := by
  obtain rfl := h.slot
  cases g with
  | branchBits => exact ⟨h.keep rfl, .setNextMod _ _⟩
  | register => exact ⟨⟨h.mi, h.slot, congrArg MicroInstr.rsel h.mi, h.loadR, h.loadS, h.shMod⟩, .refl _⟩
  | earlyF2 => exact Ctx.quiet_hook h hf _
  | source =>
    simp only [SubStep.run, selectSource]
    split
    · exact ⟨h.keep rfl, .refl _⟩
    · rename_i hsf
      exact sourceTable_quiet h hf hr (by simpa [h.mi] using hsf)
  | mask => simp only [SubStep.run, maskConstant]; split <;> exact ⟨h.keep rfl, .refl _⟩
  | ramRead => exact pendingRead_quiet h
  | postBusF2 =>
    simp only [SubStep.run, Sys2Proof.Machine.postBusF2]
    split
    · exact Ctx.quiet_hook h hf _
    · exact .refl h
  | earlyF1 =>
    simp only [SubStep.run, Sys2Proof.Machine.earlyF1]
    split
    · exact Ctx.quiet_hook h hf _
    · exact .refl h
  | alu =>
    simp only [SubStep.run, runAlu]
    split
    · exact ⟨h, .fatal _ _⟩
    · exact ⟨h.keep rfl, .unwatched⟩
  | ramWrite => exact pendingWrite_quiet h
  | f1 => exact f1Table_quiet h hf hr
  | f2 => exact f2Table_quiet h hf
  | shifter => exact runShifter_quiet h
  | f2Test => exact f2TestTable_quiet h _
  | writeR =>
    simp only [SubStep.run, writeBackR]
    split
    · exact ⟨h, h.rsel ▸ .setR (h.loadR ‹_›) _ _⟩
    · exact .refl h
  | writeS =>
    simp only [SubStep.run, writeBackS, h.loadS]
    exact .refl h
  | loadT => simp only [SubStep.run, Stages.of]; cases w.lt <;> exact ⟨h, .unwatched⟩
  | loadL => simp only [SubStep.run, Stages.of]; cases w.ll <;> exact ⟨h, .unwatched⟩
  | afterShift => exact Ctx.quiet_hook h hf _
  | bankSwitch =>
    simp only [SubStep.run, pendingSwitch]
    split
    · exact ⟨h, .trans (.setBank _ _) (.setSwModeP _ _)⟩
    · exact .refl h
  | blockHook =>
    simp only [SubStep.run, Sys2Proof.Machine.blockHook]
    split
    · exact Ctx.quiet_hook h hf _
    · exact .refl h
  | nextAddress =>
    simp only [SubStep.run, Sys2Proof.Machine.nextAddress]
    split
    · exact ⟨h, .setNextMod _ _⟩
    · exact ⟨h, .trans (.setMpc _ _) (.setNextMod _ _)⟩
  | clearFirst => exact ⟨h, .setFirst _ _⟩

end

/-! ### The whole word -/

/-- The first two sub-steps end no word, so the others begin from what they leave (R303, R304). -/
theorem executeNext_from_register (p : Stages) {c : Ctx} (hr : c.s.status = .running) :
    executeNext p c = ((subSteps p).drop 2).foldl Ctx.andThen (selectRegister (takeBranchBits c)) := by
  show ((subSteps p).drop 2).foldl Ctx.andThen ((c.andThen takeBranchBits).andThen selectRegister) = _
  rw [Ctx.andThen_running hr, Ctx.andThen_running (c := takeBranchBits c) hr]

/-- Once the register is selected, every further sub-step keeps the wires quiet. -/
theorem executeNext_wordFrame (w : MicroInstr) {s : State} (hr : s.status = .running) (hf : s.hookFree s.cur = true) :
    State.WordFrame w s.cur s (executeNext (Stages.of w) (Ctx.begin w s)).s := by
  have start : (Ctx.begin w s).QuietStep w s.cur (selectRegister (takeBranchBits (Ctx.begin w s))) :=
    ⟨⟨rfl, rfl, rfl, nofun, rfl, rfl⟩, .setNextMod _ _⟩
  rw [executeNext_from_register (Stages.of w) (c := Ctx.begin w s) hr]
  refine (Ctx.foldl_inv (P := fun d => (Ctx.begin w s).QuietStep w s.cur d) _ ?_ _ start).frame
  intro f hmem d hd hrun
  obtain ⟨g, rfl⟩ := mem_subSteps (List.mem_of_mem_drop hmem)
  exact hd.trans (g.run_quiet hd.wires ((hd.frame.hookFree _).trans hf) hrun)

theorem State.commitSwitch_some {s : State} {n : Slot} (h : s.nextTask = some n) :
    s.commitSwitch = ((s.switchedTo n).hook .onTaskSwitch).s := by
  simp only [State.commitSwitch, h]
  rfl

/-- The arbiter writes CUR, NEXT_TASK and FIRST of the slot it switches to, where that slot has no hooks (R342, R344). -/
theorem Ctx.complete_free {c : Ctx} (h : ∀ n, c.s.nextTask = some n → c.s.hookFree n = true) :
    ∃ cur nt fi, c.complete = { c.s with cur := cur, nextTask := nt, first := fi } ∧
      ∀ k, c.s.nextTask ≠ some k → rd fi k = rd c.s.first k := by
  rcases c.complete_cases with e | e | e <;> rw [e]
  · exact ⟨_, _, _, rfl, fun _ _ => rfl⟩
  · exact ⟨_, _, _, rfl, fun _ _ => rfl⟩
  · cases hn : c.s.nextTask with
    | none => exact ⟨_, _, _, by simp only [State.commitSwitch, hn]; rfl, fun _ _ => rfl⟩
    | some n =>
      rw [State.commitSwitch_some hn, Ctx.hook_free (c := c.s.switchedTo n) (h n hn)]
      exact ⟨_, _, _, rfl, fun k hk => rd_wr_other _ _ fun e => hk (congrArg some e)⟩

/-- An instruction where no hook runs: the frame of its word, then the arbiter. -/
theorem exec_noHooks {i : Instr} {s t : State} (hn : s.noHooks) (h : exec i s = .next t) :
    ∃ e cur nt fi, State.WordFrame i.word s.cur s e ∧ t = { e with cur := cur, nextTask := nt, first := fi } ∧
      ∀ k, s.nextTask ≠ some k → rd fi k = rd e.first k := by
  obtain ⟨hcur, hnext⟩ := hn
  rcases exec_cases h with rfl | ⟨hr, _, rfl⟩
  · exact ⟨t, _, _, _, .refl t, rfl, fun _ _ => rfl⟩
  · have frame := executeNext_wordFrame i.word hr hcur
    obtain ⟨cur, nt, fi, e, hfi⟩ := Ctx.complete_free (c := executeNext (Stages.of i.word) (Ctx.begin i.word s))
      fun n hn => (frame.hookFree n).trans (hnext n (frame.slots.nextTask ▸ hn))
    exact ⟨_, cur, nt, fi, frame, e, fun k hk => hfi k (frame.slots.nextTask.symm ▸ hk)⟩

/-- Settles O38: `LoadR` names the one register a quiet word writes, and no sub-step of it writes the others. -/
theorem frameRegisters : Obligations.FrameRegisters := by
  intro i s t hn h
  obtain ⟨e, _, _, _, frame, rfl, _⟩ := exec_noHooks hn h
  obtain ⟨r, sRegs, ir, skip, dnsCarry, rmr, rb⟩ := frame.registers
  exact ⟨r, sRegs, ir, skip, dnsCarry, rmr, rb⟩

/-- Settles O41: a quiet word writes the entries of its own slot, and the arbiter FIRST of the slot it switches to. -/
theorem frameSlots : Obligations.FrameSlots := by
  intro i s t hn h
  obtain ⟨e, _, _, fi, frame, rfl, hfi⟩ := exec_noHooks hn h
  have slots := frame.slots
  refine ⟨fun u hu => ?_, fun u hu hnext => ?_, fun main => ?_⟩
  · exact ⟨slots.mpc u hu, slots.nextMod u hu, slots.bank u hu, slots.swModeP u hu, slots.rdRamP u hu,
      slots.wrtRamP u hu⟩
  · exact (hfi u hnext).trans (slots.first u hu)
  · exact ⟨slots.hs main, slots.wakeup main⟩

end Sys2Proof.Machine
end

section
/-! O9: a placed word is the word the next step fetches (R61, R264). -/

namespace Sys2Proof.Machine

theorem tableCell_toNat (w : MicroWord) : tableCell 32 w.toNat = w := by
  rw [tableCell, Nat.mod_eq_of_lt w.isLt, BitVec.ofNat_toNat, BitVec.setWidth_eq]

/-- Placing a word leaves CUR, its bank and its address, so the same cell is fetched as before. -/
theorem State.fetchWord_setCsCell (s : State) (b : Bank) (a : Addr) (w : MicroWord) :
    (s.setCsCell b a w).fetchWord = (s.setCsCell b a w).csCell (rd s.bank s.cur) (rd s.mpc s.cur) := by
  unfold State.setCsCell
  split <;> rfl

/-- Settles O9: the bus's clock and the placing leave the place of the fetched cell, and the cell holds the word. -/
theorem placedWordIsFetched : Obligations.PlacedWordIsFetched := by
  intro s w hram hrom
  rw [State.busClock_fetchWord, State.withFetchWord, State.fetchWord_setCsCell, State.csCell_setCsCell _ _ _ hram hrom,
    tableCell_toNat]

end Sys2Proof.Machine
end

section
/-! O10: the word that waits for the bus (R70, R302, R346). -/

namespace Sys2Proof.Machine

/-- When the bus is not ready for an operation (R70). -/
theorem State.busReady_eq_false {s : State} {op : MemOp} : s.busReady op = false ↔ s.busActive = true ∧
    (op = .loadAddress ∨ (op = .read ∧ s.busCycle ≤ s.cfg.memTiming.readyReadAfter) ∨
      (op = .store ∧ s.busCycle ≤ s.cfg.memTiming.readyStoreAfter)) := by
  cases op <;> simp [State.busReady]

theorem State.stalls_iff {s : State} {w : MicroInstr} :
    s.stalls w = true ↔ ∃ op, w.memOp = some op ∧ s.busReady op = false := by
  unfold State.stalls
  cases w.memOp <;> simp

/-- Settles O10: a stalled `Clock()` does nothing, and it stalls where `Bus.Ready` of the word's operation is false. -/
theorem stallWaits : Obligations.StallWaits := by
  refine ⟨fun i s h => ?_, fun s w => ?_⟩
  · rw [exec_eq, State.clock_stalled h]
  · simp only [State.stalls_iff, State.busReady_eq_false]
    cases w.memOp with
    | none => simp
    | some op => simp only [Option.some.injEq, exists_eq_left']

end Sys2Proof.Machine
end

section
/-! The memory bus, one equation per case of each operation: devices (R75, R76), `Bus.ReadMD` (R71), `Bus.LoadMAR` (R69),
`Bus.LoadMD` (R72). O52 is the case of an unclaimed address. -/

namespace Sys2Proof.Machine

/-! ### Devices -/

theorem DeviceRange.claims_iff {d : DeviceRange} {a : Word} :
    d.claims a = true ↔ d.lo.toNat ≤ a.toNat ∧ a.toNat ≤ d.hi.toNat := by
  simp [DeviceRange.claims, BitVec.ule]

theorem Config.deviceAt_eq_none {g : Config} {a : Word} (h : ∀ d ∈ g.devices, ¬d.claims a = true) : g.deviceAt a = none := by
  rw [Config.deviceAt, List.find?_eq_none.2 h]
  rfl

theorem State.memRead_unclaimed {s : State} {a : Word} (h : s.cfg.deviceAt a = none) : s.memRead a = (0, s) := by
  simp only [State.memRead, h]

theorem State.memWrite_unclaimed {s : State} {a : Word} (h : s.cfg.deviceAt a = none) (w : Word) : s.memWrite a w = s := by
  simp only [State.memWrite, h]

theorem State.memRead_main {s : State} {a : Word} (h : s.cfg.deviceAt a = some .mainMemory) :
    s.memRead a = (s.memWord s.busXm a, s) := by
  simp only [State.memRead, h]

theorem State.memWrite_main {s : State} {a : Word} (h : s.cfg.deviceAt a = some .mainMemory) (w : Word) :
    s.memWrite a w = s.setMemWord s.busXm a w := by
  simp only [State.memWrite, h]

/-- Settles O52: no device's range claims the address, so neither access finds a device. -/
theorem unclaimedAddress : Obligations.UnclaimedAddress := by
  intro s a w h
  have unclaimed : s.cfg.deviceAt a = none :=
    Config.deviceAt_eq_none fun d hd hc => h d hd (DeviceRange.claims_iff.1 hc)
  exact ⟨State.memRead_unclaimed unclaimed, State.memWrite_unclaimed unclaimed w⟩

/-! ### `Bus.ReadMD` (R71) -/

theorem State.idleSecond_iff {s : State} : s.idleSecond = true ↔ s.cfg.memTiming.tSecondIdle = some s.busCycle ∨
    (s.busCycle = s.cfg.memTiming.tClose ∧ s.busDwMixed = true) := by
  simp [State.idleSecond]

theorem State.busReadMD_idle {s : State} (h : s.busActive = false) :
    s.busReadMD = (if s.idleSecond then s.busMd2 else s.busMd1, { s with busDwMixed := false }) := by
  simp [State.busReadMD, h]

theorem State.busReadMD_first {s : State} (h : s.busActive = true)
    (hw : windowAt s.cfg.memTiming.readWindow s.busCycle = some .first) : s.busReadMD = (s.busMd1, s) := by
  simp only [State.busReadMD, h, hw, if_true]

theorem State.busReadMD_second {s : State} (h : s.busActive = true)
    (hw : windowAt s.cfg.memTiming.readWindow s.busCycle = some .second) : s.busReadMD = (s.busMd2, s) := by
  simp only [State.busReadMD, h, hw, if_true]

theorem State.busReadMD_outside {s : State} (h : s.busActive = true)
    (hw : windowAt s.cfg.memTiming.readWindow s.busCycle = none) : s.busReadMD = (0, s.fatal (.fp2 s.busCycle)) := by
  simp only [State.busReadMD, h, hw, if_true]

/-! ### `Bus.LoadMAR` (R69) -/

theorem State.busLoadMAR_idle {s : State} (h : s.busActive = false) (a : Word) (t : Slot) (xm : Bool) :
    s.busLoadMAR a t xm = { s with
      busActive := true, busCycle := 1, busMar := a, busTask := t, busXm := xm, busDwStore := false, busDwMixed := false } := by
  simp [State.busLoadMAR, h]

theorem State.busLoadMAR_active {s : State} (h : s.busActive = true) (a : Word) (t : Slot) (xm : Bool) :
    s.busLoadMAR a t xm = s.fatal (.fp1 a t) := by
  simp [State.busLoadMAR, h]

/-! ### `Bus.LoadMD` (R72) -/

theorem State.busLoadMD_idle {s : State} (h : s.busActive = false) (w : Word) :
    s.busLoadMD w = s.warn .loadMDWhileIdle := by
  simp [State.busLoadMD, h]

theorem State.busLoadMD_outside {s : State} (h : s.busActive = true)
    (hw : windowAt s.cfg.memTiming.storeWindow s.busCycle = none) (w : Word) :
    s.busLoadMD w = s.warn .loadMDMistimed := by
  simp only [State.busLoadMD, h, hw, if_true]

/-- The address the second window stores at: the partner's, where the first window has stored (R72). -/
def State.secondAddress (s : State) : Word :=
  if s.busDwStore then s.cfg.memTiming.partner.apply s.busMar else s.busMar

theorem State.busLoadMD_first {s : State} (h : s.busActive = true)
    (hw : windowAt s.cfg.memTiming.storeWindow s.busCycle = some .first) (w : Word) :
    s.busLoadMD w = (s.memWrite s.busMar w).andThen fun s =>
      { s with busMd1 := w, busDwStore := true, busDwMixed := true } := by
  simp only [State.busLoadMD, h, hw, if_true]

theorem State.busLoadMD_second {s : State} (h : s.busActive = true)
    (hw : windowAt s.cfg.memTiming.storeWindow s.busCycle = some .second) (w : Word) :
    s.busLoadMD w = (s.memWrite s.secondAddress w).andThen fun s => { s with busMd1 := w } := by
  simp only [State.busLoadMD, h, hw, if_true, State.secondAddress]

/-- A store in the first window of an address that main memory claims. -/
theorem State.busLoadMD_first_main {s : State} (hr : s.status = .running) (h : s.busActive = true)
    (hw : windowAt s.cfg.memTiming.storeWindow s.busCycle = some .first)
    (hm : s.cfg.deviceAt s.busMar = some .mainMemory) (w : Word) :
    s.busLoadMD w = { s with mem := Memory.writeWord s.mem (mainIndex s.busXm s.busMar) w
                             busMd1 := w, busDwStore := true, busDwMixed := true } := by
  rw [State.busLoadMD_first h hw, State.memWrite_main hm,
    State.andThen_running (s := s.setMemWord s.busXm s.busMar w) hr]
  rfl

/-- A store in the second window of an address that main memory claims. -/
theorem State.busLoadMD_second_main {s : State} (hr : s.status = .running) (h : s.busActive = true)
    (hw : windowAt s.cfg.memTiming.storeWindow s.busCycle = some .second)
    (hm : s.cfg.deviceAt s.secondAddress = some .mainMemory) (w : Word) :
    s.busLoadMD w =
      { s with mem := Memory.writeWord s.mem (mainIndex s.busXm s.secondAddress) w, busMd1 := w } := by
  rw [State.busLoadMD_second h hw, State.memWrite_main hm,
    State.andThen_running (s := s.setMemWord s.busXm s.secondAddress w) hr]
  rfl

end Sys2Proof.Machine
end

section
/-! O20, O26 and O32: the three rows that call the memory bus, each at its sub-step (R196, R211, R227). -/

namespace Sys2Proof.Machine

/-- A word whose sub-step is fatal stops with the state that sub-step found (R371, R373). -/
theorem exec_fatal_at {i : Instr} {s : State} {g : SubStep} {e : FatalInfo} (h : s.reaches g i.word)
    (hg : (g.run (Stages.of i.word) (s.before g i.word)).s = (s.before g i.word).s.fatal e) :
    exec i s = .next ((s.before g i.word).s.fatal e) := by
  rw [exec_at h, Ctx.resume_stopped (by rw [hg]; exact nofun), hg]

theorem MicroInstr.constSf_eq_false {w : MicroInstr} (h1 : w.f1 ≠ .constant) (h2 : w.f2 ≠ .constant) : w.constSf = false := by
  simp [MicroInstr.constSf, h1, h2]

/-- Without a constant code the source is the word's own (R199). -/
theorem run_source {w : MicroInstr} {c : Ctx} (hmi : c.w.mi = w) (h : w.constSf = false) :
    SubStep.source.run (Stages.of w) c = sourceTable w.bs c := by
  subst hmi
  exact if_neg (by simp [h])

/-- Settles O20: the source is `Bus.ReadMD`, whose four cases are those of R71. -/
theorem readMdRow : Obligations.ReadMdRow := by
  intro o s c h1 h2 hreach hc
  have source : SubStep.source.run (Stages.of (o.word .readMD)) c = srcReadMD c :=
    run_source (hc ▸ s.before_mi _ _) (MicroInstr.constSf_eq_false h1 h2)
  have next : exec (.bsReadMD o) s = .next ((srcReadMD c).resume .source (o.word .readMD)) := by
    rw [← source, hc]
    exact exec_at (i := .bsReadMD o) hreach
  refine ⟨fun hidle => ?_, fun hact hw => ?_, fun hact hw => ?_, fun hact hw => ?_⟩
  · rw [next, srcReadMD, State.busReadMD_idle hidle]
    simp only [State.idleSecond_iff]
    rfl
  · rw [next, srcReadMD, State.busReadMD_first hact hw]
    rfl
  · rw [next, srcReadMD, State.busReadMD_second hact hw]
    rfl
  · rw [hc]
    refine exec_fatal_at (i := .bsReadMD o) hreach ?_
    rw [show (Instr.bsReadMD o).word = o.word .readMD from rfl, ← hc, source, srcReadMD,
      State.busReadMD_outside hact hw]

theorem extendedFlag_eq_decide (g : Config) (w : MicroInstr) :
    extendedFlag g w = decide (g.memTiming.variant = .variantB ∧ w.f2 = .storeMD) := by
  simp only [extendedFlag, Bool.decide_and, beq_eq_decide]

/-- Settles O26: special function 1 is `Bus.LoadMAR` at the ALU result, with the word's own flag. -/
theorem loadMarRow : Obligations.LoadMarRow := by
  intro o s c hreach hc
  have mi : c.w.mi = o.word .loadMAR := hc ▸ s.before_mi _ _
  refine ⟨fun hidle => ?_, fun hact => ?_⟩
  · have f1 : spLoadMAR c = { c with s := { c.s with
        busActive := true, busCycle := 1, busMar := c.w.alu, busTask := c.w.slot
        busXm := decide (c.s.cfg.memTiming.variant = .variantB ∧ o.f2 = .storeMD)
        busDwStore := false, busDwMixed := false } } := by
      rw [spLoadMAR, State.busLoadMAR_idle hidle, extendedFlag_eq_decide, mi]
      rfl
    rw [← f1, hc]
    exact exec_at (i := .f1LoadMAR o) hreach
  · rw [hc]
    exact exec_fatal_at (i := .f1LoadMAR o) hreach (State.busLoadMAR_active (hc ▸ hact) _ _ _)

/-- Settles O32: special function 2 is `Bus.LoadMD` of the bus value, but for an extended address load (R77). -/
theorem storeMdRow : Obligations.StoreMdRow := by
  intro o s c hreach hc
  have running : c.s.status = .running := hc ▸ hreach.2.2
  have mi : c.w.mi = o.word .storeMD := hc ▸ s.before_mi _ _
  have next : exec (.f2StoreMD o) s = .next ((spStoreMD c).resume .f2 (o.word .storeMD)) := by
    rw [hc]
    exact exec_at (i := .f2StoreMD o) hreach
  refine ⟨fun hmark => ?_, fun hstore => ?_⟩
  · rw [next, spStoreMD, if_pos (by rwa [mi])]
  have store : spStoreMD c = { c with s := c.s.busLoadMD c.w.bus } := if_neg (by rwa [mi])
  rw [next, store]
  refine ⟨fun hidle => ?_, fun hact hw => ?_, fun hact hw hm => ?_, fun a hact hw ha hm => ?_⟩
  · rw [State.busLoadMD_idle hidle]
  · rw [State.busLoadMD_outside hact hw]
  · rw [State.busLoadMD_first_main running hact hw hm]
  · obtain rfl : a = c.s.secondAddress := ha
    rw [State.busLoadMD_second_main running hact hw hm]

end Sys2Proof.Machine
end

section
/-! O39: what a word of a slot without hooks does to main memory (R72, R75, R227). -/

namespace Sys2Proof.Machine

/-! ### The store on the bus -/

theorem State.ContractFrame.mem {a b : State} (h : a.ContractFrame b) : b.mem = a.mem := by
  obtain ⟨_, _, _, _, rfl, _⟩ := h
  rfl

theorem State.andThen_mem {s : State} {f : State → State} (hf : ∀ s, (f s).mem = s.mem) : (s.andThen f).mem = s.mem := by
  rcases s.andThen_cases f with ⟨_, e⟩ | ⟨_, e⟩ <;> rw [e]
  exact hf s

/-- A store changes main memory where main memory claims the address, and there the one word (R75, R76). -/
theorem State.memWrite_mem (s : State) (a w : Word) : (s.memWrite a w).mem = s.mem ∨
    ∃ k, s.mainWord a = some k ∧ (s.memWrite a w).mem = Memory.writeWord s.mem k w := by
  unfold State.memWrite
  split
  · exact .inl rfl
  · rename_i e
    exact .inr ⟨_, if_pos e, rfl⟩
  · exact .inl (State.contractCalls_contract _ _).mem

/-- `Bus.LoadMD` changes no main memory, or the word that `storedWord` names. -/
theorem State.busLoadMD_mem (s : State) (w : Word) : (s.busLoadMD w).mem = s.mem ∨
    ∃ k, s.storedWord = some k ∧ (s.busLoadMD w).mem = Memory.writeWord s.mem k w := by
  cases hact : s.busActive with
  | false => rw [State.busLoadMD_idle hact]; exact .inl rfl
  | true =>
    cases hw : windowAt s.cfg.memTiming.storeWindow s.busCycle with
    | none => rw [State.busLoadMD_outside hact hw]; exact .inl rfl
    | some win =>
      simp only [State.storedWord, hact, hw, if_true]
      cases win with
      | first =>
        have kept : (s.busLoadMD w).mem = (s.memWrite s.busMar w).mem :=
          (congrArg State.mem (State.busLoadMD_first hact hw w)).trans (State.andThen_mem fun _ => rfl)
        rw [kept]
        exact s.memWrite_mem s.busMar w
      | second =>
        have kept : (s.busLoadMD w).mem = (s.memWrite s.secondAddress w).mem :=
          (congrArg State.mem (State.busLoadMD_second hact hw w)).trans (State.andThen_mem fun _ => rfl)
        rw [kept]
        exact s.memWrite_mem s.secondAddress w

/-! ### One sub-step where no hook runs -/

theorem State.busReadMD_mem (s : State) : s.busReadMD.2.mem = s.mem := by
  unfold State.busReadMD
  split
  · split <;> rfl
  · rfl

theorem State.busLoadMAR_mem (s : State) (a : Word) (t : Slot) (xm : Bool) : (s.busLoadMAR a t xm).mem = s.mem := by
  unfold State.busLoadMAR
  split <;> rfl

theorem Ctx.andThen_mem {c : Ctx} {f : Ctx → Ctx} (hf : ∀ c, (f c).s.mem = c.s.mem) : (c.andThen f).s.mem = c.s.mem := by
  rcases c.andThen_cases f with ⟨_, e⟩ | ⟨_, e⟩ <;> rw [e]
  exact hf c

theorem Ctx.hook_mem {c : Ctx} (h : c.s.hookFree c.w.slot = true) (site : HookSite) : (c.hook site).s.mem = c.s.mem := by
  rw [Ctx.hook_free h]

theorem Ctx.hookOr_mem {c : Ctx} (h : c.s.hookFree c.w.slot = true) (site : HookSite) (i : FatalInfo) :
    (c.hookOr site i).s.mem = c.s.mem := by
  rw [Ctx.hookOr_free h]
  rfl

theorem sourceTable_mem {c : Ctx} (h : c.s.hookFree c.w.slot = true) (b : BusSource) :
    (sourceTable b c).s.mem = c.s.mem := by
  have task : ∀ b, (c.taskSource b).s.mem = c.s.mem := fun b =>
    Ctx.hookOr_mem (c := c.withBus 0xFFFF) h (.busSource b) (.fd2 b c.w.slot)
  cases b with
  | taskSpecific1 | taskSpecific2 => exact task _
  | readMD => exact c.s.busReadMD_mem
  | readR | loadR | noSource | readMouse | readDisp => rfl

theorem f1Table_mem {c : Ctx} (h : c.s.hookFree c.w.slot = true) (f : F1Code) : (f1Table f c).s.mem = c.s.mem := by
  cases f with
  | loadMAR => exact c.s.busLoadMAR_mem _ _ _
  | task => simp only [f1Table, spTask]; split <;> rfl
  | block => exact (c.s.blockTask_contract _).mem
  | nop | llsh1 | lrsh1 | llcy8 | constant => rfl
  | ts8 | ts9 | ts10 | ts11 | ts12 | ts13 | ts14 | ts15 => exact Ctx.hookOr_mem h _ _

theorem f2TestTable_mem (f : F2Code) (c : Ctx) : (f2TestTable f c).s.mem = c.s.mem := by
  cases f
  case shNeg => simp only [f2TestTable, spShNeg]; split <;> rfl
  case shZero => simp only [f2TestTable, spShZero]; split <;> rfl
  all_goals rfl

theorem pendingRead_mem (c : Ctx) : (pendingRead c).s.mem = c.s.mem := by
  unfold pendingRead
  split
  · refine Eq.trans (b := c.s.readRam.2.mem) (Ctx.andThen_mem fun _ => rfl) ?_
    rcases c.s.readRam_cases with e | e <;> rw [e]
    rfl
  · rfl

theorem pendingWrite_mem (c : Ctx) : (pendingWrite c).s.mem = c.s.mem := by
  unfold pendingWrite
  split
  · refine Eq.trans (b := (c.s.writeRam c.w.alu c.s.m).mem) (Ctx.andThen_mem fun _ => rfl) ?_
    rcases c.s.writeRam_cases c.w.alu c.s.m with e | e | ⟨b, _, e⟩
    · rw [e]
    · rw [e, State.fatal_mem]
    · rw [e]
  · rfl

/-- Where no hook runs, no sub-step but special function 2 writes main memory. -/
theorem SubStep.run_mem {w : MicroInstr} {g : SubStep} {c : Ctx} (h : c.s.hookFree c.w.slot = true) (hg : g ≠ .f2) :
    (g.run (Stages.of w) c).s.mem = c.s.mem := by
  cases g with
  | f2 => exact absurd rfl hg
  | branchBits | register | clearFirst => rfl
  | earlyF2 | afterShift => exact Ctx.hook_mem h _
  | source =>
    simp only [SubStep.run, selectSource]
    split
    · rfl
    · exact sourceTable_mem h _
  | mask => simp only [SubStep.run, maskConstant]; split <;> rfl
  | ramRead => exact pendingRead_mem c
  | postBusF2 =>
    simp only [SubStep.run, Sys2Proof.Machine.postBusF2]
    split
    · exact Ctx.hook_mem h _
    · rfl
  | earlyF1 =>
    simp only [SubStep.run, Sys2Proof.Machine.earlyF1]
    split
    · exact Ctx.hook_mem h _
    · rfl
  | alu => simp only [SubStep.run, runAlu]; split <;> rfl
  | ramWrite => exact pendingWrite_mem c
  | f1 => exact f1Table_mem h _
  | shifter => simp only [SubStep.run, runShifter]; split <;> rfl
  | f2Test => exact f2TestTable_mem _ c
  | writeR => simp only [SubStep.run, writeBackR]; split <;> rfl
  | writeS => simp only [SubStep.run, writeBackS]; split <;> rfl
  | loadT => simp only [SubStep.run, Stages.of]; cases w.lt <;> rfl
  | loadL => simp only [SubStep.run, Stages.of]; cases w.ll <;> rfl
  | bankSwitch => simp only [SubStep.run, pendingSwitch]; split <;> rfl
  | blockHook =>
    simp only [SubStep.run, Sys2Proof.Machine.blockHook]
    split
    · exact Ctx.hook_mem h _
    · rfl
  | nextAddress => simp only [SubStep.run, Sys2Proof.Machine.nextAddress]; split <;> rfl

theorem storesMD_iff {g : Config} {w : MicroInstr} :
    storesMD g w = true ↔ w.f2 = .storeMD ∧ ¬(w.f1 = .loadMAR ∧ g.memTiming.variant = .variantB) := by
  simp [storesMD, imp_iff_not_or]

/-- Special function 2 writes main memory only as `StoreMD`, through `Bus.LoadMD` of the bus value (R227). -/
theorem f2Table_mem {c : Ctx} (h : c.s.hookFree c.w.slot = true) : (f2Table c.w.mi.f2 c).s.mem = c.s.mem ∨
    (storesMD c.s.cfg c.w.mi = true ∧
      ∃ k, c.s.storedWord = some k ∧ (f2Table c.w.mi.f2 c).s.mem = Memory.writeWord c.s.mem k c.w.bus) := by
  cases hf2 : c.w.mi.f2 with
  | storeMD =>
    simp only [f2Table, spStoreMD]
    split
    · exact .inl rfl
    · rename_i hstore
      exact (c.s.busLoadMD_mem c.w.bus).imp_right fun stored => ⟨storesMD_iff.2 ⟨hf2, hstore⟩, stored⟩
  | busZero => simp only [f2Table, spBusZero]; split <;> exact .inl rfl
  | nop | shNeg | shZero | bus | aluCy | constant => exact .inl rfl
  | ts8 | ts9 | ts10 | ts11 | ts12 | ts13 | ts14 | ts15 => exact .inl (Ctx.hookOr_mem h _ _)

/-! ### The whole word -/

/-- Main memory is `m`, and the slot that runs has no hooks under the parameters `g`. -/
structure Ctx.MemIs (g : Config) (m : Memory) (c : Ctx) : Prop where
  mem : c.s.mem = m
  cfg : c.s.cfg = g
  free : c.s.hookFree c.w.slot = true

theorem SubStep.run_cfg (w : MicroInstr) (g : SubStep) {c : Ctx} (hr : c.s.status = .running) :
    (g.run (Stages.of w) c).s.cfg = c.s.cfg :=
  (g.run_loadFrame w c hr).cfg

theorem State.hookFree_of_cfg {a b : State} (h : b.cfg = a.cfg) (t : Slot) : b.hookFree t = a.hookFree t := by
  unfold State.hookFree
  rw [h]

theorem SubStep.run_free {w : MicroInstr} {g : SubStep} {c : Ctx} (h : c.s.hookFree c.w.slot = true)
    (hr : c.s.status = .running) : (g.run (Stages.of w) c).s.hookFree (g.run (Stages.of w) c).w.slot = true := by
  rw [State.hookFree_of_cfg (g.run_cfg w hr), (g.run_fixed w c).slot, h]

theorem SubStep.run_memIs {w : MicroInstr} {g : SubStep} {p : Config} {m : Memory} {c : Ctx} (h : c.MemIs p m)
    (hg : g ≠ .f2) (hr : c.s.status = .running) : (g.run (Stages.of w) c).MemIs p m :=
  ⟨(g.run_mem h.free hg).trans h.mem, (g.run_cfg w hr).trans h.cfg, g.run_free h.free hr⟩

/-- The sub-steps before special function 2, or those after it. -/
theorem foldl_memIs {w : MicroInstr} {p : Config} {m : Memory} {gs : List SubStep} (hgs : .f2 ∉ gs) {c : Ctx}
    (h : c.MemIs p m) : ((gs.map fun g => g.run (Stages.of w)).foldl Ctx.andThen c).MemIs p m := by
  refine Ctx.foldl_inv (P := Ctx.MemIs p m) _ ?_ c h
  intro f hf c hc hr
  obtain ⟨g, hmem, rfl⟩ := List.mem_map.1 hf
  exact g.run_memIs hc (fun e => hgs (e ▸ hmem)) hr

theorem State.before_f2_memIs {s : State} (hf : s.hookFree s.cur = true) (w : MicroInstr) :
    (s.before .f2 w).MemIs s.cfg s.mem :=
  foldl_memIs (c := Ctx.begin w s) (gs := [.branchBits, .register, .earlyF2, .source, .mask, .ramRead, .postBusF2,
    .earlyF1, .alu, .ramWrite, .f1]) (by decide) ⟨rfl, rfl, hf⟩

/-- Main memory after a word is what special function 2 left. -/
theorem executeNext_mem {s : State} (hf : s.hookFree s.cur = true) (w : MicroInstr) :
    (executeNext (Stages.of w) (Ctx.begin w s)).s.mem = ((s.before .f2 w).andThen (f2Table w.f2)).s.mem := by
  have free := (s.before_f2_memIs hf w).free
  have free' : ((s.before .f2 w).andThen (f2Table w.f2)).s.hookFree
      ((s.before .f2 w).andThen (f2Table w.f2)).w.slot = true := by
    rcases Ctx.andThen_cases (s.before .f2 w) (f2Table w.f2) with ⟨hr, e⟩ | ⟨_, e⟩ <;> rw [e]
    · exact SubStep.run_free (w := w) (g := .f2) free hr
    · exact free
  exact (foldl_memIs (w := w) (gs := [.shifter, .f2Test, .writeR, .writeS, .loadT, .loadL, .afterShift, .bankSwitch,
    .blockHook, .nextAddress, .clearFirst]) (by decide) ⟨rfl, rfl, free'⟩).mem

/-- A word of a slot without hooks leaves main memory alone, or stores one word through `Bus.LoadMD`. -/
theorem exec_mem {i : Instr} {s t : State} (hn : s.noHooks) (h : exec i s = .next t) : t.mem = s.mem ∨
    (storesMD s.cfg i.word = true ∧
      ∃ k v, (s.before .f2 i.word).s.storedWord = some k ∧ t.mem = Memory.writeWord s.mem k v) := by
  obtain ⟨hcur, hnext⟩ := hn
  rcases exec_cases h with rfl | ⟨hr, _, rfl⟩
  · exact .inl rfl
  have frame := executeNext_wordFrame i.word hr hcur
  obtain ⟨_, _, _, complete, _⟩ := Ctx.complete_free (c := executeNext (Stages.of i.word) (Ctx.begin i.word s))
    fun n hn => (frame.hookFree n).trans (hnext n (frame.slots.nextTask ▸ hn))
  rw [complete]
  dsimp only
  rw [executeNext_mem hcur]
  obtain ⟨mem, cfg, free⟩ := s.before_f2_memIs hcur i.word
  rcases Ctx.andThen_cases (s.before .f2 i.word) (f2Table i.word.f2) with ⟨_, e⟩ | ⟨_, e⟩ <;> rw [e]
  · have f2 := f2Table_mem free
    rw [s.before_mi, cfg, mem] at f2
    exact f2.imp_right fun ⟨stores, k, stored, written⟩ => ⟨stores, k, _, stored, written⟩
  · exact .inl mem

/-- Settles O39: the bytes of a stored word are the two of its index. -/
theorem frameMemory : Obligations.FrameMemory := by
  intro i s t hn hwf h
  rcases exec_mem hn h with e | ⟨stores, k, v, stored, e⟩ <;> rw [e]
  · exact ⟨fun _ _ => rfl, fun _ _ => rfl, fun _ _ _ _ _ => rfl⟩
  · refine ⟨fun hno => ?_, fun hnone => ?_, fun j hj a hlow hhigh => ?_⟩
    · simp [stores] at hno
    · simp [stored] at hnone
    · obtain rfl : k = j := Option.some.inj (stored.symm.trans hj)
      rw [Memory.readByte_writeWord hwf, if_neg hlow, if_neg hhigh]

end Sys2Proof.Machine
end

section
/-! O50 and O51: a whole transaction where main memory claims every address (R68 to R74), under the tables of R78. -/

namespace Sys2Proof.Machine

/-! ### Main memory everywhere -/

/-- The machine runs, and main memory claims every address. -/
structure State.MainEverywhere (s : State) : Prop where
  running : s.status = .running
  devices : s.cfg.devices = [{ lo := 0, hi := 0xFFFF, kind := .mainMemory }]

theorem State.MainEverywhere.deviceAt {s : State} (h : s.MainEverywhere) (a : Word) :
    s.cfg.deviceAt a = some .mainMemory := by
  have claimed : DeviceRange.claims { lo := 0, hi := 0xFFFF, kind := .mainMemory } a = true :=
    DeviceRange.claims_iff.2 ⟨Nat.zero_le _, Nat.le_of_lt_succ a.isLt⟩
  simp only [Config.deviceAt, h.devices, List.find?_cons, claimed, Option.map_some]

/-- An index names its flag and its address: an address lies below 65536 (R64). -/
theorem mainIndex_inj {x y : Bool} {a b : Word} (h : mainIndex x a = mainIndex y b) : x = y ∧ a = b := by
  have ha := a.isLt
  have hb := b.isLt
  unfold mainIndex at h
  have flag : Bool.ofNat x.toNat = Bool.ofNat y.toNat := congrArg Bool.ofNat (by omega)
  rw [Bool.ofNat_toNat, Bool.ofNat_toNat] at flag
  exact ⟨flag, BitVec.eq_of_toNat_eq (by omega)⟩

/-- A main-memory word after a store: the words of both values of the flag are apart (log 30). -/
theorem State.memWord_setMemWord {s : State} (h : Memory.wf s.mem = true) (x y : Bool) (a b w : Word) :
    (s.setMemWord x a w).memWord y b = if y = x ∧ b = a then w else s.memWord y b := by
  have same : mainIndex y b = mainIndex x a ↔ y = x ∧ b = a := ⟨mainIndex_inj, fun ⟨e, f⟩ => by rw [e, f]⟩
  unfold State.memWord State.setMemWord
  simp only [Memory.readWord_writeWord h, same]

/-! ### A transaction of the processor -/

/-- What the bus holds in a transaction: `stored` says that the first window has been stored to. -/
structure Transaction where
  address : Word
  task : Slot
  xm : Bool
  active : Bool
  cycle : Nat
  md1 : Word
  md2 : Word
  stored : Bool

/-- The machine with the bus in a transaction. -/
def State.onBus (s : State) (b : Transaction) : State :=
  { s with busActive := b.active, busCycle := b.cycle, busMar := b.address, busTask := b.task, busXm := b.xm
           busMd1 := b.md1, busMd2 := b.md2, busDwStore := b.stored && b.active, busDwMixed := b.stored }

theorem State.MainEverywhere.onBus {s : State} (h : s.MainEverywhere) (b : Transaction) : (s.onBus b).MainEverywhere :=
  ⟨h.running, h.devices⟩

theorem State.MainEverywhere.setMemWord {s : State} (h : s.MainEverywhere) (x : Bool) (a w : Word) :
    (s.setMemWord x a w).MainEverywhere :=
  ⟨h.running, h.devices⟩

/-- The transaction an address load starts (R69). -/
def State.started (s : State) (a : Word) (t : Slot) (xm : Bool) : Transaction :=
  { address := a, task := t, xm := xm, active := true, cycle := 1, md1 := s.busMd1, md2 := s.busMd2, stored := false }

theorem State.busLoadMAR_onBus {s : State} (h : s.busActive = false) (a : Word) (t : Slot) (xm : Bool) :
    s.busLoadMAR a t xm = s.onBus (s.started a t xm) :=
  State.busLoadMAR_idle h a t xm

/-- The next cycle of an active transaction: each word is read in its cycle, and the last cycle closes (R68). -/
def State.nextCycle (s : State) (b : Transaction) : Transaction :=
  { b with
    cycle := b.cycle + 1
    md1 := if b.cycle + 1 = s.cfg.memTiming.tRead1 then s.memWord b.xm b.address else b.md1
    md2 := if b.cycle + 1 = s.cfg.memTiming.tRead2 then s.memWord b.xm (s.cfg.memTiming.partner.apply b.address)
      else b.md2
    active := decide (b.cycle + 1 ≠ s.cfg.memTiming.tClose) }

theorem State.bufferFirst_onBus {s : State} (h : s.MainEverywhere) {b : Transaction} (hb : b.active = true) :
    (s.onBus b).bufferFirst = s.onBus { b with
      md1 := if b.cycle = s.cfg.memTiming.tRead1 then s.memWord b.xm b.address else b.md1 } := by
  unfold State.bufferFirst
  rw [State.memRead_main ((h.onBus b).deviceAt _), State.andThen_running (h.onBus b).running]
  by_cases e : b.cycle = s.cfg.memTiming.tRead1
  · rw [if_pos (by simp [State.onBus, hb, e]), if_pos e]
    rfl
  · rw [if_neg (by simp [State.onBus, e]), if_neg e]

theorem State.bufferSecond_onBus {s : State} (h : s.MainEverywhere) {b : Transaction} (hb : b.active = true) :
    (s.onBus b).bufferSecond = s.onBus { b with
      md2 := if b.cycle = s.cfg.memTiming.tRead2 then s.memWord b.xm (s.cfg.memTiming.partner.apply b.address)
        else b.md2 } := by
  unfold State.bufferSecond
  rw [State.memRead_main ((h.onBus b).deviceAt _), State.andThen_running (h.onBus b).running]
  by_cases e : b.cycle = s.cfg.memTiming.tRead2
  · rw [if_pos (by simp [State.onBus, hb, e]), if_pos e]
    rfl
  · rw [if_neg (by simp [State.onBus, e]), if_neg e]

theorem State.autoClose_onBus {s : State} {b : Transaction} (hb : b.active = true) :
    (s.onBus b).autoClose = s.onBus { b with active := decide (b.cycle ≠ s.cfg.memTiming.tClose) } := by
  unfold State.autoClose
  by_cases e : b.cycle = s.cfg.memTiming.tClose
  · rw [if_pos (by simp [State.onBus, hb, e])]
    simp [State.onBus, e]
  · rw [if_neg (by simp [State.onBus, e])]
    simp [State.onBus, e, hb]

theorem State.bufferFirst_idle {s : State} (h : s.busActive = false) : s.bufferFirst = s :=
  if_neg (by simp [h])

theorem State.bufferSecond_idle {s : State} (h : s.busActive = false) : s.bufferSecond = s :=
  if_neg (by simp [h])

theorem State.autoClose_idle {s : State} (h : s.busActive = false) : s.autoClose = s :=
  if_neg (by simp [h])

/-- `Bus.Clock()` within a transaction makes its next cycle. -/
theorem State.busClock_onBus {s : State} (h : s.MainEverywhere) {b : Transaction} (hb : b.active = true) :
    (s.onBus b).busClock = s.onBus (s.nextCycle b) := by
  have run : ∀ (b : Transaction) (f : State → State), (s.onBus b).andThen f = f (s.onBus b) := fun b =>
    State.andThen_running (h.onBus b).running
  have count : { s.onBus b with busCycle := (s.onBus b).busCycle + 1 } = s.onBus { b with cycle := b.cycle + 1 } := rfl
  rw [State.busClock, run, count, run, State.bufferFirst_onBus h (by exact hb), run,
    State.bufferSecond_onBus h (by exact hb), run, State.autoClose_onBus (by exact hb)]
  rfl

/-- After the transaction the cycle is counted and nothing else happens (R68). -/
theorem State.busClock_closed {s : State} (h : s.MainEverywhere) {b : Transaction} (hb : b.active = false) :
    (s.onBus b).busClock = s.onBus { b with cycle := b.cycle + 1 } := by
  have run : ∀ (b : Transaction) (f : State → State), (s.onBus b).andThen f = f (s.onBus b) := fun b =>
    State.andThen_running (h.onBus b).running
  have count : { s.onBus b with busCycle := (s.onBus b).busCycle + 1 } = s.onBus { b with cycle := b.cycle + 1 } := rfl
  have idle : (s.onBus { b with cycle := b.cycle + 1 }).busActive = false := hb
  rw [State.busClock, run, count, run, State.bufferFirst_idle idle, run, State.bufferSecond_idle idle, run,
    State.autoClose_idle idle]

theorem State.busLoadMD_onBus_first {s : State} (h : s.MainEverywhere) {b : Transaction} (hb : b.active = true)
    (hw : windowAt s.cfg.memTiming.storeWindow b.cycle = some .first) (w : Word) :
    (s.onBus b).busLoadMD w = (s.setMemWord b.xm b.address w).onBus { b with md1 := w, stored := true } := by
  rw [State.busLoadMD_first_main (h.onBus b).running hb hw ((h.onBus b).deviceAt _)]
  simp [State.onBus, State.setMemWord, hb]

theorem State.busLoadMD_onBus_second {s : State} (h : s.MainEverywhere) {b : Transaction} (hb : b.active = true)
    (hs : b.stored = true) (hw : windowAt s.cfg.memTiming.storeWindow b.cycle = some .second) (w : Word) :
    (s.onBus b).busLoadMD w =
      (s.setMemWord b.xm (s.cfg.memTiming.partner.apply b.address) w).onBus { b with md1 := w } := by
  have address : (s.onBus b).secondAddress = s.cfg.memTiming.partner.apply b.address :=
    if_pos (by simp [State.onBus, hb, hs])
  rw [State.busLoadMD_second_main (h.onBus b).running hb hw ((h.onBus b).deviceAt _), address]
  rfl

/-! ### Under the default tables (R78)

The clocks after an address load, read off the tables cycle by cycle. -/

section

variable {s : State} (main : s.MainEverywhere)
include main

theorem State.variantB_cycle3 (table : s.cfg.memTiming = .variantB) (a : Word) (t : Slot) (xm : Bool) :
    (s.onBus (s.started a t xm)).busClock.busClock =
      s.onBus { s.started a t xm with cycle := 3, md1 := s.memWord xm a } := by
  simp [State.busClock_onBus main, State.nextCycle, State.started, table, MemTiming.variantB]

theorem State.variantB_cycle5 (table : s.cfg.memTiming = .variantB) (a : Word) (t : Slot) (xm : Bool) :
    (s.onBus (s.started a t xm)).busClock.busClock.busClock.busClock = s.onBus { s.started a t xm with
      cycle := 5, active := false, md1 := s.memWord xm a, md2 := s.memWord xm (a ^^^ 1) } := by
  rw [State.variantB_cycle3 main table]
  simp [State.busClock_onBus main, State.nextCycle, State.started, table, MemTiming.variantB, Partner.apply]

theorem State.variantA_cycle5 (table : s.cfg.memTiming = .variantA) (a : Word) (t : Slot) (xm : Bool) :
    (s.onBus (s.started a t xm)).busClock.busClock.busClock.busClock = s.onBus { s.started a t xm with
      cycle := 5, md1 := s.memWord xm a, md2 := s.memWord xm (a ||| 1) } := by
  simp [State.busClock_onBus main, State.nextCycle, State.started, table, MemTiming.variantA, Partner.apply]

theorem State.variantA_cycle6 (table : s.cfg.memTiming = .variantA) (a : Word) (t : Slot) (xm : Bool) :
    (s.onBus (s.started a t xm)).busClock.busClock.busClock.busClock.busClock = s.onBus { s.started a t xm with
      cycle := 6, md1 := s.memWord xm a, md2 := s.memWord xm (a ||| 1) } := by
  rw [State.variantA_cycle5 main table]
  simp [State.busClock_onBus main, State.nextCycle, State.started, table, MemTiming.variantA]

/-- A store at cycle 3 is at the address. -/
theorem State.variantB_firstStore (table : s.cfg.memTiming = .variantB) (a v : Word) (t : Slot) (xm : Bool) :
    (s.onBus (s.started a t xm)).busClock.busClock.busLoadMD v =
      (s.setMemWord xm a v).onBus { s.started a t xm with cycle := 3, md1 := v, stored := true } := by
  have window : windowAt s.cfg.memTiming.storeWindow 3 = some .first := by rw [table]; rfl
  rw [State.variantB_cycle3 main table, State.busLoadMD_onBus_first main (by rfl) window]
  rfl

/-- A store at cycle 4 after one at cycle 3 is at the partner of the address (R72, R74). -/
theorem State.variantB_secondStore (table : s.cfg.memTiming = .variantB) {b : Transaction} (hact : b.active = true)
    (hcycle : b.cycle = 3) (hstored : b.stored = true) (w : Word) :
    (s.onBus b).busClock.busLoadMD w =
      (s.setMemWord b.xm (b.address ^^^ 1) w).onBus { s.nextCycle b with md1 := w } := by
  have active : (s.nextCycle b).active = true := by simp [State.nextCycle, hcycle, table, MemTiming.variantB]
  have window : windowAt s.cfg.memTiming.storeWindow (s.nextCycle b).cycle = some .second := by
    rw [table, State.nextCycle, hcycle]
    rfl
  have partner : s.cfg.memTiming.partner.apply b.address = b.address ^^^ 1 := by rw [table]; rfl
  rw [State.busClock_onBus main hact, State.busLoadMD_onBus_second main active hstored window, ← partner]
  rfl

end

theorem State.busReadMD_closed (s : State) {b : Transaction} (hb : b.active = false) :
    (s.onBus b).busReadMD.1 = if (s.onBus b).idleSecond then b.md2 else b.md1 := by
  rw [State.busReadMD_idle hb]
  rfl

/-- Settles O50: the second word's idle cycle of VariantB follows its close; VariantA is still in its windows. -/
theorem doubleWordRead : Obligations.DoubleWordRead := by
  intro s c4 c5 a t xm hr hidle hdev h4 h5
  have main : s.MainEverywhere := ⟨hr, hdev⟩
  rw [State.busLoadMAR_onBus hidle] at h4
  refine ⟨fun table => ?_, fun table => ?_⟩
  · rw [State.variantB_cycle5 main table] at h4
    subst h4
    rw [State.busClock_closed main rfl] at h5
    subst h5
    refine ⟨rfl, ?_, ?_⟩
    · rw [State.busReadMD_closed s rfl]
      simp [State.idleSecond, State.onBus, State.started, table, MemTiming.variantB]
    · rw [State.busReadMD_closed s rfl]
      simp [State.idleSecond, State.onBus, table, MemTiming.variantB]
  · have first : windowAt s.cfg.memTiming.readWindow 5 = some .first := by rw [table]; rfl
    have second : windowAt s.cfg.memTiming.readWindow 6 = some .second := by rw [table]; rfl
    rw [h4, State.variantA_cycle6 main table] at h5
    rw [State.variantA_cycle5 main table] at h4
    subst h4 h5
    exact ⟨rfl, congrArg Prod.fst (State.busReadMD_first (by rfl) first),
      congrArg Prod.fst (State.busReadMD_second (by rfl) second)⟩

theorem Word.xor_one_ne (a : Word) : a ^^^ 1 ≠ a := by
  intro e
  simpa using congrArg (BitVec.getLsbD · 0) e

/-- Settles O51: the first store is at the address, the second at its partner. -/
theorem doubleWordStore : Obligations.DoubleWordStore := by
  intro s f g a v w t xm hr hidle hwf hdev table hf hg
  have main : s.MainEverywhere := ⟨hr, hdev⟩
  rw [State.busLoadMAR_onBus hidle, State.variantB_firstStore main table] at hf
  rw [hf, State.variantB_secondStore (main.setMemWord xm a v) table rfl rfl rfl] at hg
  have wf' : Memory.wf (s.setMemWord xm a v).mem = true := Memory.wf_writeWord hwf _ _
  have after : ∀ y d, g.memWord y d =
      if y = xm ∧ d = a ^^^ 1 then w else if y = xm ∧ d = a then v else s.memWord y d := fun y d => by
    rw [← State.memWord_setMemWord hwf, ← State.memWord_setMemWord wf', hg]
    rfl
  refine ⟨?_, ?_, ?_, fun y d hyd => ?_⟩
  · rw [hf]
    exact (State.memWord_setMemWord hwf xm xm a a v).trans (if_pos ⟨rfl, rfl⟩)
  · rw [after, if_neg fun h => Word.xor_one_ne a h.2.symm, if_pos ⟨rfl, rfl⟩]
  · rw [after, if_pos ⟨rfl, rfl⟩]
  · rw [after, if_neg (by tauto), if_neg (by tauto)]

end Sys2Proof.Machine
end

section
/-! O1 to O6: the fields of a word (R101), their encoding (R124), and the row a word is filed under (R125, log 1). -/

namespace Sys2Proof

/-! ### Code numbers (R116 to R119) -/

@[simp] theorem AluFn.ofCode_code (a : AluFn) : AluFn.ofCode a.code = a := by
  cases a <;> rfl

@[simp] theorem BusSource.ofCode_code (b : BusSource) : BusSource.ofCode b.code = b := by
  cases b <;> rfl

@[simp] theorem F1Code.ofCode_code (f : F1Code) : F1Code.ofCode f.code = f := by
  cases f <;> rfl

@[simp] theorem F2Code.ofCode_code (f : F2Code) : F2Code.ofCode f.code = f := by
  cases f <;> rfl

@[simp] theorem AluFn.code_ofCode : ∀ c, (AluFn.ofCode c).code = c := by
  decide

@[simp] theorem BusSource.code_ofCode : ∀ c, (BusSource.ofCode c).code = c := by
  decide

@[simp] theorem F1Code.code_ofCode : ∀ c, (F1Code.ofCode c).code = c := by
  decide

@[simp] theorem F2Code.code_ofCode : ∀ c, (F2Code.ofCode c).code = c := by
  decide

theorem AluFn.eq_code_iff {c : BitVec 4} {a : AluFn} : c = a.code ↔ AluFn.ofCode c = a :=
  ⟨fun h => h ▸ a.ofCode_code, fun h => h ▸ (AluFn.code_ofCode c).symm⟩

theorem BusSource.eq_code_iff {c : BitVec 3} {b : BusSource} : c = b.code ↔ BusSource.ofCode c = b :=
  ⟨fun h => h ▸ b.ofCode_code, fun h => h ▸ (BusSource.code_ofCode c).symm⟩

theorem F1Code.eq_code_iff {c : BitVec 4} {f : F1Code} : c = f.code ↔ F1Code.ofCode c = f :=
  ⟨fun h => h ▸ f.ofCode_code, fun h => h ▸ (F1Code.code_ofCode c).symm⟩

theorem F2Code.eq_code_iff {c : BitVec 4} {f : F2Code} : c = f.code ↔ F2Code.ofCode c = f :=
  ⟨fun h => h ▸ f.ofCode_code, fun h => h ▸ (F2Code.code_ofCode c).symm⟩

/-! ### The row a word is filed under (log 1) -/

/-- Which fields lead is decided by their zeros, except that LT and LL lead only where their bit is 1. -/
theorem leadOf_loads (a b f g lt ll : Bool) :
    (leadOf a b f g lt ll = .lt → lt = true) ∧ (leadOf a b f g lt ll = .ll → ll = true) := by
  revert a b f g lt ll
  decide

/-- The reading under a row gives back the word and names the row's field. -/
structure Instr.ReadsAs (w : MicroInstr) (l : Lead) (i : Instr) : Prop where
  word : i.word = w
  field : i.field = l

theorem Instr.underAluf_readsAs (w : MicroInstr) : Instr.ReadsAs w .aluf (.underAluf w) := by
  obtain ⟨rsel, aluf, bs, f1, f2, lt, ll, next⟩ := w
  cases aluf <;> exact ⟨rfl, rfl⟩

theorem Instr.underBs_readsAs (w : MicroInstr) : Instr.ReadsAs w .bs (.underBs w) := by
  obtain ⟨rsel, aluf, bs, f1, f2, lt, ll, next⟩ := w
  cases bs <;> exact ⟨rfl, rfl⟩

theorem Instr.underF1_readsAs (w : MicroInstr) : Instr.ReadsAs w .f1 (.underF1 w) := by
  obtain ⟨rsel, aluf, bs, f1, f2, lt, ll, next⟩ := w
  cases f1 <;> exact ⟨rfl, rfl⟩

theorem Instr.underF2_readsAs (w : MicroInstr) : Instr.ReadsAs w .f2 (.underF2 w) := by
  obtain ⟨rsel, aluf, bs, f1, f2, lt, ll, next⟩ := w
  cases f2 <;> exact ⟨rfl, rfl⟩

theorem MicroInstr.ltOps_word {w : MicroInstr} (h : w.lt = true) : w.ltOps.word = w := by
  rw [LtOps.word, ← h]
  rfl

theorem MicroInstr.llOps_word {w : MicroInstr} (h : w.ll = true) : w.llOps.word = w := by
  rw [LlOps.word, ← h]
  rfl

theorem Instr.ofWord_readsAs (w : MicroInstr) : Instr.ReadsAs w w.lead (.ofWord w) := by
  obtain ⟨hlt, hll⟩ := leadOf_loads (w.aluf == .bus) (w.bs == .readR) (w.f1 == .nop) (w.f2 == .nop) w.lt w.ll
  unfold Instr.ofWord
  cases hlead : w.lead with
  | aluf => exact underAluf_readsAs w
  | bs => exact underBs_readsAs w
  | f1 => exact underF1_readsAs w
  | f2 => exact underF2_readsAs w
  | lt => exact ⟨w.ltOps_word (hlt hlead), rfl⟩
  | ll => exact ⟨w.llOps_word (hll hlead), rfl⟩

@[simp] theorem Instr.ofWord_word (w : MicroInstr) : (Instr.ofWord w).word = w :=
  (ofWord_readsAs w).word

theorem Instr.ofWord_wf (w : MicroInstr) : (Instr.ofWord w).wf = true := by
  rw [Instr.wf, ofWord_word, (ofWord_readsAs w).field]
  exact beq_self_eq_true w.lead

/-- Every well-formed instruction is the one its word is filed as. -/
theorem Laws.Filed.all (i : Instr) : Filed.Statement i := fun h => by
  rw [Instr.ofWord, lead_of_wf h]
  cases i <;> rfl

@[simp] theorem decode_word (w : MicroWord) : (decode w).word = decodeFields w :=
  Instr.ofWord_word _

theorem decode_wf (w : MicroWord) : (decode w).wf = true :=
  Instr.ofWord_wf _

/-! ### Encoding and decoding the fields (R124) -/

/-- A field of eight put side by side is cut out again: the fields below it are skipped, those above it dropped. -/
theorem extractLsb'_append_fields (a : BitVec 5) (b : BitVec 4) (c : BitVec 3) (d e : BitVec 4) (f g : BitVec 1)
    (h : BitVec 10) :
    let w := a ++ b ++ c ++ d ++ e ++ f ++ g ++ h
    w.extractLsb' 27 5 = a ∧ w.extractLsb' 23 4 = b ∧ w.extractLsb' 20 3 = c ∧ w.extractLsb' 16 4 = d ∧
      w.extractLsb' 12 4 = e ∧ w.extractLsb' 11 1 = f ∧ w.extractLsb' 10 1 = g ∧ w.extractLsb' 0 10 = h := by
  simp only [BitVec.extractLsb'_append_eq_of_le, BitVec.extractLsb'_append_eq_of_add_le, Nat.reduceLeDiff,
    Nat.reduceSub, BitVec.extractLsb'_eq_self, and_self]

theorem flagBit_beq_one (b : Bool) : (flagBit b == 1#1) = b := by
  cases b <;> rfl

@[simp] theorem decodeFields_encodeFields (f : MicroInstr) : decodeFields (encodeFields f) = f := by
  obtain ⟨rsel, aluf, bs, f1, f2, lt, ll, next⟩ := extractLsb'_append_fields f.rsel f.aluf.code f.bs.code f.f1.code
    f.f2.code (flagBit f.lt) (flagBit f.ll) f.next
  simp only [decodeFields, encodeFields, BitVec.getLsbD_eq_extractLsb', rsel, aluf, bs, f1, f2, lt, ll, next,
    AluFn.ofCode_code, BusSource.ofCode_code, F1Code.ofCode_code, F2Code.ofCode_code, flagBit_beq_one]

theorem flagBit_getLsbD (w : MicroWord) (i : Nat) : flagBit (w.getLsbD i) = w.extractLsb' i 1 := by
  ext j hj
  obtain rfl : j = 0 := by omega
  simp [flagBit]

/-- The fields of a word are next to each other and cover it. -/
@[simp] theorem encodeFields_decodeFields (w : MicroWord) : encodeFields (decodeFields w) = w := by
  simp only [encodeFields, decodeFields, AluFn.code_ofCode, BusSource.code_ofCode, F1Code.code_ofCode,
    F2Code.code_ofCode, flagBit_getLsbD, BitVec.extractLsb'_append_extractLsb'_eq_extractLsb']
  exact BitVec.extractLsb'_eq_self

theorem encodeFields_eq_or (f : MicroInstr) : encodeFields f =
    (f.rsel.setWidth 32 <<< 27) ||| (f.aluf.code.setWidth 32 <<< 23) ||| (f.bs.code.setWidth 32 <<< 20) |||
    (f.f1.code.setWidth 32 <<< 16) ||| (f.f2.code.setWidth 32 <<< 12) ||| ((BitVec.ofBool f.lt).setWidth 32 <<< 11) |||
    ((BitVec.ofBool f.ll).setWidth 32 <<< 10) ||| f.next.setWidth 32 := by
  rw [← BitVec.setWidth_eq (encodeFields f)]
  simp only [encodeFields, flagBit, BitVec.setWidth_append_eq_shiftLeft_setWidth_or, BitVec.shiftLeft_or_distrib,
    ← BitVec.shiftLeft_add]

theorem encode_decode (w : MicroWord) : encode (decode w) = w := by
  rw [encode, decode_word, encodeFields_decodeFields]

theorem decode_encode {i : Instr} (h : i.wf = true) : decode (encode i) = i := by
  rw [decode, encode, decodeFields_encodeFields, Laws.Filed.all i h]

theorem decode_of_encode {i : Instr} {w : MicroWord} (hwf : i.wf = true) (h : encode i = w) : decode w = i :=
  h ▸ decode_encode hwf

/-! ### Masks (R101, R125) -/

/-- The mask of the field of `n` bits at position `a`. -/
def fieldMask (a n : Nat) : MicroWord :=
  (BitVec.allOnes n).setWidth 32 <<< a

/-- Masking a word leaves the field's bits, in their place. -/
theorem and_fieldMask (w : MicroWord) (a n : Nat) :
    w &&& fieldMask a n = (w.extractLsb' a n).setWidth 32 <<< a := by
  apply BitVec.eq_of_getLsbD_eq
  intro i hi
  grind [fieldMask]

theorem field_shift_back {a n : Nat} (h : a + n ≤ 32) (x : BitVec n) :
    (x.setWidth 32 <<< a) >>> a = x.setWidth 32 := by
  apply BitVec.eq_of_getLsbD_eq
  intro i hi
  grind

/-- A field read off with its mask `m` and its shift (R101). -/
theorem extractLsb'_eq_mask_shift {w m : MicroWord} {a n : Nat} (h : a + n ≤ 32) (hm : m = fieldMask a n) :
    (w.extractLsb' a n).setWidth 32 = (w &&& m) >>> a := by
  rw [hm, and_fieldMask, field_shift_back h]

theorem ofBool_getLsbD_eq_mask_shift {w m : MicroWord} {a : Nat} (h : a + 1 ≤ 32) (hm : m = fieldMask a 1) :
    (BitVec.ofBool (w.getLsbD a)).setWidth 32 = (w &&& m) >>> a := by
  rw [← extractLsb'_eq_mask_shift h hm, ← flagBit_getLsbD, flagBit]

/-- A field compared with a code by its mask `m` and the shifted code (R125). -/
theorem mask_eq_iff {w m : MicroWord} {a n : Nat} {c : BitVec n} (h : a + n ≤ 32) (hm : m = fieldMask a n) :
    w &&& m = c.setWidth 32 <<< a ↔ w.extractLsb' a n = c := by
  rw [hm, and_fieldMask]
  refine ⟨fun e => ?_, fun e => by rw [e]⟩
  have wide : (w.extractLsb' a n).setWidth 32 = c.setWidth 32 := by
    rw [← field_shift_back h, e, field_shift_back h]
  simpa [BitVec.setWidth_setWidth_of_le _ (show n ≤ 32 by omega)] using congrArg (BitVec.setWidth n) wide

theorem mask_eq_self_iff {w m : MicroWord} {a : Nat} (h : a + 1 ≤ 32) (hm : m = fieldMask a 1) :
    w &&& m = m ↔ w.getLsbD a = true := by
  have one : m = (1#1).setWidth 32 <<< a := hm
  rw [BitVec.getLsbD_eq_extractLsb', beq_iff_eq, ← mask_eq_iff h hm, ← one]

end Sys2Proof

namespace Sys2Proof.Machine

/-- Settles O1. -/
theorem encodeThenDecode : Obligations.EncodeThenDecode :=
  fun _ h => decode_encode h

/-- Settles O2. -/
theorem encodingOfFields : Obligations.EncodingOfFields :=
  ⟨encodeFields_eq_or, encodeFields_decodeFields, decodeFields_encodeFields, by decide, encodeFields_decodeFields _,
    by decide, by decide, by decide, by decide⟩

/-- Settles O3: each mask of the table is that of the field's position and width. -/
theorem fieldPositions : Obligations.FieldPositions := by
  intro w
  simp only [decode_word, decodeFields, AluFn.code_ofCode, BusSource.code_ofCode, F1Code.code_ofCode,
    F2Code.code_ofCode]
  exact ⟨encode_decode w,
    extractLsb'_eq_mask_shift (by decide) (by decide), extractLsb'_eq_mask_shift (by decide) (by decide),
    extractLsb'_eq_mask_shift (by decide) (by decide), extractLsb'_eq_mask_shift (by decide) (by decide),
    extractLsb'_eq_mask_shift (by decide) (by decide), ofBool_getLsbD_eq_mask_shift (by decide) (by decide),
    ofBool_getLsbD_eq_mask_shift (by decide) (by decide), extractLsb'_eq_mask_shift (a := 0) (by decide) (by decide)⟩

/-- Settles O4: each row's mask is that of its field. -/
theorem rowMasks : Obligations.RowMasks := by
  intro w
  simp only [decode_word]
  exact ⟨fun _ => (mask_eq_iff (by decide) (by decide)).trans AluFn.eq_code_iff,
    fun _ => (mask_eq_iff (by decide) (by decide)).trans BusSource.eq_code_iff,
    fun _ => (mask_eq_iff (by decide) (by decide)).trans F1Code.eq_code_iff,
    fun _ => (mask_eq_iff (by decide) (by decide)).trans F2Code.eq_code_iff,
    mask_eq_self_iff (by decide) (by decide), mask_eq_self_iff (by decide) (by decide), decode_wf w⟩

/-- Settles O5: each word is the encoding of its instruction, which is well formed. -/
theorem decodeWords : Obligations.DecodeWords :=
  ⟨decode_of_encode (by decide) (by decide), decode_of_encode (by decide) (by decide),
    decode_of_encode (by decide) (by decide), decode_of_encode (by decide) (by decide),
    decode_of_encode (by decide) (by decide)⟩

/-- Settles O6: the meaning of an instruction is that of its word. -/
theorem readingsAgree : Obligations.ReadingsAgree := by
  intro i j s h
  rw [exec_eq i, exec_eq j, h]

end Sys2Proof.Machine
end

section
/-! O15 to O18: the rows of ALUF, each at its sub-step (R140 to R156, R308). -/

namespace Sys2Proof.Machine

/-! ### The exact integer and the 16-bit result (R7, R141) -/

theorem trunc16_natCast (n : Nat) : trunc16 n = BitVec.ofNat 16 n :=
  BitVec.ofInt_natCast 16 n

theorem trunc16_sub (m n : Int) : trunc16 (m - n) = trunc16 m - trunc16 n :=
  BitVec.eq_of_toInt_eq (by simp [trunc16])

theorem trunc16_intOf (v : Word) : trunc16 (intOf v) = v := by
  rw [intOf, trunc16_natCast, BitVec.ofNat_toNat, BitVec.setWidth_eq]

theorem aluSum_natCast (n : Nat) :
    aluSum n = { result := BitVec.ofNat 16 n, carry := decide (65535 < n) } := by
  simp only [aluSum, trunc16_natCast, Nat.ofNat_lt_cast]

/-- A number taken from a word leaves their difference; there is no borrow exactly when the number is at most the word. -/
theorem aluDifference_intOf_sub_natCast (v : Word) (k : Nat) :
    aluDifference (intOf v - k) = { result := v - BitVec.ofNat 16 k, carry := decide (k ≤ v.toNat) } := by
  have difference : trunc16 (intOf v - k) = v - BitVec.ofNat 16 k := by
    rw [trunc16_sub, trunc16_intOf, trunc16_natCast]
  have noBorrow : 0 ≤ intOf v - k ↔ k ≤ v.toNat := by
    rw [Int.sub_nonneg, intOf, Int.ofNat_le]
  simp only [aluDifference, difference, noBorrow]

/-! ### The arithmetic functions of the table -/

theorem aluTable_busPlus1 (bus t : Word) (skip : Bool) : aluTable .busPlus1 bus t skip =
    some { result := BitVec.ofNat 16 (bus.toNat + 1), carry := decide (65535 < bus.toNat + 1) } :=
  congrArg some (aluSum_natCast (bus.toNat + 1))

theorem aluTable_busPlusT (bus t : Word) (skip : Bool) : aluTable .busPlusT bus t skip =
    some { result := BitVec.ofNat 16 (bus.toNat + t.toNat), carry := decide (65535 < bus.toNat + t.toNat) } :=
  congrArg some (aluSum_natCast (bus.toNat + t.toNat))

theorem aluTable_busPlusTPlus1 (bus t : Word) (skip : Bool) : aluTable .busPlusTPlus1 bus t skip =
    some { result := BitVec.ofNat 16 (bus.toNat + t.toNat + 1)
           carry := decide (65535 < bus.toNat + t.toNat + 1) } :=
  congrArg some (aluSum_natCast (bus.toNat + t.toNat + 1))

theorem aluTable_busPlusSkip (bus t : Word) (skip : Bool) : aluTable .busPlusSkip bus t skip =
    some { result := BitVec.ofNat 16 (bus.toNat + if skip then 1 else 0)
           carry := decide (65535 < bus.toNat + if skip then 1 else 0) } := by
  cases skip
  · exact congrArg some (aluSum_natCast (bus.toNat + 0))
  · exact congrArg some (aluSum_natCast (bus.toNat + 1))

theorem aluTable_busMinus1 (bus t : Word) (skip : Bool) :
    aluTable .busMinus1 bus t skip = some { result := bus - 1, carry := decide (bus ≠ 0) } := by
  have noBorrow : 1 ≤ bus.toNat ↔ bus ≠ 0 := by bv_omega
  simp only [← noBorrow]
  exact congrArg some (aluDifference_intOf_sub_natCast bus 1)

theorem aluTable_busMinusT (bus t : Word) (skip : Bool) :
    aluTable .busMinusT bus t skip = some { result := bus - t, carry := decide (t.toNat ≤ bus.toNat) } := by
  have difference := aluDifference_intOf_sub_natCast bus t.toNat
  rw [BitVec.ofNat_toNat, BitVec.setWidth_eq] at difference
  exact congrArg some difference

/-- `BUS-T-1` takes the one number `T+1` from the bus. -/
theorem aluTable_busMinusTMinus1 (bus t : Word) (skip : Bool) :
    aluTable .busMinusTMinus1 bus t skip = some { result := bus - t - 1, carry := decide (t.toNat < bus.toNat) } := by
  have takenAtOnce : intOf bus - intOf t - 1 = intOf bus - (t.toNat + 1 : Nat) := by
    simp only [intOf]
    omega
  have result : bus - BitVec.ofNat 16 (t.toNat + 1) = bus - t - 1 := by bv_omega
  have difference := aluDifference_intOf_sub_natCast bus (t.toNat + 1)
  rw [← takenAtOnce, result] at difference
  exact congrArg some difference

/-! ### The ALU's sub-step (R308) -/

/-- A word whose function has this result and carry, whatever the bus and T, gives the ALU's wires and ALUCARRY them. -/
theorem doesAt_alu {i : Instr} {result : Ctx → Word} {carry : Ctx → Bool}
    (h : ∀ c : Ctx, aluTable i.word.aluf c.w.bus c.s.t c.s.skip = some { result := result c, carry := carry c }) :
    doesAt i .alu fun c => c.withAlu (result c) (carry c) := by
  intro s hreach
  have alu (c : Ctx) : SubStep.alu.run (Stages.of i.word) c = c.withAlu (result c) (carry c) := by
    simp only [SubStep.run, runAlu, Stages.of, h, Ctx.withAlu]
  rw [exec_at hreach, alu]

/-- A word whose function is undefined stops at the ALU with FD1 (R156). -/
theorem exec_undefined_alu {i : Instr} {s : State} (hreach : s.reaches .alu i.word)
    (h : ∀ bus t skip, aluTable i.word.aluf bus t skip = none) :
    exec i s = .next ((s.before .alu i.word).s.fatal (.fd1 i.word.aluf)) := by
  refine exec_fatal_at hreach ?_
  simp only [SubStep.run, runAlu, Stages.of, h, State.before_mi]

/-- Settles O15: `aluTable` gives each of these functions the stated value and carry 0. -/
theorem aluBitwiseRows : Obligations.AluBitwiseRows := fun _ =>
  ⟨doesAt_alu fun _ => rfl, doesAt_alu fun _ => rfl, doesAt_alu fun _ => rfl, doesAt_alu fun _ => rfl,
    doesAt_alu fun _ => rfl, doesAt_alu fun _ => rfl, doesAt_alu fun _ => rfl⟩

/-- Settles O16. -/
theorem aluSumRows : Obligations.AluSumRows := fun _ =>
  ⟨doesAt_alu fun _ => aluTable_busPlus1 .., doesAt_alu fun _ => aluTable_busPlusT ..,
    doesAt_alu fun _ => aluTable_busPlusTPlus1 .., doesAt_alu fun _ => aluTable_busPlusSkip ..⟩

/-- Settles O17. -/
theorem aluDifferenceRows : Obligations.AluDifferenceRows := fun _ =>
  ⟨doesAt_alu fun _ => aluTable_busMinus1 .., doesAt_alu fun _ => aluTable_busMinusT ..,
    doesAt_alu fun _ => aluTable_busMinusTMinus1 ..⟩

/-- Settles O18. -/
theorem aluUndefinedRows : Obligations.AluUndefinedRows := fun o _ =>
  ⟨fun hreach => exec_undefined_alu (i := .alufUndef14 o) hreach fun _ _ _ => rfl,
    fun hreach => exec_undefined_alu (i := .alufUndef15 o) hreach fun _ _ _ => rfl⟩

end Sys2Proof.Machine
end

section
/-! O56 and O58: the shifter as a function (R170 to R181), and in a word (R182, R311). -/

namespace Sys2Proof.Machine

/-! ### The shifts and the swap of the model in the words of the statement -/

/-- The bit that enters at the low end meets the 0 of a shift by one (R173, R175, R178). -/
theorem shiftInLow_eq_or (x : Word) (low : Bool) :
    shiftInLow x low = x <<< 1 ||| (BitVec.ofBool low).setWidth 16 := by
  refine BitVec.eq_of_getLsbD_eq fun i hi => ?_
  simp only [shiftInLow, BitVec.getLsbD_append, BitVec.getLsbD_or]
  cases i with
  | zero => simp
  | succ n =>
    have inInput : n < 15 := by omega
    simp [hi, inInput, BitVec.getLsbD_eq_getElem (Nat.lt_of_succ_lt hi)]

/-- The bit that enters at the high end meets the 0 of a shift by one (R174, R176, R179). -/
theorem shiftInHigh_eq_or (high : Bool) (x : Word) :
    shiftInHigh high x = x >>> 1 ||| (BitVec.ofBool high).setWidth 16 <<< 15 := by
  refine BitVec.eq_of_getLsbD_eq fun i hi => ?_
  simp only [shiftInHigh, BitVec.getLsbD_append, BitVec.getLsbD_or]
  by_cases inInput : i < 15
  · simp [inInput]
  · obtain rfl : i = 15 := by omega
    simp

/-- A plain shift left doubles, and the top bit is lost (R173). -/
theorem shiftInLow_false (x : Word) : shiftInLow x false = BitVec.ofNat 16 (x.toNat * 2) := by
  rw [shiftInLow_eq_or, BitVec.toNat_eq]
  simp [Nat.shiftLeft_eq]

/-- A plain shift right halves (R174). -/
theorem shiftInHigh_false (x : Word) : shiftInHigh false x = BitVec.ofNat 16 (x.toNat / 2) := by
  have half : x.toNat / 2 < 65536 := by omega
  rw [shiftInHigh_eq_or, BitVec.toNat_eq]
  simp [Nat.shiftRight_eq_div_pow, Nat.mod_eq_of_lt half]

/-- The low byte, 256 times its value, above the high byte (R177). -/
theorem swapBytes_eq_ofNat (x : Word) :
    swapBytes x = BitVec.ofNat 16 (x.toNat % 256 * 256 + x.toNat / 256) := by
  have highByte : x.toNat / 2 ^ 8 < 2 ^ 8 := by omega
  have value : (swapBytes x).toNat = x.toNat % 2 ^ 8 * 2 ^ 8 + x.toNat / 2 ^ 8 := by
    rw [swapBytes, BitVec.toNat_append, ← Nat.shiftLeft_add_eq_or_of_lt (BitVec.isLt _), Nat.shiftLeft_eq,
      BitVec.extractLsb'_toNat, BitVec.extractLsb'_toNat, Nat.shiftRight_zero, Nat.shiftRight_eq_div_pow,
      Nat.mod_eq_of_lt highByte]
  exact (BitVec.toNat_eq_nat.mp value).2

/-- Settles O56: each row of `doOperation` is a shift with its entering bit, a plain shift, the swap, or the input itself. -/
theorem shifterFunction : Obligations.ShifterFunction := by
  intro x t c m
  have passThrough : doOperation .none m x t c = (x, c) := rfl
  have left : doOperation .shiftLeft .none x t c = (BitVec.ofNat 16 (x.toNat * 2), c) :=
    congrArg (·, c) (shiftInLow_false x)
  have right : doOperation .shiftRight .none x t c = (BitVec.ofNat 16 (x.toNat / 2), c) :=
    congrArg (·, c) (shiftInHigh_false x)
  have leftNova : doOperation .shiftLeft .novaStyle x t c =
      (x <<< 1 ||| (BitVec.ofBool c).setWidth 16, x.msb) := by
    rw [doOperation, shiftInLow_eq_or, BitVec.msb_eq_getLsbD_last]
  have rightNova : doOperation .shiftRight .novaStyle x t c =
      (x >>> 1 ||| (BitVec.ofBool c).setWidth 16 <<< 15, x.getLsbD 0) :=
    congrArg (·, x.getLsbD 0) (shiftInHigh_eq_or c x)
  have swap : doOperation .rotateLeft8 m x t c =
      (BitVec.ofNat 16 (x.toNat % 256 * 256 + x.toNat / 256), c) :=
    congrArg (·, c) (swapBytes_eq_ofNat x)
  have leftMagic : doOperation .shiftLeft .magic x t c =
      (x <<< 1 ||| (BitVec.ofBool t.msb).setWidth 16, c) := by
    rw [doOperation, shiftInLow_eq_or, BitVec.msb_eq_getLsbD_last]
  have rightMagic : doOperation .shiftRight .magic x t c =
      (x >>> 1 ||| (BitVec.ofBool (t.getLsbD 0)).setWidth 16 <<< 15, c) :=
    congrArg (·, c) (shiftInHigh_eq_or (t.getLsbD 0) x)
  exact ⟨passThrough, left, right, leftNova, rightNova, swap, leftMagic, rightMagic⟩

/-! ### The shifter's sub-step (R311) -/

/-- What a sub-step does in a word is what `exec` goes on from. -/
theorem doesAt_of_run_eq {i : Instr} {g : SubStep} {f : Ctx → Ctx}
    (h : ∀ c, g.run (Stages.of i.word) c = f c) : doesAt i g f := by
  intro s hreach
  rw [exec_at hreach, h]

/-- The three consumers of the shifter's output, any of which asks for it (R114, R182). -/
theorem asksForShifter_iff (w : Wires) : (w.loadR || w.loadS || w.needShifter) = true ↔
    w.loadR = true ∨ w.loadS = true ∨ w.needShifter = true := by
  rw [Bool.or_eq_true, Bool.or_eq_true, or_assoc]

/-- Settles O58: no field of the word contributes to the shifter's sub-step, so it is `runShifter` in every word. -/
theorem shifterInWord : Obligations.ShifterInWord := fun _ =>
  doesAt_of_run_eq fun c => by
    simp only [SubStep.run, runShifter, asksForShifter_iff]

end Sys2Proof.Machine
end

section
/-! O19, O21, O22 and O23: the bus source of a word (R191 to R198), and the constant that replaces or masks it (R66,
R199). -/

namespace Sys2Proof.Machine

/-- What a sub-step does to a context that holds the word is what `exec` goes on from. -/
theorem doesAt_of_run_eq_on {i : Instr} {g : SubStep} {f : Ctx → Ctx}
    (h : ∀ c : Ctx, c.w.mi = i.word → g.run (Stages.of i.word) c = f c) : doesAt i g f := by
  intro s hreach
  rw [exec_at hreach, h _ (s.before_mi g i.word)]

/-- Without a constant code the source's sub-step is the word's own source (R199). -/
theorem doesAt_source {i : Instr} (h : i.word.constSf = false) : doesAt i .source (sourceTable i.word.bs) :=
  doesAt_of_run_eq_on fun _ mi => run_source mi h

/-! ### The displacement (R198) -/

/-- A byte is sign-extended by ones in the high half where its top bit is 1. -/
theorem signExtend_byte (b : Byte) :
    b.signExtend 16 = if b.msb = true then b.setWidth 16 ||| 0xFF00 else b.setWidth 16 := by
  split
  · rename_i neg
    have highHalf : (0xFF00 : Word) = BitVec.allOnes 8 ++ 0#8 := rfl
    refine BitVec.eq_of_getLsbD_eq fun i hi => ?_
    rw [highHalf, BitVec.getLsbD_signExtend, BitVec.getLsbD_or, BitVec.getLsbD_setWidth, BitVec.getLsbD_append,
      BitVec.getLsbD_allOnes]
    by_cases low : i < 8
    · simp [hi, low]
    · have inHigh : i - 8 < 8 := by omega
      simp [hi, low, inHigh, neg]
  · rename_i nonneg
    exact BitVec.signExtend_eq_setWidth_of_msb_false (Bool.eq_false_of_not_eq_true nonneg)

theorem dispOperand_eq (ir : Word) : dispOperand ir =
    if ir.extractLsb' 8 2 = 0 then (ir.extractLsb' 0 8).zeroExtend 16 else (ir.extractLsb' 0 8).signExtend 16 := by
  have topBit : (ir.extractLsb' 0 8).msb = ir.getLsbD 7 := by
    simp [BitVec.msb_eq_getLsbD_last]
  rw [signExtend_byte, topBit, dispOperand]
  by_cases page0 : ir.extractLsb' 8 2 = 0
  · rw [if_neg (fun h => h.1 page0), if_pos page0]
  · simp only [ne_eq, page0, not_false_eq_true, true_and, if_false]

/-- Settles O19: each row's source is its function in `sourceTable`. -/
theorem busSourceRows : Obligations.BusSourceRows := by
  intro o h1 h2
  have own (b : BusSource) : (o.word b).constSf = false := MicroInstr.constSf_eq_false h1 h2
  have disp : sourceTable .readDisp = fun c => c.withBus (if c.s.ir.extractLsb' 8 2 = 0
      then (c.s.ir.extractLsb' 0 8).zeroExtend 16 else (c.s.ir.extractLsb' 0 8).signExtend 16) :=
    funext fun c => congrArg c.withBus (dispOperand_eq c.s.ir)
  refine ⟨doesAt_source (i := .bsReadR o) (own .readR), doesAt_source (i := .bsLoadR o) (own .loadR),
    doesAt_source (i := .bsNoSource o) (own .noSource), doesAt_source (i := .bsReadMouse o) (own .readMouse), ?_⟩
  rw [← disp]
  exact doesAt_source (i := .bsReadDisp o) (own .readDisp)

/-! ### The task-specific sources (R194, R195) -/

theorem Ctx.taskSource_defined {c : Ctx} {b : BusSource} {d : Variant × HookEntry}
    (h : c.hookAt? (.busSource b) = some d) : c.taskSource b = (c.withBus 0xFFFF).runActs (.busSource b) d :=
  Ctx.hookOr_defined (c := c.withBus 0xFFFF) _ h

theorem Ctx.taskSource_undefined {c : Ctx} {b : BusSource} (h : c.hookAt? (.busSource b) = none) :
    (c.taskSource b).s = c.s.fatal (.fd2 b c.w.slot) :=
  congrArg Ctx.s (Ctx.hookOr_undefined (c := c.withBus 0xFFFF) _ h)

/-- A word whose own source is the running variant's runs its hook, or stops with FD2 where there is none (R241). -/
theorem exec_taskSource {i : Instr} {s : State} {b : BusSource} {c : Ctx} (hsf : i.word.constSf = false)
    (hb : sourceTable i.word.bs = fun c => c.taskSource b) (hreach : s.reaches .source i.word)
    (hc : c = s.before .source i.word) :
    (∀ d, c.hookAt? (.busSource b) = some d →
      exec i s = .next (((c.withBus 0xFFFF).runActs (.busSource b) d).resume .source i.word)) ∧
    (c.hookAt? (.busSource b) = none → exec i s = .next (c.s.fatal (.fd2 b c.w.slot))) := by
  subst hc
  have source : SubStep.source.run (Stages.of i.word) (s.before .source i.word) =
      (s.before .source i.word).taskSource b := by
    rw [run_source (s.before_mi .source i.word) hsf, hb]
  refine ⟨fun d hd => ?_, fun hnone => ?_⟩
  · rw [exec_at hreach, source, Ctx.taskSource_defined hd]
  · exact exec_fatal_at hreach (by rw [source, Ctx.taskSource_undefined hnone])

/-- Settles O21: both rows are `Ctx.taskSource` of their code. -/
theorem taskSourceRows : Obligations.TaskSourceRows := by
  intro o s b i c h1 h2 hrow hreach hc
  have own : (o.word b).constSf = false := MicroInstr.constSf_eq_false h1 h2
  obtain ⟨rfl, rfl⟩ | ⟨rfl, rfl⟩ := hrow
  · exact exec_taskSource (i := .bsTaskSpecific1 o) own rfl hreach hc
  · exact exec_taskSource (i := .bsTaskSpecific2 o) own rfl hreach hc

/-! ### The constant memory (R66, R111) -/

theorem MicroInstr.constSf_iff {w : MicroInstr} : w.constSf = true ↔ w.f1 = .constant ∨ w.f2 = .constant := by
  simp [MicroInstr.constSf]

theorem MicroInstr.constAccess_iff {w : MicroInstr} :
    w.constAccess = true ↔ w.f1 = .constant ∨ w.f2 = .constant ∨ 4 ≤ w.bs.code.toNat := by
  rw [MicroInstr.constAccess, Bool.or_eq_true, constSf_iff, decide_eq_true_iff, or_assoc]

/-- RSEL ++ BS as a number (R66). -/
theorem MicroInstr.constAddr_toNat (w : MicroInstr) : w.constAddr.toNat = w.rsel.toNat * 8 + w.bs.code.toNat := by
  rw [MicroInstr.constAddr, BitVec.toNat_append, ← Nat.shiftLeft_add_eq_or_of_lt w.bs.code.isLt, Nat.shiftLeft_eq]

theorem State.constValue_eq (s : State) (w : MicroInstr) :
    s.constValue w = Memory.readWord s.cfg.constRom (w.rsel.toNat * 8 + w.bs.code.toNat) := by
  rw [State.constValue, State.const, MicroInstr.constAddr_toNat]

/-- Settles O22: under a constant code the sub-step never looks at the source. -/
theorem constantReplacesSource : Obligations.ConstantReplacesSource := by
  refine fun i hconst => doesAt_of_run_eq_on fun c mi => ?_
  rw [SubStep.run, selectSource, mi, if_pos (MicroInstr.constSf_iff.2 hconst), State.constValue_eq, Ctx.withBus]

/-- Settles O23: the mask's test is `const_access`, and its operand is the constant of the source (R199). -/
theorem busMask : Obligations.BusMask := by
  refine fun i => doesAt_of_run_eq_on fun c mi => ?_
  simp only [SubStep.run, maskConstant, MicroInstr.constAccess_iff, State.constValue_eq, mi, Ctx.withBus]

end Sys2Proof.Machine
end

section
/-! O24: the control-store operations that were pending as the word began (R200, R277, R317). -/

namespace Sys2Proof.Machine

/-! ### The branch bits of the word before (R303): only the first sub-step writes `nm_in` -/

theorem sourceTable_nmIn (b : BusSource) (c : Ctx) : (sourceTable b c).w.nmIn = c.w.nmIn := by
  cases b with
  | taskSpecific1 | taskSpecific2 => exact (Ctx.hookOr_wires (c.withBus 0xFFFF) _ _).nmIn
  | readR | loadR | noSource | readMD | readMouse | readDisp => rfl

theorem f1Table_nmIn (f : F1Code) (c : Ctx) : (f1Table f c).w.nmIn = c.w.nmIn := by
  cases f with
  | task => simp only [f1Table, spTask]; split <;> rfl
  | nop | loadMAR | block | llsh1 | lrsh1 | llcy8 | constant => rfl
  | ts8 | ts9 | ts10 | ts11 | ts12 | ts13 | ts14 | ts15 => exact (Ctx.hookOr_wires c _ _).nmIn

theorem f2Table_nmIn (f : F2Code) (c : Ctx) : (f2Table f c).w.nmIn = c.w.nmIn := by
  cases f with
  | busZero => simp only [f2Table, spBusZero]; split <;> rfl
  | storeMD => simp only [f2Table, spStoreMD]; split <;> rfl
  | nop | shNeg | shZero | bus | aluCy | constant => rfl
  | ts8 | ts9 | ts10 | ts11 | ts12 | ts13 | ts14 | ts15 => exact (Ctx.hookOr_wires c _ _).nmIn

theorem f2TestTable_nmIn (f : F2Code) (c : Ctx) : (f2TestTable f c).w.nmIn = c.w.nmIn := by
  cases f
  case shNeg => simp only [f2TestTable, spShNeg]; split <;> rfl
  case shZero => simp only [f2TestTable, spShZero]; split <;> rfl
  all_goals rfl

theorem Ctx.andThen_nmIn {c : Ctx} {f : Ctx → Ctx} (hf : ∀ c, (f c).w.nmIn = c.w.nmIn) :
    (c.andThen f).w.nmIn = c.w.nmIn := by
  rcases c.andThen_cases f with ⟨_, e⟩ | ⟨_, e⟩ <;> rw [e]
  exact hf c

/-- No sub-step but the first writes the branch bits taken. -/
theorem SubStep.run_nmIn (w : MicroInstr) {g : SubStep} (hg : g ≠ .branchBits) (c : Ctx) :
    (g.run (Stages.of w) c).w.nmIn = c.w.nmIn := by
  cases g with
  | branchBits => exact absurd rfl hg
  | register | shifter | nextAddress | clearFirst => rfl
  | earlyF2 | afterShift => exact (Ctx.hook_wires c _).nmIn
  | source =>
    simp only [SubStep.run, selectSource]
    split
    · rfl
    · exact sourceTable_nmIn _ c
  | mask => simp only [SubStep.run, maskConstant]; split <;> rfl
  | ramRead =>
    simp only [SubStep.run, pendingRead]
    split
    · exact Ctx.andThen_nmIn (c := { c with s := c.s.readRam.2 }) fun _ => rfl
    · rfl
  | postBusF2 =>
    simp only [SubStep.run, Sys2Proof.Machine.postBusF2]
    split
    · exact (Ctx.hook_wires c _).nmIn
    · rfl
  | earlyF1 =>
    simp only [SubStep.run, Sys2Proof.Machine.earlyF1]
    split
    · exact (Ctx.hook_wires c _).nmIn
    · rfl
  | alu => simp only [SubStep.run, runAlu]; split <;> rfl
  | ramWrite =>
    simp only [SubStep.run, pendingWrite]
    split
    · exact Ctx.andThen_nmIn (c := { c with s := c.s.writeRam c.w.alu c.s.m }) fun _ => rfl
    · rfl
  | f1 => exact f1Table_nmIn _ c
  | f2 => exact f2Table_nmIn _ c
  | f2Test => exact f2TestTable_nmIn _ c
  | writeR => simp only [SubStep.run, writeBackR]; split <;> rfl
  | writeS => simp only [SubStep.run, writeBackS]; split <;> rfl
  | loadT => simp only [SubStep.run, Stages.of]; cases w.lt <;> rfl
  | loadL => simp only [SubStep.run, Stages.of]; cases w.ll <;> rfl
  | bankSwitch => simp only [SubStep.run, pendingSwitch]; split <;> rfl
  | blockHook =>
    simp only [SubStep.run, Sys2Proof.Machine.blockHook]
    split
    · exact (Ctx.hook_wires c _).nmIn
    · rfl

/-- The sub-steps after the first, in the order of `subSteps`. -/
def SubStep.later : List SubStep :=
  [.register, .earlyF2, .source, .mask, .ramRead, .postBusF2, .earlyF1, .alu, .ramWrite, .f1, .f2, .shifter, .f2Test,
    .writeR, .writeS, .loadT, .loadL, .afterShift, .bankSwitch, .blockHook, .nextAddress, .clearFirst]

theorem SubStep.ne_branchBits_of_mem_later {g : SubStep} (h : g ∈ later) : g ≠ .branchBits := by
  rintro rfl
  exact absurd h (by decide)

/-- The first sub-step ends no word, so every other one begins from what it leaves (R303). -/
theorem State.before_from_branchBits {s : State} (hr : s.status = .running) (w : MicroInstr) {g : SubStep}
    (hg : g ≠ .branchBits) : s.before g w = ((SubStep.later.take (g.index - 1)).map fun g => g.run (Stages.of w)).foldl
      Ctx.andThen (takeBranchBits (Ctx.begin w s)) := by
  rw [← Ctx.andThen_running (c := Ctx.begin w s) hr takeBranchBits]
  cases g
  case branchBits => exact absurd rfl hg
  all_goals rfl

/-- The branch bits taken are those the slot's last word left in NEXTMOD (R303). -/
theorem State.before_nmIn {s : State} (hr : s.status = .running) (w : MicroInstr) {g : SubStep} (hg : g ≠ .branchBits) :
    (s.before g w).w.nmIn = rd s.nextMod s.cur := by
  rw [State.before_from_branchBits hr w hg]
  refine Ctx.foldl_inv (P := fun c => c.w.nmIn = rd s.nextMod s.cur) _ (fun f hf c hc _ => ?_) _ rfl
  obtain ⟨g, hmem, rfl⟩ := List.mem_map.1 hf
  exact (SubStep.run_nmIn w (SubStep.ne_branchBits_of_mem_later (List.mem_of_mem_take hmem)) c).trans hc

theorem State.before_successor {s : State} (hr : s.status = .running) (w : MicroInstr) {g : SubStep}
    (hg : g ≠ .branchBits) : (s.before g w).w.successor = w.next ||| rd s.nextMod s.cur := by
  rw [Wires.successor, s.before_mi, State.before_nmIn hr w hg]

/-! ### The three latches as the word began (R302) -/

theorem State.before_rdRamNow (s : State) (g : SubStep) (w : MicroInstr) :
    (s.before g w).w.rdRamNow = rd s.rdRamP s.cur :=
  (s.before_fixed g w).rdRamNow

theorem State.before_wrtRamNow (s : State) (g : SubStep) (w : MicroInstr) :
    (s.before g w).w.wrtRamNow = rd s.wrtRamP s.cur :=
  (s.before_fixed g w).wrtRamNow

theorem State.before_swModeNow (s : State) (g : SubStep) (w : MicroInstr) :
    (s.before g w).w.swModeNow = rd s.swModeP s.cur :=
  (s.before_fixed g w).swModeNow

/-! ### The pending read (R200, R275) -/

theorem State.readRam_state_of_running {s : State} (h : s.readRam.2.status = .running) : s.readRam.2 = s := by
  rcases s.readRam_cases with e | e
  · exact e
  · rw [e] at h
    exact nomatch h

theorem State.readRam_rom {s : State} (h : crarRom s.crar = true) : s.readRam = (0, s.fatal (.fd6 s.crar)) := by
  rw [State.readRam, if_pos h]

theorem pendingRead_clear {c : Ctx} (h : c.w.rdRamNow = false) : pendingRead c = c := by
  simp [pendingRead, h]

theorem pendingRead_set {c : Ctx} (h : c.w.rdRamNow = true) (hr : c.s.readRam.2.status = .running) : pendingRead c =
    ({ s := c.s.setRdRamP c.w.slot c.w.rdRamReq, w := c.w } : Ctx).withBus (c.w.bus &&& c.s.readRam.1) := by
  rw [pendingRead, if_pos h, Ctx.andThen_running (c := { c with s := c.s.readRam.2 }) hr]
  dsimp only
  rw [State.readRam_state_of_running hr]
  rfl

theorem pendingRead_rom {c : Ctx} (h : c.w.rdRamNow = true) (hrom : crarRom c.s.crar = true) :
    (pendingRead c).s = c.s.fatal (.fd6 c.s.crar) := by
  rw [pendingRead, if_pos h, State.readRam_rom hrom, Ctx.andThen_stopped (c := { c with s := c.s.fatal _ }) nofun]

/-! ### The pending write (R277) -/

theorem pendingWrite_clear {c : Ctx} (h : c.w.wrtRamNow = false) : pendingWrite c = c := by
  simp [pendingWrite, h]

theorem pendingWrite_set {c : Ctx} (h : c.w.wrtRamNow = true) (hr : (c.s.writeRam c.w.alu c.s.m).status = .running) :
    pendingWrite c = { s := (c.s.writeRam c.w.alu c.s.m).setWrtRamP c.w.slot c.w.wrtRamReq, w := c.w } := by
  rw [pendingWrite, if_pos h, Ctx.andThen_running (c := { c with s := c.s.writeRam c.w.alu c.s.m }) hr]

/-! ### The pending switch (R317) -/

theorem pendingSwitch_clear {c : Ctx} (h : c.w.swModeNow = false) : pendingSwitch c = c := by
  simp [pendingSwitch, h]

theorem pendingSwitch_set {c : Ctx} (h : c.w.swModeNow = true) : pendingSwitch c =
    { s := (c.s.switchMode c.w.successor c.w.slot).setSwModeP c.w.slot c.w.swModeReq, w := c.w } :=
  if_pos h

/-- Settles O24: each of the three sub-steps tests its latch as the word began, and writes the request left in it. -/
theorem pendingOperations : Obligations.PendingOperations := by
  refine fun i s => ⟨fun c hreach hc => ?_, fun c hreach hc => ?_, fun c hreach hc => ?_⟩
  · have latch : c.w.rdRamNow = rd s.rdRamP s.cur := hc ▸ s.before_rdRamNow _ _
    have slot : c.w.slot = s.cur := hc ▸ s.before_slot _ _
    have next : exec i s = .next ((pendingRead c).resume .ramRead i.word) := hc ▸ exec_at hreach
    refine ⟨fun clear => ?_, fun set running => ?_, fun set rom => ?_⟩
    · rw [next, pendingRead_clear (latch.trans clear)]
    · rw [next, pendingRead_set (latch.trans set) running, slot]
    · subst hc
      exact exec_fatal_at hreach (pendingRead_rom (latch.trans set) rom)
  · have latch : c.w.wrtRamNow = rd s.wrtRamP s.cur := hc ▸ s.before_wrtRamNow _ _
    have slot : c.w.slot = s.cur := hc ▸ s.before_slot _ _
    have next : exec i s = .next ((pendingWrite c).resume .ramWrite i.word) := hc ▸ exec_at hreach
    refine ⟨fun clear => ?_, fun set running => ?_⟩
    · rw [next, pendingWrite_clear (latch.trans clear)]
    · rw [next, pendingWrite_set (latch.trans set) running, slot]
  · have latch : c.w.swModeNow = rd s.swModeP s.cur := hc ▸ s.before_swModeNow _ _
    have slot : c.w.slot = s.cur := hc ▸ s.before_slot _ _
    have successor : c.w.successor = i.word.next ||| rd s.nextMod s.cur :=
      hc ▸ State.before_successor hreach.1 i.word nofun
    have next : exec i s = .next ((pendingSwitch c).resume .bankSwitch i.word) := hc ▸ exec_at hreach
    refine ⟨fun clear => ?_, fun set => ?_⟩
    · rw [next, pendingSwitch_clear (latch.trans clear)]
    · rw [next, pendingSwitch_set (latch.trans set), successor, slot]

end Sys2Proof.Machine
end

section
/-! O25, O27 to O31 and O33: the special functions, each at its sub-step (R210 to R229). -/

namespace Sys2Proof.Machine

/-! ### The rows whose function is written out in the table -/

/-- Settles O25: each of these codes selects the function that does nothing. -/
theorem nopRows : Obligations.NopRows :=
  ⟨fun _ => ⟨doesAt_of_run_eq fun _ => rfl, doesAt_of_run_eq fun _ => rfl⟩,
    fun _ => ⟨doesAt_of_run_eq fun _ => rfl, doesAt_of_run_eq fun _ => rfl, doesAt_of_run_eq fun _ => rfl,
      doesAt_of_run_eq fun _ => rfl⟩⟩

/-- Settles O27: special function 1 is `spTask`, which tests FIRST. -/
theorem taskRow : Obligations.TaskRow := fun _ =>
  doesAt_of_run_eq fun _ => rfl

/-- Settles O29: each of these codes selects the function that sets its operation. -/
theorem shifterOperationRows : Obligations.ShifterOperationRows := fun _ =>
  ⟨doesAt_of_run_eq fun _ => rfl, doesAt_of_run_eq fun _ => rfl, doesAt_of_run_eq fun _ => rfl⟩

/-! ### `BLOCK` (R213, R352, R353) -/

theorem State.policy_undefined {s : State} {t : Slot} {site : HookSite}
    (h : Ctx.hookAt? { s := s, w := Wires.idle t } site = none) (b : Bool) : s.policy t site b = s.setWakeup t b := by
  rw [State.policy, h]

theorem State.blockTask_policy {s : State} {t : Slot} (hr : s.status = .running) (hp : s.cfg.present t = true)
    (he : s.cfg.isEmulator t = false) : s.blockTask t = s.policy t .blockPolicy false := by
  simp [State.blockTask, State.andThen_running hr, hp, he]

theorem State.blockTask_emulator {s : State} {t : Slot} (hr : s.status = .running) (hp : s.cfg.present t = true)
    (he : s.cfg.isEmulator t = true) : s.blockTask t = s.fatal .fp3 := by
  simp [State.blockTask, State.andThen_running hr, hp, he]

/-- Settles O28: special function 1 is the contract call `BlockTask` of the running slot, with `block_now` raised. -/
theorem blockRow : Obligations.BlockRow := by
  intro o s c hreach hc hpresent
  have running : c.s.status = .running := hc ▸ hreach.2.2
  have policy (he : c.s.cfg.isEmulator c.w.slot = false) : exec (.f1Block o) s = .next
      (({ s := c.s.policy c.w.slot .blockPolicy false, w := { c.w with blockNow := true } } : Ctx).resume
        .f1 (o.word .block)) := by
    rw [← State.blockTask_policy running hpresent he, hc]
    exact exec_at (i := .f1Block o) hreach
  refine ⟨fun he undefined => ?_, policy, fun he => ?_⟩
  · rw [policy he, State.policy_undefined undefined]
    rfl
  · subst hc
    exact exec_fatal_at (i := .f1Block o) hreach (State.blockTask_emulator running hpresent he)

/-! ### The task-specific codes (R218, R229, R241) -/

/-- A word whose sub-step needs a hook runs it, or stops with the code's fatal error where there is none (R241). -/
theorem exec_hookOr {i : Instr} {s : State} {g : SubStep} {site : HookSite} {e : FatalInfo} {c : Ctx}
    (hreach : s.reaches g i.word) (hc : c = s.before g i.word) (hg : g.run (Stages.of i.word) c = c.hookOr site e) :
    (∀ d, c.hookAt? site = some d → exec i s = .next ((c.runActs site d).resume g i.word)) ∧
    (c.hookAt? site = none → exec i s = .next (c.s.fatal e)) := by
  subst hc
  refine ⟨fun d defined => ?_, fun undefined => ?_⟩
  · rw [exec_at hreach, hg, Ctx.hookOr_defined e defined]
  · exact exec_fatal_at hreach (by rw [hg, Ctx.hookOr_undefined e undefined])

/-- Settles O30: each of the eight rows is `Ctx.taskF1` of its code. -/
theorem f1TaskSpecificRows : Obligations.F1TaskSpecificRows := by
  intro o f i s c hrow hreach hc
  have row : i.word = o.word f ∧ f1Table f = fun c => c.taskF1 f := by
    simp only [List.mem_cons, List.not_mem_nil, or_false, Prod.mk.injEq] at hrow
    obtain ⟨rfl, rfl⟩ | ⟨rfl, rfl⟩ | ⟨rfl, rfl⟩ | ⟨rfl, rfl⟩ | ⟨rfl, rfl⟩ | ⟨rfl, rfl⟩ | ⟨rfl, rfl⟩ | ⟨rfl, rfl⟩ := hrow
    all_goals exact ⟨rfl, rfl⟩
  obtain ⟨word, late⟩ := row
  rw [← word] at hreach hc ⊢
  exact exec_hookOr hreach hc (by rw [SubStep.run, Stages.of, word]; exact congrFun late c)

/-- Settles O33: each of the eight rows is `Ctx.taskF2` of its code. -/
theorem f2TaskSpecificRows : Obligations.F2TaskSpecificRows := by
  intro o f i s c hrow hreach hc
  have row : i.word = o.word f ∧ f2Table f = fun c => c.taskF2 f := by
    simp only [List.mem_cons, List.not_mem_nil, or_false, Prod.mk.injEq] at hrow
    obtain ⟨rfl, rfl⟩ | ⟨rfl, rfl⟩ | ⟨rfl, rfl⟩ | ⟨rfl, rfl⟩ | ⟨rfl, rfl⟩ | ⟨rfl, rfl⟩ | ⟨rfl, rfl⟩ | ⟨rfl, rfl⟩ := hrow
    all_goals exact ⟨rfl, rfl⟩
  obtain ⟨word, late⟩ := row
  rw [← word] at hreach hc ⊢
  exact exec_hookOr hreach hc (by rw [SubStep.run, Stages.of, word]; exact congrFun late c)

/-! ### The branch functions (R221 to R226) -/

theorem Ctx.orBranch_zero (c : Ctx) : c.orBranch 0 = c := by
  simp only [Ctx.orBranch, BitVec.ofNat_eq_ofNat, BitVec.or_zero]

/-- A test that fails ORs in nothing. -/
theorem Ctx.orBranch_if (c : Ctx) (p : Prop) [Decidable p] :
    (if p then c.orBranch 1 else c) = c.orBranch (if p then 1 else 0) := by
  split
  · rfl
  · exact c.orBranch_zero.symm

theorem spShNeg_eq (c : Ctx) : spShNeg c = c.orBranch (if c.w.shOut.msb then 1 else 0) := by
  rw [spShNeg, ← BitVec.msb_eq_getLsbD_last, Ctx.orBranch_if]

theorem spBus_eq (c : Ctx) : spBus c = c.orBranch (c.w.bus.setWidth 10) := by
  rw [spBus, BitVec.setWidth_eq_extractLsb' (by decide)]

theorem spAluCy_eq (c : Ctx) : spAluCy c = c.orBranch ((BitVec.ofBool c.s.aluC0).setWidth 10) := by
  unfold spAluCy
  cases c.s.aluC0 <;> rfl

/-- Settles O31: each of these codes is `Ctx.orBranch` of its bits, at the sub-step where they are known. -/
theorem branchRows : Obligations.BranchRows := fun _ =>
  ⟨doesAt_of_run_eq fun c => c.orBranch_if (c.w.bus = 0), doesAt_of_run_eq spBus_eq, doesAt_of_run_eq spAluCy_eq,
    doesAt_of_run_eq spShNeg_eq, doesAt_of_run_eq fun c => c.orBranch_if (c.w.shOut = 0)⟩

end Sys2Proof.Machine
end

section
/-! O43: the request for a task switch that a word with `TASK` makes (R212, R342). -/

namespace Sys2Proof.Machine

/-! ### What the arbiter looks at

FIRST is cleared by the last sub-step only, the completion becomes `TaskSwitch` in special function 1 only, and CUR is
written by a soft reset only, which a hook calls. -/

/-- A part of a word that leaves FIRST and the completion alone, and CUR where the slot has no hooks. -/
structure Ctx.ArbiterFrame (c d : Ctx) : Prop where
  first : d.s.first = c.s.first
  taskSwitch : d.w.taskSwitch = c.w.taskSwitch
  slot : d.w.slot = c.w.slot
  cfg : d.s.cfg = c.s.cfg
  cur : c.s.hookFree c.w.slot = true → d.s.cur = c.s.cur

namespace Ctx.ArbiterFrame

theorem refl (c : Ctx) : c.ArbiterFrame c :=
  ⟨rfl, rfl, rfl, rfl, fun _ => rfl⟩

theorem trans {a b c : Ctx} (h : a.ArbiterFrame b) (k : b.ArbiterFrame c) : a.ArbiterFrame c where
  first := k.first.trans h.first
  taskSwitch := k.taskSwitch.trans h.taskSwitch
  slot := k.slot.trans h.slot
  cfg := k.cfg.trans h.cfg
  cur free := (k.cur (by rw [h.slot, State.hookFree_of_cfg h.cfg, free])).trans (h.cur free)

theorem of_bus {c d : Ctx} (h : c.s.BusFrame d.s) (taskSwitch : d.w.taskSwitch = c.w.taskSwitch)
    (slot : d.w.slot = c.w.slot) : c.ArbiterFrame d where
  first := h.hook.first
  taskSwitch := taskSwitch
  slot := slot
  cfg := h.hook.cfg
  cur _ := by
    obtain ⟨_, _, _, _, _, _, _, _, _, _, _, _, _, _, _, e, _⟩ := h
    rw [e]

theorem andThen {c d : Ctx} (h : c.ArbiterFrame d) {f : Ctx → Ctx} (hf : d.ArbiterFrame (f d)) :
    c.ArbiterFrame (d.andThen f) := by
  rcases d.andThen_cases f with ⟨_, e⟩ | ⟨_, e⟩ <;> rw [e]
  · exact h.trans hf
  · exact h

theorem hook (c : Ctx) (site : HookSite) : c.ArbiterFrame (c.hook site) where
  first := (c.hook_hook site).first
  taskSwitch := (c.hook_wires site).taskSwitch
  slot := (c.hook_wires site).slot
  cfg := (c.hook_hook site).cfg
  cur free := by rw [Ctx.hook_free free]

theorem hookOr (c : Ctx) (site : HookSite) (i : FatalInfo) : c.ArbiterFrame (c.hookOr site i) where
  first := (c.hookOr_hook site i).first
  taskSwitch := (c.hookOr_wires site i).taskSwitch
  slot := (c.hookOr_wires site i).slot
  cfg := (c.hookOr_hook site i).cfg
  cur free := by rw [Ctx.hookOr_free free, State.fatal_cur]

end Ctx.ArbiterFrame

theorem sourceTable_arbiterFrame (b : BusSource) {c : Ctx} (hr : c.s.status = .running) :
    c.ArbiterFrame (sourceTable b c) := by
  cases b with
  | taskSpecific1 | taskSpecific2 =>
    exact .trans (b := c.withBus 0xFFFF) ⟨rfl, rfl, rfl, rfl, fun _ => rfl⟩ (.hookOr _ _ _)
  | readMD => exact .of_bus (c.s.busReadMD_bus hr) rfl rfl
  | readR | loadR | noSource | readMouse | readDisp => exact ⟨rfl, rfl, rfl, rfl, fun _ => rfl⟩

theorem f1Table_arbiterFrame {f : F1Code} (hf : f ≠ .task) {c : Ctx} (hr : c.s.status = .running) :
    c.ArbiterFrame (f1Table f c) := by
  cases f with
  | task => exact absurd rfl hf
  | loadMAR => exact .of_bus (c.s.busLoadMAR_bus _ _ _ hr) rfl rfl
  | block => exact .of_bus (c.s.blockTask_contract _).bus rfl rfl
  | nop | llsh1 | lrsh1 | llcy8 | constant => exact ⟨rfl, rfl, rfl, rfl, fun _ => rfl⟩
  | ts8 | ts9 | ts10 | ts11 | ts12 | ts13 | ts14 | ts15 => exact .hookOr c _ _

theorem Ctx.orBranch_arbiterFrame (c : Ctx) (bits : Addr) : c.ArbiterFrame (c.orBranch bits) :=
  ⟨rfl, rfl, rfl, rfl, fun _ => rfl⟩

theorem f2Table_arbiterFrame (f : F2Code) (c : Ctx) : c.ArbiterFrame (f2Table f c) := by
  cases f with
  | busZero =>
    rw [f2Table, spBusZero, Ctx.orBranch_if]
    exact c.orBranch_arbiterFrame _
  | bus | aluCy => exact c.orBranch_arbiterFrame _
  | storeMD =>
    simp only [f2Table, spStoreMD]
    split
    · exact .refl c
    · exact .of_bus (c.s.busLoadMD_bus _) rfl rfl
  | nop | shNeg | shZero | constant => exact .refl c
  | ts8 | ts9 | ts10 | ts11 | ts12 | ts13 | ts14 | ts15 => exact .hookOr c _ _

theorem f2TestTable_arbiterFrame (f : F2Code) (c : Ctx) : c.ArbiterFrame (f2TestTable f c) := by
  cases f
  case shNeg =>
    rw [f2TestTable, spShNeg_eq]
    exact c.orBranch_arbiterFrame _
  case shZero =>
    rw [f2TestTable, spShZero, Ctx.orBranch_if]
    exact c.orBranch_arbiterFrame _
  all_goals exact .refl c

theorem pendingRead_arbiterFrame (c : Ctx) : c.ArbiterFrame (pendingRead c) := by
  unfold pendingRead
  split
  · refine Ctx.ArbiterFrame.andThen (d := { c with s := c.s.readRam.2 }) ?_ ⟨rfl, rfl, rfl, rfl, fun _ => rfl⟩
    rcases c.s.readRam_cases with e | e <;> rw [e]
    · exact .refl c
    · exact ⟨rfl, rfl, rfl, rfl, fun _ => rfl⟩
  · exact .refl c

theorem pendingWrite_arbiterFrame (c : Ctx) : c.ArbiterFrame (pendingWrite c) := by
  unfold pendingWrite
  split
  · refine Ctx.ArbiterFrame.andThen (d := { c with s := c.s.writeRam c.w.alu c.s.m }) ?_
      ⟨rfl, rfl, rfl, rfl, fun _ => rfl⟩
    rcases c.s.writeRam_cases c.w.alu c.s.m with e | e | ⟨b, _, e⟩ <;> rw [e]
    · exact .refl c
    · exact ⟨rfl, rfl, rfl, rfl, fun _ => rfl⟩
    · exact ⟨rfl, rfl, rfl, rfl, fun _ => rfl⟩
  · exact .refl c

/-- Every sub-step but special function 1 and the last one. -/
theorem SubStep.run_arbiterFrame (w : MicroInstr) {g : SubStep} (hf1 : g ≠ .f1) (hlast : g ≠ .clearFirst) {c : Ctx}
    (hr : c.s.status = .running) : c.ArbiterFrame (g.run (Stages.of w) c) := by
  cases g with
  | f1 => exact absurd rfl hf1
  | clearFirst => exact absurd rfl hlast
  | branchBits | register => exact ⟨rfl, rfl, rfl, rfl, fun _ => rfl⟩
  | earlyF2 | afterShift => exact .hook c _
  | source =>
    simp only [SubStep.run, selectSource]
    split
    · exact ⟨rfl, rfl, rfl, rfl, fun _ => rfl⟩
    · exact sourceTable_arbiterFrame _ hr
  | mask => simp only [SubStep.run, maskConstant]; split <;> exact ⟨rfl, rfl, rfl, rfl, fun _ => rfl⟩
  | ramRead => exact pendingRead_arbiterFrame c
  | postBusF2 =>
    simp only [SubStep.run, Sys2Proof.Machine.postBusF2]
    split
    · exact .hook c _
    · exact .refl c
  | earlyF1 =>
    simp only [SubStep.run, Sys2Proof.Machine.earlyF1]
    split
    · exact .hook c _
    · exact .refl c
  | alu => simp only [SubStep.run, runAlu]; split <;> exact ⟨rfl, rfl, rfl, rfl, fun _ => rfl⟩
  | ramWrite => exact pendingWrite_arbiterFrame c
  | f2 => exact f2Table_arbiterFrame _ c
  | shifter => simp only [SubStep.run, runShifter]; split <;> exact ⟨rfl, rfl, rfl, rfl, fun _ => rfl⟩
  | f2Test => exact f2TestTable_arbiterFrame _ c
  | writeR => simp only [SubStep.run, writeBackR]; split <;> exact ⟨rfl, rfl, rfl, rfl, fun _ => rfl⟩
  | writeS => simp only [SubStep.run, writeBackS]; split <;> exact ⟨rfl, rfl, rfl, rfl, fun _ => rfl⟩
  | loadT => simp only [SubStep.run, Stages.of]; cases w.lt <;> exact ⟨rfl, rfl, rfl, rfl, fun _ => rfl⟩
  | loadL => simp only [SubStep.run, Stages.of]; cases w.ll <;> exact ⟨rfl, rfl, rfl, rfl, fun _ => rfl⟩
  | bankSwitch => simp only [SubStep.run, pendingSwitch]; split <;> exact ⟨rfl, rfl, rfl, rfl, fun _ => rfl⟩
  | blockHook =>
    simp only [SubStep.run, Sys2Proof.Machine.blockHook]
    split
    · exact .hook c _
    · exact .refl c
  | nextAddress =>
    simp only [SubStep.run, Sys2Proof.Machine.nextAddress]
    split <;> exact ⟨rfl, rfl, rfl, rfl, fun _ => rfl⟩

/-! ### From special function 1 to the last sub-step -/

/-- The sub-steps before special function 1, in the order of `subSteps`. -/
def SubStep.beforeF1 : List SubStep :=
  [.branchBits, .register, .earlyF2, .source, .mask, .ramRead, .postBusF2, .earlyF1, .alu, .ramWrite]

/-- The sub-steps between special function 1 and the last one. -/
def SubStep.afterF1 : List SubStep :=
  [.f2, .shifter, .f2Test, .writeR, .writeS, .loadT, .loadL, .afterShift, .bankSwitch, .blockHook, .nextAddress]

theorem State.before_f1_eq (s : State) (w : MicroInstr) : s.before .f1 w =
    (SubStep.beforeF1.map fun g => g.run (Stages.of w)).foldl Ctx.andThen (Ctx.begin w s) := rfl

theorem State.before_clearFirst_eq (s : State) (w : MicroInstr) : s.before .clearFirst w =
    (SubStep.afterF1.map fun g => g.run (Stages.of w)).foldl Ctx.andThen
      ((s.before .f1 w).andThen (SubStep.f1.run (Stages.of w))) := rfl

theorem foldl_arbiterFrame (w : MicroInstr) {gs : List SubStep} (hgs : ∀ g ∈ gs, g ≠ .f1 ∧ g ≠ .clearFirst) (c : Ctx) :
    c.ArbiterFrame ((gs.map fun g => g.run (Stages.of w)).foldl Ctx.andThen c) := by
  refine Ctx.foldl_rel .refl .trans _ (fun f hf c hr => ?_) c
  obtain ⟨g, hmem, rfl⟩ := List.mem_map.1 hf
  exact g.run_arbiterFrame w (hgs g hmem).1 (hgs g hmem).2 hr

theorem State.before_f1_arbiterFrame (s : State) (w : MicroInstr) :
    (Ctx.begin w s).ArbiterFrame (s.before .f1 w) :=
  s.before_f1_eq w ▸ foldl_arbiterFrame w (by decide) _

theorem spTask_first {c : Ctx} (h : rd c.s.first c.w.slot = true) : spTask c = c :=
  if_pos h

theorem spTask_not_first {c : Ctx} (h : rd c.s.first c.w.slot = false) :
    spTask c = { s := c.s, w := { c.w with taskSwitch := true } } :=
  if_neg (by rw [h]; nofun)

/-- The start of a word, with the completion that special function 1 will give it. -/
def Ctx.beginAsking (w : MicroInstr) (s : State) : Ctx :=
  { s := s, w := { (Ctx.begin w s).w with taskSwitch := s.tasks w } }

/-- Special function 1 makes the completion `TaskSwitch` exactly where `State.tasks` says so (R212). -/
theorem run_f1_arbiterFrame {s : State} {w : MicroInstr} (hr : (s.before .f1 w).s.status = .running) :
    (Ctx.beginAsking w s).ArbiterFrame
      (SubStep.f1.run (Stages.of w) (s.before .f1 w)) := by
  obtain ⟨first, taskSwitch, slot, cfg, cur⟩ := s.before_f1_arbiterFrame w
  have firstOfSlot : rd (s.before .f1 w).s.first (s.before .f1 w).w.slot = rd s.first s.cur := by
    rw [first, slot]
    rfl
  show Ctx.ArbiterFrame _ (f1Table w.f1 (s.before .f1 w))
  by_cases task : w.f1 = .task
  · rw [task]
    cases isFirst : rd s.first s.cur with
    | true =>
      have noRequest : s.tasks w = false := by simp [State.tasks, isFirst]
      rw [f1Table, spTask_first (firstOfSlot.trans isFirst)]
      exact ⟨first, taskSwitch.trans noRequest.symm, slot, cfg, cur⟩
    | false =>
      have asks : s.tasks w = true := by simp [State.tasks, task, isFirst]
      rw [f1Table, spTask_not_first (firstOfSlot.trans isFirst)]
      exact ⟨first, asks.symm, slot, cfg, cur⟩
  · have noRequest : s.tasks w = false := by simp [State.tasks, task]
    exact .trans ⟨first, taskSwitch.trans noRequest.symm, slot, cfg, cur⟩ (f1Table_arbiterFrame task hr)

/-- What the arbiter looks at, as the last sub-step of a word begins. -/
theorem State.before_clearFirst_arbiterFrame {s : State} {w : MicroInstr} (hr : (s.before .f1 w).s.status = .running) :
    (Ctx.beginAsking w s).ArbiterFrame (s.before .clearFirst w) := by
  rw [State.before_clearFirst_eq, Ctx.andThen_running hr]
  exact (run_f1_arbiterFrame hr).trans (foldl_arbiterFrame w (by decide) _)

/-! ### A word that executes to its end -/

theorem Ctx.running_of_foldl {fs : List (Ctx → Ctx)} {c : Ctx} (h : (fs.foldl Ctx.andThen c).s.status = .running) :
    c.s.status = .running :=
  Ctx.foldl_rel (R := fun a b => b.s.status = .running → a.s.status = .running) (fun _ => id) (fun h k => h ∘ k) fs
    (fun _ _ _ hr _ => hr) c h

/-- A word that ends in a running state has reached each of its sub-steps. -/
theorem State.reaches_of_running {i : Instr} {s t : State} (hr : s.status = .running) (hs : s.stalls i.word = false)
    (h : exec i s = .next t) (ht : t.status = .running) (g : SubStep) : s.reaches g i.word := by
  refine ⟨hr, hs, ?_⟩
  rw [exec_eq, State.clock_runs hr hs, executeNext] at h
  injection h with h
  have atEnd := State.running_of_andThen (h ▸ ht)
  rw [subSteps_split _ g, List.foldl_append] at atEnd
  exact Ctx.running_of_foldl atEnd

/-- Such a word ends with the arbiter, once FIRST of its slot is cleared (R319). -/
theorem exec_eq_complete {i : Instr} {s t : State} (hr : s.status = .running) (hs : s.stalls i.word = false)
    (h : exec i s = .next t) (ht : t.status = .running) : t = (clearFirst (s.before .clearFirst i.word)).complete := by
  rw [exec_at (State.reaches_of_running hr hs h ht .clearFirst)] at h
  injection h with h
  exact h.symm

theorem clearFirst_first (s : State) (w : MicroInstr) :
    rd (clearFirst (s.before .clearFirst w)).s.first s.cur = false := by
  rw [clearFirst, State.setFirst_first, s.before_slot, rd_wr_self]

/-- The request (R342): NEXT_TASK is all it writes, so the scan of the state it leaves is the one it made. -/
theorem Ctx.complete_taskSwitch {c : Ctx} (hr : c.s.status = .running) (h : c.w.taskSwitch = true) :
    c.complete = { c.s with nextTask := c.s.scan } := by
  rw [Ctx.complete, State.andThen_running hr, if_pos h]

/-- Settles O43: special function 1 makes the completion `TaskSwitch`, and it is that when the arbiter looks at it. -/
theorem switchRequest : Obligations.SwitchRequest := by
  intro i s t task notFirst hr hs h ht
  have reach := State.reaches_of_running hr hs h ht
  have asks : s.tasks i.word = true := by simp [State.tasks, task, notFirst]
  have frame := State.before_clearFirst_arbiterFrame (reach .f1).2.2
  have request := Ctx.complete_taskSwitch (c := clearFirst (s.before .clearFirst i.word)) (reach .clearFirst).2.2
    (frame.taskSwitch.trans asks)
  rw [exec_eq_complete hr hs h ht, request]
  exact ⟨rfl, clearFirst_first s i.word, fun free => frame.cur free.1⟩

end Sys2Proof.Machine
end

section
/-! O54 and O55: the bank rotations (R271, R272), and the slot that a switch moves (R261, R270, R273). -/

namespace Sys2Proof.Machine

theorem split3_rom0 (bit8 : Bool) : split3 .rom0 bit8 = if bit8 then .rom1 else .ram0 := by cases bit8 <;> rfl

theorem split3_rom1 (bit8 : Bool) : split3 .rom1 bit8 = if bit8 then .ram0 else .rom0 := by cases bit8 <;> rfl

theorem split3_ram0 (bit8 : Bool) : split3 .ram0 bit8 = if bit8 then .rom1 else .rom0 := by cases bit8 <;> rfl

/-- Settles O54: `Toggle2` does not look at the address, and `Split3` looks at its bit 8. -/
theorem switchTables : Obligations.SwitchTables :=
  fun _ => ⟨rfl, rfl, split3_rom0 _, split3_rom1 _, split3_ram0 _⟩

theorem toggle2_ne {b : Bank} (h : CsConfig.toggle2.hasBank b = true) : toggle2 b ≠ b := by
  revert h
  cases b <;> decide

theorem split3_ne {b : Bank} (h : CsConfig.split3.hasBank b = true) (bit8 : Bool) : split3 b bit8 ≠ b := by
  revert h
  cases b <;> cases bit8 <;> decide

/-- A switch leads out of every bank of the configuration. -/
theorem swModeTable_ne {c : CsConfig} {b : Bank} (h : c.hasBank b = true) (a : Addr) : swModeTable c b a ≠ b := by
  cases c with
  | toggle2 => exact toggle2_ne h
  | split3 => exact split3_ne h _
  | ram5 => exact ram5_ne b a

theorem State.switchMode_bank_self (s : State) (a : Addr) (t : Slot) :
    rd (s.switchMode a t).bank t = swModeTable s.cfg.csConfig (rd s.bank t) a := by
  rw [State.switchMode, State.setBank_bank, rd_wr_self]

theorem State.switchMode_bank_other (s : State) (a : Addr) {t u : Slot} (h : u ≠ t) :
    rd (s.switchMode a t).bank u = rd s.bank u := by
  rw [State.switchMode, State.setBank_bank, rd_wr_other _ _ h.symm]

/-- Settles O55: the table's bank is another one of the configuration, and BANK of the slot is all that is written. -/
theorem switchMovesOneSlot : Obligations.SwitchMovesOneSlot := by
  intro s a t inBank
  rw [s.switchMode_bank_self]
  exact ⟨swModeTable_ne inBank a, swModeTable_hasBank _ _ a inBank, fun _ other => s.switchMode_bank_other a other, rfl⟩

end Sys2Proof.Machine
end

section
/-! O53: a write to the control RAM, and the reads and fetches after it (R260, R274 to R276, R279). -/

namespace Sys2Proof.Machine

/-! ### Cells and the memory that holds them (R260) -/

theorem State.csCell_rom {b : Bank} (h : b.isRom = true) (s : State) (a : Addr) :
    s.csCell b a = Memory.readCell s.cfg.romImage (cellIndex b a) :=
  if_pos h

theorem State.csCell_ram {b : Bank} (h : b.isRom = false) (s : State) (a : Addr) :
    s.csCell b a = Memory.readCell s.csRam (cellIndex b a) :=
  if_neg (by rw [h]; nofun)

theorem Bank.eq_of_index_eq {b c : Bank} (kind : c.isRom = b.isRom) (h : c.index = b.index) : c = b := by
  revert kind h
  cases b <;> cases c <;> decide

/-- Among the banks of one kind, a cell's index names the bank and the address. -/
theorem cellIndex_inj {b c : Bank} (kind : c.isRom = b.isRom) {a d : Addr} :
    cellIndex c a = cellIndex b d ↔ c = b ∧ a = d := by
  constructor
  · intro h
    unfold cellIndex at h
    have ha := a.isLt
    have hd := d.isLt
    exact ⟨Bank.eq_of_index_eq kind (by omega), BitVec.eq_of_toNat_eq (by omega)⟩
  · rintro ⟨rfl, rfl⟩
    rfl

theorem ramBank_isRom {c : CsConfig} {n : BitVec 2} {b : Bank} (h : ramBank c n = some b) : b.isRom = false := by
  cases c with
  | toggle2 | split3 => exact Option.some.inj h ▸ rfl
  | ram5 =>
    simp only [ramBank] at h
    split_ifs at h <;> exact Option.some.inj h ▸ rfl

/-! ### `WriteRAM` and `ReadRAM` (R275, R276) -/

theorem State.writeRam_rom {s : State} (h : crarRom s.crar = true) (low high : Word) : s.writeRam low high = s :=
  if_pos h

theorem State.writeRam_ram {s : State} {b : Bank} (hrom : crarRom s.crar = false)
    (hb : ramBank s.cfg.csConfig (crarBank s.crar) = some b) (low high : Word) : s.writeRam low high =
      { s with csRam := Memory.writeCell s.csRam (cellIndex b (crarCell s.crar)) ((high ++ low) ^^^ s.cfg.ramXorMask) } := by
  simp [State.writeRam, hrom, hb]

theorem State.readRam_ram {s : State} {b : Bank} (hrom : crarRom s.crar = false)
    (hb : ramBank s.cfg.csConfig (crarBank s.crar) = some b) : s.readRam =
      (if crarHigh s.crar then (s.csCell b (crarCell s.crar) ^^^ s.cfg.ramXorMask).extractLsb' 16 16
        else (s.csCell b (crarCell s.crar) ^^^ s.cfg.ramXorMask).extractLsb' 0 16, s) := by
  simp [State.readRam, hrom, hb]

/-- The control store after a write: the one cell CRAR names holds the two halves under the mask (R274). -/
theorem State.csCell_writeRam {s : State} {b : Bank} (hwf : Memory.wf s.csRam = true) (hrom : crarRom s.crar = false)
    (hb : ramBank s.cfg.csConfig (crarBank s.crar) = some b) (low high : Word) (c : Bank) (a : Addr) :
    (s.writeRam low high).csCell c a =
      if c = b ∧ a = crarCell s.crar then (high ++ low) ^^^ s.cfg.ramXorMask else s.csCell c a := by
  have ram : b.isRom = false := ramBank_isRom hb
  rw [State.writeRam_ram hrom hb]
  cases kind : c.isRom with
  | true =>
    have other : ¬(c = b ∧ a = crarCell s.crar) := fun ⟨same, _⟩ => by simp [same, ram] at kind
    rw [if_neg other, State.csCell_rom kind, State.csCell_rom kind]
  | false =>
    rw [State.csCell_ram kind, State.csCell_ram kind, Memory.readCell_writeCell hwf]
    simp only [cellIndex_inj (kind.trans ram.symm)]

theorem State.csCell_writeRam_self {s : State} {b : Bank} (hwf : Memory.wf s.csRam = true)
    (hrom : crarRom s.crar = false) (hb : ramBank s.cfg.csConfig (crarBank s.crar) = some b) (low high : Word) :
    (s.writeRam low high).csCell b (crarCell s.crar) = (high ++ low) ^^^ s.cfg.ramXorMask :=
  (State.csCell_writeRam hwf hrom hb low high b _).trans (if_pos ⟨rfl, rfl⟩)

/-- The mask of a write is undone by that of a read (R279). -/
theorem unmask_mask (v m : MicroWord) : v ^^^ m ^^^ m = v := by
  rw [BitVec.xor_assoc, BitVec.xor_self, BitVec.xor_zero]

theorem State.readRam_writeRam {s : State} {b : Bank} (hwf : Memory.wf s.csRam = true) (hrom : crarRom s.crar = false)
    (hb : ramBank s.cfg.csConfig (crarBank s.crar) = some b) (low high : Word) : (s.writeRam low high).readRam =
      (if crarHigh s.crar then high else low, s.writeRam low high) := by
  have crar : (s.writeRam low high).crar = s.crar := by rw [State.writeRam_ram hrom hb]
  have cfg : (s.writeRam low high).cfg = s.cfg := by rw [State.writeRam_ram hrom hb]
  rw [State.readRam_ram (b := b) (by rw [crar, hrom]) (by rw [crar, cfg, hb]), crar, cfg,
    State.csCell_writeRam_self hwf hrom hb, unmask_mask, BitVec.extractLsb'_append_eq_left,
    BitVec.extractLsb'_append_eq_right]

/-- Settles O53: the cell that CRAR names is the only one a write changes, and the mask comes off as it is read. -/
theorem ramWriteRead : Obligations.RamWriteRead := by
  intro s low high hwf
  refine ⟨fun rom => ⟨State.writeRam_rom rom low high, ?_⟩, fun b ram hb => ⟨?_, ?_, fun c a other => ?_, ?_⟩⟩
  · rw [State.readRam_rom rom]
    rfl
  · exact State.readRam_writeRam hwf ram hb low high
  · exact State.csCell_writeRam_self hwf ram hb low high
  · exact (State.csCell_writeRam hwf ram hb low high c a).trans (if_neg fun ⟨hc, ha⟩ => other.elim (· hc) (· ha))
  · rw [State.writeRam_ram ram hb]

end Sys2Proof.Machine
end

section
/-! O40: what a word does to the control RAM, whatever its hooks do (R263, R276, R277). -/

namespace Sys2Proof.Machine

/-! ### One sub-step -/

theorem State.BusFrame.csRam {a b : State} (h : a.BusFrame b) : b.csRam = a.csRam :=
  h.hook.csRam

theorem Ctx.andThen_csRam {c : Ctx} {f : Ctx → Ctx} (hf : ∀ c, (f c).s.csRam = c.s.csRam) :
    (c.andThen f).s.csRam = c.s.csRam := by
  rcases c.andThen_cases f with ⟨_, e⟩ | ⟨_, e⟩ <;> rw [e]
  exact hf c

theorem sourceTable_csRam (b : BusSource) {c : Ctx} (hr : c.s.status = .running) :
    (sourceTable b c).s.csRam = c.s.csRam := by
  cases b with
  | taskSpecific1 | taskSpecific2 => exact (Ctx.hookOr_hook (c.withBus 0xFFFF) _ _).csRam
  | readMD => exact (c.s.busReadMD_bus hr).csRam
  | readR | loadR | noSource | readMouse | readDisp => rfl

theorem f1Table_csRam (f : F1Code) {c : Ctx} (hr : c.s.status = .running) : (f1Table f c).s.csRam = c.s.csRam := by
  cases f with
  | loadMAR => exact (c.s.busLoadMAR_bus _ _ _ hr).csRam
  | task => simp only [f1Table, spTask]; split <;> rfl
  | block => exact (c.s.blockTask_contract _).bus.csRam
  | nop | llsh1 | lrsh1 | llcy8 | constant => rfl
  | ts8 | ts9 | ts10 | ts11 | ts12 | ts13 | ts14 | ts15 => exact (Ctx.hookOr_hook c _ _).csRam

theorem f2Table_csRam (f : F2Code) (c : Ctx) : (f2Table f c).s.csRam = c.s.csRam := by
  cases f with
  | busZero => simp only [f2Table, spBusZero]; split <;> rfl
  | storeMD =>
    simp only [f2Table, spStoreMD]
    split
    · rfl
    · exact (c.s.busLoadMD_bus _).csRam
  | nop | shNeg | shZero | bus | aluCy | constant => rfl
  | ts8 | ts9 | ts10 | ts11 | ts12 | ts13 | ts14 | ts15 => exact (Ctx.hookOr_hook c _ _).csRam

theorem f2TestTable_csRam (f : F2Code) (c : Ctx) : (f2TestTable f c).s.csRam = c.s.csRam := by
  cases f
  case shNeg => simp only [f2TestTable, spShNeg]; split <;> rfl
  case shZero => simp only [f2TestTable, spShZero]; split <;> rfl
  all_goals rfl

/-- A control-RAM read writes no cell, even where it is fatal. -/
theorem pendingRead_csRam (c : Ctx) : (pendingRead c).s.csRam = c.s.csRam := by
  unfold pendingRead
  split
  · refine Eq.trans (b := c.s.readRam.2.csRam) (Ctx.andThen_csRam fun _ => rfl) ?_
    rcases c.s.readRam_cases with e | e <;> rw [e]
    rfl
  · rfl

/-- No sub-step but the pending write writes the control RAM. -/
theorem SubStep.run_csRam (w : MicroInstr) {g : SubStep} (hg : g ≠ .ramWrite) {c : Ctx} (hr : c.s.status = .running) :
    (g.run (Stages.of w) c).s.csRam = c.s.csRam := by
  cases g with
  | ramWrite => exact absurd rfl hg
  | branchBits | register | clearFirst => rfl
  | earlyF2 | afterShift => exact (c.hook_hook _).csRam
  | source =>
    simp only [SubStep.run, selectSource]
    split
    · rfl
    · exact sourceTable_csRam _ hr
  | mask => simp only [SubStep.run, maskConstant]; split <;> rfl
  | ramRead => exact pendingRead_csRam c
  | postBusF2 =>
    simp only [SubStep.run, Sys2Proof.Machine.postBusF2]
    split
    · exact (c.hook_hook _).csRam
    · rfl
  | earlyF1 =>
    simp only [SubStep.run, Sys2Proof.Machine.earlyF1]
    split
    · exact (c.hook_hook _).csRam
    · rfl
  | alu => simp only [SubStep.run, runAlu]; split <;> rfl
  | f1 => exact f1Table_csRam _ hr
  | f2 => exact f2Table_csRam _ c
  | shifter => simp only [SubStep.run, runShifter]; split <;> rfl
  | f2Test => exact f2TestTable_csRam _ c
  | writeR => simp only [SubStep.run, writeBackR]; split <;> rfl
  | writeS => simp only [SubStep.run, writeBackS]; split <;> rfl
  | loadT => simp only [SubStep.run, Stages.of]; cases w.lt <;> rfl
  | loadL => simp only [SubStep.run, Stages.of]; cases w.ll <;> rfl
  | bankSwitch => simp only [SubStep.run, pendingSwitch]; split <;> rfl
  | blockHook =>
    simp only [SubStep.run, Sys2Proof.Machine.blockHook]
    split
    · exact (c.hook_hook _).csRam
    · rfl
  | nextAddress => simp only [SubStep.run, Sys2Proof.Machine.nextAddress]; split <;> rfl

/-- A sub-step that does not load T is that of the same word without LT. -/
theorem SubStep.run_without_lt (w : MicroInstr) {g : SubStep} (hg : g ≠ .loadT) :
    g.run (Stages.of w) = g.run (Stages.of { w with lt := false }) := by
  cases g
  case loadT => exact absurd rfl hg
  all_goals rfl

/-- CRAR is loaded with T only (R314). -/
theorem SubStep.run_crar (w : MicroInstr) {g : SubStep} (hg : g ≠ .loadT) {c : Ctx} (hr : c.s.status = .running) :
    (g.run (Stages.of w) c).s.crar = c.s.crar := by
  rw [SubStep.run_without_lt w hg]
  exact ((g.run_loadFrame { w with lt := false } c hr).lt rfl).2

/-! ### The pending write (R276, R277) -/

theorem State.writeRam_csRam (s : State) (low high : Word) : (s.writeRam low high).csRam = s.csRam ∨
    (crarRom s.crar = false ∧ ∃ b v, ramBank s.cfg.csConfig (crarBank s.crar) = some b ∧
      (s.writeRam low high).csRam = Memory.writeCell s.csRam (cellIndex b (crarCell s.crar)) v) := by
  cases hrom : crarRom s.crar with
  | true => exact .inl (by rw [State.writeRam_rom hrom])
  | false =>
    rcases s.writeRam_cases low high with e | e | ⟨b, hb, e⟩ <;> rw [e]
    · exact .inl rfl
    · exact .inl (s.fatal_csRam _)
    · exact .inr ⟨rfl, b, _, hb, rfl⟩

theorem pendingWrite_csRam (c : Ctx) : (pendingWrite c).s.csRam = c.s.csRam ∨
    (c.w.wrtRamNow = true ∧ (pendingWrite c).s.csRam = (c.s.writeRam c.w.alu c.s.m).csRam) := by
  cases pending : c.w.wrtRamNow with
  | false => exact .inl (by rw [pendingWrite_clear pending])
  | true =>
    refine .inr ⟨rfl, ?_⟩
    rw [pendingWrite, if_pos pending]
    exact Ctx.andThen_csRam (c := { c with s := c.s.writeRam c.w.alu c.s.m }) fun _ => rfl

/-! ### The whole word -/

/-- The control RAM is `m'`: that of `s`, or with the one cell written that CRAR names, where a write was pending. -/
def State.StoreWritten (s : State) (m' : Memory) : Prop :=
  m' = s.csRam ∨ (rd s.wrtRamP s.cur = true ∧ crarRom s.crar = false ∧
    ∃ b v, ramBank s.cfg.csConfig (crarBank s.crar) = some b ∧
      m' = Memory.writeCell s.csRam (cellIndex b (crarCell s.crar)) v)

/-- What a pending write looks at is as it was in `s`. -/
structure Ctx.StoreOf (s : State) (c : Ctx) : Prop where
  csRam : c.s.csRam = s.csRam
  crar : c.s.crar = s.crar
  cfg : c.s.cfg = s.cfg

/-- The sub-steps before the pending write, in the order of `subSteps`. -/
def SubStep.beforeWrite : List SubStep :=
  [.branchBits, .register, .earlyF2, .source, .mask, .ramRead, .postBusF2, .earlyF1, .alu]

/-- The sub-steps after it. -/
def SubStep.afterWrite : List SubStep :=
  [.f1, .f2, .shifter, .f2Test, .writeR, .writeS, .loadT, .loadL, .afterShift, .bankSwitch, .blockHook, .nextAddress,
    .clearFirst]

theorem State.before_ramWrite_eq (s : State) (w : MicroInstr) : s.before .ramWrite w =
    (SubStep.beforeWrite.map fun g => g.run (Stages.of w)).foldl Ctx.andThen (Ctx.begin w s) := rfl

theorem executeNext_from_ramWrite (s : State) (w : MicroInstr) : executeNext (Stages.of w) (Ctx.begin w s) =
    (SubStep.afterWrite.map fun g => g.run (Stages.of w)).foldl Ctx.andThen
      ((s.before .ramWrite w).andThen pendingWrite) := rfl

theorem State.before_ramWrite_storeOf (s : State) (w : MicroInstr) : Ctx.StoreOf s (s.before .ramWrite w) := by
  have neither : ∀ g ∈ SubStep.beforeWrite, g ≠ .ramWrite ∧ g ≠ .loadT := by decide
  rw [s.before_ramWrite_eq]
  refine Ctx.foldl_inv (P := Ctx.StoreOf s) _ (fun f hf c ⟨csRam, crar, cfg⟩ hr => ?_) _ ⟨rfl, rfl, rfl⟩
  obtain ⟨g, hmem, rfl⟩ := List.mem_map.1 hf
  obtain ⟨notWrite, notLoad⟩ := neither g hmem
  exact ⟨(g.run_csRam w notWrite hr).trans csRam, (g.run_crar w notLoad hr).trans crar, (g.run_cfg w hr).trans cfg⟩

/-- The control RAM after a word is what the pending write left. -/
theorem executeNext_csRam (s : State) (w : MicroInstr) : (executeNext (Stages.of w) (Ctx.begin w s)).s.csRam =
    ((s.before .ramWrite w).andThen pendingWrite).s.csRam := by
  have notWrite : ∀ g ∈ SubStep.afterWrite, g ≠ .ramWrite := by decide
  rw [executeNext_from_ramWrite]
  refine Ctx.foldl_rel (R := fun a b => b.s.csRam = a.s.csRam) (fun _ => rfl) (fun h k => k.trans h) _
    (fun f hf c hr => ?_) _
  obtain ⟨g, hmem, rfl⟩ := List.mem_map.1 hf
  exact g.run_csRam w (notWrite g hmem) hr

/-- The arbiter and the hook of a switch leave the control RAM alone. -/
theorem Ctx.complete_csRam (c : Ctx) : c.complete.csRam = c.s.csRam := by
  rcases c.complete_cases with e | e | e <;> rw [e]
  obtain ⟨_, _, _, frame⟩ := c.s.commitSwitch_hook
  exact frame.csRam

theorem executeNext_storeWritten (s : State) (w : MicroInstr) :
    s.StoreWritten (executeNext (Stages.of w) (Ctx.begin w s)).s.csRam := by
  rw [executeNext_csRam]
  obtain ⟨csRam, crar, cfg⟩ := s.before_ramWrite_storeOf w
  rcases (s.before .ramWrite w).andThen_cases pendingWrite with ⟨_, e⟩ | ⟨_, e⟩ <;> rw [e]
  · rcases pendingWrite_csRam (s.before .ramWrite w) with kept | ⟨pending, e⟩
    · exact .inl (kept.trans csRam)
    · have write := (s.before .ramWrite w).s.writeRam_csRam (s.before .ramWrite w).w.alu (s.before .ramWrite w).s.m
      rw [← e, csRam, crar, cfg] at write
      exact write.imp_right (.intro ((s.before_wrtRamNow _ _).symm.trans pending))
  · exact .inl csRam

/-- A word, whatever its hooks do, leaves the control RAM alone or writes the one cell (R263, R277). -/
theorem exec_storeWritten {i : Instr} {s t : State} (h : exec i s = .next t) : s.StoreWritten t.csRam := by
  rcases exec_cases h with rfl | ⟨_, _, rfl⟩
  · exact .inl rfl
  · rw [Ctx.complete_csRam]
    exact executeNext_storeWritten s i.word

/-- A byte outside the four of the written cell is as it was. -/
theorem Memory.readByte_writeCell_other {m : Memory} (hwf : m.wf = true) {k a : Nat} (h : k ≠ a / 4) (v : MicroWord) :
    (m.writeCell k v).readByte a = m.readByte a := by
  rw [Memory.readByte_writeCell hwf, if_neg (by omega), if_neg (by omega), if_neg (by omega), if_neg (by omega)]

/-- Settles O40: only the pending write's sub-step writes the control RAM, and CRAR is still the one the word began with. -/
theorem frameControlStore : Obligations.FrameControlStore := by
  intro i s t hwf h
  rcases exec_storeWritten h with e | ⟨pending, ram, b, v, hb, e⟩ <;> rw [e]
  · exact ⟨fun _ => rfl, fun _ => rfl, fun _ _ _ _ => rfl⟩
  · refine ⟨fun clear => ?_, fun rom => ?_, fun c hc a other => ?_⟩
    · simp [pending] at clear
    · simp [ram] at rom
    · obtain rfl : b = c := Option.some.inj (hb.symm.trans hc)
      exact Memory.readByte_writeCell_other hwf other v

end Sys2Proof.Machine
end

section
/-! O12: every system step keeps the invariant (R34, R40, R67, R261, R306, R353), whatever the hooks and the outside do. -/

namespace Sys2Proof.Machine

/-! ### The clauses of the invariant -/

/-- The clauses of `State.Inv`, by name. Inside `Bus.Clock()` a transaction that is about to be closed may be `late` by one
cycle (R68); elsewhere it is late by none. -/
structure State.Sound (late : Nat) (s : State) : Prop where
  valid : s.cfg.valid = true
  closes : 2 ≤ s.cfg.memTiming.tClose
  cur : s.cfg.present s.cur = true
  nextTask : ∀ n, s.nextTask = some n → s.cfg.present n = true
  awake : ∀ t, s.cfg.isEmulator t = true → rd s.wakeup t = true
  bank : ∀ t, s.cfg.csConfig.hasBank (rd s.bank t) = true
  bus : s.status = .running → s.busActive = true → 1 ≤ s.busCycle ∧ s.busCycle < s.cfg.memTiming.tClose + late
  mem : Memory.wf s.mem = true
  csRam : Memory.wf s.csRam = true
  romImage : Memory.wf s.cfg.romImage = true
  constRom : Memory.wf s.cfg.constRom = true

theorem State.inv_iff_sound (s : State) : s.Inv ↔ s.Sound 0 :=
  ⟨fun ⟨valid, closes, cur, nextTask, awake, bank, bus, mem, csRam, romImage, constRom⟩ =>
      ⟨valid, closes, cur, nextTask, awake, bank, bus, mem, csRam, romImage, constRom⟩,
    fun ⟨valid, closes, cur, nextTask, awake, bank, bus, mem, csRam, romImage, constRom⟩ =>
      ⟨valid, closes, cur, nextTask, awake, bank, bus, mem, csRam, romImage, constRom⟩⟩

/-- An entry written keeps what every entry has, if the new value has it. -/
theorem forall_rd_wr {α : Type} {n : Nat} {p : Fin n → α → Prop} {v : Vector α n} (h : ∀ k, p k (rd v k)) {i : Fin n}
    {x : α} (hx : p i x) (k : Fin n) : p k (rd (wr v i x) k) := by
  by_cases e : i = k
  · subst e
    rwa [rd_wr_self]
  · rw [rd_wr_other _ _ e]
    exact h k

namespace State.Sound

variable {late : Nat} {s : State}

/-- The bus of a machine that a fatal error stops may be caught anywhere (R68, R371). -/
theorem fatal (h : s.Sound late) (i : FatalInfo) : (s.fatal i).Sound late :=
  { h with bus := nofun }

theorem setWakeup (h : s.Sound late) {t : Slot} {b : Bool} (hb : s.cfg.isEmulator t = true → b = true) :
    (s.setWakeup t b).Sound late :=
  { h with awake := forall_rd_wr (p := fun t b => s.cfg.isEmulator t = true → b = true) h.awake hb }

theorem setBank (h : s.Sound late) (t : Slot) {b : Bank} (hb : s.cfg.csConfig.hasBank b = true) : (s.setBank t b).Sound late :=
  { h with bank := forall_rd_wr (p := fun _ b => s.cfg.csConfig.hasBank b = true) h.bank hb }

theorem setMemWord (h : s.Sound late) (xm : Bool) (a w : Word) : (s.setMemWord xm a w).Sound late :=
  { h with mem := Memory.wf_writeWord h.mem _ _ }

theorem andThen (h : s.Sound late) {f : State → State} (hf : s.Sound late → (f s).Sound late) : (s.andThen f).Sound late := by
  rcases s.andThen_cases f with ⟨_, e⟩ | ⟨_, e⟩ <;> rw [e]
  · exact hf h
  · exact h

theorem foldl {α : Type} {f : State → α → State} (hf : ∀ (s : State) a, s.Sound late → (f s a).Sound late) (as : List α)
    (h : s.Sound late) : (as.foldl f s).Sound late := by
  induction as generalizing s with
  | nil => exact h
  | cons a as ih => exact ih (hf s a h)

/-! ### The wakeup contract: a policy is never the emulator's (R353) -/

theorem policyAct {t : Slot} (ht : s.cfg.isEmulator t = false) (h : s.Sound late) (a : HookAct) : (policyAct t s a).Sound late := by
  cases a with
  | setWakeup b => exact h.setWakeup (by simp [ht])
  | _ => exact { h with }

theorem countHook (h : s.Sound late) (d : Variant × HookEntry) : (s.countHook d).Sound late := by
  unfold State.countHook
  split
  · exact h
  · exact { h with }

theorem policyActs {t : Slot} (ht : s.cfg.isEmulator t = false) (h : s.Sound late) (as : List HookAct) :
    (as.foldl (Machine.policyAct t) s).Sound late := by
  induction as generalizing s with
  | nil => exact h
  | cons a as ih => exact ih ((policyAct_contract t s a).bus.hook.cfg.symm ▸ ht) (h.policyAct ht a)

theorem policy {t : Slot} (ht : s.cfg.isEmulator t = false) (h : s.Sound late) (site : HookSite) (b : Bool) :
    (s.policy t site b).Sound late := by
  unfold State.policy
  split
  · exact h.setWakeup (by simp [ht])
  · exact (h.countHook _).policyActs ((s.countHook_contract _).bus.hook.cfg.symm ▸ ht) _

theorem wakeupTask (h : s.Sound late) (t : Slot) : (s.wakeupTask t).Sound late := by
  refine h.andThen fun h => ?_
  split
  · exact h
  · split
    · exact h.fatal _
    · exact h.policy (Bool.eq_false_of_not_eq_true ‹_›) _ _

theorem blockTask (h : s.Sound late) (t : Slot) : (s.blockTask t).Sound late := by
  refine h.andThen fun h => ?_
  split
  · exact h
  · split
    · exact h.fatal _
    · exact h.policy (Bool.eq_false_of_not_eq_true ‹_›) _ _

theorem contractCalls (h : s.Sound late) (cs : List (Bool × Slot)) : (s.contractCalls cs).Sound late := by
  refine foldl (fun s c h => ?_) cs h
  split
  · exact h.wakeupTask c.2
  · exact h.blockTask c.2

theorem callFor (h : s.Sound late) (v : Variant) {call : State → Slot → State}
    (hc : ∀ (s : State) (t : Slot), s.Sound late → (call s t).Sound late) : (s.callFor v call).Sound late := by
  unfold State.callFor
  split
  · exact h
  · exact hc s _ h

/-! ### The memory bus (R67 to R78) -/

theorem memRead (h : s.Sound late) (a : Word) : (s.memRead a).2.Sound late := by
  unfold State.memRead
  split
  · exact h
  · exact h
  · exact contractCalls (s := { s with oracle := s.oracle + 1 }) { h with } _

theorem memWrite (h : s.Sound late) (a w : Word) : (s.memWrite a w).Sound late := by
  unfold State.memWrite
  split
  · exact h
  · exact h.setMemWord _ _ _
  · exact contractCalls (s := { s with oracle := s.oracle + 1 }) { h with } _

/-- A transaction begins in cycle 1, which lies before the closing one. -/
theorem busLoadMAR (h : s.Sound late) (a : Word) (t : Slot) (xm : Bool) : (s.busLoadMAR a t xm).Sound late := by
  unfold State.busLoadMAR
  split
  · exact h.fatal _
  · exact { h with bus := fun _ _ => ⟨Nat.le_refl 1, Nat.lt_add_right late h.closes⟩ }

theorem busReadMD (h : s.Sound late) : s.busReadMD.2.Sound late := by
  unfold State.busReadMD
  split
  · split
    · exact h
    · exact h
    · exact h.fatal _
  · exact { h with }

theorem busLoadMD (h : s.Sound late) (w : Word) : (s.busLoadMD w).Sound late := by
  unfold State.busLoadMD
  split
  · split
    · exact (h.memWrite _ _).andThen fun h => { h with }
    · exact (h.memWrite _ _).andThen fun h => { h with }
    · exact { h with }
  · exact { h with }

/-! ### `Bus.Clock()` (R68) -/

/-- Between its first two parts a transaction may stand in its closing cycle. -/
theorem tick (h : s.Sound 0) : ({ s with busCycle := s.busCycle + 1 } : State).Sound 1 :=
  { h with bus := fun running active =>
      ⟨Nat.le_add_left 1 _, Nat.succ_lt_succ (h.bus running active).2⟩ }

theorem bufferFirst (h : s.Sound late) : s.bufferFirst.Sound late := by
  unfold State.bufferFirst
  split
  · exact (h.memRead _).andThen fun h => { h with }
  · exact h

theorem bufferSecond (h : s.Sound late) : s.bufferSecond.Sound late := by
  unfold State.bufferSecond
  split
  · exact (h.memRead _).andThen fun h => { h with }
  · exact h

/-- What is still active after the auto-close is in a cycle before the closing one. -/
theorem autoClose (h : s.Sound 1) (hr : s.status = .running) : s.autoClose.Sound 0 := by
  unfold State.autoClose
  split
  · exact { h with bus := nofun }
  · rename_i notClosing
    refine { h with bus := fun _ active => ?_ }
    have upTo := h.bus hr active
    simp only [active, Bool.true_and, beq_iff_eq] at notClosing
    omega

/-- A machine that a device's call stops inside the bus's clock is not late: its bus is under no condition. -/
theorem of_stopped (h : s.Sound late) (hs : s.status ≠ .running) : s.Sound 0 :=
  { h with bus := fun running => absurd running hs }

theorem busClock (h : s.Sound 0) : s.busClock.Sound 0 := by
  unfold State.busClock
  by_cases hr : s.status = .running
  · rw [State.andThen_running hr]
    generalize hb : ((({ s with busCycle := s.busCycle + 1 } : State).andThen State.bufferFirst).andThen
      State.bufferSecond) = b
    have buffered : b.Sound 1 := hb ▸ (h.tick.andThen bufferFirst).andThen bufferSecond
    rcases b.andThen_cases State.autoClose with ⟨running, e⟩ | ⟨stopped, e⟩ <;> rw [e]
    · exact buffered.autoClose running
    · exact buffered.of_stopped stopped
  · simp only [State.andThen_stopped hr]
    exact h

/-! ### The control store (R261, R270 to R276) -/

theorem readRam (h : s.Sound late) : s.readRam.2.Sound late := by
  rcases s.readRam_cases with e | e <;> rw [e]
  · exact h
  · exact h.fatal _

theorem writeRam (h : s.Sound late) (low high : Word) : (s.writeRam low high).Sound late := by
  rcases s.writeRam_cases low high with e | e | ⟨b, _, e⟩ <;> rw [e]
  · exact h
  · exact h.fatal _
  · exact { h with csRam := Memory.wf_writeCell h.csRam _ _ }

theorem switchMode (h : s.Sound late) (a : Addr) (t : Slot) : (s.switchMode a t).Sound late :=
  h.setBank t (swModeTable_hasBank _ _ a (h.bank t))

end State.Sound

/-! ### Soft reset and hooks (R46, R240, R403) -/

/-- A context in a state that meets the invariant. -/
abbrev Ctx.Sound (c : Ctx) : Prop :=
  c.s.Sound 0

theorem Ctx.Sound.andThen {c : Ctx} (h : c.Sound) {f : Ctx → Ctx} (hf : c.Sound → (f c).Sound) : (c.andThen f).Sound := by
  rcases c.andThen_cases f with ⟨_, e⟩ | ⟨_, e⟩ <;> rw [e]
  · exact hf h
  · exact h

/-- Every act that is not reserved to the policies, which alone may clear a WAKEUP (R354). -/
theorem Ctx.Sound.basicAct {c : Ctx} (h : c.Sound) {a : HookAct} (ha : ∀ b, a ≠ .setWakeup b) : (c.basicAct a).Sound := by
  cases a with
  | setWakeup b => exact absurd rfl (ha b)
  | loadMAR v xm => exact State.Sound.busLoadMAR h _ _ _
  | readMD => exact State.Sound.busReadMD h
  | loadMD v => exact State.Sound.busLoadMD h _
  | wakeupTask t => exact State.Sound.wakeupTask h t
  | blockTask t => exact State.Sound.blockTask h t
  | _ => exact { h with }

theorem HookAct.ne_setWakeup_of_permitted {site : HookSite} {ram : Bool} {a : HookAct} (hs : site.isPolicy = false)
    (ha : a.permitted site ram = true) (b : Bool) : a ≠ .setWakeup b := by
  rintro rfl
  simp [HookAct.permitted, hs] at ha

/-- A soft reset that an `onSoftReset` hook calls keeps the invariant. -/
def Ctx.CallSound (call : Nat → Ctx → Ctx) : Prop :=
  ∀ (n : Nat) (c : Ctx), c.Sound → (call n c).Sound

theorem Ctx.Sound.runActsWith {call : Nat → Ctx → Ctx} (hc : Ctx.CallSound call) {c : Ctx} (h : c.Sound)
    {site : HookSite} (hs : site.isPolicy = false) (d : Variant × HookEntry) : (c.runActsWith call site d).Sound := by
  unfold Ctx.runActsWith
  rw [← List.foldl_map (f := fun a c => c.actWith call a) (g := Ctx.andThen)]
  refine Ctx.foldl_inv (P := Ctx.Sound) _ ?_ _ (State.Sound.countHook h d)
  intro f hf c h _
  obtain ⟨a, ha, rfl⟩ := List.mem_map.1 hf
  dsimp only
  unfold Ctx.actWith
  split
  · exact hc _ c h
  · exact h.basicAct (HookAct.ne_setWakeup_of_permitted hs (List.mem_filter.1 ha).2)

theorem Ctx.Sound.softResetSlot {call : Nat → Ctx → Ctx} (hc : Ctx.CallSound call) {c : Ctx} (h : c.Sound) (t : Slot) :
    (c.softResetSlot call t).Sound := by
  refine h.andThen fun h => ?_
  split
  · have hook : (c.softResetHook call t).Sound := by
      unfold Ctx.softResetHook
      split
      · exact h
      · exact Ctx.Sound.runActsWith hc (c := { s := c.s, w := c.w.inReset t }) h rfl _
    exact hook.andThen fun h => { h with }
  · exact h

theorem Ctx.Sound.softResetSlots {call : Nat → Ctx → Ctx} (hc : Ctx.CallSound call) (ts : List Slot) {c : Ctx}
    (h : c.Sound) : (ts.foldl (Ctx.softResetSlot call) c).Sound := by
  induction ts generalizing c with
  | nil => exact h
  | cons t ts ih => exact ih (h.softResetSlot hc t)

theorem Config.present_of_slotOf {g : Config} {v : Variant} {t : Slot} (h : g.slotOf v = some t) : g.present t = true := by
  have bound := List.find?_some h
  simp only [beq_iff_eq] at bound
  simp [Config.present, bound]

/-- Every configuration has ROM0 and RAM0 (R261). -/
theorem CsConfig.hasBank_restart (c : CsConfig) (rom : Bool) : c.hasBank (if rom then .rom0 else .ram0) = true := by
  cases c <;> cases rom <;> rfl

theorem State.Sound.softResetBank {s : State} (h : s.Sound 0) (t : Slot) : (s.softResetBank t).Sound 0 :=
  h.setBank t (CsConfig.hasBank_restart s.cfg.csConfig (s.rmr.getLsbD t.val))

theorem State.Sound.softResetRestart {s : State} (h : s.Sound 0) : s.softResetRestart.Sound 0 := by
  have banks : (slotsUp.foldl State.softResetBank s).Sound 0 :=
    State.Sound.foldl (fun _ t h => h.softResetBank t) slotsUp h
  have cfg : (slotsUp.foldl State.softResetBank s).cfg = s.cfg :=
    State.foldl_cfg (f := State.softResetBank) (fun _ _ => rfl) slotsUp s
  unfold State.softResetRestart
  generalize slotsUp.foldl State.softResetBank s = b at banks cfg ⊢
  refine { banks with cur := ?_ }
  dsimp only
  rw [cfg]
  cases emulator : s.cfg.emulatorSlot with
  | none => exact h.cur
  | some e => exact Config.present_of_slotOf emulator

theorem State.Sound.softResetAdjust {s : State} (h : s.Sound 0) : s.softResetAdjust.Sound 0 :=
  have block : ∀ (s : State) (t : Slot), s.Sound 0 → (s.blockTask t).Sound 0 := fun _ t h => h.blockTask t
  (((h.callFor _ fun _ t h => h.wakeupTask t).callFor _ block).callFor _ block).callFor _ block

theorem Ctx.Sound.softResetWith {call : Nat → Ctx → Ctx} (hc : Ctx.CallSound call) {c : Ctx} (h : c.Sound) :
    (c.softResetWith call).Sound := by
  have slots := h.softResetSlots hc slotsUp
  unfold Ctx.softResetWith
  generalize slotsUp.foldl (Ctx.softResetSlot call) c = d at slots ⊢
  have restarted := slots.andThen (f := fun c => { c with s := c.s.softResetRestart }) State.Sound.softResetRestart
  exact restarted.andThen State.Sound.softResetAdjust

theorem Ctx.softResetNest_sound (room : Nat) : Ctx.CallSound (Ctx.softResetNest room) := by
  induction room with
  | zero => exact fun _ _ h => h
  | succ room ih =>
    intro n c h
    unfold Ctx.softResetNest
    split
    · exact ih n c h
    · exact h.softResetWith ih

theorem Ctx.Sound.softReset {c : Ctx} (h : c.Sound) : c.softReset.Sound :=
  h.softResetWith fun n => Ctx.softResetNest_sound (n + 1) n

theorem Ctx.Sound.runActs {c : Ctx} (h : c.Sound) {site : HookSite} (hs : site.isPolicy = false)
    (d : Variant × HookEntry) : (c.runActs site d).Sound :=
  h.runActsWith (fun _ _ h => h.softReset) hs d

theorem Ctx.Sound.hook {c : Ctx} (h : c.Sound) {site : HookSite} (hs : site.isPolicy = false) : (c.hook site).Sound := by
  unfold Ctx.hook
  split
  · exact h
  · exact h.runActs hs _

theorem Ctx.Sound.hookOr {c : Ctx} (h : c.Sound) {site : HookSite} (hs : site.isPolicy = false) (i : FatalInfo) :
    (c.hookOr site i).Sound := by
  unfold Ctx.hookOr
  split
  · exact State.Sound.fatal h i
  · exact h.runActs hs _

/-! ### One sub-step (R301) -/

theorem sourceTable_sound {c : Ctx} (h : c.Sound) (b : BusSource) : (sourceTable b c).Sound := by
  have task : ∀ b, (c.taskSource b).Sound := fun b => Ctx.Sound.hookOr (c := c.withBus 0xFFFF) h rfl _
  cases b with
  | taskSpecific1 | taskSpecific2 => exact task _
  | readMD => exact State.Sound.busReadMD h
  | readMouse => exact { h with }
  | readR | loadR | noSource | readDisp => exact h

theorem f1Table_sound {c : Ctx} (h : c.Sound) (f : F1Code) : (f1Table f c).Sound := by
  cases f with
  | loadMAR => exact State.Sound.busLoadMAR h _ _ _
  | task => simp only [f1Table, spTask]; split <;> exact h
  | block => exact State.Sound.blockTask h _
  | nop | llsh1 | lrsh1 | llcy8 | constant => exact h
  | ts8 | ts9 | ts10 | ts11 | ts12 | ts13 | ts14 | ts15 => exact h.hookOr rfl _

theorem f2Table_sound {c : Ctx} (h : c.Sound) (f : F2Code) : (f2Table f c).Sound := by
  cases f with
  | busZero => simp only [f2Table, spBusZero]; split <;> exact h
  | storeMD =>
    simp only [f2Table, spStoreMD]
    split
    · exact h
    · exact State.Sound.busLoadMD h _
  | nop | shNeg | shZero | bus | aluCy | constant => exact h
  | ts8 | ts9 | ts10 | ts11 | ts12 | ts13 | ts14 | ts15 => exact h.hookOr rfl _

theorem f2TestTable_sound {c : Ctx} (h : c.Sound) (f : F2Code) : (f2TestTable f c).Sound := by
  cases f
  case shNeg => simp only [f2TestTable, spShNeg]; split <;> exact h
  case shZero => simp only [f2TestTable, spShZero]; split <;> exact h
  all_goals exact h

/-- Every sub-step of every word, whatever its hooks do. -/
theorem SubStep.run_sound (w : MicroInstr) (g : SubStep) {c : Ctx} (h : c.Sound) : (g.run (Stages.of w) c).Sound := by
  cases g with
  | register => exact h
  | branchBits | clearFirst => exact { h with }
  | earlyF2 | afterShift => exact h.hook rfl
  | source =>
    simp only [SubStep.run, selectSource]
    split
    · exact h
    · exact sourceTable_sound h _
  | mask => simp only [SubStep.run, maskConstant]; split <;> exact h
  | ramRead =>
    simp only [SubStep.run, pendingRead]
    split
    · exact Ctx.Sound.andThen (c := { c with s := c.s.readRam.2 }) (State.Sound.readRam h) fun h => { h with }
    · exact h
  | postBusF2 =>
    simp only [SubStep.run, Sys2Proof.Machine.postBusF2]
    split
    · exact h.hook rfl
    · exact h
  | earlyF1 =>
    simp only [SubStep.run, Sys2Proof.Machine.earlyF1]
    split
    · exact h.hook rfl
    · exact h
  | alu =>
    simp only [SubStep.run, runAlu]
    split
    · exact State.Sound.fatal h _
    · exact { h with }
  | ramWrite =>
    simp only [SubStep.run, pendingWrite]
    split
    · exact Ctx.Sound.andThen (c := { c with s := c.s.writeRam c.w.alu c.s.m }) (State.Sound.writeRam h _ _)
        fun h => { h with }
    · exact h
  | f1 => exact f1Table_sound h _
  | f2 => exact f2Table_sound h _
  | shifter =>
    simp only [SubStep.run, runShifter]
    split
    · exact { h with }
    · exact h
  | f2Test => exact f2TestTable_sound h _
  | writeR =>
    simp only [SubStep.run, writeBackR]
    split
    · exact { h with }
    · exact h
  | writeS =>
    simp only [SubStep.run, writeBackS]
    split
    · exact { h with }
    · exact h
  | loadT =>
    simp only [SubStep.run, Stages.of]
    cases w.lt
    · exact h
    · exact { h with }
  | loadL =>
    simp only [SubStep.run, Stages.of]
    cases w.ll
    · exact h
    · exact { h with }
  | bankSwitch =>
    simp only [SubStep.run, pendingSwitch]
    split
    · exact { State.Sound.switchMode h c.w.successor c.w.slot with }
    · exact h
  | blockHook =>
    simp only [SubStep.run, Sys2Proof.Machine.blockHook]
    split
    · exact h.hook rfl
    · exact h
  | nextAddress =>
    simp only [SubStep.run, Sys2Proof.Machine.nextAddress]
    split <;> exact { h with }

/-! ### The arbiter (R341 to R344) and the word -/

theorem State.present_of_scan {s : State} {t : Slot} (h : s.scan = some t) : s.cfg.present t = true :=
  (Bool.and_eq_true _ _ ▸ List.find?_some h).1

theorem State.commitSwitch_none {s : State} (h : s.nextTask = none) : s.commitSwitch = s := by
  simp only [State.commitSwitch, h]

theorem State.Sound.commitSwitch {s : State} (h : s.Sound 0) : s.commitSwitch.Sound 0 := by
  cases hn : s.nextTask with
  | none => rwa [State.commitSwitch_none hn]
  | some n =>
    rw [State.commitSwitch_some hn]
    exact Ctx.Sound.hook (c := s.switchedTo n) { h with cur := h.nextTask n hn, nextTask := nofun } rfl

theorem Ctx.Sound.complete {c : Ctx} (h : c.Sound) : c.complete.Sound 0 := by
  rcases c.complete_cases with e | e | e <;> rw [e]
  · exact h
  · exact { h with nextTask := fun _ => State.present_of_scan }
  · exact State.Sound.commitSwitch h

theorem State.Sound.exec {i : Instr} {s t : State} (h : s.Sound 0) (he : Machine.exec i s = .next t) : t.Sound 0 := by
  rcases exec_cases he with rfl | ⟨_, _, rfl⟩
  · exact h
  · exact (executeNext_inv (P := Ctx.Sound) i.word (fun g _ h _ => g.run_sound i.word h) (Ctx.begin i.word s) h).complete

/-! ### The outside (R300, R371, R401) -/

theorem State.foldl_resetHs (ts : List Slot) (s : State) : ∃ hs, ts.foldl State.resetHs s = { s with hs := hs } := by
  induction ts generalizing s with
  | nil => exact ⟨_, rfl⟩
  | cons t ts ih =>
    obtain ⟨hs, e⟩ := ih (s.resetHs t)
    rw [List.foldl_cons, e, State.resetHs]
    split <;> exact ⟨_, rfl⟩

/-- A hard reset leaves the emulator awake and every other slot asleep. -/
theorem State.foldl_resetWakeup (ts : List Slot) (s : State) :
    ∃ wk, ts.foldl State.resetWakeup s = { s with wakeup := wk } ∧
      ∀ u, (u ∈ ts ∨ rd s.wakeup u = s.cfg.isEmulator u) → rd wk u = s.cfg.isEmulator u := by
  induction ts generalizing s with
  | nil => exact ⟨_, rfl, fun u h => h.resolve_left List.not_mem_nil⟩
  | cons t ts ih =>
    obtain ⟨wk, e, woken⟩ := ih (s.resetWakeup t)
    refine ⟨wk, e, fun u h => woken u ?_⟩
    by_cases hu : t = u
    · exact .inr (hu ▸ rd_wr_self _ _ _)
    · refine h.imp (fun h => (List.mem_cons.1 h).resolve_left (Ne.symm hu)) fun h => ?_
      exact (rd_wr_other _ _ hu).trans h

theorem State.Sound.resetSelect {s : State} (h : s.Sound 0) : s.resetSelect.Sound 0 := by
  unfold State.resetSelect
  split
  · exact h
  · exact { h with cur := State.present_of_scan ‹_› }

theorem State.Sound.hardReset {s : State} (h : s.Sound 0) : s.hardReset.Sound 0 := by
  unfold State.hardReset
  refine State.Sound.resetSelect ?_
  obtain ⟨hs, e⟩ := State.foldl_resetHs slotsUp { State.reset with
    csRam := s.csRam, mem := s.mem, cfg := s.cfg, hs := s.hs
    oracle := s.oracle, diagnostics := s.diagnostics, agenda := s.agenda, cur := s.cur
    first := Vector.replicate 16 false }
  rw [e]
  obtain ⟨wk, e, woken⟩ := State.foldl_resetWakeup slotsUp { State.reset with
    csRam := s.csRam, mem := s.mem, cfg := s.cfg, hs := hs
    oracle := s.oracle, diagnostics := s.diagnostics, agenda := s.agenda, cur := s.cur
    first := Vector.replicate 16 false }
  rw [e]
  have rom0 : ∀ t, rd State.reset.bank t = .rom0 := by decide
  exact { h with
    nextTask := nofun
    awake := fun t emulator => (woken t (.inl (mem_slotsUp t))).trans emulator
    bank := fun t => (rom0 t).symm ▸ CsConfig.hasBank_restart s.cfg.csConfig true
    bus := fun _ => nofun }

theorem State.Sound.hostCall {s : State} (h : s.Sound 0) (call : HostCall) : (s.hostCall call).Sound 0 := by
  cases call with
  | wakeupTask t => exact h.wakeupTask t
  | blockTask t => exact h.blockTask t
  | softReset => exact Ctx.Sound.softReset (c := { s := s, w := Wires.idle s.cur }) h
  | reset => exact h.hardReset
  | deviceStore xm a w => exact h.setMemWord xm a w

theorem State.Sound.outside {s : State} (h : s.Sound 0) : s.outside.Sound 0 := by
  unfold State.outside
  split
  · exact h
  · exact State.Sound.foldl (fun _ call h => h.hostCall call) _ { h with }

/-- Settles O12: the bus's clock, the word and the outside's turn each keep every clause of the invariant. -/
theorem stepKeepsInv : Obligations.StepKeepsInv := by
  intro s t inv h
  rw [State.inv_iff_sound] at inv ⊢
  rcases step_cases h with rfl | rfl | ⟨u, hu, rfl⟩
  · exact inv.outside
  · exact inv.busClock.outside
  · exact (inv.busClock.exec hu).outside

end Sys2Proof.Machine
end

section
/-! O7: a system step runs what the fetched cell decodes to (R61, R300, R301). -/

namespace Sys2Proof.Machine

theorem step_running {s : State} (ready : s.ready = true) (hr : s.status = .running) (hb : s.busClock.status = .running) :
    step s = State.afterClock (exec (decode s.busClock.fetchWord) s.busClock) := by
  simp only [step, ready, hr, hb, if_true]

/-- Settles O7: the bus's clock leaves the fetched cell in its place, and an instruction always has a next state. -/
theorem stepRunsDecoded : Obligations.StepRunsDecoded := by
  intro s i ready hr hb hdecode
  have fetched : decode s.busClock.fetchWord = i := by
    rw [State.busClock_fetchWord]
    exact hdecode
  have next := exec_eq i s.busClock
  refine ⟨_, next, ?_⟩
  rw [step_running ready hr hb, fetched, next, State.afterClock]

end Sys2Proof.Machine
end

section
/-! O34 to O36: the write-backs of T, L, R and S (R115, R312 to R315). -/

namespace Sys2Proof.Machine

/-- The seven functions of R115. -/
theorem AluFn.loadTFromAlu_iff (a : AluFn) : a.loadTFromAlu = true ↔
    a ∈ [AluFn.bus, .busOrT, .busPlus1, .busMinus1, .busPlusTPlus1, .busPlusSkip, .busDotT] := by
  cases a <;> decide

/-- Settles O34: LT selects `loadT`, whose choice is that of the word's own function. -/
theorem loadTRow : Obligations.LoadTRow := fun o =>
  doesAt_of_run_eq_on (i := .lt o) fun c mi => by
    have function : c.w.mi.aluf = o.aluf := congrArg MicroInstr.aluf mi
    show loadT c = _
    simp only [loadT, function, AluFn.loadTFromAlu_iff]

/-- Settles O35: LL selects `loadL`. -/
theorem loadLRow : Obligations.LoadLRow := fun _ =>
  doesAt_of_run_eq fun _ => rfl

/-- Settles O36: no field of the word contributes to the two sub-steps. -/
theorem writeBacks : Obligations.WriteBacks := fun _ =>
  ⟨doesAt_of_run_eq fun _ => rfl, doesAt_of_run_eq fun _ => rfl⟩

end Sys2Proof.Machine
end

section
/-! O42: the address of the successor (R303, R318), and the soft resets that replace it (R403). -/

namespace Sys2Proof.Machine

/-! ### A soft reset inside the word -/

/-- Where `soft_reset_now` is raised, MPC of the slot that runs is already the slot's number (R318). -/
def Ctx.ResetAddress (c : Ctx) : Prop :=
  c.w.softResetNow = true → rd c.s.mpc c.w.slot = BitVec.ofNat 10 c.w.slot.val

/-- A part of a word that keeps this, unless it ends in a fatal error. -/
def Ctx.KeepsReset (c d : Ctx) : Prop :=
  d.s.status = .running → c.ResetAddress → d.ResetAddress

theorem Ctx.KeepsReset.of_same {c d : Ctx} (mpc : d.s.mpc = c.s.mpc) (now : d.w.softResetNow = c.w.softResetNow)
    (slot : d.w.slot = c.w.slot) : c.KeepsReset d := by
  intro _ h raised
  rw [mpc, slot]
  exact h (now.symm.trans raised)

theorem Ctx.KeepsReset.andThen {c d : Ctx} (h : c.KeepsReset d) {f : Ctx → Ctx}
    (hf : (f d).s.status = .running → d.s.status = .running) (k : d.KeepsReset (f d)) : c.KeepsReset (d.andThen f) := by
  rcases d.andThen_cases f with ⟨_, e⟩ | ⟨_, e⟩ <;> rw [e]
  · exact fun running reset => k running (h (hf running) reset)
  · exact h

theorem Ctx.present_of_hookAt? {c : Ctx} {site : HookSite} {d : Variant × HookEntry} (h : c.hookAt? site = some d) :
    c.s.cfg.present c.w.slot = true := by
  unfold Ctx.hookAt? at h
  split at h
  · cases h
  · simp [Config.present, *]

/-- A hook belongs to a present slot, so the soft reset it may ask for sets that slot's MPC. -/
theorem Ctx.KeepsReset.runActs {c : Ctx} {site : HookSite} {d : Variant × HookEntry} (h : c.hookAt? site = some d) :
    c.KeepsReset (c.runActs site d) := by
  intro running
  have slot := (c.runActs_wires site d).slot
  rcases c.runActs_mpc site d running with ⟨mpc, now⟩ | ⟨_, reset⟩
  · exact Ctx.KeepsReset.of_same mpc now slot running
  · intro _ _
    rw [slot]
    exact (reset _).1 (Ctx.present_of_hookAt? h)

theorem Ctx.KeepsReset.hook (c : Ctx) (site : HookSite) : c.KeepsReset (c.hook site) := by
  cases h : c.hookAt? site with
  | none => rw [Ctx.hook_undefined h]; exact .of_same rfl rfl rfl
  | some d => rw [Ctx.hook_defined h]; exact .runActs h

theorem Ctx.KeepsReset.hookOr (c : Ctx) (site : HookSite) (i : FatalInfo) : c.KeepsReset (c.hookOr site i) := by
  cases h : c.hookAt? site with
  | none => rw [Ctx.hookOr_undefined i h]; exact .of_same rfl rfl rfl
  | some d => rw [Ctx.hookOr_defined i h]; exact .runActs h

theorem sourceTable_keepsReset (b : BusSource) {c : Ctx} (hr : c.s.status = .running) :
    c.KeepsReset (sourceTable b c) := by
  cases b with
  | taskSpecific1 | taskSpecific2 => exact Ctx.KeepsReset.hookOr (c.withBus 0xFFFF) _ _
  | readMD => exact .of_same (c.s.busReadMD_bus hr).mpc rfl rfl
  | readR | loadR | noSource | readMouse | readDisp => exact .of_same rfl rfl rfl

theorem f1Table_keepsReset (f : F1Code) {c : Ctx} (hr : c.s.status = .running) : c.KeepsReset (f1Table f c) := by
  cases f with
  | loadMAR => exact .of_same (c.s.busLoadMAR_bus _ _ _ hr).mpc rfl rfl
  | task => simp only [f1Table, spTask]; split <;> exact .of_same rfl rfl rfl
  | block => exact .of_same (c.s.blockTask_contract _).bus.mpc rfl rfl
  | nop | llsh1 | lrsh1 | llcy8 | constant => exact .of_same rfl rfl rfl
  | ts8 | ts9 | ts10 | ts11 | ts12 | ts13 | ts14 | ts15 => exact .hookOr c _ _

theorem f2Table_keepsReset (f : F2Code) (c : Ctx) : c.KeepsReset (f2Table f c) := by
  cases f with
  | busZero => simp only [f2Table, spBusZero]; split <;> exact .of_same rfl rfl rfl
  | storeMD =>
    simp only [f2Table, spStoreMD]
    split
    · exact .of_same rfl rfl rfl
    · exact .of_same (c.s.busLoadMD_bus _).mpc rfl rfl
  | nop | shNeg | shZero | bus | aluCy | constant => exact .of_same rfl rfl rfl
  | ts8 | ts9 | ts10 | ts11 | ts12 | ts13 | ts14 | ts15 => exact .hookOr c _ _

theorem f2TestTable_keepsReset (f : F2Code) (c : Ctx) : c.KeepsReset (f2TestTable f c) := by
  cases f
  case shNeg => simp only [f2TestTable, spShNeg]; split <;> exact .of_same rfl rfl rfl
  case shZero => simp only [f2TestTable, spShZero]; split <;> exact .of_same rfl rfl rfl
  all_goals exact .of_same rfl rfl rfl

theorem pendingRead_keepsReset (c : Ctx) : c.KeepsReset (pendingRead c) := by
  unfold pendingRead
  split
  · refine Ctx.KeepsReset.andThen (d := { c with s := c.s.readRam.2 }) ?_ id (.of_same rfl rfl rfl)
    rcases c.s.readRam_cases with e | e <;> rw [e] <;> exact .of_same rfl rfl rfl
  · exact .of_same rfl rfl rfl

theorem pendingWrite_keepsReset (c : Ctx) : c.KeepsReset (pendingWrite c) := by
  unfold pendingWrite
  split
  · refine Ctx.KeepsReset.andThen (d := { c with s := c.s.writeRam c.w.alu c.s.m }) ?_ id (.of_same rfl rfl rfl)
    rcases c.s.writeRam_cases c.w.alu c.s.m with e | e | ⟨b, _, e⟩ <;> rw [e] <;> exact .of_same rfl rfl rfl
  · exact .of_same rfl rfl rfl

/-- Only hooks raise `soft_reset_now`, and only they and the sub-step m write an MPC; that sub-step looks at the wire. -/
theorem SubStep.run_keepsReset (w : MicroInstr) (g : SubStep) {c : Ctx} (hr : c.s.status = .running) :
    c.KeepsReset (g.run (Stages.of w) c) := by
  cases g with
  | branchBits | register | clearFirst => exact .of_same rfl rfl rfl
  | earlyF2 | afterShift => exact .hook c _
  | source =>
    simp only [SubStep.run, selectSource]
    split
    · exact .of_same rfl rfl rfl
    · exact sourceTable_keepsReset _ hr
  | mask => simp only [SubStep.run, maskConstant]; split <;> exact .of_same rfl rfl rfl
  | ramRead => exact pendingRead_keepsReset c
  | postBusF2 =>
    simp only [SubStep.run, Sys2Proof.Machine.postBusF2]
    split
    · exact .hook c _
    · exact .of_same rfl rfl rfl
  | earlyF1 =>
    simp only [SubStep.run, Sys2Proof.Machine.earlyF1]
    split
    · exact .hook c _
    · exact .of_same rfl rfl rfl
  | alu => simp only [SubStep.run, runAlu]; split <;> exact .of_same rfl rfl rfl
  | ramWrite => exact pendingWrite_keepsReset c
  | f1 => exact f1Table_keepsReset _ hr
  | f2 => exact f2Table_keepsReset _ c
  | shifter => simp only [SubStep.run, runShifter]; split <;> exact .of_same rfl rfl rfl
  | f2Test => exact f2TestTable_keepsReset _ c
  | writeR => simp only [SubStep.run, writeBackR]; split <;> exact .of_same rfl rfl rfl
  | writeS => simp only [SubStep.run, writeBackS]; split <;> exact .of_same rfl rfl rfl
  | loadT => simp only [SubStep.run, Stages.of]; cases w.lt <;> exact .of_same rfl rfl rfl
  | loadL => simp only [SubStep.run, Stages.of]; cases w.ll <;> exact .of_same rfl rfl rfl
  | bankSwitch => simp only [SubStep.run, pendingSwitch]; split <;> exact .of_same rfl rfl rfl
  | blockHook =>
    simp only [SubStep.run, Sys2Proof.Machine.blockHook]
    split
    · exact .hook c _
    · exact .of_same rfl rfl rfl
  | nextAddress =>
    cases raised : c.w.softResetNow with
    | true => simp only [SubStep.run, Sys2Proof.Machine.nextAddress, raised]; exact .of_same rfl rfl rfl
    | false => exact fun _ _ k => absurd (raised.symm.trans k) nofun

theorem State.before_resetAddress {s : State} {g : SubStep} {w : MicroInstr} (hr : (s.before g w).s.status = .running) :
    (s.before g w).ResetAddress := by
  have kept : (Ctx.begin w s).KeepsReset (s.before g w) ∧
      ((s.before g w).s.status = .running → (Ctx.begin w s).s.status = .running) := by
    refine State.before_rel (R := fun a b => a.KeepsReset b ∧ (b.s.status = .running → a.s.status = .running))
      (fun _ => ⟨.of_same rfl rfl rfl, id⟩) (fun ⟨h, hrun⟩ ⟨k, krun⟩ => ?_)
      w (fun g c hr => ⟨g.run_keepsReset w hr, fun _ => hr⟩) s g
    exact ⟨fun running reset => k running (h (krun running) reset), hrun ∘ krun⟩
  exact kept.1 hr nofun

/-! ### The soft reset of a committed switch (R344) -/

/-- The acts of a defined hook as the list of functions they are. -/
theorem Ctx.runActs_eq_foldl (c : Ctx) (site : HookSite) (d : Variant × HookEntry) : c.runActs site d =
    (((c.hookActs site d).filter (HookAct.permitted site (c.s.cfg.isRamTask c.w.slot))).map
      fun a (c : Ctx) => c.act a).foldl Ctx.andThen { s := c.s.countHook d, w := { c.w with md := 0 } } := by
  rw [List.foldl_map]
  rfl

/-- A hook that asks for no soft reset writes no MPC. -/
theorem Ctx.runActs_mpc_of_no_reset {c : Ctx} {site : HookSite} {d : Variant × HookEntry}
    (h : ∀ k, .softReset k ∉ c.hookActs site d) : (c.runActs site d).s.mpc = c.s.mpc := by
  refine Eq.trans ?_ (c.s.countHook_contract d).bus.mpc
  rw [Ctx.runActs_eq_foldl]
  refine Ctx.foldl_rel (R := fun a b => b.s.mpc = a.s.mpc) (fun _ => rfl) (fun h k => k.trans h) _ ?_
    { s := c.s.countHook d, w := { c.w with md := 0 } }
  intro f hf c hr
  obtain ⟨a, ha, rfl⟩ := List.mem_map.1 hf
  dsimp only
  rw [Ctx.act_eq_basicAct (fun k e => h k (e ▸ (List.mem_filter.1 ha).1))]
  exact (c.basicAct_mpc hr a).1

/-- Once raised, `soft_reset_now` stays so to the end of the hook. -/
theorem Ctx.act_keepsRaised {c : Ctx} (h : c.w.softResetNow = true) (a : HookAct) : (c.act a).w.softResetNow = true := by
  cases a with
  | softReset k => rfl
  | _ => exact h

theorem Ctx.running_of_andThen {c : Ctx} {f : Ctx → Ctx} (h : (c.andThen f).s.status = .running) : c.s.status = .running :=
  Ctx.running_of_foldl (fs := [f]) h

theorem Ctx.acts_raise {k : Nat} {as : List HookAct} (hk : .softReset k ∈ as) {c : Ctx}
    (hr : ((as.map fun a (c : Ctx) => c.act a).foldl Ctx.andThen c).s.status = .running) :
    ((as.map fun a (c : Ctx) => c.act a).foldl Ctx.andThen c).w.softResetNow = true := by
  obtain ⟨before, after, rfl⟩ := List.append_of_mem hk
  rw [List.map_append, List.map_cons, List.foldl_append, List.foldl_cons] at hr ⊢
  rw [Ctx.andThen_running (Ctx.running_of_andThen (Ctx.running_of_foldl hr))]
  refine Ctx.foldl_inv (P := fun c => c.w.softResetNow = true) _ (fun f hf c h _ => ?_) _ rfl
  obtain ⟨a, _, rfl⟩ := List.mem_map.1 hf
  exact Ctx.act_keepsRaised h a

/-- A hook that asks for a soft reset raises `soft_reset_now`, unless a fatal error cuts it short. -/
theorem Ctx.runActs_raises {c : Ctx} {site : HookSite} (hs : site.isPolicy = false) {d : Variant × HookEntry} {k : Nat}
    (hk : .softReset k ∈ c.hookActs site d) (hr : (c.runActs site d).s.status = .running) :
    (c.runActs site d).w.softResetNow = true := by
  rw [Ctx.runActs_eq_foldl] at hr ⊢
  exact Ctx.acts_raise (k := k) (List.mem_filter.2 ⟨hk, by simp [HookAct.permitted, HookAct.visible, HookAct.val?, hs]⟩) hr

/-- The hook of a switch leaves the MPCs alone, or leaves those of the soft reset it asked for. -/
theorem State.commitSwitch_mpc {s : State} {n : Slot} (hn : s.nextTask = some n) (hr : s.commitSwitch.status = .running) :
    (¬s.switchResets n → s.commitSwitch.mpc = s.mpc) ∧ (s.switchResets n → s.MpcReset s.commitSwitch) := by
  rw [State.commitSwitch_some hn] at hr ⊢
  cases hd : (s.switchedTo n).hookAt? .onTaskSwitch with
  | none =>
    rw [Ctx.hook_undefined hd]
    refine ⟨fun _ => rfl, fun ⟨d, k, defined, _⟩ => ?_⟩
    simp [hd] at defined
  | some d =>
    rw [Ctx.hook_defined hd] at hr ⊢
    refine ⟨fun none => Ctx.runActs_mpc_of_no_reset fun k hk => none ⟨d, k, hd, hk⟩, fun ⟨d', k, defined, hk⟩ => ?_⟩
    obtain rfl : d = d' := Option.some.inj (hd.symm.trans defined)
    have raised := Ctx.runActs_raises rfl hk hr
    rcases (s.switchedTo n).runActs_mpc .onTaskSwitch d hr with ⟨_, now⟩ | ⟨_, reset⟩
    · exact absurd (now.symm.trans raised) nofun
    · exact reset

/-! ### The whole word -/

theorem State.before_clearFirst_eq_nextAddress {s : State} {w : MicroInstr}
    (hr : (s.before .nextAddress w).s.status = .running) : s.before .clearFirst w = nextAddress (s.before .nextAddress w) :=
  Ctx.andThen_running hr nextAddress

theorem State.executed_eq_clearFirst {s : State} {w : MicroInstr} (hr : (s.before .clearFirst w).s.status = .running) :
    s.executed w = clearFirst (s.before .clearFirst w) :=
  Ctx.andThen_running hr clearFirst

/-- No sub-step and no hook writes NEXT_TASK (R46). -/
theorem State.executed_nextTask (s : State) (w : MicroInstr) : (s.executed w).s.nextTask = s.nextTask := by
  have rel : SubStep.Rel fun a b => b.nextTask = a.nextTask := ⟨fun _ => rfl, fun h => h.nextTask, by intros; rfl⟩
  refine executeNext_inv (P := fun c => c.s.nextTask = s.nextTask) w (fun g c hc hr => ?_) (Ctx.begin w s) rfl
  exact (SubStep.run_rel rel w (by intros; rfl) g c (by intros; rfl) hr).trans hc

/-- MPC of the slot that ran, as the arbiter finds it (R318). -/
theorem State.executed_mpc {s : State} {w : MicroInstr} (hr : ∀ g, (s.before g w).s.status = .running)
    (running : s.status = .running) : rd (s.executed w).s.mpc s.cur =
      if (s.before .nextAddress w).w.softResetNow then BitVec.ofNat 10 s.cur.val else w.next ||| rd s.nextMod s.cur := by
  have slot := s.before_slot .nextAddress w
  have successor := State.before_successor running w (g := .nextAddress) nofun
  have reset := State.before_resetAddress (hr .nextAddress)
  rw [State.executed_eq_clearFirst (hr .clearFirst), State.before_clearFirst_eq_nextAddress (hr .nextAddress)]
  generalize s.before .nextAddress w = c at slot successor reset ⊢
  simp only [clearFirst, nextAddress, State.setFirst_mpc, State.setNextMod_mpc]
  split
  · rename_i raised
    rw [← slot]
    exact reset raised
  · rw [State.setMpc_mpc, slot, rd_wr_self, successor]

/-- The completion of an executed word is `TaskSwitch` where `State.tasks` says so (R212, R319). -/
theorem State.executed_taskSwitch {s : State} {w : MicroInstr} (hr : ∀ g, (s.before g w).s.status = .running) :
    (s.executed w).w.taskSwitch = s.tasks w := by
  rw [State.executed_eq_clearFirst (hr .clearFirst)]
  exact (State.before_clearFirst_arbiterFrame (hr .f1)).taskSwitch

/-- An executed word that does not ask for a switch commits the pending one (R344). -/
theorem Ctx.complete_normal {c : Ctx} (hr : c.s.status = .running) (h : c.w.taskSwitch = false) :
    c.complete = c.s.commitSwitch := by
  simp [Ctx.complete, State.andThen_running hr, h]

/-- What the arbiter does to the MPCs: nothing, unless the hook of the switch it commits asks for a soft reset. -/
theorem Ctx.complete_mpc {c : Ctx} (hr : c.complete.status = .running) :
    ((c.w.taskSwitch = true ∨ ∀ n, c.s.nextTask = some n → ¬c.s.switchResets n) → c.complete.mpc = c.s.mpc) ∧
      ∀ n, c.s.nextTask = some n → c.w.taskSwitch = false → c.s.switchResets n → c.s.MpcReset c.complete := by
  have running : c.s.status = .running := State.running_of_andThen hr
  cases asks : c.w.taskSwitch with
  | true => exact ⟨fun _ => by rw [Ctx.complete_taskSwitch running asks], fun _ _ => nofun⟩
  | false =>
    rw [Ctx.complete_normal running asks] at hr ⊢
    cases hn : c.s.nextTask with
    | none => exact ⟨fun _ => by rw [State.commitSwitch_none hn], nofun⟩
    | some n =>
      obtain ⟨kept, reset⟩ := State.commitSwitch_mpc hn hr
      refine ⟨fun h => kept (h.resolve_left nofun n rfl), fun m hm _ resets => ?_⟩
      obtain rfl : n = m := Option.some.inj hm
      exact reset resets

/-- Settles O42: sub-step m writes the successor's address unless `soft_reset_now` is raised, and after it only the hook of
a committed switch may write an MPC. -/
theorem nextAddressRule : Obligations.NextAddressRule := by
  intro i s t hr hs h ht
  have before g : (s.before g i.word).s.status = .running := (State.reaches_of_running hr hs h ht g).2.2
  obtain rfl : t = (s.executed i.word).complete := by
    rw [exec_eq_complete hr hs h ht, State.executed_eq_clearFirst (before .clearFirst)]
  have mpc := State.executed_mpc before hr
  have cfg : (s.executed i.word).s.cfg = s.cfg := (executeNext_loadFrame i.word s).cfg
  obtain ⟨kept, reset⟩ := Ctx.complete_mpc ht
  rw [State.executed_taskSwitch before, s.executed_nextTask] at kept reset
  refine ⟨fun notRaised quiet => ?_, fun raised => ?_, fun n hn noTask resets present => ?_⟩
  · rw [kept quiet, mpc, notRaised, if_neg nofun]
  · rw [raised, if_pos rfl] at mpc
    by_cases quiet : s.tasks i.word = true ∨ ∀ n, s.nextTask = some n → ¬(s.executed i.word).s.switchResets n
    · rw [kept quiet, mpc]
    · simp only [not_or, not_forall, not_not] at quiet
      obtain ⟨noTask, n, hn, resets⟩ := quiet
      exact ((reset n hn (Bool.eq_false_of_not_eq_true noTask) resets).kept s.cur).elim (·.trans mpc) And.right
  · exact ((reset n hn noTask resets) s.cur).1 (cfg.symm ▸ present)

end Sys2Proof.Machine
end

section
/-! O14: the whole next state of a plain word (R301 to R319, R340 to R344). The contexts in which the ALU, the two special
functions and the write-backs begin are written out from the state the word begins in; each is reached from the one before
it, and the last one leaves `State.plainDone` to the arbiter. -/

namespace Sys2Proof.Machine

/-! ### Hooks that act on nothing (R240) -/

theorem Ctx.hookAt?_quiet {c : Ctx} (h : c.s.quietHooks c.w.slot = true) {site : HookSite} {d : Variant × HookEntry}
    (hd : c.hookAt? site = some d) : d.2 = .acts [] ∧ site.isPolicy = false := by
  unfold Ctx.hookAt? at hd
  split at hd
  · cases hd
  · rename_i v hv
    obtain ⟨row, found, rfl⟩ := Option.map_eq_some_iff.1 hd
    have quiet := List.all_eq_true.1 h row (List.mem_of_find?_eq_some found)
    have matched := List.find?_some found
    simp only [Bool.and_eq_true, beq_iff_eq] at matched
    obtain ⟨variant, rfl⟩ := matched
    simpa [hv, variant] using quiet

theorem Ctx.runActs_nothing {c : Ctx} (md : c.w.md = 0) (site : HookSite) {d : Variant × HookEntry}
    (hd : d.2 = .acts []) : c.runActs site d = c := by
  obtain ⟨v, entry⟩ := d
  obtain rfl : entry = .acts [] := hd
  calc c.runActs site (v, .acts []) = { s := c.s, w := { c.w with md := 0 } } := rfl
    _ = c := by rw [← md]

theorem Ctx.hook_quiet {c : Ctx} (h : c.s.quietHooks c.w.slot = true) (md : c.w.md = 0) (site : HookSite) :
    c.hook site = c := by
  cases hd : c.hookAt? site with
  | none => exact Ctx.hook_undefined hd
  | some d => rw [Ctx.hook_defined hd, Ctx.runActs_nothing md site (Ctx.hookAt?_quiet h hd).1]

/-- What the sub-steps of a plain word keep of its start: the parameters, the slot, and that no hook has read a word. -/
structure Ctx.Within (s : State) (c : Ctx) : Prop where
  quiet : s.quietHooks s.cur = true
  cfg : c.s.cfg = s.cfg
  slot : c.w.slot = s.cur
  md : c.w.md = 0

theorem Ctx.Within.quietHooks {s : State} {c : Ctx} (h : c.Within s) : c.s.quietHooks c.w.slot = true := by
  have quiet := h.quiet
  unfold State.quietHooks at quiet ⊢
  rwa [h.cfg, h.slot]

theorem Ctx.Within.hook {s : State} {c : Ctx} (h : c.Within s) (site : HookSite) : c.hook site = c :=
  Ctx.hook_quiet h.quietHooks h.md site

/-- A task-specific code that the running task knows (R105, R106, R241). -/
theorem Ctx.Within.hookOr {s : State} {c : Ctx} (h : c.Within s) {site : HookSite} (known : s.defines site = true)
    (i : FatalInfo) : c.hookOr site i = c := by
  have same : c.hookAt? site = Ctx.hookAt? { s := s, w := Wires.idle s.cur } site := by
    unfold Ctx.hookAt?
    rw [h.cfg, h.slot]
    rfl
  obtain ⟨d, hd⟩ := Option.isSome_iff_exists.1 known
  rw [← same] at hd
  rw [Ctx.hookOr_defined i hd]
  exact Ctx.runActs_nothing h.md site (Ctx.hookAt?_quiet h.quietHooks hd).1

/-- `BLOCK` of a present slot, not the emulator's, whose hooks are no policies (R213, R352). -/
theorem Ctx.Within.blockTask {s : State} {c : Ctx} (h : c.Within s) (hr : c.s.status = .running)
    (present : s.cfg.present s.cur = true) (notEmulator : s.cfg.isEmulator s.cur = false) :
    c.s.blockTask c.w.slot = c.s.setWakeup s.cur false := by
  have noPolicy : Ctx.hookAt? { s := c.s, w := Wires.idle c.w.slot } .blockPolicy = none := by
    cases hd : Ctx.hookAt? { s := c.s, w := Wires.idle c.w.slot } .blockPolicy with
    | none => rfl
    | some d => exact nomatch (Ctx.hookAt?_quiet h.quietHooks hd).2
  rw [State.blockTask_policy hr (by rwa [h.cfg, h.slot]) (by rwa [h.cfg, h.slot]), State.policy_undefined noPolicy,
    h.slot]

/-! ### What a plain word assumes, and what follows of its parts -/

/-- The clauses of `State.plain`, by name. -/
structure State.Plain (s : State) (w : MicroInstr) : Prop where
  running : s.status = .running
  notStalled : s.stalls w = false
  source : w.constSf = false → (w.bs = .taskSpecific1 ∨ w.bs = .taskSpecific2) → s.defines (.busSource w.bs) = true
  f1 : w.f1.taskSpecific = true → s.defines (.f1Late w.f1) = true
  f2 : w.f2.taskSpecific = true → s.defines (.f2Late w.f2) = true
  aluf : w.aluf ≠ .undef14 ∧ w.aluf ≠ .undef15
  quiet : s.quietHooks s.cur = true
  quietNext : ∀ n, s.nextTask = some n → s.quietHooks n = true
  block : w.f1 = .block → s.cfg.present s.cur = true ∧ s.cfg.isEmulator s.cur = false
  read : rd s.rdRamP s.cur = true → s.readRam.2.status = .running
  write : rd s.wrtRamP s.cur = true → (s.writeRam (s.plainAlu w).result s.m).status = .running
  ends : (s.plainF2 w).status = .running

theorem State.plain.clauses {s : State} {w : MicroInstr} (h : s.plain w) : s.Plain w := by
  obtain ⟨running, notStalled, known, quiet, quietNext, block, read, write, ends⟩ := h
  simp only [State.knownCodes, Bool.and_eq_true, Bool.or_eq_true, Bool.not_eq_true', bne_iff_ne] at known
  obtain ⟨⟨⟨source, f1⟩, f2⟩, aluf⟩ := known
  refine ⟨running, notStalled, fun noConstant ts => ?_, fun ts => ?_, fun ts => ?_, aluf, quiet, quietNext, block, read,
    write, ends⟩
  · refine source.resolve_left fun h => ?_
    rcases h with h | ⟨h1, h2⟩
    · exact absurd (noConstant.symm.trans h) nofun
    · exact ts.elim h1 h2
  · exact f1.resolve_left fun h => absurd (ts.symm.trans h) nofun
  · exact f2.resolve_left fun h => absurd (ts.symm.trans h) nofun

/-- A function that is defined has the result and carry of `State.plainAlu` (R140). -/
theorem State.Plain.aluTable {s : State} {w : MicroInstr} (h : s.Plain w) :
    aluTable w.aluf (s.plainBus w) s.t s.skip = some (s.plainAlu w) := by
  unfold State.plainAlu
  cases ha : w.aluf with
  | undef14 => exact absurd ha h.aluf.1
  | undef15 => exact absurd ha h.aluf.2
  | _ => rfl

theorem State.running_of_busLoadMAR {s : State} {a : Word} {t : Slot} {xm : Bool}
    (h : (s.busLoadMAR a t xm).status = .running) : s.status = .running := by
  unfold State.busLoadMAR at h
  split at h
  · cases h
  · exact h

theorem State.Plain.plainF1_running {s : State} {w : MicroInstr} (h : s.Plain w) : (s.plainF1 w).status = .running := by
  have ends := h.ends
  unfold State.plainF2 at ends
  split at ends
  · exact ((s.plainF1 w).busLoadMD_bus _).hook.running ends
  · exact ends

theorem State.Plain.plainEarly_running {s : State} {w : MicroInstr} (h : s.Plain w) :
    (s.plainEarly w).status = .running := by
  have f1 := h.plainF1_running
  unfold State.plainF1 at f1
  split at f1
  · exact State.running_of_busLoadMAR f1
  · exact f1
  · exact f1

theorem State.busReadMD_of_running {s : State} (h : s.busReadMD.2.status = .running) :
    ∃ mixed, s.busReadMD.2 = { s with busDwMixed := mixed } := by
  unfold State.busReadMD at h ⊢
  split
  · split
    · exact ⟨_, rfl⟩
    · exact ⟨_, rfl⟩
    · simp_all [State.fatal]
  · exact ⟨_, rfl⟩

/-- A bus source that is not fatal leaves a mark on the bus, or a question to the mouse's oracle, or nothing. -/
theorem State.Plain.plainRead_eq {s : State} {w : MicroInstr} (h : s.Plain w) :
    ∃ mixed n, s.plainRead w = { s with busDwMixed := mixed, oracle := n } := by
  have running : (s.plainRead w).status = .running := h.plainEarly_running
  unfold State.plainRead at running ⊢
  split
  · exact ⟨_, _, rfl⟩
  · rename_i noConstant
    rw [if_neg noConstant] at running
    split
    · rename_i readMD
      rw [if_pos readMD] at running
      obtain ⟨mixed, e⟩ := State.busReadMD_of_running running
      exact ⟨mixed, _, e⟩
    · split <;> exact ⟨_, _, rfl⟩

/-- What the sub-steps up to the pending write look at is as it was when the word began. -/
structure State.ReadFrame (s p : State) : Prop where
  t : p.t = s.t
  skip : p.skip = s.skip
  m : p.m = s.m
  crar : p.crar = s.crar
  nextMod : p.nextMod = s.nextMod
  rdRamP : p.rdRamP = s.rdRamP
  wrtRamP : p.wrtRamP = s.wrtRamP
  csRam : p.csRam = s.csRam
  status : p.status = s.status
  cfg : p.cfg = s.cfg

theorem State.Plain.plainRead_frame {s : State} {w : MicroInstr} (h : s.Plain w) : s.ReadFrame (s.plainRead w) := by
  obtain ⟨_, _, e⟩ := h.plainRead_eq
  rw [e]
  exact ⟨rfl, rfl, rfl, rfl, rfl, rfl, rfl, rfl, rfl, rfl⟩

theorem State.plainF1_bus {s : State} {w : MicroInstr} (hr : (s.plainEarly w).status = .running) :
    (s.plainEarly w).BusFrame (s.plainF1 w) := by
  unfold State.plainF1
  split
  · exact State.busLoadMAR_bus _ _ _ _ hr
  · exact ⟨_, _, _, _, _, _, _, _, _, _, _, _, _, _, _, rfl, id⟩
  · exact .refl _

theorem State.plainF2_bus (s : State) (w : MicroInstr) : (s.plainF1 w).BusFrame (s.plainF2 w) := by
  unfold State.plainF2
  split
  · exact State.busLoadMD_bus _ _
  · exact .refl _

/-- What the special functions of a plain word leave for the write-backs. -/
structure State.WriteBackFrame (s : State) (w : MicroInstr) (p : State) : Prop where
  r : p.r = s.r
  t : p.t = s.t
  l : p.l = s.l
  m : p.m = s.m
  aluC0 : p.aluC0 = s.aluC0
  aluCarry : p.aluCarry = (s.plainAlu w).carry
  crar : p.crar = s.crar
  mpc : p.mpc = s.mpc
  bank : p.bank = s.bank
  first : p.first = s.first
  nextMod : p.nextMod = wr s.nextMod s.cur 0
  swModeP : p.swModeP = s.swModeP
  cur : p.cur = s.cur
  nextTask : p.nextTask = s.nextTask
  cfg : p.cfg = s.cfg

theorem State.Plain.plainEarly_frame {s : State} {w : MicroInstr} (h : s.Plain w) :
    s.WriteBackFrame w (s.plainEarly w) := by
  obtain ⟨_, _, e⟩ := h.plainRead_eq
  rw [State.plainEarly, e]
  exact ⟨rfl, rfl, rfl, rfl, rfl, rfl, rfl, rfl, rfl, rfl, rfl, rfl, rfl, rfl, rfl⟩

theorem State.WriteBackFrame.of_bus {s a b : State} {w : MicroInstr} (h : s.WriteBackFrame w a) (k : a.BusFrame b) :
    s.WriteBackFrame w b := by
  obtain ⟨_, _, _, _, _, _, _, _, _, _, _, _, _, _, _, rfl, _⟩ := k
  exact ⟨h.r, h.t, h.l, h.m, h.aluC0, h.aluCarry, h.crar, h.mpc, h.bank, h.first, h.nextMod, h.swModeP, h.cur, h.nextTask,
    h.cfg⟩

theorem State.Plain.plainF1_frame {s : State} {w : MicroInstr} (h : s.Plain w) : s.WriteBackFrame w (s.plainF1 w) :=
  h.plainEarly_frame.of_bus (State.plainF1_bus h.plainEarly_running)

theorem State.Plain.plainF2_frame {s : State} {w : MicroInstr} (h : s.Plain w) : s.WriteBackFrame w (s.plainF2 w) :=
  h.plainF1_frame.of_bus (s.plainF2_bus w)

/-! ### Operations that do not look at what the sub-steps before them wrote -/

theorem State.busReadMD_setNextMod (s : State) (t : Slot) (a : Addr) :
    (s.setNextMod t a).busReadMD = (s.busReadMD.1, s.busReadMD.2.setNextMod t a) := by
  cases hact : s.busActive with
  | false => rw [State.busReadMD_idle (s := s.setNextMod t a) hact, State.busReadMD_idle hact]; rfl
  | true =>
    cases hw : windowAt s.cfg.memTiming.readWindow s.busCycle with
    | none => rw [State.busReadMD_outside (s := s.setNextMod t a) hact hw, State.busReadMD_outside hact hw]; rfl
    | some win =>
      cases win with
      | first => rw [State.busReadMD_first (s := s.setNextMod t a) hact hw, State.busReadMD_first hact hw]; rfl
      | second => rw [State.busReadMD_second (s := s.setNextMod t a) hact hw, State.busReadMD_second hact hw]; rfl

/-- A control-RAM read that is not fatal is one of a RAM bank (R275, R372). -/
theorem State.ram_of_readRam_running {s : State} (h : s.readRam.2.status = .running) :
    crarRom s.crar = false ∧ ∃ b, ramBank s.cfg.csConfig (crarBank s.crar) = some b := by
  unfold State.readRam at h
  split at h
  · cases h
  · rename_i ram
    split at h
    · cases h
    · exact ⟨Bool.eq_false_of_not_eq_true ram, _, ‹_›⟩

/-- A control-RAM read looks at CRAR, the control RAM and the parameters (R275). -/
theorem State.readRam_congr {a b : State} (crar : a.crar = b.crar) (csRam : a.csRam = b.csRam) (cfg : a.cfg = b.cfg)
    (hb : b.readRam.2.status = .running) : a.readRam = (b.readRam.1, a) := by
  obtain ⟨ram, k, hk⟩ := State.ram_of_readRam_running hb
  have cell : a.csCell k (crarCell b.crar) = b.csCell k (crarCell b.crar) := by
    rw [State.csCell, State.csCell, cfg, csRam]
  rw [State.readRam_ram ram hk, State.readRam_ram (s := a) (b := k) (by rwa [crar]) (by rwa [crar, cfg]), crar, cell, cfg]

/-- A control-RAM write looks at the same, and writes nothing but the control RAM where it is not fatal (R276). -/
theorem State.writeRam_congr {a b : State} (crar : a.crar = b.crar) (csRam : a.csRam = b.csRam) (cfg : a.cfg = b.cfg)
    {low high : Word} (hb : (b.writeRam low high).status = .running) :
    a.writeRam low high = { a with csRam := (b.writeRam low high).csRam } := by
  cases hrom : crarRom b.crar with
  | true => rw [State.writeRam_rom hrom, State.writeRam_rom (by rwa [crar]), ← csRam]
  | false =>
    cases hk : ramBank b.cfg.csConfig (crarBank b.crar) with
    | none => simp [State.writeRam, hrom, hk] at hb
    | some k =>
      rw [State.writeRam_ram hrom hk, State.writeRam_ram (s := a) (b := k) (by rwa [crar]) (by rwa [crar, cfg]), csRam,
        crar, cfg]

/-! ### The contexts of a plain word -/

/-- The operation a code of F1 gives the shifter (R214 to R216). -/
def F1Code.shOp : F1Code → ShOp
  | .llsh1 => .shiftLeft
  | .lrsh1 => .shiftRight
  | .llcy8 => .rotateLeft8
  | _ => .none

/-- The branch bits that are known at dispatch: all but the shifter's tests (R221 to R226). -/
def State.dispatchedBranch (s : State) (w : MicroInstr) : Addr :=
  match w.f2 with
  | .shNeg | .shZero => 0
  | _ => s.plainBranch w

/-- The wires as the constant mask begins (R199). -/
def State.wiresAtMask (s : State) (w : MicroInstr) : Wires :=
  { (Ctx.begin w s).w with nmIn := rd s.nextMod s.cur, rsel := w.rsel, bus := s.plainSource w, loadR := loadsR w }

/-- As the ALU begins (R308). -/
def State.wiresAtAlu (s : State) (w : MicroInstr) : Wires :=
  { s.wiresAtMask w with bus := s.plainBus w }

/-- As special function 1 begins (R310). -/
def State.wiresAtF1 (s : State) (w : MicroInstr) : Wires :=
  { s.wiresAtAlu w with alu := (s.plainAlu w).result, cy := (s.plainAlu w).carry }

/-- As special function 2 begins (R310). -/
def State.wiresAtF2 (s : State) (w : MicroInstr) : Wires :=
  { s.wiresAtF1 w with shOp := F1Code.shOp w.f1, taskSwitch := s.tasks w, blockNow := w.f1 == .block }

/-- As the shifter begins (R311). -/
def State.wiresAtShifter (s : State) (w : MicroInstr) : Wires :=
  { s.wiresAtF2 w with nmOut := s.dispatchedBranch w }

/-- As the write-backs begin (R312). -/
def State.wiresAtWrite (s : State) (w : MicroInstr) : Wires :=
  { s.wiresAtF2 w with nmOut := s.plainBranch w, shOut := s.plainShift w }

section

variable {s : State} {w : MicroInstr}

theorem State.Plain.within (h : s.Plain w) {c : Ctx} (cfg : c.s.cfg = s.cfg) (slot : c.w.slot = s.cur)
    (md : c.w.md = 0) : c.Within s :=
  ⟨h.quiet, cfg, slot, md⟩

theorem State.Plain.plainRead_cfg (h : s.Plain w) : (s.plainRead w).cfg = s.cfg :=
  h.plainEarly_frame.cfg

/-- A sub-step that the machine is running for, before the others. -/
theorem Ctx.foldl_cons_running {c d : Ctx} {f : Ctx → Ctx} {fs : List (Ctx → Ctx)} (hr : c.s.status = .running)
    (h : f c = d) : (f :: fs).foldl Ctx.andThen c = fs.foldl Ctx.andThen d := by
  rw [List.foldl_cons, Ctx.andThen_running hr, h]

/-! ### From the start to the ALU (R303 to R307) -/

/-- The source of a plain word: a task-specific one has a hook, which acts on nothing. -/
theorem State.Plain.run_source (h : s.Plain w) :
    SubStep.source.run (Stages.of w) (selectRegister (takeBranchBits (Ctx.begin w s))) =
      ⟨(s.plainRead w).setNextMod s.cur 0, s.wiresAtMask w⟩ := by
  cases hsf : w.constSf with
  | true =>
    have source : s.plainSource w = s.constValue w := if_pos hsf
    have read : s.plainRead w = s := if_pos hsf
    have noLoad : loadsR w = false := by simp [loadsR, hsf]
    rw [State.wiresAtMask, source, read, noLoad]
    exact if_pos hsf
  | false =>
    have known := h.source hsf
    rw [Machine.run_source (w := w) (c := selectRegister (takeBranchBits (Ctx.begin w s))) rfl hsf]
    simp only [State.wiresAtMask, State.plainSource, State.plainRead, loadsR, hsf]
    cases hb : w.bs with
    | taskSpecific1 => exact Ctx.Within.hookOr (h.within rfl rfl rfl) (hb ▸ known (.inl hb)) _
    | taskSpecific2 => exact Ctx.Within.hookOr (h.within rfl rfl rfl) (hb ▸ known (.inr hb)) _
    | readMD =>
      show srcReadMD { s := s.setNextMod s.cur 0, w := _ } = _
      rw [srcReadMD, State.busReadMD_setNextMod]
      rfl
    | readR | loadR | noSource | readMouse | readDisp => rfl

theorem and_ones (x : Word) : x &&& 0xFFFF = x :=
  BitVec.and_allOnes

theorem maskConstant_eq (c : Ctx) : maskConstant c =
    c.withBus (c.w.bus &&& if c.w.mi.constAccess then c.s.constValue c.w.mi else 0xFFFF) := by
  unfold maskConstant
  split
  · rfl
  · rw [and_ones]
    rfl

theorem State.constValue_congr {a b : State} (cfg : a.cfg = b.cfg) (w : MicroInstr) :
    a.constValue w = b.constValue w := by
  rw [State.constValue, State.constValue, State.const, State.const, cfg]

/-- The control-RAM read where no hook asks for another: the latch is clear after it, pending or not (R200). -/
theorem pendingRead_once {c : Ctx} (latch : c.w.rdRamNow = rd c.s.rdRamP c.w.slot) (request : c.w.rdRamReq = false)
    (running : c.w.rdRamNow = true → c.s.readRam.2.status = .running) : pendingRead c =
      ({ s := c.s.setRdRamP c.w.slot false, w := c.w } : Ctx).withBus
        (c.w.bus &&& if c.w.rdRamNow then c.s.readRam.1 else 0xFFFF) := by
  cases pending : c.w.rdRamNow with
  | false =>
    have clear : c.s.setRdRamP c.w.slot false = c.s := by
      rw [State.setRdRamP, wr_rd_self (latch.symm.trans pending)]
    rw [pendingRead_clear pending, clear, if_neg nofun, and_ones]
    rfl
  | true => rw [pendingRead_set pending (running pending), request, if_pos rfl]

/-- The constant mask and the control-RAM read data (R199, R200). -/
theorem State.Plain.maskAndRead (h : s.Plain w) {p : State} (frame : s.ReadFrame p) :
    pendingRead (maskConstant ⟨p.setNextMod s.cur 0, s.wiresAtMask w⟩) =
      ⟨(p.setNextMod s.cur 0).setRdRamP s.cur false, s.wiresAtAlu w⟩ := by
  generalize hm : (s.plainSource w &&& if w.constAccess then s.constValue w else 0xFFFF) = masked
  have mask : maskConstant ⟨p.setNextMod s.cur 0, s.wiresAtMask w⟩ =
      ⟨p.setNextMod s.cur 0, { s.wiresAtMask w with bus := masked }⟩ := by
    rw [← hm, maskConstant_eq, State.constValue_congr (a := p.setNextMod s.cur 0) (b := s) frame.cfg]
    rfl
  have latch : rd s.rdRamP s.cur = rd p.rdRamP s.cur := by rw [frame.rdRamP]
  have read (pending : rd s.rdRamP s.cur = true) :
      (p.setNextMod s.cur 0).readRam = (s.readRam.1, p.setNextMod s.cur 0) :=
    State.readRam_congr frame.crar frame.csRam frame.cfg (h.read pending)
  have running (pending : rd s.rdRamP s.cur = true) : (p.setNextMod s.cur 0).readRam.2.status = .running := by
    rw [read pending]
    exact frame.status.trans h.running
  have bus : (masked &&& if rd s.rdRamP s.cur then (p.setNextMod s.cur 0).readRam.1 else 0xFFFF) = s.plainBus w := by
    rw [State.plainBus, hm]
    split
    · rw [read ‹_›]
    · rfl
  rw [mask, pendingRead_once (c := ⟨p.setNextMod s.cur 0, { s.wiresAtMask w with bus := masked }⟩) latch rfl running,
    State.wiresAtAlu, ← bus]
  rfl

/-! ### The ALU and the pending write (R308, R309) -/

theorem runAlu_some {c : Ctx} {out : AluOut} (h : aluTable c.w.mi.aluf c.w.bus c.s.t c.s.skip = some out) :
    runAlu (Stages.of c.w.mi) c = c.withAlu out.result out.carry := by
  simp only [runAlu, Stages.of, h, Ctx.withAlu]

/-- The control-RAM write where no hook asks for another: the latch is clear after it, pending or not (R277). -/
theorem pendingWrite_once {c : Ctx} (latch : c.w.wrtRamNow = rd c.s.wrtRamP c.w.slot) (request : c.w.wrtRamReq = false)
    {m : Memory} (written : c.w.wrtRamNow = true →
      c.s.status = .running ∧ c.s.writeRam c.w.alu c.s.m = { c.s with csRam := m }) :
    pendingWrite c =
      ⟨({ c.s with csRam := if c.w.wrtRamNow then m else c.s.csRam } : State).setWrtRamP c.w.slot false, c.w⟩ := by
  cases pending : c.w.wrtRamNow with
  | false =>
    have clear : c.s.setWrtRamP c.w.slot false = c.s := by
      rw [State.setWrtRamP, wr_rd_self (latch.symm.trans pending)]
    rw [pendingWrite_clear pending, if_neg nofun]
    exact congrArg (Ctx.mk · c.w) clear.symm
  | true =>
    obtain ⟨running, write⟩ := written pending
    rw [pendingWrite_set pending (by rw [write]; exact running), write, request, if_pos rfl]

theorem State.Plain.plainEarly_eq (h : s.Plain w) : s.plainEarly w =
    ({ ((s.plainRead w).setNextMod s.cur 0).setRdRamP s.cur false with
        aluCarry := (s.plainAlu w).carry
        csRam := if rd s.wrtRamP s.cur then (s.writeRam (s.plainAlu w).result s.m).csRam else (s.plainRead w).csRam }
      : State).setWrtRamP s.cur false := by
  have frame := h.plainRead_frame
  rw [frame.csRam, State.plainEarly, ← frame.nextMod, ← frame.rdRamP, ← frame.wrtRamP]
  generalize s.plainRead w = p
  rfl

/-- The ALU of a plain word (R308). -/
theorem State.Plain.runAlu (h : s.Plain w) {p : State} (frame : s.ReadFrame p) :
    runAlu (Stages.of w) ⟨(p.setNextMod s.cur 0).setRdRamP s.cur false, s.wiresAtAlu w⟩ =
      Ctx.withAlu ⟨(p.setNextMod s.cur 0).setRdRamP s.cur false, s.wiresAtAlu w⟩
        (s.plainAlu w).result (s.plainAlu w).carry := by
  refine runAlu_some (c := ⟨(p.setNextMod s.cur 0).setRdRamP s.cur false, s.wiresAtAlu w⟩) ?_
  rw [← h.aluTable, ← frame.t, ← frame.skip]
  rfl

/-- The control-RAM write data of a plain word (R309). -/
theorem State.Plain.pendingWrite (h : s.Plain w) :
    pendingWrite (Ctx.withAlu ⟨((s.plainRead w).setNextMod s.cur 0).setRdRamP s.cur false, s.wiresAtAlu w⟩
        (s.plainAlu w).result (s.plainAlu w).carry) = ⟨s.plainEarly w, s.wiresAtF1 w⟩ := by
  have frame := h.plainRead_frame
  rw [h.plainEarly_eq]
  generalize s.plainRead w = p at frame
  show Machine.pendingWrite
    ⟨{ (p.setNextMod s.cur 0).setRdRamP s.cur false with aluCarry := (s.plainAlu w).carry }, s.wiresAtF1 w⟩ = _
  generalize hq : ({ (p.setNextMod s.cur 0).setRdRamP s.cur false with aluCarry := (s.plainAlu w).carry } : State) = q
  have latch : rd s.wrtRamP s.cur = rd q.wrtRamP s.cur := by rw [← hq, ← frame.wrtRamP]; rfl
  have written (pending : rd s.wrtRamP s.cur = true) :
      q.status = .running ∧ q.writeRam (s.plainAlu w).result q.m =
        { q with csRam := (s.writeRam (s.plainAlu w).result s.m).csRam } := by
    have m : q.m = s.m := by rw [← hq]; exact frame.m
    have crar : q.crar = s.crar := by rw [← hq]; exact frame.crar
    have csRam : q.csRam = s.csRam := by rw [← hq]; exact frame.csRam
    have cfg : q.cfg = s.cfg := by rw [← hq]; exact frame.cfg
    have status : q.status = s.status := by rw [← hq]; exact frame.status
    have written := State.writeRam_congr crar csRam cfg (h.write pending)
    exact ⟨status.trans h.running, (congrArg (q.writeRam _) m).trans written⟩
  rw [pendingWrite_once (c := ⟨q, s.wiresAtF1 w⟩) latch rfl written, ← hq]
  rfl

/-! ### The special functions (R310) -/

/-- Special function 1: it names the shifter's operation, asks for a switch or blocks the task (R210 to R218). -/
theorem State.Plain.f1Table (h : s.Plain w) :
    f1Table w.f1 ⟨s.plainEarly w, s.wiresAtF1 w⟩ = ⟨s.plainF1 w, s.wiresAtF2 w⟩ := by
  have frame := h.plainEarly_frame
  have running := h.plainEarly_running
  unfold State.plainF1
  generalize s.plainEarly w = e at frame running
  have within : Ctx.Within s ⟨e, s.wiresAtF1 w⟩ := h.within frame.cfg rfl rfl
  have late (ts : w.f1.taskSpecific = true) : Ctx.taskF1 ⟨e, s.wiresAtF1 w⟩ w.f1 = ⟨e, s.wiresAtF1 w⟩ :=
    within.hookOr (h.f1 ts) _
  simp only [State.wiresAtF2, State.tasks]
  cases hf : w.f1 with
  | loadMAR =>
    rw [← frame.cfg]
    rfl
  | task =>
    have first : rd e.first (s.wiresAtF1 w).slot = rd s.first s.cur := congrArg (rd · s.cur) frame.first
    cases began : rd s.first s.cur with
    | true => exact spTask_first (first.trans began)
    | false => exact spTask_not_first (first.trans began)
  | block =>
    obtain ⟨present, notEmulator⟩ := h.block hf
    exact congrArg (Ctx.mk · _) (within.blockTask running present notEmulator)
  | nop | constant | llsh1 | lrsh1 | llcy8 => rfl
  | ts8 | ts9 | ts10 | ts11 | ts12 | ts13 | ts14 | ts15 =>
    rw [hf] at late
    exact late rfl

/-- The first branch bits of a word are ORed to none (R225). -/
theorem Ctx.orBranch_first {c : Ctx} (h : c.w.nmOut = 0) (bits : Addr) :
    c.orBranch bits = ⟨c.s, { c.w with nmOut := bits }⟩ := by
  rw [Ctx.orBranch, h, show (0 : Addr) ||| bits = bits from BitVec.zero_or]

/-- Special function 2: it stores to the bus or takes the branch bits that are known (R220 to R229). -/
theorem State.Plain.f2Table (h : s.Plain w) :
    f2Table w.f2 ⟨s.plainF1 w, s.wiresAtF2 w⟩ = ⟨s.plainF2 w, s.wiresAtShifter w⟩ := by
  have frame := h.plainF1_frame
  unfold State.plainF2
  generalize s.plainF1 w = p at frame
  have within : Ctx.Within s ⟨p, s.wiresAtF2 w⟩ := h.within frame.cfg rfl rfl
  have late (ts : w.f2.taskSpecific = true) : Ctx.taskF2 ⟨p, s.wiresAtF2 w⟩ w.f2 = ⟨p, s.wiresAtF2 w⟩ :=
    within.hookOr (h.f2 ts) _
  have branch (bits : Addr) : Ctx.orBranch ⟨p, s.wiresAtF2 w⟩ bits = ⟨p, { s.wiresAtF2 w with nmOut := bits }⟩ :=
    Ctx.orBranch_first rfl bits
  simp only [State.wiresAtShifter, State.dispatchedBranch, State.plainBranch]
  cases hf : w.f2 with
  | nop | shNeg | shZero | constant => rfl
  | busZero => exact (Ctx.orBranch_if _ _).trans (branch _)
  | bus => exact (spBus_eq _).trans (branch _)
  | aluCy =>
    rw [← frame.aluC0]
    exact branch _
  | storeMD =>
    rw [← frame.cfg]
    by_cases marks : w.f1 = .loadMAR ∧ p.cfg.memTiming.variant = .variantB
    · rw [if_neg fun stores => stores.2 marks]
      exact if_pos marks
    · rw [if_pos ⟨rfl, marks⟩]
      exact if_neg marks
  | ts8 | ts9 | ts10 | ts11 | ts12 | ts13 | ts14 | ts15 =>
    rw [hf] at late
    exact late rfl

/-! ### The shifter and its tests (R311, R222, R223) -/

theorem swapBytes_eq_rotateLeft (x : Word) : swapBytes x = x.rotateLeft 8 := by
  refine BitVec.eq_of_getLsbD_eq fun i hi => ?_
  rw [swapBytes, BitVec.getLsbD_append, BitVec.getLsbD_rotateLeft]
  by_cases low : i < 8
  · simp [low, hi, Nat.add_comm]
  · simp [low, hi]
    omega

/-- Without a modifier the shifter moves L, and DNSCARRY stays (R172, R173, R176, R177). -/
theorem doOperation_unmodified (f : F1Code) (x aux : Word) (carry : Bool) :
    doOperation (F1Code.shOp f) .none x aux carry =
      (match f with | .llsh1 => x <<< 1 | .lrsh1 => x >>> 1 | .llcy8 => x.rotateLeft 8 | _ => x, carry) := by
  cases f with
  | llsh1 => exact congrArg (·, carry) ((shiftInLow_eq_or x false).trans BitVec.or_zero)
  | lrsh1 => exact congrArg (·, carry) ((shiftInHigh_eq_or false x).trans BitVec.or_zero)
  | llcy8 => exact congrArg (·, carry) (swapBytes_eq_rotateLeft x)
  | _ => rfl

theorem State.Plain.runShifter (h : s.Plain w) : runShifter ⟨s.plainF2 w, s.wiresAtShifter w⟩ =
    ⟨s.plainF2 w, { s.wiresAtShifter w with shOut := s.plainShift w }⟩ := by
  have frame := h.plainF2_frame
  generalize s.plainF2 w = p at frame
  have out : doOperation (F1Code.shOp w.f1) .none p.l p.t p.dnsCarry = (s.plainShift w, p.dnsCarry) := by
    rw [frame.l]
    exact doOperation_unmodified w.f1 s.l p.t p.dnsCarry
  show Ctx.mk (if _ then { p with dnsCarry := (doOperation (F1Code.shOp w.f1) .none p.l p.t p.dnsCarry).2 } else p)
    { s.wiresAtShifter w with shOut := (doOperation (F1Code.shOp w.f1) .none p.l p.t p.dnsCarry).1 } = _
  rw [out, ite_self]

theorem f2TestTable_plain (p : State) :
    f2TestTable w.f2 ⟨p, { s.wiresAtShifter w with shOut := s.plainShift w }⟩ = ⟨p, s.wiresAtWrite w⟩ := by
  simp only [State.wiresAtShifter, State.wiresAtWrite, State.dispatchedBranch, State.plainBranch]
  cases w.f2 with
  | shNeg => exact (spShNeg_eq _).trans (Ctx.orBranch_first rfl _)
  | shZero => exact (Ctx.orBranch_if _ _).trans (Ctx.orBranch_first rfl _)
  | _ => rfl

/-! ### The write-backs and the address (R312 to R319) -/

theorem writeBackR_eq (c : Ctx) : writeBackR c =
    ⟨{ c.s with r := if c.w.loadR then wr c.s.r c.w.rsel.toFin c.w.shOut else c.s.r }, c.w⟩ := by
  unfold writeBackR
  split <;> rfl

theorem ltTable_eq (load : Bool) (c : Ctx) : ltTable load c =
    ⟨{ c.s with
        t := if load then (if c.w.mi.aluf.loadTFromAlu then c.w.alu else c.w.bus) else c.s.t
        crar := if load then c.w.alu else c.s.crar }, c.w⟩ := by
  cases load <;> rfl

theorem llTable_eq (load : Bool) (c : Ctx) : llTable load c =
    ⟨{ c.s with
        l := if load then c.w.alu else c.s.l
        m := if load && c.s.cfg.isRamTask c.w.slot then c.w.alu else c.s.m
        aluC0 := if load then c.s.aluCarry else c.s.aluC0 }, c.w⟩ := by
  cases load <;> rfl

/-- The bank switch where no hook asks for another: the latch is clear after it, pending or not (R317). -/
theorem pendingSwitch_once {c : Ctx} (latch : c.w.swModeNow = rd c.s.swModeP c.w.slot) (request : c.w.swModeReq = false) :
    pendingSwitch c =
      ⟨{ c.s with
          bank := if c.w.swModeNow then
              wr c.s.bank c.w.slot (swModeTable c.s.cfg.csConfig (rd c.s.bank c.w.slot) c.w.successor)
            else c.s.bank
          swModeP := wr c.s.swModeP c.w.slot false }, c.w⟩ := by
  cases pending : c.w.swModeNow with
  | false => rw [pendingSwitch_clear pending, wr_rd_self (latch.symm.trans pending)]; rfl
  | true => rw [pendingSwitch_set pending, request]; rfl

theorem nextAddress_eq {c : Ctx} (h : c.w.softResetNow = false) : nextAddress c =
    ⟨{ c.s with mpc := wr c.s.mpc c.w.slot c.w.successor, nextMod := wr c.s.nextMod c.w.slot c.w.nmOut }, c.w⟩ := by
  rw [nextAddress, h]
  rfl

theorem clearFirst_eq (c : Ctx) : clearFirst c = ⟨{ c.s with first := wr c.s.first c.w.slot false }, c.w⟩ :=
  rfl

theorem Ctx.Within.blockHook {c : Ctx} (h : c.Within s) : blockHook c = c :=
  (congrArg (ite _ · c) (h.hook .onBlock)).trans (ite_self c)

theorem Ctx.Within.postBusF2 {c : Ctx} (h : c.Within s) : postBusF2 c = c :=
  (congrArg (ite _ · c) (h.hook (.f2PostBus c.w.mi.f2))).trans (ite_self c)

theorem Ctx.Within.earlyF1 {c : Ctx} (h : c.Within s) : earlyF1 c = c :=
  (congrArg (ite _ · c) (h.hook (.f1Early c.w.mi.f1))).trans (ite_self c)

/-- The state after the write-backs of R, T and L (R312 to R315). -/
def State.plainLoaded (s : State) (w : MicroInstr) : State :=
  { s.plainF2 w with
    r := if loadsR w then wr s.r w.rsel.toFin (s.plainShift w) else s.r
    t := if w.lt then (if w.aluf.loadTFromAlu then (s.plainAlu w).result else s.plainBus w) else s.t
    crar := if w.lt then (s.plainAlu w).result else s.crar
    l := if w.ll then (s.plainAlu w).result else s.l
    m := if w.ll && s.cfg.isRamTask s.cur then (s.plainAlu w).result else s.m
    aluC0 := if w.ll then (s.plainAlu w).carry else s.aluC0 }

/-- The sub-steps j. -/
theorem State.Plain.writeBacks (h : s.Plain w) :
    ((subSteps (Stages.of w)).drop 14).foldl Ctx.andThen ⟨s.plainF2 w, s.wiresAtWrite w⟩ =
      ((subSteps (Stages.of w)).drop 18).foldl Ctx.andThen ⟨s.plainLoaded w, s.wiresAtWrite w⟩ := by
  have frame := h.plainF2_frame
  have running := h.ends
  unfold State.plainLoaded
  generalize s.plainF2 w = p at frame running
  refine Eq.trans (Ctx.foldl_cons_running (by exact running) (writeBackR_eq _)) ?_
  refine Eq.trans (Ctx.foldl_cons_running (by exact running) (if_neg nofun)) ?_
  refine Eq.trans (Ctx.foldl_cons_running (by exact running) (ltTable_eq w.lt _)) ?_
  refine Eq.trans (Ctx.foldl_cons_running (by exact running) (llTable_eq w.ll _)) ?_
  rw [← frame.r, ← frame.t, ← frame.crar, ← frame.l, ← frame.m, ← frame.aluC0, ← frame.aluCarry, ← frame.cfg]
  rfl

/-- The sub-steps k to n. -/
theorem State.Plain.addresses (h : s.Plain w) :
    ((subSteps (Stages.of w)).drop 18).foldl Ctx.andThen ⟨s.plainLoaded w, s.wiresAtWrite w⟩ =
      ⟨s.plainDone w, s.wiresAtWrite w⟩ := by
  have frame := h.plainF2_frame
  have running : (s.plainLoaded w).status = .running := h.ends
  have cfg : (s.plainLoaded w).cfg = s.cfg := frame.cfg
  have bank : (s.plainLoaded w).bank = s.bank := frame.bank
  have swModeP : (s.plainLoaded w).swModeP = s.swModeP := frame.swModeP
  have mpc : (s.plainLoaded w).mpc = s.mpc := frame.mpc
  have nextMod : (s.plainLoaded w).nextMod = wr s.nextMod s.cur 0 := frame.nextMod
  have first : (s.plainLoaded w).first = s.first := frame.first
  have result : s.plainDone w =
    { s.plainLoaded w with
      bank := if rd s.swModeP s.cur then
          wr s.bank s.cur (swModeTable s.cfg.csConfig (rd s.bank s.cur) (s.plainNext w))
        else s.bank
      swModeP := wr s.swModeP s.cur false
      mpc := wr s.mpc s.cur (s.plainNext w)
      nextMod := wr s.nextMod s.cur (s.plainBranch w)
      first := wr s.first s.cur false } := rfl
  rw [result]
  generalize s.plainLoaded w = q at *
  have latch : rd s.swModeP s.cur = rd q.swModeP s.cur := by rw [swModeP]
  refine Eq.trans (Ctx.foldl_cons_running (by exact running) ((h.within cfg rfl rfl).hook _)) ?_
  refine Eq.trans (Ctx.foldl_cons_running (by exact running) (pendingSwitch_once (by exact latch) rfl)) ?_
  refine Eq.trans (Ctx.foldl_cons_running (by exact running) (h.within cfg rfl rfl).blockHook) ?_
  refine Eq.trans (Ctx.foldl_cons_running (by exact running) (nextAddress_eq rfl)) ?_
  refine Eq.trans (Ctx.foldl_cons_running (by exact running) (clearFirst_eq _)) ?_
  have branch : wr q.nextMod s.cur (s.plainBranch w) = wr s.nextMod s.cur (s.plainBranch w) := by
    rw [nextMod, wr_wr]
  have cleared : wr q.swModeP s.cur false = wr s.swModeP s.cur false := by rw [swModeP]
  rw [← branch, ← bank, ← cleared, ← mpc, ← first, ← cfg]
  rfl

/-! ### The whole word -/

theorem maskConstant_s (c : Ctx) : (maskConstant c).s = c.s := by
  rw [maskConstant_eq]
  rfl

/-- The context a plain word ends in. -/
theorem State.Plain.executed (h : s.Plain w) : s.executed w = ⟨s.plainDone w, s.wiresAtWrite w⟩ := by
  have read : (s.plainRead w).status = .running := h.plainRead_frame.status.trans h.running
  have early : Ctx.Within s ⟨(s.plainRead w).setNextMod s.cur 0 |>.setRdRamP s.cur false, s.wiresAtAlu w⟩ :=
    h.within h.plainRead_cfg rfl rfl
  rw [State.executed, executeNext_from_register (Stages.of w) (c := Ctx.begin w s) h.running]
  refine Eq.trans (Ctx.foldl_cons_running h.running ((h.within rfl rfl rfl).hook _)) ?_
  refine Eq.trans (Ctx.foldl_cons_running h.running h.run_source) ?_
  refine Eq.trans (Ctx.foldl_cons_running (by exact read) rfl) ?_
  refine Eq.trans (Ctx.foldl_cons_running (by rw [maskConstant_s]; exact read) (h.maskAndRead h.plainRead_frame)) ?_
  refine Eq.trans (Ctx.foldl_cons_running (by exact read) early.postBusF2) ?_
  refine Eq.trans (Ctx.foldl_cons_running (by exact read) early.earlyF1) ?_
  refine Eq.trans (Ctx.foldl_cons_running (by exact read) (h.runAlu h.plainRead_frame)) ?_
  refine Eq.trans (Ctx.foldl_cons_running (by exact read) h.pendingWrite) ?_
  refine Eq.trans (Ctx.foldl_cons_running h.plainEarly_running h.f1Table) ?_
  refine Eq.trans (Ctx.foldl_cons_running h.plainF1_running h.f2Table) ?_
  refine Eq.trans (Ctx.foldl_cons_running h.ends h.runShifter) ?_
  refine Eq.trans (Ctx.foldl_cons_running h.ends (f2TestTable_plain (s.plainF2 w))) ?_
  exact h.writeBacks.trans h.addresses

theorem State.scan_congr {a b : State} (cfg : a.cfg = b.cfg) (wakeup : a.wakeup = b.wakeup) : a.scan = b.scan := by
  simp only [State.scan, cfg, wakeup]

/-- The commit of a switch to a slot whose hooks act on nothing (R344). -/
theorem State.commitSwitch_quiet {n : Slot} (hn : s.nextTask = some n) (quiet : s.quietHooks n = true) :
    s.commitSwitch = { s with cur := n, nextTask := none, first := wr s.first n true } := by
  rw [State.commitSwitch_some hn, Ctx.hook_quiet (c := s.switchedTo n) quiet rfl]
  rfl

/-- The arbiter's part: a request, a commit or nothing (R342, R344). -/
theorem State.Plain.complete (h : s.Plain w) : Ctx.complete ⟨s.plainDone w, s.wiresAtWrite w⟩ = s.plainResult w := by
  have nextTask : (s.plainDone w).nextTask = s.nextTask := h.plainF2_frame.nextTask
  have cfg : (s.plainDone w).cfg = s.cfg := h.plainF2_frame.cfg
  have scan : (s.plainDone w).scan = (s.plainF2 w).scan := State.scan_congr rfl rfl
  have first : (s.plainDone w).first = wr s.first s.cur false := rfl
  have running : (s.plainDone w).status = .running := h.ends
  unfold State.plainResult
  rw [← scan, ← first]
  generalize s.plainDone w = q at *
  cases asks : s.tasks w with
  | true => exact Ctx.complete_taskSwitch (c := ⟨q, s.wiresAtWrite w⟩) running asks
  | false =>
    rw [Ctx.complete_normal (c := ⟨q, s.wiresAtWrite w⟩) running asks, if_neg nofun]
    cases hn : s.nextTask with
    | none => exact State.commitSwitch_none (nextTask.trans hn)
    | some n =>
      refine State.commitSwitch_quiet (nextTask.trans hn) ?_
      have quiet := h.quietNext n hn
      unfold State.quietHooks at quiet ⊢
      rwa [cfg]

end

/-- Settles O14: the word runs through its sub-steps to `State.plainDone`, and the arbiter completes it. -/
theorem plainResult : Obligations.PlainResult := by
  intro i s plain
  have h := plain.clauses
  rw [exec_eq, State.clock_runs h.running h.notStalled, ← State.executed, h.executed, h.complete]

end Sys2Proof.Machine
end

section
/-! O44 and O45: the commit of a pending switch (R344, R345), and the priority scan (R341). -/

namespace Sys2Proof.Machine

/-! ### The commit -/

/-- A commit clears NEXT_TASK and sets FIRST of the new slot, and its hook writes neither (R46); CUR is the new slot unless
that hook asks for a soft reset (R403). -/
theorem State.commitSwitch_commits {s : State} {n : Slot} (hn : s.nextTask = some n) :
    s.commitSwitch.nextTask = none ∧ rd s.commitSwitch.first n = true ∧
      (s.hookFree n = true → s.commitSwitch.cur = n) := by
  have frame := (s.switchedTo n).hook_hook .onTaskSwitch
  rw [State.commitSwitch_some hn]
  refine ⟨frame.nextTask, ?_, fun free => ?_⟩
  · rw [frame.first]
    exact rd_wr_self _ _ _
  · rw [Ctx.hook_free (c := s.switchedTo n) free]
    rfl

/-- An executed word that asks for no switch ends with the commit of a pending one. -/
theorem exec_eq_commitSwitch {i : Instr} {s t : State} (hr : s.status = .running) (hs : s.stalls i.word = false)
    (noTask : s.tasks i.word = false) (h : exec i s = .next t) (ht : t.status = .running) :
    t = (s.executed i.word).s.commitSwitch := by
  have before g : (s.before g i.word).s.status = .running := (State.reaches_of_running hr hs h ht g).2.2
  rw [exec_eq_complete hr hs h ht, ← State.executed_eq_clearFirst (before .clearFirst)]
  refine Ctx.complete_normal ?_ ((State.executed_taskSwitch before).trans noTask)
  rw [State.executed_eq_clearFirst (before .clearFirst)]
  exact before .clearFirst

/-- Settles O44: the word keeps NEXT_TASK and the parameters, so the arbiter commits the switch that was pending before it. -/
theorem switchCommit : Obligations.SwitchCommit := by
  intro i s t n hn noTask hr hs h ht
  have pending : (s.executed i.word).s.nextTask = some n := (s.executed_nextTask i.word).trans hn
  have cfg : (s.executed i.word).s.cfg = s.cfg := (executeNext_loadFrame i.word s).cfg
  rw [exec_eq_commitSwitch hr hs noTask h ht, ← State.hookFree_of_cfg cfg]
  exact State.commitSwitch_commits pending

/-! ### The scan -/

/-- What a search finds in a list that descends is the greatest of its members with the property. -/
theorem find?_eq_some_iff_of_descending {p : Slot → Bool} {ts : List Slot} (h : ts.Pairwise (· > ·)) (t : Slot) :
    ts.find? p = some t ↔ t ∈ ts ∧ p t = true ∧ ∀ u ∈ ts, t < u → ¬p u = true := by
  induction ts with
  | nil => simp
  | cons a ts ih =>
    obtain ⟨above, descends⟩ := List.pairwise_cons.1 h
    by_cases ha : p a = true
    · rw [List.find?_cons_of_pos ha, Option.some_inj]
      constructor
      · rintro rfl
        refine ⟨List.mem_cons_self, ha, fun u hu greater => ?_⟩
        rcases List.mem_cons.1 hu with rfl | hu
        · exact absurd greater (lt_irrefl u)
        · exact absurd greater (above u hu).not_gt
      · rintro ⟨ht, _, noHigher⟩
        rcases List.mem_cons.1 ht with rfl | ht
        · rfl
        · exact absurd ha (noHigher a List.mem_cons_self (above t ht))
    · rw [List.find?_cons_of_neg ha, ih descends, List.forall_mem_cons, List.mem_cons]
      constructor
      · exact fun ⟨ht, hp, noHigher⟩ => ⟨.inr ht, hp, fun _ => ha, noHigher⟩
      · rintro ⟨rfl | ht, hp, _, noHigher⟩
        · exact absurd hp ha
        · exact ⟨ht, hp, noHigher⟩

theorem mem_slotsDown (u : Slot) : u ∈ slotsDown := by
  revert u
  decide

theorem slotsDown_descending : slotsDown.Pairwise (· > ·) := by
  decide

theorem State.scan_eq_some_iff (s : State) (t : Slot) : s.scan = some t ↔
    (s.cfg.present t = true ∧ rd s.wakeup t = true ∧
      ∀ u : Slot, t < u → ¬(s.cfg.present u = true ∧ rd s.wakeup u = true)) := by
  simp only [State.scan, find?_eq_some_iff_of_descending slotsDown_descending, mem_slotsDown, Bool.and_eq_true, true_and,
    forall_const, and_assoc]

theorem State.scan_ne_none {s : State} {t : Slot} (present : s.cfg.present t = true) (awake : rd s.wakeup t = true) :
    s.scan ≠ none := fun none =>
  List.find?_eq_none.1 none t (mem_slotsDown t) (Bool.and_eq_true_iff.2 ⟨present, awake⟩)

theorem Config.present_of_isEmulator {g : Config} {t : Slot} (h : g.isEmulator t = true) : g.present t = true := by
  simp [Config.present, eq_of_beq h]

/-- R41: the constraints on the parameters bind a slot to the emulator. -/
theorem Config.exists_emulator {g : Config} (h : g.valid = true) : ∃ e, g.isEmulator e = true := by
  obtain ⟨lowest, _⟩ := Bool.and_eq_true_iff.1 h
  obtain ⟨e, _, he⟩ := List.any_eq_true.1 lowest
  exact ⟨e, (Bool.and_eq_true_iff.1 he).1⟩

/-- Settles O45: the scan searches the slots downwards, and the emulator's slot is always there for it to find. -/
theorem scanPicksHighest : Obligations.ScanPicksHighest := by
  refine ⟨State.scan_eq_some_iff, fun s inv => ?_⟩
  have sound := s.inv_iff_sound.1 inv
  obtain ⟨e, emulator⟩ := Config.exists_emulator sound.valid
  exact State.scan_ne_none (Config.present_of_isEmulator emulator) (sound.awake e emulator)

end Sys2Proof.Machine
end

section
/-! O46: `WakeupTask` and `BlockTask` (R351 to R354). -/

namespace Sys2Proof.Machine

/-! ### The branches of the two calls -/

theorem State.wakeupTask_absent {s : State} {t : Slot} (hr : s.status = .running) (hp : s.cfg.present t = false) :
    s.wakeupTask t = s := by
  simp [State.wakeupTask, State.andThen_running hr, hp]

theorem State.wakeupTask_emulator {s : State} {t : Slot} (hr : s.status = .running) (hp : s.cfg.present t = true)
    (he : s.cfg.isEmulator t = true) : s.wakeupTask t = s.fatal .fp4 := by
  simp [State.wakeupTask, State.andThen_running hr, hp, he]

theorem State.wakeupTask_policy {s : State} {t : Slot} (hr : s.status = .running) (hp : s.cfg.present t = true)
    (he : s.cfg.isEmulator t = false) : s.wakeupTask t = s.policy t .wakeupPolicy true := by
  simp [State.wakeupTask, State.andThen_running hr, hp, he]

theorem State.blockTask_absent {s : State} {t : Slot} (hr : s.status = .running) (hp : s.cfg.present t = false) :
    s.blockTask t = s := by
  simp [State.blockTask, State.andThen_running hr, hp]

/-- The default policy, that of a slot whose variant defines no hook. -/
theorem State.policy_free {s : State} {t : Slot} (h : s.hookFree t = true) (site : HookSite) (b : Bool) :
    s.policy t site b = s.setWakeup t b :=
  State.policy_undefined (Ctx.hookAt?_free (c := { s := s, w := Wires.idle t }) h site) b

/-! ### What a policy can do (R354) -/

/-- WAKEUP and HS of one slot, and the oracle's count, are all that may differ. -/
def State.PolicyFrame (t : Slot) (s s' : State) : Prop :=
  ∃ wk hs o, s' = { s with wakeup := wk, hs := hs, oracle := o } ∧
    ∀ u, u ≠ t → rd wk u = rd s.wakeup u ∧ rd hs u = rd s.hs u

namespace State.PolicyFrame

variable {t : Slot}

theorem refl (s : State) : State.PolicyFrame t s s :=
  ⟨_, _, _, rfl, fun _ _ => ⟨rfl, rfl⟩⟩

theorem trans {a b c : State} (h : State.PolicyFrame t a b) (k : State.PolicyFrame t b c) : State.PolicyFrame t a c := by
  obtain ⟨_, _, _, rfl, first⟩ := h
  obtain ⟨_, _, _, rfl, second⟩ := k
  refine ⟨_, _, _, rfl, fun u hu => ?_⟩
  obtain ⟨wakeup, hs⟩ := first u hu
  obtain ⟨wakeup', hs'⟩ := second u hu
  exact ⟨wakeup'.trans wakeup, hs'.trans hs⟩

theorem setWakeup (s : State) (b : Bool) : State.PolicyFrame t s (s.setWakeup t b) :=
  ⟨_, _, _, rfl, fun _ hu => ⟨rd_wr_other _ _ hu.symm, rfl⟩⟩

theorem setHs (s : State) (n : Nat) : State.PolicyFrame t s (s.setHs t n) :=
  ⟨_, _, _, rfl, fun _ hu => ⟨rfl, rd_wr_other _ _ hu.symm⟩⟩

theorem policyAct (s : State) (a : HookAct) : State.PolicyFrame t s (policyAct t s a) := by
  cases a with
  | setWakeup b => exact setWakeup s b
  | setHs n => exact setHs s n
  | _ => exact refl s

theorem policyActs (as : List HookAct) (s : State) : State.PolicyFrame t s (as.foldl (Machine.policyAct t) s) := by
  induction as generalizing s with
  | nil => exact refl s
  | cons a as ih => exact (policyAct s a).trans (ih _)

theorem countHook (s : State) (d : Variant × HookEntry) : State.PolicyFrame t s (s.countHook d) := by
  unfold State.countHook
  split
  · exact refl s
  · exact ⟨_, _, _, rfl, fun _ _ => ⟨rfl, rfl⟩⟩

theorem policy (s : State) (site : HookSite) (b : Bool) : State.PolicyFrame t s (s.policy t site b) := by
  unfold State.policy
  split
  · exact setWakeup s b
  · exact (countHook s _).trans (policyActs _ _)

/-- The frame as the obligation writes it. -/
theorem clauses {s s' : State} (h : State.PolicyFrame t s s') :
    (∀ u, u ≠ t → rd s'.wakeup u = rd s.wakeup u ∧ rd s'.hs u = rd s.hs u) ∧
      { s' with wakeup := s.wakeup, hs := s.hs, oracle := s.oracle } = s := by
  obtain ⟨_, _, _, rfl, others⟩ := h
  exact ⟨others, rfl⟩

end State.PolicyFrame

/-- Settles O46: each branch of the two calls is one clause, and what a policy can do is `State.PolicyFrame`. -/
theorem contractCalls : Obligations.ContractCalls := by
  intro s t hr
  refine ⟨fun absent => ?_, fun emulator => ?_, fun present other free => ?_, fun present other => ?_⟩
  · exact ⟨State.wakeupTask_absent hr absent, State.blockTask_absent hr absent⟩
  · have present := Config.present_of_isEmulator emulator
    exact ⟨State.wakeupTask_emulator hr present emulator, State.blockTask_emulator hr present emulator⟩
  · rw [State.wakeupTask_policy hr present other, State.blockTask_policy hr present other, State.policy_free free,
      State.policy_free free]
    exact ⟨rfl, rfl⟩
  · rw [State.wakeupTask_policy hr present other, State.blockTask_policy hr present other]
    obtain ⟨wakeOthers, wakeRest⟩ := (State.PolicyFrame.policy (t := t) s .wakeupPolicy true).clauses
    obtain ⟨blockOthers, blockRest⟩ := (State.PolicyFrame.policy (t := t) s .blockPolicy false).clauses
    exact ⟨wakeOthers, wakeRest, blockOthers, blockRest⟩

end Sys2Proof.Machine
end

section
/-! O8: a stopped machine is inert but for a hard reset (R371, R373). -/

namespace Sys2Proof.Machine

/-! ### What a stopped machine leaves as it is -/

section
variable {s : State} (h : s.status ≠ .running)
include h

theorem State.wakeupTask_stopped (t : Slot) : s.wakeupTask t = s :=
  State.andThen_stopped h _

theorem State.blockTask_stopped (t : Slot) : s.blockTask t = s :=
  State.andThen_stopped h _

theorem State.busClock_stopped : s.busClock = s := by
  simp only [State.busClock, State.andThen_stopped h]

theorem exec_stopped (i : Instr) : exec i s = .next s := by
  rw [exec_eq, State.clock_stopped h]

theorem step_stopped (ready : s.ready = true) : step s = .next s.outside := by
  cases hs : s.status with
  | running => exact absurd hs h
  | stopped kind info => simp only [step, ready, hs, if_true]

end

theorem State.outside_of_agenda_nil {s : State} (h : s.agenda = []) : s.outside = s := by
  simp only [State.outside, h]

/-- R403 while stopped: each loop body, the restart and the adjustments go on only while the machine runs, whatever the
soft resets that a hook would ask for do. -/
theorem Ctx.softResetWith_stopped {c : Ctx} (h : c.s.status ≠ .running) (call : Nat → Ctx → Ctx) :
    c.softResetWith call = c := by
  have slots : slotsUp.foldl (Ctx.softResetSlot call) c = c :=
    List.foldl_fixed' (f := Ctx.softResetSlot call) (fun _ => Ctx.andThen_stopped h _) slotsUp
  simp only [Ctx.softResetWith, slots, Ctx.andThen_stopped h]

theorem State.softReset_stopped {s : State} (h : s.status ≠ .running) : s.softReset = s :=
  congrArg Ctx.s (Ctx.softResetWith_stopped (c := { s := s, w := Wires.idle s.cur }) h _)

/-! ### The return from a fatal error (R401) -/

theorem State.resetSelect_status (s : State) : s.resetSelect.status = s.status := by
  unfold State.resetSelect
  split <;> rfl

theorem State.hardReset_status (s : State) : s.hardReset.status = .running := by
  unfold State.hardReset
  rw [State.resetSelect_status]
  obtain ⟨_, afterHs⟩ := State.foldl_resetHs slotsUp { State.reset with
    csRam := s.csRam, mem := s.mem, cfg := s.cfg, hs := s.hs
    oracle := s.oracle, diagnostics := s.diagnostics, agenda := s.agenda, cur := s.cur
    first := Vector.replicate 16 false }
  rw [afterHs]
  obtain ⟨_, afterWakeup, _⟩ := State.foldl_resetWakeup slotsUp _
  rw [afterWakeup]
  rfl

/-- Settles O8: every operation but a hard reset goes on only while the machine runs. -/
theorem stoppedIsInert : Obligations.StoppedIsInert := by
  refine ⟨fun _ _ => rfl, fun s h => ⟨exec_stopped h, State.busClock_stopped h, State.wakeupTask_stopped h,
    State.blockTask_stopped h, State.softReset_stopped h, s.hardReset_status, fun ready quiet => ?_⟩⟩
  rw [step_stopped h ready, State.outside_of_agenda_nil quiet]

end Sys2Proof.Machine
end

section
/-! O11, O47 and O48: the hard reset (R401). -/

namespace Sys2Proof.Machine

/-! ### Loops over the slots -/

theorem rd_replicate {α : Type} {n : Nat} (x : α) (i : Fin n) : rd (Vector.replicate n x) i = x := by
  simp [rd]

/-- A loop that writes one item of each slot it visits leaves the items of the others. -/
theorem rd_foldl_wr {α : Type} {n : Nat} (f : Fin n → α) (ts : List (Fin n)) (v : Vector α n) (u : Fin n) :
    rd (ts.foldl (fun v t => wr v t (f t)) v) u = if u ∈ ts then f u else rd v u := by
  induction ts generalizing v with
  | nil => simp
  | cons t ts ih =>
    rw [List.foldl_cons, ih]
    by_cases hu : t = u
    · subst hu
      simp [rd_wr_self]
    · simp [rd_wr_other v (f t) hu, List.mem_cons, Ne.symm hu]

/-- The first loop of R401 sets HS of every present slot it visits. -/
theorem State.foldl_resetHs_present (ts : List Slot) (s : State) :
    ∃ hs, ts.foldl State.resetHs s = { s with hs := hs } ∧ ∀ u, s.cfg.present u = true →
      (u ∈ ts ∨ rd s.hs u = rd s.cfg.hsReset u) → rd hs u = rd s.cfg.hsReset u := by
  induction ts generalizing s with
  | nil => exact ⟨_, rfl, fun u _ h => h.resolve_left List.not_mem_nil⟩
  | cons t ts ih =>
    rw [List.foldl_cons, State.resetHs]
    split
    · obtain ⟨hs, e, loaded⟩ := ih (s.setHs t (rd s.cfg.hsReset t))
      refine ⟨hs, e, fun u hp h => loaded u hp ?_⟩
      by_cases hu : t = u
      · exact .inr (hu ▸ rd_wr_self _ _ _)
      · refine h.imp (fun h => (List.mem_cons.1 h).resolve_left (Ne.symm hu)) fun h => ?_
        exact (rd_wr_other _ _ hu).trans h
    · obtain ⟨hs, e, loaded⟩ := ih s
      refine ⟨hs, e, fun u hp h => loaded u hp (h.imp_left fun h => (List.mem_cons.1 h).resolve_left ?_)⟩
      rintro rfl
      exact absurd hp ‹_›

/-! ### The selection of the emulator -/

/-- R41: no two slots are bound to the emulator. -/
theorem Config.isEmulator_unique {g : Config} (h : g.valid = true) {t u : Slot} (ht : g.isEmulator t = true)
    (hu : g.isEmulator u = true) : t = u := by
  obtain ⟨lowest, _⟩ := Bool.and_eq_true_iff.1 h
  obtain ⟨e, _, he⟩ := List.any_eq_true.1 lowest
  obtain ⟨_, others⟩ := Bool.and_eq_true_iff.1 he
  have only : ∀ k, g.isEmulator k = true → k = e := fun k hk => by
    have clause := List.all_eq_true.1 others k (mem_slotsUp k)
    simpa [Config.present_of_isEmulator hk, hk] using clause
  exact (only t ht).trans (only u hu).symm

/-- Where the emulator alone is awake, the scan finds it. -/
theorem State.isEmulator_of_scan {s : State} (awake : ∀ u, rd s.wakeup u = s.cfg.isEmulator u) {t : Slot}
    (h : s.scan = some t) : s.cfg.isEmulator t = true := by
  obtain ⟨_, found, _⟩ := (s.scan_eq_some_iff t).1 h
  exact (awake t).symm.trans found

/-- The selection writes CUR and FIRST alone; where the emulator alone is awake and no FIRST is set, it leaves CUR the
emulator's slot and FIRST set for that slot only. -/
theorem State.resetSelect_selects (s : State) :
    ∃ e first, s.resetSelect = { s with cur := e, first := first } ∧
      (s.cfg.valid = true → (∀ u, rd s.wakeup u = s.cfg.isEmulator u) → (∀ u, rd s.first u = false) →
        s.cfg.isEmulator e = true ∧ ∀ u, rd first u = decide (u = e)) := by
  unfold State.resetSelect
  split
  · rename_i nothing
    refine ⟨_, _, rfl, fun valid awake _ => ?_⟩
    obtain ⟨e, emulator⟩ := Config.exists_emulator valid
    exact absurd nothing (State.scan_ne_none (Config.present_of_isEmulator emulator) ((awake e).trans emulator))
  · rename_i e found
    refine ⟨_, _, rfl, fun _ awake clear => ⟨State.isEmulator_of_scan awake found, fun u => ?_⟩⟩
    by_cases hu : e = u
    · rw [hu, rd_wr_self, decide_eq_true rfl]
    · rw [rd_wr_other _ _ hu, decide_eq_false (Ne.symm hu)]
      exact clear u

/-! ### The whole reset -/

/-- The values of R401 that are the same for every slot and every configuration, but for WAKEUP, HS and FIRST. -/
theorem State.reset_slot (u : Slot) : rd State.reset.mpc u = BitVec.ofNat 10 u.val ∧ rd State.reset.bank u = .rom0 ∧
    rd State.reset.rb u = 0 ∧ rd State.reset.nextMod u = 0 ∧ rd State.reset.swModeP u = false ∧
    rd State.reset.rdRamP u = false ∧ rd State.reset.wrtRamP u = false := by
  revert u
  decide

/-- `State.reset` with what a hard reset keeps of `s` (R401, log 25), and with HS, WAKEUP, CUR and FIRST as given: those it
takes from the parameters. -/
def State.resetWith (s : State) (hs : Vector Nat 16) (wakeup : Vector Bool 16) (cur : Slot) (first : Vector Bool 16) : State :=
  { State.reset with
    csRam := s.csRam, mem := s.mem, cfg := s.cfg, oracle := s.oracle, diagnostics := s.diagnostics, agenda := s.agenda
    hs := hs, wakeup := wakeup, cur := cur, first := first }

theorem State.hardReset_eq_loops (s : State) : s.hardReset = (slotsUp.foldl State.resetWakeup (slotsUp.foldl State.resetHs
    (s.resetWith s.hs State.reset.wakeup s.cur (Vector.replicate 16 false)))).resetSelect :=
  rfl

/-- What a hard reset takes from the parameters: HS of the present slots, the emulator awake, current and alone in FIRST. -/
theorem State.hardReset_eq_resetWith (s : State) : ∃ hs wakeup cur first, s.hardReset = s.resetWith hs wakeup cur first ∧
    (∀ u, s.cfg.present u = true → rd hs u = rd s.cfg.hsReset u) ∧
    (∀ u, rd wakeup u = s.cfg.isEmulator u) ∧
    (s.cfg.valid = true → s.cfg.isEmulator cur = true ∧ ∀ u, rd first u = decide (u = cur)) := by
  rw [State.hardReset_eq_loops]
  obtain ⟨hs, afterHs, loaded⟩ := State.foldl_resetHs_present slotsUp
    (s.resetWith s.hs State.reset.wakeup s.cur (Vector.replicate 16 false))
  obtain ⟨wakeup, afterWakeup, woken⟩ := State.foldl_resetWakeup slotsUp
    (s.resetWith hs State.reset.wakeup s.cur (Vector.replicate 16 false))
  obtain ⟨cur, first, selected, only⟩ := State.resetSelect_selects
    (s.resetWith hs wakeup s.cur (Vector.replicate 16 false))
  have awake : ∀ u, rd wakeup u = s.cfg.isEmulator u := fun u => woken u (.inl (mem_slotsUp u))
  refine ⟨hs, wakeup, cur, first, ?_, fun u present => loaded u present (.inl (mem_slotsUp u)), awake,
    fun valid => only valid awake (rd_replicate false)⟩
  exact ((congrArg (fun a => (slotsUp.foldl State.resetWakeup a).resetSelect) afterHs).trans
    (congrArg State.resetSelect afterWakeup)).trans selected

/-- Settles O47: what a hard reset leaves is `State.reset` but for the items `State.resetWith` names. -/
theorem hardResetValues : Obligations.HardResetValues := by
  intro s t ht
  obtain ⟨hs, wakeup, cur, first, e, loaded, awake, only⟩ := s.hardReset_eq_resetWith
  rw [ht, e]
  refine ⟨rfl, fun k => rd_replicate 0 k.toFin, fun b k => ?_, rfl, rfl, rfl, rfl, rfl, rfl, rfl, rfl, rfl, rfl, fun u => ?_,
    rfl, rfl, rfl, rfl, rfl, rfl, rfl, rfl, rfl, rfl, rfl, rfl, rfl, only⟩
  · show rd (rd (Vector.replicate 8 (Vector.replicate 32 (0 : Word))) b) k = 0
    rw [rd_replicate, rd_replicate]
  · obtain ⟨mpc, bank, rb, nextMod, swModeP, rdRamP, wrtRamP⟩ := State.reset_slot u
    exact ⟨mpc, bank, rb, nextMod, swModeP, rdRamP, wrtRamP, awake u, loaded u⟩

/-- Settles O48, by running the reset: its loops write HS and WAKEUP as they are, and the scan selects slot 0. -/
theorem resetIsHardReset : Obligations.ResetIsHardReset := by
  unfold Obligations.ResetIsHardReset
  rfl

/-- Settles O11: each clause is one of the values of R401, or of the default parameters (log 4). -/
theorem resetInv : Obligations.ResetInv := by
  unfold Obligations.ResetInv
  rw [State.inv_iff_sound]
  exact {
    valid := by decide
    closes := by decide
    cur := by decide
    nextTask := nofun
    awake := by decide
    bank := by decide
    bus := fun _ => nofun
    mem := rfl
    csRam := rfl
    romImage := rfl
    constRom := rfl }

end Sys2Proof.Machine
end

section
/-! O49: a soft reset where no variant defines a hook (R403, R404). -/

namespace Sys2Proof.Machine

/-! ### The slot a variant is bound to -/

/-- `slotOf` names the lowest of the slots bound to a variant (log 34). -/
theorem Config.slotOf_eq_some_iff (g : Config) (v : Variant) (u : Slot) : g.slotOf v = some u ↔
    (rd g.slots u = some v ∧ ∀ k, k < u → rd g.slots k ≠ some v) := by
  have search : g.slotOf v = Fin.find? fun t => rd g.slots t == some v := Fin.find?_eq_find?_finRange.symm
  rw [search, Fin.find?_eq_some_iff]
  simp only [beq_iff_eq, beq_eq_false_iff_ne]

theorem Config.slots_of_slotOf {g : Config} {v : Variant} {u : Slot} (h : g.slotOf v = some u) : rd g.slots u = some v :=
  ((Config.slotOf_eq_some_iff g v u).1 h).1

/-- A slot is bound to one variant. -/
theorem Config.slotOf_ne {g : Config} {v w : Variant} (hvw : v ≠ w) {u : Slot} (h : g.slotOf v = some u) :
    g.slotOf w ≠ some u := fun k =>
  hvw (Option.some_inj.1 ((Config.slots_of_slotOf h).symm.trans (Config.slots_of_slotOf k)))

theorem Config.isEmulator_of_emulatorSlot {g : Config} {e : Slot} (h : g.emulatorSlot = some e) : g.isEmulator e = true :=
  beq_iff_eq.2 (Config.slots_of_slotOf h)

theorem Config.exists_emulatorSlot {g : Config} (h : g.valid = true) : ∃ e, g.emulatorSlot = some e := by
  obtain ⟨e, emulator⟩ := Config.exists_emulator h
  refine Option.ne_none_iff_exists'.1 fun missing => ?_
  exact List.find?_eq_none.1 missing e (mem_slotsUp e) emulator

/-! ### Where no variant defines a hook -/

section
variable {s : State} (hooks : s.cfg.hooks = [])
include hooks

theorem State.hookFree_of_no_hooks (t : Slot) : s.hookFree t = true := by
  simp only [State.hookFree, hooks, List.all_nil]

/-- The call for a variant sets WAKEUP of the slot bound to it, if there is one. -/
theorem State.callFor_of_no_hooks {v : Variant} {call : State → Slot → State} {b : Bool}
    (policy : ∀ t, s.cfg.present t = true → s.cfg.isEmulator t = false → s.hookFree t = true → call s t = s.setWakeup t b)
    (hv : v ≠ .emulator) : ∃ wakeup, s.callFor v call = { s with wakeup := wakeup } ∧
      ∀ u, rd wakeup u = if s.cfg.slotOf v = some u then b else rd s.wakeup u := by
  unfold State.callFor
  cases bound : s.cfg.slotOf v with
  | none => exact ⟨_, rfl, fun u => (if_neg (by simp)).symm⟩
  | some t =>
    have other : s.cfg.isEmulator t = false := by
      simp [Config.isEmulator, Config.slots_of_slotOf bound, hv]
    refine ⟨_, policy t (Config.present_of_slotOf bound) other (State.hookFree_of_no_hooks hooks t), fun u => ?_⟩
    by_cases hu : t = u
    · subst hu
      simp [rd_wr_self]
    · simp [rd_wr_other s.wakeup b hu, hu]

theorem State.wakeFor_of_no_hooks (hr : s.status = .running) {v : Variant} (hv : v ≠ .emulator) :
    ∃ wakeup, s.callFor v State.wakeupTask = { s with wakeup := wakeup } ∧
      ∀ u, rd wakeup u = if s.cfg.slotOf v = some u then true else rd s.wakeup u :=
  State.callFor_of_no_hooks hooks (fun _ present other free =>
    (State.wakeupTask_policy hr present other).trans (State.policy_free free _ _)) hv

theorem State.blockFor_of_no_hooks (hr : s.status = .running) {v : Variant} (hv : v ≠ .emulator) :
    ∃ wakeup, s.callFor v State.blockTask = { s with wakeup := wakeup } ∧
      ∀ u, rd wakeup u = if s.cfg.slotOf v = some u then false else rd s.wakeup u :=
  State.callFor_of_no_hooks hooks (fun _ present other free =>
    (State.blockTask_policy hr present other).trans (State.policy_free free _ _)) hv

/-- The four adjustments (R404). The disk-sector task stays awake, as its slot is no other task's. -/
theorem State.softResetAdjust_of_no_hooks (hr : s.status = .running) :
    ∃ wakeup, s.softResetAdjust = { s with wakeup := wakeup } ∧ ∀ u, rd wakeup u =
      if s.cfg.slotOf .diskSector = some u then true
      else if s.cfg.slotOf .diskWord = some u ∨ s.cfg.slotOf .tridentInput = some u ∨
          s.cfg.slotOf .tridentOutput = some u then false
      else rd s.wakeup u := by
  obtain ⟨sector, e1, afterSector⟩ := State.wakeFor_of_no_hooks hooks hr (v := .diskSector) nofun
  obtain ⟨word, e2, afterWord⟩ :=
    State.blockFor_of_no_hooks (s := { s with wakeup := sector }) hooks hr (v := .diskWord) nofun
  obtain ⟨input, e3, afterInput⟩ :=
    State.blockFor_of_no_hooks (s := { s with wakeup := word }) hooks hr (v := .tridentInput) nofun
  obtain ⟨output, e4, afterOutput⟩ :=
    State.blockFor_of_no_hooks (s := { s with wakeup := input }) hooks hr (v := .tridentOutput) nofun
  refine ⟨output, ?_, fun u => ?_⟩
  · rw [State.softResetAdjust, e1, e2, e3, e4]
  · rw [afterOutput, afterInput, afterWord, afterSector]
    by_cases isSector : s.cfg.slotOf .diskSector = some u
    · have other {w : Variant} (hw : .diskSector ≠ w) : s.cfg.slotOf w ≠ some u := Config.slotOf_ne hw isSector
      simp only [isSector, other (w := .diskWord) nofun, other (w := .tridentInput) nofun,
        other (w := .tridentOutput) nofun, if_true, if_false]
    · simp only [isSector, if_false]
      grind

end

/-! ### The two loops of R403 -/

/-- The first loop writes the MPCs alone. -/
theorem Ctx.softResetSlots_of_no_hooks (call : Nat → Ctx → Ctx) (ts : List Slot) {c : Ctx} (hooks : c.s.cfg.hooks = [])
    (hr : c.s.status = .running) :
    ∃ mpc, ts.foldl (Ctx.softResetSlot call) c = { c with s := { c.s with mpc := mpc } } := by
  induction ts generalizing c with
  | nil => exact ⟨_, rfl⟩
  | cons t ts ih =>
    have noHook : c.softResetHook call t = c := by
      rw [Ctx.softResetHook, Ctx.hookAt?_free (c := { s := c.s, w := c.w.inReset t }) (State.hookFree_of_no_hooks hooks t)]
    have body : ∃ mpc, c.softResetSlot call t = { c with s := { c.s with mpc := mpc } } := by
      rw [Ctx.softResetSlot, Ctx.andThen_running hr, noHook, Ctx.andThen_running hr]
      split <;> exact ⟨_, rfl⟩
    obtain ⟨mpc, e⟩ := body
    rw [List.foldl_cons, e]
    exact ih (c := { c with s := { c.s with mpc := mpc } }) hooks hr

/-- The second loop writes the BANKs alone, each from its bit of RMR. -/
theorem State.foldl_softResetBank (ts : List Slot) (s : State) : ts.foldl State.softResetBank s =
    { s with bank := ts.foldl (fun v t => wr v t (if s.rmr.getLsbD t.val then .rom0 else .ram0)) s.bank } := by
  induction ts generalizing s with
  | nil => rfl
  | cons t ts ih => exact ih (s.softResetBank t)

theorem State.softResetRestart_eq (s : State) : ∃ bank, s.softResetRestart =
      { s with bank := bank, rmr := 0xFFFF, cur := s.cfg.emulatorSlot.getD s.cur } ∧
    ∀ u, rd bank u = if s.rmr.getLsbD u.val then .rom0 else .ram0 := by
  refine ⟨_, by rw [State.softResetRestart, State.foldl_softResetBank], fun u => ?_⟩
  rw [rd_foldl_wr fun t : Slot => if s.rmr.getLsbD t.val then Bank.rom0 else .ram0, if_pos (mem_slotsUp u)]

/-! ### The whole reset -/

/-- Without hooks a soft reset is its two loops and its four adjustments, one after the other. -/
theorem State.softReset_of_no_hooks {s : State} (hooks : s.cfg.hooks = []) (hr : s.status = .running) :
    ∃ mpc, s.softReset = (State.softResetRestart { s with mpc := mpc }).softResetAdjust := by
  obtain ⟨mpc, loop⟩ := Ctx.softResetSlots_of_no_hooks (fun n => Ctx.softResetNest (n + 1) n) slotsUp
    (c := { s := s, w := Wires.idle s.cur }) hooks hr
  obtain ⟨bank, restart, _⟩ := State.softResetRestart_eq { s with mpc := mpc }
  have running : (State.softResetRestart { s with mpc := mpc }).status = .running := by
    rw [restart]
    exact hr
  refine ⟨mpc, ?_⟩
  rw [State.softReset, Ctx.softReset, Ctx.softResetWith, loop,
    Ctx.andThen_running (c := { s := { s with mpc := mpc }, w := Wires.idle s.cur }) hr, Ctx.andThen_running running]

/-- Settles O49: the MPCs are those of every soft reset (`Ctx.softReset_mpc`), the rest that of the restart and the four
adjustments. -/
theorem softResetValues : Obligations.SoftResetValues := by
  rintro s _ hr valid hooks rfl
  obtain ⟨mpc, e⟩ := State.softReset_of_no_hooks hooks hr
  obtain ⟨bank, restart, banks⟩ := State.softResetRestart_eq { s with mpc := mpc }
  rw [restart] at e
  obtain ⟨wakeup, adjust, awake⟩ := State.softResetAdjust_of_no_hooks
    (s := { s with mpc := mpc, bank := bank, rmr := 0xFFFF, cur := s.cfg.emulatorSlot.getD s.cur }) hooks hr
  rw [adjust] at e
  have running : s.softReset.status = .running := by
    rw [e]
    exact hr
  obtain ⟨mpcs, _⟩ := Ctx.softReset_mpc { s := s, w := Wires.idle s.cur } running
  obtain ⟨emulator, bound⟩ := Config.exists_emulatorSlot valid
  refine ⟨fun u => ?_, fun u => ?_, ?_, fun u => ?_, Config.slotOf_eq_some_iff s.cfg, ?_⟩
  · obtain ⟨present, absent⟩ := mpcs u
    split
    · exact present ‹_›
    · exact absent (Bool.eq_false_of_not_eq_true ‹_›)
  · rw [e]
    exact banks u
  · rw [e]
    simp only [bound, Option.getD_some, Config.isEmulator_of_emulatorSlot bound]
  · rw [e]
    exact awake u
  · rw [e]

end Sys2Proof.Machine
end
